-- ==== Sys2Proof/Word.lean ====
section
/-! DEFINITION. The word types of the huffman_archiver CORE (spec/00_scope.md R9, R11). Every value is unsigned. -/

namespace Sys2Proof

/-- A byte of IBUF, OBUF or of the command word's DATA field; a symbol is a byte (SYMBOL_W = 8). -/
abbrev Byte := BitVec 8

/-- A host word: every host access is 32 bits wide (20_memory.md R83). -/
abbrev Word := BitVec 32

/-- A COUNT_W or FREQ_W quantity: 64 bits, `+` is addition modulo 2^64 (00_scope.md R9, R13). -/
abbrev DWord := BitVec 64

/-- An index into the node arena: 9 bits, 0 to 511 (10_state.md R56). -/
abbrev NodeIdx := BitVec 9

end Sys2Proof
end

