-- ==== Sys2Proof/Syntax.lean ====
section
/-! DEFINITION. The 22 commands of the core (spec/30_encoding.md R122), the spec's analogue of instructions.
One constructor per row of spec/opcode_table.json. The only operands are the command word's BIT and DATA fields
(30_encoding.md R121), typed at their widths. -/

namespace Sys2Proof

/-- A command of the core. An illegal OP is no command: `decode` rejects it by name (30_encoding.md R123). -/
inductive Instr where
  | bwInit
  | bwAddBit (bit : Bool)
  | bwWriteChar (data : Byte)
  | bwPad
  | bwResetCounts
  | brInit
  | brGetBit
  | brReadChar
  | brAlign
  | brResetCounts
  | tbCount
  | tbBuild
  | tbAdopt
  | ctGen
  | encWriteHeader
  | encSerializeTree
  | encEncodeSymbol (data : Byte)
  | encCompress
  | decReadHeader
  | decDeserializeTree
  | decDecodeSymbol
  | decDecompress
deriving DecidableEq, Repr

end Sys2Proof
end

