-- ==== Sys2Proof/Config.lean ====
section
/-! DEFINITION. What an instance of the core fixes (its parameters, spec/00_scope.md R9) and the free values
that the spec leaves open. A free value is an opaque constant: no proof can see what it is. -/

namespace Sys2Proof

/-- HEADER_ORDER (00_scope.md R9, 20_memory.md R90): the byte order of the 8-byte archive header. -/
inductive HeaderOrder where
  | le
  | be
deriving DecidableEq, Repr

/-- The parameters of one instance (00_scope.md R9). They are read-only registers of the machine (10_state.md R53,
R54), so State holds them and no step changes them. -/
structure Params where
  /-- IBUF_SIZE, bytes of input memory. -/
  ibufSize : Word
  /-- OBUF_SIZE, bytes of output memory. -/
  obufSize : Word
  headerOrder : HeaderOrder
deriving DecidableEq, Repr

/-- The instance that `State.reset` takes: the sizes that spec/95_test_vectors.md uses unless a vector says otherwise
and the default HEADER_ORDER of 00_scope.md R9. DESIGN CHOICE (log 1), unsafe: statements quantify over the
parameters and do not rest on these values. -/
def Params.default : Params := ⟨65536, 65536, .le⟩

/-- NODE_CAP, the number of node slots in the arena (00_scope.md R9). -/
def Config.nodeCap : Nat := 512

/-- CODE_MAXLEN, the longest code in bits (00_scope.md R9). -/
def Config.codeMaxLen : Nat := 255

/-- FREE VALUE (log 5): the command latency (00_scope.md R9), for the n-th accepted command the number of steps that
pass before its completion step. Any finite delay is possible. -/
opaque Config.latency : Nat → Nat

/-- FREE VALUE (log 4): what the n-th unspecified host read returns while a command runs (20_memory.md R87). -/
opaque Config.busyRead : Nat → Word

/-- FREE VALUE (log 3): the byte that IBUF holds at an offset after the e-th reset (70_reset_and_hazards.md R360). -/
opaque Config.powerOnIbuf : Nat → Nat → Byte

/-- FREE VALUE (log 3): the byte that OBUF holds at an offset after the e-th reset (70_reset_and_hazards.md R360). -/
opaque Config.powerOnObuf : Nat → Nat → Byte

/-- FREE VALUE (log 3): the word W0 (SYM, LP, RP, LEFT, RIGHT) of a NODE slot after the e-th reset
(70_reset_and_hazards.md R360). -/
opaque Config.powerOnNodeW0 : Nat → Nat → Word

/-- FREE VALUE (log 3): the FREQ field of a NODE slot after the e-th reset (70_reset_and_hazards.md R360). -/
opaque Config.powerOnNodeFreq : Nat → Nat → DWord

end Sys2Proof
end

