-- ==== Sys2Proof/WellFormed.lean ====
section
/-! DEFINITION. Well-formedness checks: of a command, of the parameters of an instance, and of a host address. -/

namespace Sys2Proof

/-- A command is well-formed when its operands fit their fields (30_encoding.md R121, R125). BIT is a `Bool` and DATA
a `Byte`, so the types already say so and every term passes; each constructor is named so that a new one cannot slip
past this check. -/
def Instr.wf : Instr → Bool
  | .bwInit | .bwPad | .bwResetCounts => true
  | .bwAddBit _ | .bwWriteChar _ | .encEncodeSymbol _ => true
  | .brInit | .brGetBit | .brReadChar | .brAlign | .brResetCounts => true
  | .tbCount | .tbBuild | .tbAdopt | .ctGen => true
  | .encWriteHeader | .encSerializeTree | .encCompress => true
  | .decReadHeader | .decDeserializeTree | .decDecodeSymbol | .decDecompress => true

/-- A legal size of IBUF or OBUF: "a multiple of 4, with 4 <= IBUF_SIZE <= 2^24" (00_scope.md R9). -/
def sizeWf (n : Word) : Bool :=
  n.toNat % 4 == 0 && decide (4 ≤ n.toNat) && decide (n.toNat ≤ 2 ^ 24)

/-- The parameters are legal (00_scope.md R9). -/
def Params.wf (p : Params) : Bool :=
  sizeWf p.ibufSize && sizeWf p.obufSize

/-- A host address is aligned: "Every host access is a 32-bit access at a 4-aligned address" (20_memory.md R83). -/
def alignedAddr (a : Word) : Bool :=
  a.toNat % 4 == 0

end Sys2Proof
end

