-- ==== Sys2Proof/Decode.lean ====
section
/-! DEFINITION. Command words (spec/30_encoding.md R120 to R126): the fields, the decoder, the encoder, and the opcode
map as a table. The decoder is total on every 32-bit word and rejects an illegal OP by name. -/

namespace Sys2Proof

/-- OP = CMD[7:0] (30_encoding.md R121). -/
def opField (w : Word) : Byte := w.extractLsb' 0 8

/-- BIT = CMD[8] (30_encoding.md R121). -/
def bitField (w : Word) : Bool := w.getLsbD 8

/-- DATA = CMD[23:16] (30_encoding.md R121). -/
def dataField (w : Word) : Byte := w.extractLsb' 16 8

/-- Why a word is no command. There is one reason: its OP is not in the opcode map (30_encoding.md R123). -/
inductive DecodeError where
  | illegalOp (op : Byte)
deriving DecidableEq, Repr

/-- The command that a word selects (30_encoding.md R122). Bits 15:9 and 31:24 are never looked at, BIT and DATA only
where the command uses them (R124). -/
def decode (w : Word) : Except DecodeError Instr :=
  match (opField w).toNat with
  | 0x01 => .ok .bwInit
  | 0x02 => .ok (.bwAddBit (bitField w))
  | 0x03 => .ok (.bwWriteChar (dataField w))
  | 0x04 => .ok .bwPad
  | 0x05 => .ok .bwResetCounts
  | 0x11 => .ok .brInit
  | 0x12 => .ok .brGetBit
  | 0x13 => .ok .brReadChar
  | 0x14 => .ok .brAlign
  | 0x15 => .ok .brResetCounts
  | 0x21 => .ok .tbCount
  | 0x22 => .ok .tbBuild
  | 0x23 => .ok .tbAdopt
  | 0x31 => .ok .ctGen
  | 0x41 => .ok .encWriteHeader
  | 0x42 => .ok .encSerializeTree
  | 0x43 => .ok (.encEncodeSymbol (dataField w))
  | 0x44 => .ok .encCompress
  | 0x51 => .ok .decReadHeader
  | 0x52 => .ok .decDeserializeTree
  | 0x53 => .ok .decDecodeSymbol
  | 0x54 => .ok .decDecompress
  | _ => .error (.illegalOp (opField w))

/-- The OP of a command (30_encoding.md R122). -/
def Instr.op : Instr → Byte
  | .bwInit => 0x01
  | .bwAddBit _ => 0x02
  | .bwWriteChar _ => 0x03
  | .bwPad => 0x04
  | .bwResetCounts => 0x05
  | .brInit => 0x11
  | .brGetBit => 0x12
  | .brReadChar => 0x13
  | .brAlign => 0x14
  | .brResetCounts => 0x15
  | .tbCount => 0x21
  | .tbBuild => 0x22
  | .tbAdopt => 0x23
  | .ctGen => 0x31
  | .encWriteHeader => 0x41
  | .encSerializeTree => 0x42
  | .encEncodeSymbol _ => 0x43
  | .encCompress => 0x44
  | .decReadHeader => 0x51
  | .decDeserializeTree => 0x52
  | .decDecodeSymbol => 0x53
  | .decDecompress => 0x54

/-- `OP(m) | (b << 8) | (v << 16)` (30_encoding.md R126). -/
def commandWord (op : Byte) (bit : Bool) (data : Byte) : Word :=
  op.zeroExtend 32 ||| ((BitVec.ofBool bit).zeroExtend 32 <<< 8) ||| (data.zeroExtend 32 <<< 16)

/-- The BIT operand of a command, 0 where it has none (30_encoding.md R125). -/
def Instr.bitOperand : Instr → Bool
  | .bwAddBit b => b
  | .bwInit | .bwWriteChar _ | .bwPad | .bwResetCounts => false
  | .brInit | .brGetBit | .brReadChar | .brAlign | .brResetCounts => false
  | .tbCount | .tbBuild | .tbAdopt | .ctGen => false
  | .encWriteHeader | .encSerializeTree | .encEncodeSymbol _ | .encCompress => false
  | .decReadHeader | .decDeserializeTree | .decDecodeSymbol | .decDecompress => false

/-- The DATA operand of a command, 0 where it has none (30_encoding.md R125). -/
def Instr.dataOperand : Instr → Byte
  | .bwWriteChar v => v
  | .encEncodeSymbol v => v
  | .bwInit | .bwAddBit _ | .bwPad | .bwResetCounts => 0
  | .brInit | .brGetBit | .brReadChar | .brAlign | .brResetCounts => 0
  | .tbCount | .tbBuild | .tbAdopt | .ctGen => 0
  | .encWriteHeader | .encSerializeTree | .encCompress => 0
  | .decReadHeader | .decDeserializeTree | .decDecodeSymbol | .decDecompress => 0

/-- The command word of a command (30_encoding.md R126). -/
def encode (i : Instr) : Word := commandWord i.op i.bitOperand i.dataOperand

/-- The bits of a word that the command it selects looks at: OP, and BIT or DATA where it has one (30_encoding.md
R121, R124). -/
def Instr.usedBits : Instr → Word
  | .bwAddBit _ => 0x000001FF
  | .bwWriteChar _ | .encEncodeSymbol _ => 0x00FF00FF
  | .bwInit | .bwPad | .bwResetCounts => 0x000000FF
  | .brInit | .brGetBit | .brReadChar | .brAlign | .brResetCounts => 0x000000FF
  | .tbCount | .tbBuild | .tbAdopt | .ctGen => 0x000000FF
  | .encWriteHeader | .encSerializeTree | .encCompress => 0x000000FF
  | .decReadHeader | .decDeserializeTree | .decDecodeSymbol | .decDecompress => 0x000000FF

/-- One row of the opcode map: a word selects it when its bits under `mask` equal `pattern`. -/
structure OpcodeRow where
  mnemonic : String
  mask : Word
  pattern : Word
deriving DecidableEq, Repr

/-- The rows of block bit_writer and bit_reader (30_encoding.md R122, "Mask 0x000000FF, match = OP"). -/
def streamRows : List OpcodeRow :=
  [⟨"BW_INIT", 0xFF, 0x01⟩, ⟨"BW_ADD_BIT", 0xFF, 0x02⟩, ⟨"BW_WRITE_CHAR", 0xFF, 0x03⟩, ⟨"BW_PAD", 0xFF, 0x04⟩,
   ⟨"BW_RESET_COUNTS", 0xFF, 0x05⟩, ⟨"BR_INIT", 0xFF, 0x11⟩, ⟨"BR_GET_BIT", 0xFF, 0x12⟩, ⟨"BR_READ_CHAR", 0xFF, 0x13⟩,
   ⟨"BR_ALIGN", 0xFF, 0x14⟩, ⟨"BR_RESET_COUNTS", 0xFF, 0x15⟩]

/-- The rows of the other four blocks (30_encoding.md R122). -/
def codecRows : List OpcodeRow :=
  [⟨"TB_COUNT", 0xFF, 0x21⟩, ⟨"TB_BUILD", 0xFF, 0x22⟩, ⟨"TB_ADOPT", 0xFF, 0x23⟩, ⟨"CT_GEN", 0xFF, 0x31⟩,
   ⟨"ENC_WRITE_HEADER", 0xFF, 0x41⟩, ⟨"ENC_SERIALIZE_TREE", 0xFF, 0x42⟩, ⟨"ENC_ENCODE_SYMBOL", 0xFF, 0x43⟩,
   ⟨"ENC_COMPRESS", 0xFF, 0x44⟩, ⟨"DEC_READ_HEADER", 0xFF, 0x51⟩, ⟨"DEC_DESERIALIZE_TREE", 0xFF, 0x52⟩,
   ⟨"DEC_DECODE_SYMBOL", 0xFF, 0x53⟩, ⟨"DEC_DECOMPRESS", 0xFF, 0x54⟩]

/-- The opcode map as a table (30_encoding.md R122). -/
def opcodeRows : List OpcodeRow := streamRows ++ codecRows

/-- A row's test on a word. -/
def OpcodeRow.selects (r : OpcodeRow) (w : Word) : Bool := w &&& r.mask == r.pattern

/-- The instruction the decoder reads from the low `nbits` bits of `w`, the bits above them 0. A command is one 32-bit
word written to CMD (30_encoding.md R120), so the bits are the word's bits. -/
def decodeTableWord (nbits w : Nat) : Option Instr :=
  match decode (BitVec.ofNat 32 (w % 2 ^ nbits)) with
  | .ok i => some i
  | .error _ => none

end Sys2Proof
end

