-- ==== Sys2Proof/Machine/State.lean ====
section
/-! DEFINITION. The state of the machine as plain data (spec/10_state.md, 20_memory.md), the reasons a step can stop,
and the state after reset (70_reset_and_hazards.md R360). -/

namespace Sys2Proof.Machine

/-- PHASE (10_state.md R60): RUNNING exactly when STATUS.BUSY = 1. -/
inductive Phase where
  | idle
  | running
deriving DecidableEq, Repr

/-- The errors that a command can raise: the rows of 60_exceptions.md R330 but for NONE. -/
inductive ErrCode where
  | resSrcRange
  | resOutOverflow
  | allocNodes
  | fmtAbsentChild
  | fmtTruncated
  | fmtEmptyTree
  | argIllegalCmd
  | argNoTree
  | argNoCode
  | argBadTree
  | argDupSymbol
  | argCodeTooLong
  | argFreqOverflow
deriving DecidableEq, Repr

/-- The bit_writer's registers (10_state.md R46 to R48). -/
structure BitWriter where
  /-- BW_CUR, the current byte. -/
  cur : Byte
  /-- BW_POS, the number of bits already placed in BW_CUR. -/
  pos : BitVec 3
  /-- BW_WRPTR, the OBUF address of the next flushed byte. -/
  wrptr : DWord
  /-- BW_BITS. -/
  bits : DWord
  /-- BW_BYTES. -/
  bytes : DWord
deriving DecidableEq, Repr

/-- The bit_reader's registers (10_state.md R49 to R51). -/
structure BitReader where
  /-- BR_CUR, the byte last pulled. -/
  cur : Byte
  /-- BR_CURSOR, the index of the next bit of BR_CUR to return, counted from the most significant bit. -/
  cursor : BitVec 3
  /-- BR_RDPTR, the IBUF address of the next byte to pull. -/
  rdptr : DWord
  /-- BR_BITS. -/
  bits : DWord
  /-- BR_BYTES. -/
  bytes : DWord
deriving DecidableEq, Repr

/-- A slot of the node arena (10_state.md R56). -/
structure Node where
  sym : Byte
  lp : Bool
  rp : Bool
  left : NodeIdx
  right : NodeIdx
  freq : DWord
deriving DecidableEq, Repr

/-- What the host or the platform does next (20_memory.md R83, 70_reset_and_hazards.md R361; log 6, log 15). -/
inductive HostAction where
  /-- The host makes no access; time passes. -/
  | wait
  /-- A host read of the word at an address. -/
  | read (addr : Word)
  /-- A host write of a word at an address. -/
  | write (addr data : Word)
  /-- The platform asserts the reset input. -/
  | reset
deriving DecidableEq, Repr

/-- The response of a host access (20_memory.md R83, R84; log 14): bus error or OKAY, and what a read returns. -/
inductive BusResponse where
  | readData (busError : Bool) (data : Word)
  | writeAck (busError : Bool)
deriving DecidableEq, Repr

/-- Sparse storage: (key, value) pairs with strictly rising keys. A key that is not listed has not been written since
reset; what it then reads as is said by the reading operation (log 3). -/
abbrev Cells (α : Type) := List (Nat × α)

/-- A byte memory, addressed by offset from its base (20_memory.md R80). -/
abbrev Memory := List Host.Cell

/-- Everything the spec gives the machine. INVENTORY.md lists each field with its rule and reset value. -/
structure State where
  /-- CONFIG, IBUF_SIZE and OBUF_SIZE: read-only, "never change" (10_state.md R53, R54). -/
  params : Params
  /-- PHASE; STATUS.BUSY is its view `State.busy` (10_state.md R60). -/
  phase : Phase
  /-- STATUS.DONE. -/
  done : Bool
  /-- STATUS.ERR. -/
  err : Bool
  /-- STATUS.TREE_VALID. -/
  treeValid : Bool
  /-- STATUS.CODES_VALID. -/
  codesValid : Bool
  /-- STATUS.CMD_OVR. -/
  cmdOvr : Bool
  /-- STATUS.ERR_CODE. -/
  errCode : Byte
  /-- STATUS.LAST_OP. -/
  lastOp : Byte
  /-- CMD_LATCH, the accepted command word. -/
  cmdLatch : Word
  /-- RESULT.VALUE. -/
  result : Byte
  /-- SRC_LEN. -/
  srcLen : DWord
  /-- ORIG, originalByteCount or symbolCount. -/
  orig : DWord
  /-- PAYLOAD, compressedPayloadByteCount. -/
  payload : DWord
  /-- META, headerAndTreeByteCount. -/
  metaSize : DWord
  /-- BW_CUR, BW_POS, BW_WRPTR, BW_BITS, BW_BYTES. -/
  bw : BitWriter
  /-- BR_CUR, BR_CURSOR, BR_RDPTR, BR_BITS, BR_BYTES. -/
  br : BitReader
  /-- TREE.ROOT. -/
  root : NodeIdx
  /-- TREE.NODE_COUNT. -/
  nodeCount : BitVec 10
  /-- FREQ, the FrequencyTable (10_state.md R55). -/
  freq : Vector DWord 256
  /-- NODE, the node arena, by slot index (10_state.md R56). -/
  nodes : Cells Node
  /-- CODE_LEN (10_state.md R57). -/
  codeLen : Vector Byte 256
  /-- CODE_BITS (10_state.md R57): bit i is the i-th edge of the path, 0 left and 1 right. -/
  codeBits : Vector (BitVec 255) 256
  /-- IBUF, by byte offset (20_memory.md R80). -/
  ibuf : Memory
  /-- OBUF, by byte offset (20_memory.md R80). -/
  obuf : Memory
  /-- The response of the last host access; none before the first one (log 14). -/
  busResp : Option BusResponse
  /-- The MODEL's own: the actions of the host and the platform still to come, oldest first (log 6). -/
  hostQueue : List HostAction
  /-- The MODEL's own: steps left until the running command completes (log 5). -/
  delay : Nat
  /-- The MODEL's own: how many commands have been accepted, the argument of `Config.latency` (log 5). -/
  accepted : Nat
  /-- The MODEL's own: how many unspecified reads were made, the argument of `Config.busyRead` (log 4). -/
  draws : Nat
  /-- The MODEL's own: how many platform resets there were, an argument of the power-on contents (log 3). -/
  epoch : Nat
deriving DecidableEq, Repr

/-- Why a step stops with a fault. -/
inductive Fault where
  /-- Raised by CT_GEN alone, when TREE_VALID = 1 over an arena that has a cycle: the walk of 43_code_table_gen.md
  R240 then never ends, which the spec excludes by 10_state.md R39. SAFE: the machine stops (log 11). -/
  | codeWalkDiverges
deriving DecidableEq, Repr

/-- Why a step refuses an instruction. -/
inductive Refusal where
  /-- An instruction that has no meaning in the model; raised only by an arm of `exec`. No arm raises it. SAFE. -/
  | notModelled (mnemonic : String)
deriving DecidableEq, Repr

/-- The writer's registers after reset and after BW_INIT (40_bit_writer.md R153). -/
def BitWriter.zero : BitWriter := ⟨0, 0, 0, 0, 0⟩

/-- The reader's registers after reset and after BR_INIT (41_bit_reader.md R184). -/
def BitReader.zero : BitReader := ⟨0, 0, 0, 0, 0⟩

/-- The state of an instance with parameters `p` when its reset number `epoch` completes (70_reset_and_hazards.md
R360), the host having nothing to do. CMD_LATCH is unspecified there: 0 is a DESIGN CHOICE (log 2). The three memories
list nothing: what they hold is free (log 3). -/
def State.resetAs (p : Params) (epoch : Nat) : State where
  params := p
  phase := .idle
  done := false
  err := false
  treeValid := false
  codesValid := false
  cmdOvr := false
  errCode := 0
  lastOp := 0
  cmdLatch := 0
  result := 0
  srcLen := 0
  orig := 0
  payload := 0
  metaSize := 0
  bw := .zero
  br := .zero
  root := 0
  nodeCount := 0
  freq := Vector.replicate 256 0
  nodes := []
  codeLen := Vector.replicate 256 0
  codeBits := Vector.replicate 256 0
  ibuf := []
  obuf := []
  busResp := none
  hostQueue := []
  delay := 0
  accepted := 0
  draws := 0
  epoch := epoch

/-- The machine right after reset (70_reset_and_hazards.md R360), for the default instance (log 1). -/
def State.reset : State := State.resetAs Params.default 0

end Sys2Proof.Machine
end

