-- ==== Sys2Proof/Machine/Operands.lean ====
section
/-! DEFINITION. Operand and field forms: halves and bits of words, the bits of a byte in stream order, the header's
bytes, and the layouts of the windows' words (spec/20_memory.md R81, R85, R88 to R90; 10_state.md R52). -/

namespace Sys2Proof.Machine

/-- Bits 31:0 of a 64-bit quantity, its LO register (10_state.md R32). -/
def loWord (v : DWord) : Word := v.extractLsb' 0 32

/-- Bits 63:32 of a 64-bit quantity, its HI register (10_state.md R32). -/
def hiWord (v : DWord) : Word := v.extractLsb' 32 32

/-- `v` with its bits 31:0 replaced (20_memory.md R85, "a write replaces that half only"). -/
def setLo (v : DWord) (w : Word) : DWord := hiWord v ++ w

/-- `v` with its bits 63:32 replaced (20_memory.md R85). -/
def setHi (v : DWord) (w : Word) : DWord := w ++ loWord v

/-- Byte `k` of a word in the little-endian lane order (20_memory.md R81): bits 8k+7 to 8k. -/
def laneByte (w : Word) (k : Nat) : Byte := w.extractLsb' (8 * k) 8

/-- The word whose lanes 0 to 3 hold four bytes (20_memory.md R81). -/
def laneWord (b0 b1 b2 b3 : Byte) : Word := b3 ++ b2 ++ b1 ++ b0

/-- The bits of a byte in stream order, bit 7 first (20_memory.md R88, R89). -/
def byteBits (v : Byte) : List Bool :=
  [v.getLsbD 7, v.getLsbD 6, v.getLsbD 5, v.getLsbD 4, v.getLsbD 3, v.getLsbD 2, v.getLsbD 1, v.getLsbD 0]

/-- Byte `k` of a 64-bit value, byte 0 the least significant. -/
def dwordByte (v : DWord) (k : Nat) : Byte := v.extractLsb' (8 * k) 8

/-- The eight header bytes in archive order (20_memory.md R90, 44_huffman_encoder.md R260). -/
def headerBytes : HeaderOrder → DWord → List Byte
  | .le, v => [dwordByte v 0, dwordByte v 1, dwordByte v 2, dwordByte v 3,
      dwordByte v 4, dwordByte v 5, dwordByte v 6, dwordByte v 7]
  | .be, v => [dwordByte v 7, dwordByte v 6, dwordByte v 5, dwordByte v 4,
      dwordByte v 3, dwordByte v 2, dwordByte v 1, dwordByte v 0]

/-- Where byte `j` of the header goes in the 64-bit value: its lowest bit (45_huffman_decoder.md R290). -/
def headerShift : HeaderOrder → Nat → Nat
  | .le, j => 8 * j
  | .be, j => 56 - 8 * j

/-- The header byte number `j` laid into a 64-bit value (45_huffman_decoder.md R290). -/
def putHeaderByte (order : HeaderOrder) (v : DWord) (j : Nat) (b : Byte) : DWord :=
  v ||| (b.zeroExtend 64 <<< headerShift order j)

/-- W0 of a NODE slot: SYM 7:0, LP 8, RP 9, LEFT 18:10, RIGHT 27:19, bits 31:28 read 0 (20_memory.md R85). -/
def Node.word0 (n : Node) : Word :=
  n.sym.zeroExtend 32 ||| ((BitVec.ofBool n.lp).zeroExtend 32 <<< 8) ||| ((BitVec.ofBool n.rp).zeroExtend 32 <<< 9)
    ||| (n.left.zeroExtend 32 <<< 10) ||| (n.right.zeroExtend 32 <<< 19)

/-- The slot whose W0 is `w` (bits 31:28 ignored) and whose FREQ is `f` (20_memory.md R85). -/
def Node.ofWord0 (w : Word) (f : DWord) : Node where
  sym := w.extractLsb' 0 8
  lp := w.getLsbD 8
  rp := w.getLsbD 9
  left := w.extractLsb' 10 9
  right := w.extractLsb' 19 9
  freq := f

/-- A node with no children (42_tree_builder.md R213, R220; 45_huffman_decoder.md R292): LEFT and RIGHT 0. -/
def Node.childless (sym : Byte) (freq : DWord) : Node := ⟨sym, false, false, 0, 0, freq⟩

/-- LP = RP = 0, the spec's "childless" (00_scope.md glossary). -/
def Node.isChildless (n : Node) : Bool := !n.lp && !n.rp

/-- The TREE register: ROOT in bits 8:0, NODE_COUNT in bits 25:16 (10_state.md R52). -/
def treeWord (root : NodeIdx) (count : BitVec 10) : Word :=
  root.zeroExtend 32 ||| (count.zeroExtend 32 <<< 16)

/-- TREE.ROOT of a written word (10_state.md R52). -/
def treeRootField (w : Word) : NodeIdx := w.extractLsb' 0 9

/-- TREE.NODE_COUNT of a written word (10_state.md R52). -/
def treeCountField (w : Word) : BitVec 10 := w.extractLsb' 16 10

/-- Word `w` of CODE_BITS[s], bit 31 of word 7 reading 0 (20_memory.md R85). -/
def codeBitsWord (bits : BitVec 255) (w : Nat) : Word := (bits.zeroExtend 256).extractLsb' (32 * w) 32

/-- A path as CODE_BITS holds it: bit i is the path's i-th edge, 0 beyond its end (10_state.md R57). -/
def pathBits : List Bool → BitVec 255
  | [] => 0
  | b :: p => (pathBits p <<< 1) ||| (BitVec.ofBool b).zeroExtend 255

/-- The code that CODE_LEN and CODE_BITS describe, c_0 first (10_state.md R57, 44_huffman_encoder.md R262). -/
def codeOf (len : Byte) (bits : BitVec 255) : List Bool := (List.range len.toNat).map bits.getLsbD

end Sys2Proof.Machine
end

