-- ==== Sys2Proof/Machine/Flags.lean ====
section
/-! DEFINITION. STATUS, the core's only flag state (spec/10_state.md R34 to R38): its word, the numeric error codes,
and how the validity flags fall. -/

namespace Sys2Proof.Machine

/-- code(E) (60_exceptions.md R330). -/
def ErrCode.code : ErrCode → Byte
  | .resSrcRange => 0x11
  | .resOutOverflow => 0x12
  | .allocNodes => 0x21
  | .fmtAbsentChild => 0x31
  | .fmtTruncated => 0x32
  | .fmtEmptyTree => 0x33
  | .argIllegalCmd => 0x41
  | .argNoTree => 0x42
  | .argNoCode => 0x43
  | .argBadTree => 0x44
  | .argDupSymbol => 0x45
  | .argCodeTooLong => 0x46
  | .argFreqOverflow => 0x47

/-- STATUS.BUSY: "PHASE = RUNNING exactly when STATUS.BUSY = 1" (10_state.md R60). -/
def State.busy (s : State) : Bool := s.phase == .running

/-- One flag at its place in STATUS. -/
def flagAt (b : Bool) (i : Nat) : Word := (BitVec.ofBool b).zeroExtend 32 <<< i

/-- The STATUS word (10_state.md R34): BUSY 0, DONE 1, ERR 2, TREE_VALID 3, CODES_VALID 4, CMD_OVR 5, ERR_CODE 15:8,
LAST_OP 23:16. -/
def State.statusWord (s : State) : Word :=
  flagAt s.busy 0 ||| flagAt s.done 1 ||| flagAt s.err 2 ||| flagAt s.treeValid 3 ||| flagAt s.codesValid 4
    ||| flagAt s.cmdOvr 5 ||| (s.errCode.zeroExtend 32 <<< 8) ||| (s.lastOp.zeroExtend 32 <<< 16)

/-- TREE_VALID <- 0; CODES_VALID <- 0 (10_state.md R37, R38; 20_memory.md R86). -/
def State.invalidateTree (s : State) : State := { s with treeValid := false, codesValid := false }

/-- "Release the arena" (10_state.md R58): the slots keep their contents. -/
def State.releaseArena (s : State) : State :=
  { s with nodeCount := 0, root := 0, treeValid := false, codesValid := false }

/-- Acceptance of a command word (60_exceptions.md R320). The latency of this command, a free value, starts to run
(log 5). -/
def State.accept (s : State) (w : Word) : State :=
  { s with
    cmdLatch := w
    done := false
    err := false
    errCode := 0
    cmdOvr := false
    lastOp := opField w
    phase := .running
    delay := Config.latency s.accepted
    accepted := s.accepted + 1 }

/-- Refusal of a CMD write while BUSY = 1 (60_exceptions.md R321): the word is discarded. -/
def State.refuseCommand (s : State) : State := { s with cmdOvr := true }

/-- Successful completion (60_exceptions.md R322). -/
def State.completeOk (s : State) : State := { s with done := true, phase := .idle }

/-- Failing completion with error `e` (60_exceptions.md R323), the core's only "trap" (R348). -/
def State.completeErr (s : State) (e : ErrCode) : State :=
  { s with err := true, errCode := e.code, phase := .idle }

end Sys2Proof.Machine
end

