-- ==== Sys2Proof/Machine/Ops.lean ====
section
/-! DEFINITION. The named operations over memory and registers, and the shape of a command's run: statements in order,
`raise` (spec/60_exceptions.md R326), and the one completion step that ends a command (R322, R323). -/

namespace Sys2Proof.Machine

/-! ### Sparse storage -/

/-- What is stored under a key; none where nothing was written since reset. -/
def Cells.get? {α : Type} : Cells α → Nat → Option α
  | [], _ => none
  | (k, v) :: m, a => if k = a then some v else Cells.get? m a

/-- Store a value under a key, keeping the keys strictly rising. -/
def Cells.set {α : Type} : Cells α → Nat → α → Cells α
  | [], a, x => [(a, x)]
  | (k, v) :: m, a, x =>
    if a < k then (a, x) :: (k, v) :: m
    else if a = k then (a, x) :: m
    else (k, v) :: Cells.set m a x

/-- The canonical form: strictly rising keys, all below `size`. An unlisted key stands for "not written since reset",
which no listed entry equals, so equal contents are equal lists. -/
abbrev Cells.wf {α : Type} (m : Cells α) (size : Nat) : Prop :=
  m.Pairwise (fun x y => x.1 < y.1) ∧ ∀ x ∈ m, x.1 < size

/-- The canonical form of a byte memory of `size` bytes. -/
abbrev Memory.wf (m : Memory) (size : Nat) : Prop := Cells.wf m size

/-! ### Memories: one home for every read and write -/

/-- IBUF_SIZE as a number. -/
def State.ibufSize (s : State) : Nat := s.params.ibufSize.toNat

/-- OBUF_SIZE as a number. -/
def State.obufSize (s : State) : Nat := s.params.obufSize.toNat

/-- MemRead(IBUF, a, 1) (00_scope.md R13). A byte not written since reset is a free value (70_reset_and_hazards.md
R360; log 3). -/
def State.ibufByte (s : State) (a : Nat) : Byte := (Cells.get? s.ibuf a).getD (Config.powerOnIbuf s.epoch a)

/-- The byte of OBUF at an offset, with the same rule for one not written since reset. -/
def State.obufByte (s : State) (a : Nat) : Byte := (Cells.get? s.obuf a).getD (Config.powerOnObuf s.epoch a)

/-- A host byte write to IBUF. -/
def State.setIbuf (s : State) (a : Nat) (v : Byte) : State := { s with ibuf := Cells.set s.ibuf a v }

/-- MemWrite(OBUF, a, 1, v) (00_scope.md R13), and a host byte write to OBUF. -/
def State.setObuf (s : State) (a : Nat) (v : Byte) : State := { s with obuf := Cells.set s.obuf a v }

/-- What a NODE slot holds while nothing was written to it since reset: any value (10_state.md R56; log 3). -/
def powerOnNode (epoch i : Nat) : Node :=
  Node.ofWord0 (Config.powerOnNodeW0 epoch i) (Config.powerOnNodeFreq epoch i)

/-- NODE[i] (10_state.md R56). -/
def State.node (s : State) (i : NodeIdx) : Node :=
  (Cells.get? s.nodes i.toNat).getD (powerOnNode s.epoch i.toNat)

/-- NODE[i] <- n (10_state.md R56). -/
def State.setNode (s : State) (i : NodeIdx) (n : Node) : State := { s with nodes := Cells.set s.nodes i.toNat n }

/-- FREQ[s] (10_state.md R55). -/
def freqOf (t : Vector DWord 256) (sym : Byte) : DWord := t[sym.toNat]'sym.isLt

/-- FREQ[s] with entry `sym` replaced. -/
def setFreqOf (t : Vector DWord 256) (sym : Byte) (v : DWord) : Vector DWord 256 := t.set sym.toNat v sym.isLt

/-- CODE_LEN[s] (10_state.md R57). -/
def State.codeLenOf (s : State) (sym : Byte) : Byte := s.codeLen[sym.toNat]'sym.isLt

/-- CODE_BITS[s] (10_state.md R57). -/
def State.codeBitsOf (s : State) (sym : Byte) : BitVec 255 := s.codeBits[sym.toNat]'sym.isLt

/-! ### Statements in order -/

/-- Why a command's run stops early. -/
inductive Abort where
  /-- `raise E` (60_exceptions.md R326). -/
  | raised (e : ErrCode)
  /-- The pseudocode never ends; only outside 10_state.md R39 (log 11). -/
  | diverged
deriving DecidableEq, Repr

/-- A piece of a command's pseudocode. Statements run in the order written, and the effects of those that ran before a
`raise` remain (00_scope.md R14, 60_exceptions.md R327): the error result carries the state they left. -/
abbrev Proc (α : Type) := EStateM Abort State α

/-- `raise E` (60_exceptions.md R326). -/
def Proc.raise {α : Type} (e : ErrCode) : Proc α := fun s => .error (.raised e) s

/-- A run that never ends (log 11). -/
def Proc.diverge {α : Type} : Proc α := fun s => .error .diverged s

/-- Read from the state. -/
def Proc.look {α : Type} (f : State → α) : Proc α := fun s => .ok (f s) s

/-- Change the state. -/
def Proc.change (f : State → State) : Proc Unit := fun s => .ok () (f s)

/-- A tree procedure that fails releases the arena (42_tree_builder.md R218, 45_huffman_decoder.md R295). -/
def Proc.orRelease {α : Type} (p : Proc α) : Proc α := fun s =>
  match p s with
  | .ok a t => .ok a t
  | .error e t => .error e t.releaseArena

/-- CheckSrc() (41_bit_reader.md R183). -/
def checkSrc : Proc Unit := fun s =>
  if s.ibufSize < s.srcLen.toNat then Proc.raise .resSrcRange s else .ok () s

/-- The completion step of a command whose pseudocode is `p` (60_exceptions.md R322, R323): on success DONE, on
`raise E` the failing completion, which is this core's taking of an exception (R348), both with BUSY <- 0. -/
def complete (p : Proc Unit) (s : State) : Host.Outcome State Fault Refusal :=
  match p s with
  | .ok _ t => .next t.completeOk
  | .error (.raised e) t => .next (t.completeErr e)
  | .error .diverged _ => .fault .codeWalkDiverges

/-- The command that CMD_LATCH selects (60_exceptions.md R322). -/
def State.latched (s : State) : Except DecodeError Instr := decode s.cmdLatch

/-- The completion of a word whose OP is not in the opcode map: ARG_ILLEGAL_CMD (30_encoding.md R123,
60_exceptions.md R338). -/
def illegalCommand (s : State) : Host.Outcome State Fault Refusal := complete (Proc.raise .argIllegalCmd) s

end Sys2Proof.Machine
end

