-- ==== Sys2Proof/Machine/BitReader.lean ====
section
/-! DEFINITION. The bit_reader (spec/41_bit_reader.md): GetBit, ReadChar, Align and the block's five commands. -/

namespace Sys2Proof.Machine

/-- A fresh byte is needed and there is none before SRC_LEN: the condition under which GetBit raises
(41_bit_reader.md R180). -/
def State.sourceEnded (s : State) : Bool := s.br.cursor == 0 && decide (s.srcLen ≤ s.br.rdptr)

/-- The lazy pull of a fresh byte when the cursor is 0 (41_bit_reader.md R180). -/
def State.pulled (s : State) : State :=
  if s.br.cursor = 0 then
    { s with br := { s.br with
        cur := s.ibufByte s.br.rdptr.toNat, rdptr := s.br.rdptr + 1, bytes := s.br.bytes + 1 } }
  else s

/-- The bit at the cursor, high to low: BR_CUR[7 - BR_CURSOR] (41_bit_reader.md R180). -/
def BitReader.currentBit (r : BitReader) : Bool := r.cur.getLsbD (7 - r.cursor.toNat)

/-- The cursor moves on and the bit is counted (41_bit_reader.md R180). -/
def State.stepCursor (s : State) : State :=
  { s with br := { s.br with cursor := s.br.cursor + 1, bits := s.br.bits + 1 } }

/-- GetBit() (41_bit_reader.md R180). -/
def getBit : Proc Bool := fun s =>
  if s.sourceEnded then Proc.raise .fmtTruncated s
  else .ok s.pulled.br.currentBit s.pulled.stepCursor

/-- `n` turns of `v <- ((v << 1) | GetBit()) [7:0]` (41_bit_reader.md R181). -/
def readBits : Nat → Byte → Proc Byte
  | 0, v => pure v
  | n + 1, v => do
    let b ← getBit
    readBits n ((v <<< 1) ||| (BitVec.ofBool b).zeroExtend 8)

/-- ReadChar() (41_bit_reader.md R181). -/
def readChar : Proc Byte := readBits 8 0

/-- Align() (41_bit_reader.md R182). -/
def State.align (s : State) : State := { s with br := { s.br with cursor := 0 } }

/-- BR_CUR, BR_CURSOR, BR_RDPTR, BR_BITS, BR_BYTES <- 0 (41_bit_reader.md R184). -/
def State.initReader (s : State) : State := { s with br := .zero }

/-- BR_BITS <- 0; BR_BYTES <- 0 (41_bit_reader.md R185). -/
def State.resetReaderCounts (s : State) : State := { s with br := { s.br with bits := 0, bytes := 0 } }

/-- RESULT <- zext_32(v) (10_state.md R41). -/
def State.setResult (s : State) (v : Byte) : State := { s with result := v }

/-- BR_INIT (41_bit_reader.md R184). -/
def execBrInit (s : State) : Host.Outcome State Fault Refusal := complete (Proc.change State.initReader) s

/-- BR_GET_BIT (41_bit_reader.md R186). -/
def execBrGetBit (s : State) : Host.Outcome State Fault Refusal :=
  complete (do
    checkSrc
    let b ← getBit
    Proc.change (·.setResult ((BitVec.ofBool b).zeroExtend 8))) s

/-- BR_READ_CHAR (41_bit_reader.md R188). -/
def execBrReadChar (s : State) : Host.Outcome State Fault Refusal :=
  complete (do
    checkSrc
    let v ← readChar
    Proc.change (·.setResult v)) s

/-- BR_ALIGN (41_bit_reader.md R189). -/
def execBrAlign (s : State) : Host.Outcome State Fault Refusal := complete (Proc.change State.align) s

/-- BR_RESET_COUNTS (41_bit_reader.md R185). -/
def execBrResetCounts (s : State) : Host.Outcome State Fault Refusal :=
  complete (Proc.change State.resetReaderCounts) s

end Sys2Proof.Machine
end

