-- ==== Sys2Proof/Machine/BitWriter.lean ====
section
/-! DEFINITION. The bit_writer (spec/40_bit_writer.md): AddBit, WriteChar, Pad and the block's five commands. -/

namespace Sys2Proof.Machine

/-- A flush is due and the sink is full: the condition under which AddBit raises (40_bit_writer.md R150). -/
def State.flushBlocked (s : State) : Bool := s.bw.pos == 7 && decide (s.obufSize ≤ s.bw.wrptr.toNat)

/-- BW_CUR with bit `b` ORed in at position 7 - pos (40_bit_writer.md R150). -/
def BitWriter.curWith (w : BitWriter) (b : Bool) : Byte :=
  w.cur ||| ((BitVec.ofBool b).zeroExtend 8 <<< (7 - w.pos.toNat))

/-- The effects of AddBit(b) after its overflow check (40_bit_writer.md R150). -/
def State.placeBit (s : State) (b : Bool) : State :=
  if s.bw.pos = 7 then
    { s.setObuf s.bw.wrptr.toNat (s.bw.curWith b) with
      bw := ⟨0, 0, s.bw.wrptr + 1, s.bw.bits + 1, s.bw.bytes + 1⟩ }
  else
    { s with bw := ⟨s.bw.curWith b, s.bw.pos + 1, s.bw.wrptr, s.bw.bits + 1, s.bw.bytes⟩ }

/-- AddBit(b) (40_bit_writer.md R150). -/
def addBit (b : Bool) : Proc Unit := fun s =>
  if s.flushBlocked then Proc.raise .resOutOverflow s else .ok () (s.placeBit b)

/-- AddBit for each bit of a sequence, first bit first. -/
def addBits : List Bool → Proc Unit
  | [] => pure ()
  | b :: bs => do
    addBit b
    addBits bs

/-- WriteChar(v) (40_bit_writer.md R151): v[7] first, v[0] last. -/
def writeChar (v : Byte) : Proc Unit := addBits (byteBits v)

/-- At most `n` turns of Pad's loop: while BW_POS != 0, AddBit(1) (40_bit_writer.md R152). -/
def padLoop : Nat → Proc Unit
  | 0 => pure ()
  | n + 1 => do
    let pos ← Proc.look (·.bw.pos)
    if pos = 0 then pure () else do
      addBit true
      padLoop n

/-- Pad() (40_bit_writer.md R152). The loop takes at most 7 turns: each raises or brings BW_POS one closer to 8. -/
def pad : Proc Unit := padLoop 8

/-- BW_CUR, BW_POS, BW_WRPTR, BW_BITS, BW_BYTES <- 0 (40_bit_writer.md R153). -/
def State.initWriter (s : State) : State := { s with bw := .zero }

/-- BW_BITS <- 0; BW_BYTES <- 0 (40_bit_writer.md R157). -/
def State.resetWriterCounts (s : State) : State := { s with bw := { s.bw with bits := 0, bytes := 0 } }

/-- BW_INIT (40_bit_writer.md R153). -/
def execBwInit (s : State) : Host.Outcome State Fault Refusal := complete (Proc.change State.initWriter) s

/-- BW_ADD_BIT b (40_bit_writer.md R154). -/
def execBwAddBit (bit : Bool) (s : State) : Host.Outcome State Fault Refusal := complete (addBit bit) s

/-- BW_WRITE_CHAR v (40_bit_writer.md R155). -/
def execBwWriteChar (data : Byte) (s : State) : Host.Outcome State Fault Refusal := complete (writeChar data) s

/-- BW_PAD (40_bit_writer.md R156). -/
def execBwPad (s : State) : Host.Outcome State Fault Refusal := complete pad s

/-- BW_RESET_COUNTS (40_bit_writer.md R157). -/
def execBwResetCounts (s : State) : Host.Outcome State Fault Refusal :=
  complete (Proc.change State.resetWriterCounts) s

end Sys2Proof.Machine
end

