-- ==== Sys2Proof/Machine/CodeTableGen.lean ====
section
/-! DEFINITION. The code_table_gen (spec/43_code_table_gen.md): GenCodes, its Walk, and CT_GEN. -/

namespace Sys2Proof.Machine

/-- CODES_VALID <- 0 and every CODE entry <- 0 (43_code_table_gen.md R240). -/
def State.clearCodes (s : State) : State :=
  { s with codesValid := false, codeLen := Vector.replicate 256 0, codeBits := Vector.replicate 256 0 }

/-- The entry of one symbol (43_code_table_gen.md R240). -/
def State.setCode (s : State) (sym : Byte) (p : List Bool) : State :=
  { s with
    codeLen := s.codeLen.set sym.toNat (BitVec.ofNat 8 p.length) sym.isLt
    codeBits := s.codeBits.set sym.toNat (pathBits p) sym.isLt }

/-- Walk at a leaf with symbol `sym` and path `p` (43_code_table_gen.md R240): the length is checked before the
duplicate (60_exceptions.md R345). -/
def recordLeaf (sym : Byte) (p : List Bool) : Proc Unit := fun s =>
  if Config.codeMaxLen < p.length then Proc.raise .argCodeTooLong s
  else if s.codeLenOf sym ≠ 0 then Proc.raise .argDupSymbol s
  else .ok () (s.setCode sym p)

/-- One side of Walk at an internal node: nothing where the child is absent. -/
def walkSide (walk : NodeIdx → List Bool → Proc Unit) (present : Bool) (child : NodeIdx) (p : List Bool) : Proc Unit :=
  if present then walk child p else pure ()

/-- Walk(i, p) (43_code_table_gen.md R240), preorder, left before right, with `fuel` nested calls at most. -/
def codeWalk : Nat → NodeIdx → List Bool → Proc Unit
  | 0, _, _ => Proc.diverge
  | fuel + 1, i, p => do
    let n ← Proc.look (·.node i)
    if n.isChildless then recordLeaf n.sym p else do
      walkSide (codeWalk fuel) n.lp n.left (p ++ [false])
      walkSide (codeWalk fuel) n.rp n.right (p ++ [true])

/-- The nesting after which a Walk that has raised nothing never ends (log 11): twice NODE_CAP and one more. A path
that long goes round a cycle twice; a leaf hanging left of the cycle would have raised ARG_DUP_SYMBOL in the second
round, so the walk only descends, for ever. -/
def codeWalkFuel : Nat := 2 * Config.nodeCap + 1

/-- GenCodes() (43_code_table_gen.md R240). -/
def genCodes : Proc Unit := do
  Proc.change State.clearCodes
  let root ← Proc.look (·.root)
  let n ← Proc.look (·.node root)
  if n.isChildless then Proc.change ({ · with codesValid := true }) else do
    codeWalk codeWalkFuel root []
    Proc.change ({ · with codesValid := true })

/-- `if TREE_VALID = 0: raise ARG_NO_TREE` (60_exceptions.md R339). -/
def requireTree : Proc Unit := fun s => if s.treeValid then .ok () s else Proc.raise .argNoTree s

/-- CT_GEN (43_code_table_gen.md R241). -/
def execCtGen (s : State) : Host.Outcome State Fault Refusal :=
  complete (do
    requireTree
    genCodes) s

end Sys2Proof.Machine
end

