-- ==== Sys2Proof/Machine/TreeBuilder.lean ====
section
/-! DEFINITION. The tree_builder (spec/42_tree_builder.md): CountFreq, Alloc, BuildTree and the block's three
commands. -/

namespace Sys2Proof.Machine

/-- The FrequencyTable after the first `n` bytes of IBUF were counted, from all zeros (42_tree_builder.md R211). -/
def State.countBytes (s : State) : Nat → Vector DWord 256
  | 0 => Vector.replicate 256 0
  | n + 1 =>
    let t := s.countBytes n
    setFreqOf t (s.ibufByte n) (freqOf t (s.ibufByte n) + 1)

/-- CountFreq() (42_tree_builder.md R211). -/
def State.countFreq (s : State) : State := { s with freq := s.countBytes s.srcLen.toNat }

/-- Alloc(fields) (42_tree_builder.md R212). -/
def alloc (n : Node) : Proc NodeIdx := fun s =>
  if Config.nodeCap ≤ s.nodeCount.toNat then Proc.raise .allocNodes s
  else
    let k := BitVec.ofNat 9 s.nodeCount.toNat
    .ok k { s.setNode k n with nodeCount := s.nodeCount + 1 }

/-- S, the present symbols in ascending order (42_tree_builder.md R213, R214). -/
def presentSymbols (t : Vector DWord 256) : List Byte :=
  ((List.range 256).map (BitVec.ofNat 8)).filter fun sym => freqOf t sym != 0

/-- The pair (frequency, index) of `a` comes before that of `b` (42_tree_builder.md R215). -/
def comesBefore (f : NodeIdx → DWord) (a b : NodeIdx) : Bool :=
  decide (f a < f b) || (f a == f b && decide (a < b))

/-- The index of a queue, beginning with `a`, that comes before all others (42_tree_builder.md R215). -/
def leastOf (f : NodeIdx → DWord) : NodeIdx → List NodeIdx → NodeIdx
  | a, [] => a
  | a, b :: q => leastOf f (if comesBefore f b a then b else a) q

/-- PopMin(Q) for a queue `a :: q`: the least index and the queue without it (42_tree_builder.md R215). -/
def popMin (f : NodeIdx → DWord) (a : NodeIdx) (q : List NodeIdx) : NodeIdx × List NodeIdx :=
  (leastOf f a q, (a :: q).erase (leastOf f a q))

/-- One merge (42_tree_builder.md R213, R216): the sum is exact, and 2^64 or more raises before the Alloc. -/
def mergePair (a b : NodeIdx) : Proc NodeIdx := do
  let na ← Proc.look (·.node a)
  let nb ← Proc.look (·.node b)
  if 2 ^ 64 ≤ na.freq.toNat + nb.freq.toNat then Proc.raise .argFreqOverflow
  else alloc ⟨0, true, true, a, b, na.freq + nb.freq⟩

/-- The merge loop (42_tree_builder.md R213) over a queue, with `n` at least its length: each turn shortens it by
one. -/
def mergeLoop : Nat → List NodeIdx → Proc NodeIdx
  | _, [r] => pure r
  | n + 1, x :: y :: q => do
    let f ← Proc.look fun s i => (s.node i).freq
    let pa := popMin f x (y :: q)
    match pa.2 with
    | [] => Proc.diverge
    | z :: q' => do
      let pb := popMin f z q'
      let k ← mergePair pa.1 pb.1
      mergeLoop n (pb.2 ++ [k])
  | _, _ => Proc.diverge

/-- One leaf per present symbol, in ascending order (42_tree_builder.md R213, R214). -/
def allocLeaves (t : Vector DWord 256) : List Byte → Proc (List NodeIdx)
  | [] => pure []
  | sym :: syms => do
    let k ← alloc (Node.childless sym (freqOf t sym))
    let ks ← allocLeaves t syms
    pure (k :: ks)

/-- The root of the tree over the allocated leaves: the empty tree (42_tree_builder.md R220), the singleton's wrapper
(R219), or what the merge loop leaves (R216). -/
def joinLeaves (t : Vector DWord 256) (syms : List Byte) : List NodeIdx → Proc NodeIdx
  | [] => alloc (Node.childless 0 0)
  | [k] => alloc ⟨0, true, false, k, 0, freqOf t (syms.headD 0)⟩
  | ks => mergeLoop ks.length ks

/-- The start of BuildTree and of DeserializeTree (42_tree_builder.md R213, 45_huffman_decoder.md R292). -/
def clearTree : Proc Unit := Proc.change State.releaseArena

/-- ROOT <- r; TREE_VALID <- 1 (42_tree_builder.md R217, 45_huffman_decoder.md R294). -/
def State.setTree (s : State) (r : NodeIdx) : State := { s with root := r, treeValid := true }

/-- BuildTree() (42_tree_builder.md R213); a failure releases the arena (R218). -/
def buildTree : Proc Unit := Proc.orRelease do
  clearTree
  let t ← Proc.look (·.freq)
  let ks ← allocLeaves t (presentSymbols t)
  let r ← joinLeaves t (presentSymbols t) ks
  Proc.change (·.setTree r)

/-- Visit(i) of TB_ADOPT (42_tree_builder.md R221) from the set `seen`: the enlarged set, or none where it raises.
A visit that does not raise meets a new index below NODE_COUNT, so nested visits are never more than NODE_CAP deep and
`fuel` = NODE_CAP + 1 is never used up. -/
def State.visit (s : State) : Nat → NodeIdx → List NodeIdx → Option (List NodeIdx)
  | 0, _, _ => none
  | fuel + 1, i, seen =>
    if s.nodeCount.toNat ≤ i.toNat ∨ i ∈ seen then none
    else
      let n := s.node i
      match (if n.lp then s.visit fuel n.left (i :: seen) else some (i :: seen)) with
      | none => none
      | some seen' => if n.rp then s.visit fuel n.right seen' else some seen'

/-- TB_ADOPT's check (42_tree_builder.md R221): the ranges of NODE_COUNT and ROOT, then Visit(ROOT). -/
def State.treeIsSound (s : State) : Bool :=
  !(s.nodeCount == 0) && decide (s.nodeCount.toNat ≤ Config.nodeCap) && decide (s.root.toNat < s.nodeCount.toNat)
    && (s.visit (Config.nodeCap + 1) s.root []).isSome

/-- TB_COUNT (42_tree_builder.md R210). -/
def execTbCount (s : State) : Host.Outcome State Fault Refusal :=
  complete (do
    checkSrc
    Proc.change State.countFreq) s

/-- TB_BUILD (42_tree_builder.md R213). -/
def execTbBuild (s : State) : Host.Outcome State Fault Refusal := complete buildTree s

/-- TB_ADOPT (42_tree_builder.md R221): on error nothing is released (log 10). -/
def execTbAdopt (s : State) : Host.Outcome State Fault Refusal :=
  complete (do
    Proc.change State.invalidateTree
    let sound ← Proc.look State.treeIsSound
    if sound then Proc.change ({ · with treeValid := true }) else Proc.raise .argBadTree) s

end Sys2Proof.Machine
end

