-- ==== Sys2Proof/Machine/HuffmanDecoder.lean ====
section
/-! DEFINITION. The huffman_decoder (spec/45_huffman_decoder.md): ReadHeader, DeserializeTree, DecodeSymbol and the
block's four commands. -/

namespace Sys2Proof.Machine

/-- `n` turns of ReadHeader's loop from byte number `j` (45_huffman_decoder.md R290). -/
def headerLoop (order : HeaderOrder) : Nat → Nat → DWord → Proc DWord
  | 0, _, v => pure v
  | n + 1, j, v => do
    let b ← readChar
    headerLoop order n (j + 1) (putHeaderByte order v j b)

/-- ReadHeader() (45_huffman_decoder.md R290). -/
def readHeader : Proc DWord := do
  let order ← Proc.look (·.params.headerOrder)
  headerLoop order 8 0 0

/-- NODE[i].LP <- 1; NODE[i].LEFT <- c (45_huffman_decoder.md R292). -/
def State.attachLeft (s : State) (i c : NodeIdx) : State := s.setNode i { s.node i with lp := true, left := c }

/-- NODE[i].RP <- 1; NODE[i].RIGHT <- c (45_huffman_decoder.md R292). -/
def State.attachRight (s : State) (i c : NodeIdx) : State := s.setNode i { s.node i with rp := true, right := c }

/-- One side of Fill (45_huffman_decoder.md R292): the presence bit and, if it is 1, the child. -/
def fillSide (fill : NodeIdx → Proc Unit) (attach : NodeIdx → State → State) : Proc Unit := do
  let present ← getBit
  if present then do
    let sym ← readChar
    let c ← alloc (Node.childless sym 0)
    Proc.change (attach c)
    fill c
  else pure ()

/-- Fill(i) (45_huffman_decoder.md R292) with `fuel` nested calls at most. -/
def fill : Nat → NodeIdx → Proc Unit
  | 0, _ => Proc.diverge
  | fuel + 1, i => do
    fillSide (fill fuel) (fun c s => s.attachLeft i c)
    fillSide (fill fuel) (fun c s => s.attachRight i c)

/-- DeserializeTree() (45_huffman_decoder.md R292); a failure releases the arena (R295). Every nested Fill has allocated
a node before, so more than NODE_CAP of them cannot nest (log 11). -/
def deserializeTree : Proc Unit := Proc.orRelease do
  clearTree
  let r ← alloc (Node.childless 0 0)
  fill (Config.nodeCap + 1) r
  Proc.change (·.setTree r)

/-- The loop of DecodeSymbol (45_huffman_decoder.md R297) from node `n`, with `fuel` turns at most. -/
def decodeLoop : Nat → NodeIdx → Proc Byte
  | 0, _ => Proc.diverge
  | fuel + 1, n => do
    let nd ← Proc.look (·.node n)
    if nd.isChildless then pure nd.sym else do
      let b ← getBit
      if (if b then nd.rp else nd.lp) then decodeLoop fuel (if b then nd.right else nd.left)
      else Proc.raise .fmtAbsentChild

/-- More than the bits the reader can still return: every turn of DecodeSymbol's loop reads one, so GetBit raises
FMT_TRUNCATED before this many turns and the bound cuts nothing off (60_exceptions.md R324; log 11). -/
def State.decodeFuel (s : State) : Nat := 8 * s.srcLen.toNat + 9

/-- DecodeSymbol() (45_huffman_decoder.md R297). -/
def decodeSymbol : Proc Byte := do
  let root ← Proc.look (·.root)
  let nd ← Proc.look (·.node root)
  if nd.isChildless then Proc.raise .fmtEmptyTree else do
    let fuel ← Proc.look State.decodeFuel
    decodeLoop fuel root

/-- `n` turns of DecodeSymbol and WriteChar (45_huffman_decoder.md R300). -/
def decompressLoop : Nat → Proc Unit
  | 0 => pure ()
  | n + 1 => do
    let sym ← decodeSymbol
    writeChar sym
    decompressLoop n

/-- ORIG <- v (45_huffman_decoder.md R291). -/
def State.setOrig (s : State) (v : DWord) : State := { s with orig := v }

/-- Reader, writer and reported sizes <- 0 (45_huffman_decoder.md R300). -/
def State.startDecompress (s : State) : State :=
  { s with br := .zero, bw := .zero, orig := 0, metaSize := 0, payload := 0 }

/-- META <- BR_BYTES, then the counters are reset at the meta/payload boundary (45_huffman_decoder.md R300). -/
def State.closeMetaRead (s : State) : State := { s with metaSize := s.br.bytes }.resetReaderCounts

/-- PAYLOAD <- BR_BYTES (45_huffman_decoder.md R300). -/
def State.closePayloadRead (s : State) : State := { s with payload := s.br.bytes }

/-- The check before the payload (45_huffman_decoder.md R300): ORIG > 0 under a childless root. -/
def checkNotEmpty : Proc Unit := fun s =>
  if s.orig != 0 && (s.node s.root).isChildless then Proc.raise .fmtEmptyTree s else .ok () s

/-- The decompress sequence (45_huffman_decoder.md R300). -/
def decompress : Proc Unit := do
  checkSrc
  Proc.change State.startDecompress
  let v ← readHeader
  Proc.change (·.setOrig v)
  deserializeTree
  Proc.change State.align
  Proc.change State.closeMetaRead
  checkNotEmpty
  decompressLoop v.toNat
  Proc.change State.closePayloadRead

/-- DEC_READ_HEADER (45_huffman_decoder.md R291). -/
def execDecReadHeader (s : State) : Host.Outcome State Fault Refusal :=
  complete (do
    checkSrc
    let v ← readHeader
    Proc.change (·.setOrig v)) s

/-- DEC_DESERIALIZE_TREE (45_huffman_decoder.md R296). -/
def execDecDeserializeTree (s : State) : Host.Outcome State Fault Refusal :=
  complete (do
    checkSrc
    deserializeTree) s

/-- DEC_DECODE_SYMBOL (45_huffman_decoder.md R298). -/
def execDecDecodeSymbol (s : State) : Host.Outcome State Fault Refusal :=
  complete (do
    checkSrc
    requireTree
    let sym ← decodeSymbol
    Proc.change (·.setResult sym)) s

/-- DEC_DECOMPRESS (45_huffman_decoder.md R300). -/
def execDecDecompress (s : State) : Host.Outcome State Fault Refusal := complete decompress s

end Sys2Proof.Machine
end

