-- ==== Sys2Proof/Machine/HuffmanEncoder.lean ====
section
/-! DEFINITION. The huffman_encoder (spec/44_huffman_encoder.md): WriteHeader, SerializeTree, EncodeSymbol and the
block's four commands. -/

namespace Sys2Proof.Machine

/-- WriteChar for each byte of a sequence. -/
def writeChars : List Byte → Proc Unit
  | [] => pure ()
  | v :: vs => do
    writeChar v
    writeChars vs

/-- WriteHeader(v) (44_huffman_encoder.md R260). -/
def writeHeader (v : DWord) : Proc Unit := do
  let order ← Proc.look (·.params.headerOrder)
  writeChars (headerBytes order v)

/-- One side of SerNode (44_huffman_encoder.md R261): a 1 bit, the child's SYM and the child itself, or a 0 bit. -/
def serSide (ser : NodeIdx → Proc Unit) (present : Bool) (child : NodeIdx) : Proc Unit :=
  if present then do
    addBit true
    let c ← Proc.look (·.node child)
    writeChar c.sym
    ser child
  else addBit false

/-- SerNode(i) (44_huffman_encoder.md R261) with `fuel` nested calls at most. -/
def serNode : Nat → NodeIdx → Proc Unit
  | 0, _ => Proc.diverge
  | fuel + 1, i => do
    let n ← Proc.look (·.node i)
    serSide (serNode fuel) n.lp n.left
    serSide (serNode fuel) n.rp n.right

/-- More than the bits that fit into OBUF and BW_CUR: every nested SerNode writes bits first, so that the writer raises
RES_OUT_OVERFLOW before this nesting is reached and the bound cuts nothing off (log 11). -/
def State.serFuel (s : State) : Nat := 8 * s.obufSize + 9

/-- SerializeTree(ROOT) (44_huffman_encoder.md R261). -/
def serializeTree : Proc Unit := do
  let fuel ← Proc.look State.serFuel
  let root ← Proc.look (·.root)
  serNode fuel root

/-- EncodeSymbol(s) (44_huffman_encoder.md R262). -/
def encodeSymbol (sym : Byte) : Proc Unit := fun s =>
  if !s.codesValid || s.codeLenOf sym == 0 then Proc.raise .argNoCode s
  else addBits (codeOf (s.codeLenOf sym) (s.codeBitsOf sym)) s

/-- `for i in i..: EncodeSymbol(MemRead(IBUF, i, 1))`, `n` turns (44_huffman_encoder.md R270). -/
def encodeLoop : Nat → Nat → Proc Unit
  | 0, _ => pure ()
  | n + 1, i => do
    let sym ← Proc.look (·.ibufByte i)
    encodeSymbol sym
    encodeLoop n (i + 1)

/-- ORIG <- SRC_LEN (44_huffman_encoder.md R264). -/
def State.recordOrig (s : State) : State := { s with orig := s.srcLen }

/-- ORIG <- SRC_LEN; META <- 0; PAYLOAD <- 0 (44_huffman_encoder.md R270). -/
def State.startCompress (s : State) : State := { s with orig := s.srcLen, metaSize := 0, payload := 0 }

/-- META <- BW_BYTES, then the counters are reset at the meta/payload boundary (44_huffman_encoder.md R270). -/
def State.closeMetaWritten (s : State) : State := { s with metaSize := s.bw.bytes }.resetWriterCounts

/-- PAYLOAD <- BW_BYTES (44_huffman_encoder.md R270). -/
def State.closePayloadWritten (s : State) : State := { s with payload := s.bw.bytes }

/-- The compress sequence (44_huffman_encoder.md R270). -/
def compress : Proc Unit := do
  checkSrc
  Proc.change State.initWriter
  Proc.change State.startCompress
  Proc.change State.countFreq
  buildTree
  genCodes
  let len ← Proc.look (·.srcLen)
  writeHeader len
  serializeTree
  pad
  Proc.change State.closeMetaWritten
  encodeLoop len.toNat 0
  pad
  Proc.change State.closePayloadWritten

/-- ENC_WRITE_HEADER (44_huffman_encoder.md R264). CheckSrc is not run. -/
def execEncWriteHeader (s : State) : Host.Outcome State Fault Refusal :=
  complete (do
    Proc.change State.recordOrig
    let len ← Proc.look (·.srcLen)
    writeHeader len) s

/-- ENC_SERIALIZE_TREE (44_huffman_encoder.md R265). -/
def execEncSerializeTree (s : State) : Host.Outcome State Fault Refusal :=
  complete (do
    requireTree
    serializeTree) s

/-- ENC_ENCODE_SYMBOL s (44_huffman_encoder.md R268). -/
def execEncEncodeSymbol (data : Byte) (s : State) : Host.Outcome State Fault Refusal := complete (encodeSymbol data) s

/-- ENC_COMPRESS (44_huffman_encoder.md R270). -/
def execEncCompress (s : State) : Host.Outcome State Fault Refusal := complete compress s

end Sys2Proof.Machine
end

