-- ==== Sys2Proof/Machine/Dispatch.lean ====
section
/-! DEFINITION. Which meaning each command has (spec/30_encoding.md R122): one arm per constructor, each the command's
completion step on the state it runs in (60_exceptions.md R322, R323). -/

namespace Sys2Proof.Machine

/-- The completion step of command `i` (60_exceptions.md R322, R323). -/
def exec (i : Instr) (s : State) : Host.Outcome State Fault Refusal :=
  match i with
  | .bwInit => Sys2Proof.Machine.execBwInit s
  | .bwAddBit bit => Sys2Proof.Machine.execBwAddBit bit s
  | .bwWriteChar data => Sys2Proof.Machine.execBwWriteChar data s
  | .bwPad => Sys2Proof.Machine.execBwPad s
  | .bwResetCounts => Sys2Proof.Machine.execBwResetCounts s
  | .brInit => Sys2Proof.Machine.execBrInit s
  | .brGetBit => Sys2Proof.Machine.execBrGetBit s
  | .brReadChar => Sys2Proof.Machine.execBrReadChar s
  | .brAlign => Sys2Proof.Machine.execBrAlign s
  | .brResetCounts => Sys2Proof.Machine.execBrResetCounts s
  | .tbCount => Sys2Proof.Machine.execTbCount s
  | .tbBuild => Sys2Proof.Machine.execTbBuild s
  | .tbAdopt => Sys2Proof.Machine.execTbAdopt s
  | .ctGen => Sys2Proof.Machine.execCtGen s
  | .encWriteHeader => Sys2Proof.Machine.execEncWriteHeader s
  | .encSerializeTree => Sys2Proof.Machine.execEncSerializeTree s
  | .encEncodeSymbol data => Sys2Proof.Machine.execEncEncodeSymbol data s
  | .encCompress => Sys2Proof.Machine.execEncCompress s
  | .decReadHeader => Sys2Proof.Machine.execDecReadHeader s
  | .decDeserializeTree => Sys2Proof.Machine.execDecDeserializeTree s
  | .decDecodeSymbol => Sys2Proof.Machine.execDecDecodeSymbol s
  | .decDecompress => Sys2Proof.Machine.execDecDecompress s

end Sys2Proof.Machine
end

