-- ==== Sys2Proof/Machine/HostBus.lean ====
section
/-! DEFINITION. What the host and the platform do to the core (spec/20_memory.md R80 to R87, 10_state.md R32,
70_reset_and_hazards.md R361): the address map, host reads and writes, and reset. Addresses are relative to the base
at which the platform places the core (60_exceptions.md R353). -/

namespace Sys2Proof.Machine

/-- A control and status register at its offset (10_state.md R32); 0 at an offset that is none (20_memory.md R84). -/
def State.regWord (s : State) (off : Nat) : Word :=
  match off with
  | 0x000 => 0
  | 0x004 => s.statusWord
  | 0x008 => s.result.zeroExtend 32
  | 0x00C => loWord s.srcLen
  | 0x010 => hiWord s.srcLen
  | 0x014 => loWord s.orig
  | 0x018 => hiWord s.orig
  | 0x01C => loWord s.payload
  | 0x020 => hiWord s.payload
  | 0x024 => loWord s.metaSize
  | 0x028 => hiWord s.metaSize
  | 0x02C => loWord s.bw.wrptr
  | 0x030 => hiWord s.bw.wrptr
  | 0x034 => s.bw.cur.zeroExtend 32 ||| (s.bw.pos.zeroExtend 32 <<< 8)
  | 0x038 => loWord s.bw.bits
  | 0x03C => hiWord s.bw.bits
  | 0x040 => loWord s.bw.bytes
  | 0x044 => hiWord s.bw.bytes
  | 0x048 => s.br.cur.zeroExtend 32 ||| (s.br.cursor.zeroExtend 32 <<< 8)
  | 0x04C => loWord s.br.rdptr
  | 0x050 => hiWord s.br.rdptr
  | 0x054 => loWord s.br.bits
  | 0x058 => hiWord s.br.bits
  | 0x05C => loWord s.br.bytes
  | 0x060 => hiWord s.br.bytes
  | 0x064 => treeWord s.root s.nodeCount
  | 0x068 => if s.params.headerOrder = .be then 1 else 0
  | 0x06C => s.params.ibufSize
  | 0x070 => s.params.obufSize
  | _ => 0

/-- The part of the address map in which a 4-aligned address lies (20_memory.md R80, R84, R85). -/
inductive Region where
  | register (off : Nat)
  | freq (sym : Byte) (high : Bool)
  | codeLen (sym : Byte)
  | codeBits (sym : Byte) (word : Nat)
  | node (i : NodeIdx) (word : Nat)
  | ibuf (off : Nat)
  | obuf (off : Nat)
  | unmapped
deriving DecidableEq, Repr

/-- The address map (20_memory.md R80, R84, R85) of an instance with these sizes. -/
def regionOf (ibufSize obufSize : Nat) (a : Nat) : Region :=
  if a < 0x74 then .register a
  else if 0x1000 ≤ a ∧ a < 0x1800 then
    .freq (BitVec.ofNat 8 ((a - 0x1000) / 8)) ((a - 0x1000) % 8 == 4)
  else if 0x2000 ≤ a ∧ a < 0x2400 then .codeLen (BitVec.ofNat 8 ((a - 0x2000) / 4))
  else if 0x4000 ≤ a ∧ a < 0x6000 then
    .codeBits (BitVec.ofNat 8 ((a - 0x4000) / 32)) ((a - 0x4000) % 32 / 4)
  else if 0x8000 ≤ a ∧ a < 0xA000 then
    .node (BitVec.ofNat 9 ((a - 0x8000) / 16)) ((a - 0x8000) % 16 / 4)
  else if 0x01000000 ≤ a ∧ a < 0x01000000 + ibufSize then .ibuf (a - 0x01000000)
  else if 0x02000000 ≤ a ∧ a < 0x02000000 + obufSize then .obuf (a - 0x02000000)
  else .unmapped

/-- The region of a host address. -/
def State.region (s : State) (a : Word) : Region := regionOf s.ibufSize s.obufSize a.toNat

/-- What a NODE window word reads as (20_memory.md R85): W0, W1, W2, and 0 for W3. -/
def Node.windowWord (n : Node) : Nat → Word
  | 0 => n.word0
  | 1 => loWord n.freq
  | 2 => hiWord n.freq
  | _ => 0

/-- What a 4-aligned host read returns while the core is idle (20_memory.md R81, R84, R85). -/
def State.readWord (s : State) (a : Word) : Word :=
  match s.region a with
  | .register off => s.regWord off
  | .freq sym high => if high then hiWord (freqOf s.freq sym) else loWord (freqOf s.freq sym)
  | .codeLen sym => (s.codeLenOf sym).zeroExtend 32
  | .codeBits sym w => codeBitsWord (s.codeBitsOf sym) w
  | .node i w => (s.node i).windowWord w
  | .ibuf off => laneWord (s.ibufByte off) (s.ibufByte (off + 1)) (s.ibufByte (off + 2)) (s.ibufByte (off + 3))
  | .obuf off => laneWord (s.obufByte off) (s.obufByte (off + 1)) (s.obufByte (off + 2)) (s.obufByte (off + 3))
  | .unmapped => 0

/-- A slot after a host write of window word `w` (20_memory.md R85); W3 ignores writes. -/
def Node.writeWindow (n : Node) (w : Nat) (d : Word) : Node :=
  match w with
  | 0 => Node.ofWord0 d n.freq
  | 1 => { n with freq := setLo n.freq d }
  | 2 => { n with freq := setHi n.freq d }
  | _ => n

/-- Four bytes of IBUF from one word (20_memory.md R81). -/
def State.writeIbufWord (s : State) (off : Nat) (d : Word) : State :=
  (((s.setIbuf off (laneByte d 0)).setIbuf (off + 1) (laneByte d 1)).setIbuf (off + 2) (laneByte d 2)).setIbuf
    (off + 3) (laneByte d 3)

/-- Four bytes of OBUF from one word (20_memory.md R81). -/
def State.writeObufWord (s : State) (off : Nat) (d : Word) : State :=
  (((s.setObuf off (laneByte d 0)).setObuf (off + 1) (laneByte d 1)).setObuf (off + 2) (laneByte d 2)).setObuf
    (off + 3) (laneByte d 3)

/-- A host write to a register other than CMD (10_state.md R32, R42, R52; 20_memory.md R84, R86): the RW registers are
SRC_LEN_LO, SRC_LEN_HI and TREE; the rest ignore writes. -/
def State.writeRegister (s : State) (off : Nat) (d : Word) : State :=
  match off with
  | 0x00C => { s with srcLen := setLo s.srcLen d }
  | 0x010 => { s with srcLen := setHi s.srcLen d }
  | 0x064 => { s with root := treeRootField d, nodeCount := treeCountField d }.invalidateTree
  | _ => s

/-- A host write of one half of FREQ[sym] (20_memory.md R85). -/
def State.writeFreq (s : State) (sym : Byte) (high : Bool) (d : Word) : State :=
  let v := freqOf s.freq sym
  { s with freq := setFreqOf s.freq sym (if high then setHi v d else setLo v d) }

/-- A 4-aligned host write other than to CMD, while the core is idle (20_memory.md R84 to R86). NODE words W0, W1, W2
clear the validity flags; W3 "ignores writes" (log 9). -/
def State.writeWord (s : State) (a d : Word) : State :=
  match s.region a with
  | .register off => s.writeRegister off d
  | .freq sym high => s.writeFreq sym high d
  | .node i w => if w < 3 then (s.setNode i ((s.node i).writeWindow w d)).invalidateTree else s
  | .ibuf off => s.writeIbufWord off d
  | .obuf off => s.writeObufWord off d
  | .codeLen _ | .codeBits _ _ | .unmapped => s

/-- The response of a host access. -/
def State.respond (s : State) (r : BusResponse) : State := { s with busResp := some r }

/-- A host read (20_memory.md R83, R84, R87). The alignment check comes first (log 8); while BUSY = 1, a read other
than of STATUS returns an unspecified word, a fresh free value (log 4). -/
def State.hostRead (s : State) (a : Word) : State :=
  if !alignedAddr a then s.respond (.readData true 0)
  else if s.busy && a != 4 then
    { s with draws := s.draws + 1 }.respond (.readData false (Config.busyRead s.draws))
  else s.respond (.readData false (s.readWord a))

/-- A host write (20_memory.md R83, R84, R86, R87; 60_exceptions.md R320, R321). The alignment check comes first
(log 8). -/
def State.hostWrite (s : State) (a d : Word) : State :=
  if !alignedAddr a then s.respond (.writeAck true)
  else if a = 0 then (if s.busy then s.refuseCommand else s.accept d).respond (.writeAck false)
  else if s.busy then s.respond (.writeAck false)
  else (s.writeWord a d).respond (.writeAck false)

/-- The platform's reset (70_reset_and_hazards.md R361): a running command is abandoned and the state becomes that of
R360. The host's coming actions and the counters of free values go on, so that later free values are fresh (log 15). -/
def State.platformReset (s : State) : State :=
  { State.resetAs s.params (s.epoch + 1) with
    hostQueue := s.hostQueue
    accepted := s.accepted
    draws := s.draws }

/-- The effect of one action. -/
def State.act (s : State) : HostAction → State
  | .wait => s
  | .read a => s.hostRead a
  | .write a d => s.hostWrite a d
  | .reset => s.platformReset

/-- The next action of the host or the platform takes effect, if there is one (20_memory.md R92; log 6). -/
def State.serveHost (s : State) : State :=
  match s.hostQueue with
  | [] => s
  | x :: q => { s with hostQueue := q }.act x

/-- Time passes for a running command, and the host may act (log 5). -/
def State.waitStep (s : State) : State := { s with delay := s.delay - 1 }.serveHost

/-- `w`, an instruction's bits, accepted as the command word, its latency elapsed: the next step is its completion
step (log 7). -/
def State.latchWord (s : State) (w : Word) : State := { s.accept w with delay := 0 }

end Sys2Proof.Machine
end

