-- ==== Sys2Proof/Machine/Step.lean ====
section
/-! DEFINITION. One step of the machine (spec/00_scope.md R8, 60_exceptions.md R320 to R325): the completion step of the
running command, or the host's next action. -/

namespace Sys2Proof.Machine

/-- A running command whose latency has elapsed completes, all its effects at once (60_exceptions.md R322, R323, R325,
R338); otherwise time passes and the host acts. -/
def step (s : State) : Host.Outcome State Fault Refusal :=
  match s.phase, s.delay with
  | .running, 0 =>
    match s.latched with
    | .ok i => exec i s
    | .error _ => illegalCommand s
  | .running, _ + 1 => .next s.waitStep
  | .idle, _ => .next s.serveHost

/-- `s` with the instruction whose bits are `w` where the next step takes its command from: accepted and latched in
CMD_LATCH, its latency elapsed (log 7). -/
def State.withFetchWord (s : State) (nbits w : Nat) : State := s.latchWord (BitVec.ofNat 32 (w % 2 ^ nbits))

end Sys2Proof.Machine
end

