-- ==== Sys2Proof/Safety.lean ====
section
/-! DEFINITION. The terms claims are stated in: the tree that the arena holds, the streams that writer and reader stand
for, the archive format (spec/30_encoding.md R130 to R137), the Huffman tree of a frequency table
(42_tree_builder.md R213 to R220), and the invariants of the machine (10_state.md R35, R39, R40, R46, R47, R57).
Nothing here is used by the machine. -/

namespace Sys2Proof

/-- The ERR_CODE values that each command can leave (60_exceptions.md R330), without those the table calls "never in
fact": ALLOC_NODES for TB_BUILD, and all but two for ENC_COMPRESS (44_huffman_encoder.md R270). -/
def Instr.errorCodes : Instr → List Byte
  | .bwInit | .bwResetCounts | .brInit | .brAlign | .brResetCounts => []
  | .bwAddBit _ | .bwWriteChar _ | .bwPad | .encWriteHeader => [0x12]
  | .brGetBit | .brReadChar | .decReadHeader => [0x11, 0x32]
  | .tbCount => [0x11]
  | .tbBuild => [0x47]
  | .tbAdopt => [0x44]
  | .ctGen => [0x42, 0x45, 0x46]
  | .encSerializeTree => [0x42, 0x12]
  | .encEncodeSymbol _ => [0x43, 0x12]
  | .encCompress => [0x11, 0x12]
  | .decDeserializeTree => [0x11, 0x21, 0x32]
  | .decDecodeSymbol => [0x11, 0x42, 0x33, 0x31, 0x32]
  | .decDecompress => [0x11, 0x32, 0x21, 0x33, 0x31, 0x12]

/-- The commands that write the writer's registers or OBUF (40 to 45, "core access" of 20_memory.md R80). -/
def Instr.usesWriter : Instr → Bool
  | .bwInit | .bwAddBit _ | .bwWriteChar _ | .bwPad | .bwResetCounts => true
  | .encWriteHeader | .encSerializeTree | .encEncodeSymbol _ | .encCompress | .decDecompress => true
  | .brInit | .brGetBit | .brReadChar | .brAlign | .brResetCounts => false
  | .tbCount | .tbBuild | .tbAdopt | .ctGen => false
  | .decReadHeader | .decDeserializeTree | .decDecodeSymbol => false

/-- The commands that write the reader's registers (41, 45). -/
def Instr.usesReader : Instr → Bool
  | .brInit | .brGetBit | .brReadChar | .brAlign | .brResetCounts => true
  | .decReadHeader | .decDeserializeTree | .decDecodeSymbol | .decDecompress => true
  | .bwInit | .bwAddBit _ | .bwWriteChar _ | .bwPad | .bwResetCounts => false
  | .tbCount | .tbBuild | .tbAdopt | .ctGen => false
  | .encWriteHeader | .encSerializeTree | .encEncodeSymbol _ | .encCompress => false

/-- The commands that write NODE, ROOT and NODE_COUNT (10_state.md R52). -/
def Instr.writesArena : Instr → Bool
  | .tbBuild | .encCompress | .decDeserializeTree | .decDecompress => true
  | .bwInit | .bwAddBit _ | .bwWriteChar _ | .bwPad | .bwResetCounts => false
  | .brInit | .brGetBit | .brReadChar | .brAlign | .brResetCounts => false
  | .tbCount | .tbAdopt | .ctGen | .encWriteHeader | .encSerializeTree | .encEncodeSymbol _ => false
  | .decReadHeader | .decDecodeSymbol => false

end Sys2Proof

namespace Sys2Proof.Machine

/-! ### Trees -/

/-- A binary code tree without its indices: an absent child, or a node with its symbol byte and its two children. -/
inductive Shape where
  | absent
  | node (sym : Byte) (left right : Shape)
deriving DecidableEq, Repr

/-- A node with no children. -/
def Shape.leaf (sym : Byte) : Shape := .node sym .absent .absent

/-- Is this the absent child? -/
def Shape.isAbsent : Shape → Bool
  | .absent => true
  | .node _ _ _ => false

/-- A node whose two children are absent (00_scope.md glossary, "childless"). -/
def Shape.isChildless : Shape → Bool
  | .absent => false
  | .node _ l r => l.isAbsent && r.isAbsent

/-- The number of nodes. -/
def Shape.size : Shape → Nat
  | .absent => 0
  | .node _ l r => 1 + l.size + r.size

/-- What serialization writes for a child slot (44_huffman_encoder.md R261): 0 for an absent child; for a child 1, its
symbol byte, and its own two slots. -/
def Shape.slotBits : Shape → List Bool
  | .absent => [false]
  | .node sym l r => true :: (byteBits sym ++ (l.slotBits ++ r.slotBits))

/-- What serialization writes for a whole tree (44_huffman_encoder.md R261, 30_encoding.md R132): the root's two slots;
its own symbol is never written. -/
def Shape.treeBits : Shape → List Bool
  | .absent => []
  | .node _ l r => l.slotBits ++ r.slotBits

/-- The codes of the leaves below a node at path `p`, in preorder: 0 on descending left, 1 on descending right
(43_code_table_gen.md R240). -/
def Shape.codesAt : Shape → List Bool → List (Byte × List Bool)
  | .absent, _ => []
  | .node sym l r, p =>
    if l.isAbsent && r.isAbsent then [(sym, p)] else l.codesAt (p ++ [false]) ++ r.codesAt (p ++ [true])

/-- The code table of a tree as a list; the empty tree has no codes (43_code_table_gen.md R240). -/
def Shape.codes (t : Shape) : List (Byte × List Bool) := if t.isChildless then [] else t.codesAt []

/-- The tree with the symbol of its root set to 0x00, as a decoder rebuilds it (45_huffman_decoder.md R292). -/
def Shape.withRootZero : Shape → Shape
  | .absent => .absent
  | .node _ l r => .node 0 l r

/-- The arena `nd` holds the tree `t` under a child link (`present`, index), and `ns` are the indices met in preorder. -/
inductive Subtree (nd : NodeIdx → Node) : Bool → NodeIdx → Shape → List NodeIdx → Prop where
  | absent (i : NodeIdx) : Subtree nd false i .absent []
  | present (i : NodeIdx) (l r : Shape) (ls rs : List NodeIdx) :
      Subtree nd (nd i).lp (nd i).left l ls → Subtree nd (nd i).rp (nd i).right r rs →
      Subtree nd true i (.node (nd i).sym l r) (i :: (ls ++ rs))

/-- The arena holds the tree `t` under ROOT as 10_state.md R39 asks: counts in range, every reachable index below
NODE_COUNT, and every node reached by exactly one path. -/
def State.HoldsTree (s : State) (t : Shape) : Prop :=
  1 ≤ s.nodeCount.toNat ∧ s.nodeCount.toNat ≤ Config.nodeCap ∧ s.root.toNat < s.nodeCount.toNat ∧
    ∃ ns, Subtree s.node true s.root t ns ∧ ns.Nodup ∧ ∀ i ∈ ns, i.toNat < s.nodeCount.toNat

/-- 10_state.md R39 without naming the tree. -/
def State.ArenaIsTree (s : State) : Prop := ∃ t, s.HoldsTree t

/-- The code of a symbol as CODE holds it (10_state.md R57). -/
def State.codeBitsList (s : State) (sym : Byte) : List Bool := codeOf (s.codeLenOf sym) (s.codeBitsOf sym)

/-- CODE holds exactly the codes of the list `cs`: a listed symbol has its code, and any other has none. -/
def State.CodesAre (s : State) (cs : List (Byte × List Bool)) : Prop :=
  ∀ sym p, (sym, p) ∈ cs ↔ s.codeLenOf sym ≠ 0 ∧ s.codeBitsList sym = p

/-! ### Streams -/

/-- The byte whose bits are given in stream order, the first in bit 7 (20_memory.md R88). -/
def byteOfBits (bs : List Bool) : Byte := bs.foldl (fun v b => (v <<< 1) ||| (BitVec.ofBool b).zeroExtend 8) 0

/-- A bit sequence brought to `n` bits with copies of `b`. -/
def fillTo (n : Nat) (b : Bool) (bs : List Bool) : List Bool := bs ++ List.replicate (n - bs.length) b

/-- The bits held in BW_CUR and not yet flushed: its first BW_POS bits (10_state.md R46). -/
def State.heldBits (s : State) : List Bool := (byteBits s.bw.cur).take s.bw.pos.toNat

/-- The bits not yet written are zero (10_state.md R46). -/
def State.WriterTailZero (s : State) : Prop := ∀ i, i + s.bw.pos.toNat < 8 → s.bw.cur.getLsbD i = false

/-- How many bytes are flushed when `n` bits are added. -/
def State.flushes (s : State) (n : Nat) : Nat := (s.bw.pos.toNat + n) / 8

/-- The flushes of `n` more bits all fit into OBUF (40_bit_writer.md R150). -/
def State.HasRoom (s : State) (n : Nat) : Prop :=
  s.flushes n = 0 ∨ s.bw.wrptr.toNat + s.flushes n ≤ s.obufSize

/-- `t`'s writer and OBUF are those of `s` after the bits `bs` were added (40_bit_writer.md R158): full bytes are
flushed from BW_WRPTR on, the first bit of each in bit 7, the rest is held in BW_CUR, and every other byte of OBUF
reads as before. -/
def State.WroteBits (s t : State) (bs : List Bool) : Prop :=
  t.bw.pos = s.bw.pos + BitVec.ofNat 3 bs.length ∧
  t.bw.cur = byteOfBits (fillTo 8 false ((s.heldBits ++ bs).drop (8 * s.flushes bs.length))) ∧
  t.bw.wrptr = s.bw.wrptr + BitVec.ofNat 64 (s.flushes bs.length) ∧
  t.bw.bits = s.bw.bits + BitVec.ofNat 64 bs.length ∧
  t.bw.bytes = s.bw.bytes + BitVec.ofNat 64 (s.flushes bs.length) ∧
  ∀ a, t.obufByte a =
    if s.bw.wrptr.toNat ≤ a ∧ a < s.bw.wrptr.toNat + s.flushes bs.length then
      byteOfBits (((s.heldBits ++ bs).drop (8 * (a - s.bw.wrptr.toNat))).take 8)
    else s.obufByte a

/-- IBUF[a .. a + n - 1]. -/
def State.ibufBytes (s : State) (a n : Nat) : List Byte := (List.range n).map fun k => s.ibufByte (a + k)

/-- OBUF[a .. a + n - 1]. -/
def State.obufBytes (s : State) (a n : Nat) : List Byte := (List.range n).map fun k => s.obufByte (a + k)

/-- The bits of BR_CUR still to be returned: none when the cursor has wrapped to 0 (41_bit_reader.md R180). -/
def State.curUnread (s : State) : List Bool :=
  if s.br.cursor = 0 then [] else (byteBits s.br.cur).drop s.br.cursor.toNat

/-- The bits that GetBit will return before it raises FMT_TRUNCATED (41_bit_reader.md R180): the rest of BR_CUR, then
IBUF[BR_RDPTR .. SRC_LEN - 1]. -/
def State.unread (s : State) : List Bool :=
  s.curUnread ++ (s.ibufBytes s.br.rdptr.toNat (s.srcLen.toNat - s.br.rdptr.toNat)).flatMap byteBits

/-- How many bytes are pulled when `n` bits are returned (41_bit_reader.md R187). -/
def State.pulls (s : State) (n : Nat) : Nat :=
  if s.br.cursor = 0 then (n + 7) / 8 else (s.br.cursor.toNat + n - 1) / 8

/-- `t`'s reader is that of `s` after the next `n` bits were returned (41_bit_reader.md R180, R187). -/
def State.ReadOn (s t : State) (n : Nat) : Prop :=
  t.br.cursor = s.br.cursor + BitVec.ofNat 3 n ∧
  t.br.rdptr = s.br.rdptr + BitVec.ofNat 64 (s.pulls n) ∧
  t.br.bits = s.br.bits + BitVec.ofNat 64 n ∧
  t.br.bytes = s.br.bytes + BitVec.ofNat 64 (s.pulls n) ∧
  t.br.cur = if s.pulls n = 0 then s.br.cur else s.ibufByte (s.br.rdptr.toNat + s.pulls n - 1)

/-! ### One decode -/

/-- How a walk of DecodeSymbol ends (45_huffman_decoder.md R297). -/
inductive DecodeEnd where
  /-- A leaf: its symbol, and the number of bits read. -/
  | symbol (sym : Byte) (used : Nat)
  /-- A bit selects a missing child; the number of bits read counts that bit. -/
  | absentChild (used : Nat)
  /-- The bits end before a leaf is reached. -/
  | truncated (used : Nat)
deriving DecidableEq, Repr

/-- Walk down from a node with `n` bits read so far (45_huffman_decoder.md R297). -/
def Shape.walkDown : Shape → List Bool → Nat → DecodeEnd
  | .absent, _, n => .absentChild n
  | .node sym l r, bs, n =>
    if l.isAbsent && r.isAbsent then .symbol sym n
    else
      match bs with
      | [] => .truncated n
      | b :: bs => if b then r.walkDown bs (n + 1) else l.walkDown bs (n + 1)

/-- The tree decodes the symbols `xs` one after the other from the bits `bs`, reading `n` bits in all
(45_huffman_decoder.md R297, R300). -/
inductive Shape.Decodes (sh : Shape) : List Bool → List Byte → Nat → Prop where
  | nil (bs : List Bool) : Shape.Decodes sh bs [] 0
  | cons {bs : List Bool} {sym : Byte} {xs : List Byte} {k n : Nat} : sh.walkDown bs 0 = .symbol sym k →
      Shape.Decodes sh (bs.drop k) xs n → Shape.Decodes sh bs (sym :: xs) (k + n)

/-! ### Reading a tree shape -/

/-- How the reading of a tree shape ends (45_huffman_decoder.md R293, R295). -/
inductive TreeEnd where
  /-- All child slots have been read. -/
  | complete
  /-- The stream ends inside the tree, `nodes` nodes having been allocated. -/
  | truncated (nodes : Nat)
  /-- The 513th node's symbol byte has been read, the last of `used` bits. -/
  | full (used : Nat)
deriving DecidableEq, Repr

/-- Read child slots in stream order, with `slots` of them still to be read, `nodes` nodes allocated and `used` bits
read before: a 0 closes a slot, and a 1 with a symbol byte gives a node, which opens two slots in place of one
(30_encoding.md R132, 45_huffman_decoder.md R292; 60_exceptions.md R333: the symbol byte comes before the Alloc). -/
def treeEndFrom : List Bool → Nat → Nat → Nat → TreeEnd
  | _, 0, _, _ => .complete
  | [], _ + 1, nodes, _ => .truncated nodes
  | false :: bs, slots + 1, nodes, used => treeEndFrom bs slots nodes (used + 1)
  | true :: _ :: _ :: _ :: _ :: _ :: _ :: _ :: _ :: bs, slots + 1, nodes, used =>
    if Config.nodeCap ≤ nodes then .full (used + 9) else treeEndFrom bs (slots + 2) (nodes + 1) (used + 9)
  | true :: _, _ + 1, nodes, _ => .truncated nodes

/-- How the reading of a tree shape from a stream ends: the root is allocated, and its two slots come first. -/
def treeEnd (bs : List Bool) : TreeEnd := treeEndFrom bs 2 1 0

/-- FREQ and the links of absent children are 0, as Alloc leaves them (45_huffman_decoder.md R292). -/
def Node.Plain (n : Node) : Prop := n.freq = 0 ∧ (n.lp = false → n.left = 0) ∧ (n.rp = false → n.right = 0)

/-- The arena of `t` is what DeserializeTree leaves of the tree `sh` (45_huffman_decoder.md R292, R294): ROOT = 0, the
nodes in preorder from slot 0 on, the root's symbol 0, FREQ and the links of absent children 0, and every other slot
as it was in `s`. -/
structure State.Rebuilt (s t : State) (sh : Shape) : Prop where
  holds : t.HoldsTree sh.withRootZero
  preorder : Subtree t.node true 0 sh.withRootZero ((List.range sh.size).map (BitVec.ofNat 9))
  plain : ∀ i : NodeIdx, i.toNat < sh.size → (t.node i).Plain
  others : ∀ i : NodeIdx, sh.size ≤ i.toNat → t.node i = s.node i

/-! ### Where DEC_DECOMPRESS leaves reader and writer -/

/-- The reader with `n` bits read since its counters were cleared at the byte boundary `base` of IBUF, every byte before
it having been pulled since BR_INIT (41_bit_reader.md R180, R187). -/
def State.readerAfter (s : State) (base n : Nat) : BitReader where
  cur := if base + (n + 7) / 8 = 0 then 0 else s.ibufByte (base + (n + 7) / 8 - 1)
  cursor := BitVec.ofNat 3 n
  rdptr := BitVec.ofNat 64 (base + (n + 7) / 8)
  bits := BitVec.ofNat 64 n
  bytes := BitVec.ofNat 64 ((n + 7) / 8)

/-- The writer with `n` whole bytes written since BW_INIT (40_bit_writer.md R158). -/
def writerAfter (n : Nat) : BitWriter where
  cur := 0
  pos := 0
  wrptr := BitVec.ofNat 64 n
  bits := BitVec.ofNat 64 (8 * n)
  bytes := BitVec.ofNat 64 n

/-- The writer with `n` bytes flushed when the flush of the next byte, `v`, finds OBUF full: its first seven bits are held
(60_exceptions.md R332). -/
def writerBlocked (n : Nat) (v : Byte) : BitWriter where
  cur := v &&& 0xFE
  pos := 7
  wrptr := BitVec.ofNat 64 n
  bits := BitVec.ofNat 64 (8 * n + 7)
  bytes := BitVec.ofNat 64 n

/-- DEC_DECOMPRESS when it leaves the payload, before the report (45_huffman_decoder.md R300): `count` was the header,
the tree's region had `treeBytes` bytes, `bits` payload bits were read, and the symbols `xs` are in OBUF. PAYLOAD is
still 0, and NODE and OBUF, of which `Unpacked` speaks, are those of `t`. -/
def State.inPayload (s t : State) (sh : Shape) (count : DWord) (treeBytes bits : Nat) (w : BitWriter) : State :=
  { s with
    treeValid := true, codesValid := false, root := 0, nodeCount := BitVec.ofNat 10 sh.size, nodes := t.nodes
    orig := count, metaSize := BitVec.ofNat 64 (8 + treeBytes), payload := 0
    br := s.readerAfter (8 + treeBytes) bits, bw := w, obuf := t.obuf }

/-- The arena holds the tree, OBUF begins with `xs`, and every other slot and byte is as it was. -/
structure State.Unpacked (s t : State) (sh : Shape) (xs : List Byte) : Prop where
  tree : s.Rebuilt t sh
  output : t.obufBytes 0 xs.length = xs
  rest : ∀ a, xs.length ≤ a → t.obufByte a = s.obufByte a

/-! ### The archive format -/

/-- The bytes that hold a bit sequence, the last one padded with 1-bits (30_encoding.md R134, R135). -/
def packBits (bs : List Bool) : List Byte :=
  (List.range ((bs.length + 7) / 8)).map fun k => byteOfBits (fillTo 8 true ((bs.drop (8 * k)).take 8))

/-- The code of a symbol in a code list, the empty sequence where it has none. -/
def codeFor (cs : List (Byte × List Bool)) (sym : Byte) : List Bool :=
  ((cs.find? fun c => c.1 == sym).map Prod.snd).getD []

/-- An archive with header value `count`, tree `t`, and the codes of the symbols `xs` as its payload (30_encoding.md
R130 to R135). -/
def archiveBytes (order : HeaderOrder) (count : DWord) (t : Shape) (xs : List Byte) : List Byte :=
  headerBytes order count ++ (packBits t.treeBits ++ packBits (xs.flatMap (codeFor t.codes)))

/-! ### The Huffman tree of a frequency table -/

/-- A tree in the priority queue: its frequency and its place in the order of insertion (42_tree_builder.md R215). -/
structure Weighted where
  freq : Nat
  seq : Nat
  shape : Shape
deriving DecidableEq, Repr

/-- Lower frequency first, and at equal frequency the earlier inserted (42_tree_builder.md R215). -/
def Weighted.before (a b : Weighted) : Bool := decide (a.freq < b.freq) || (a.freq == b.freq && decide (a.seq < b.seq))

/-- The first of `a :: q` in that order, and the others. -/
def takeFirst : Weighted → List Weighted → Weighted × List Weighted
  | a, [] => (a, [])
  | a, b :: q =>
    if b.before a then ((takeFirst b q).1, a :: (takeFirst b q).2) else ((takeFirst a q).1, b :: (takeFirst a q).2)

/-- Greedy merging (42_tree_builder.md R216) of a queue of at most `n` trees, the next insertion having number `seq`;
none when a merged frequency reaches 2^64. -/
def mergeAll : Nat → Nat → List Weighted → Option Shape
  | _, _, [] => none
  | _, _, [w] => some w.shape
  | 0, _, _ :: _ :: _ => none
  | n + 1, seq, x :: y :: q =>
    let a := takeFirst x (y :: q)
    match a.2 with
    | [] => none
    | z :: q' =>
      let b := takeFirst z q'
      if 2 ^ 64 ≤ a.1.freq + b.1.freq then none
      else mergeAll n (seq + 1) (b.2 ++ [⟨a.1.freq + b.1.freq, seq, .node 0 a.1.shape b.1.shape⟩])

/-- The tree of a frequency table (42_tree_builder.md R213, R214, R219, R220); none when a merged frequency reaches
2^64. -/
def huffmanTree (t : Vector DWord 256) : Option Shape :=
  match presentSymbols t with
  | [] => some (.leaf 0)
  | [sym] => some (.node 0 (.leaf sym) .absent)
  | syms => mergeAll syms.length syms.length
      (syms.zipIdx.map fun x => ⟨(freqOf t x.1).toNat, x.2, .leaf x.1⟩)

/-- How often each symbol occurs in a byte sequence (42_tree_builder.md R211). -/
def countsOf (xs : List Byte) : Vector DWord 256 := Vector.ofFn fun i => BitVec.ofNat 64 (xs.count (BitVec.ofFin i))

/-- The archive of a byte sequence (44_huffman_encoder.md R270, 30_encoding.md R130). -/
def archiveOf (order : HeaderOrder) (xs : List Byte) : List Byte :=
  archiveBytes order (BitVec.ofNat 64 xs.length) ((huffmanTree (countsOf xs)).getD .absent) xs

/-! ### Invariants -/

/-- 10_state.md R35, R38: the STATUS invariants. -/
structure State.StatusInv (s : State) : Prop where
  notBoth : ¬ (s.done = true ∧ s.err = true)
  whileBusy : s.phase = .running → s.done = false ∧ s.err = false ∧ s.errCode = 0
  errIffCode : s.err = true ↔ s.errCode ≠ 0
  codesNeedTree : s.codesValid = true → s.treeValid = true
  latched : s.phase = .running → s.lastOp = opField s.cmdLatch

/-- 10_state.md R46, R47: the unwritten bits of BW_CUR are zero and BW_WRPTR <= OBUF_SIZE. -/
structure State.WriterInv (s : State) : Prop where
  tailZero : s.WriterTailZero
  inRange : s.bw.wrptr.toNat ≤ s.obufSize

/-- 10_state.md R39. -/
def State.TreeInv (s : State) : Prop := s.treeValid = true → s.ArenaIsTree

/-- 10_state.md R57: CODE_BITS[s][i] = 0 for every i >= CODE_LEN[s]. -/
def State.CodeTailZero (s : State) : Prop :=
  ∀ sym i, (s.codeLenOf sym).toNat ≤ i → (s.codeBitsOf sym).getLsbD i = false

/-- 10_state.md R38, R40: while CODES_VALID = 1, the tree is valid and CODE holds exactly its codes. -/
def State.CodesInv (s : State) : Prop :=
  s.codesValid = true → s.treeValid = true ∧ ∃ t, s.HoldsTree t ∧ s.CodesAre t.codes

/-- The parameters are legal, and IBUF, OBUF and NODE are in canonical form within their sizes (20_memory.md R80). -/
structure State.MemoryInv (s : State) : Prop where
  params : s.params.wf = true
  ibuf : Memory.wf s.ibuf s.ibufSize
  obuf : Memory.wf s.obuf s.obufSize
  nodes : Cells.wf s.nodes Config.nodeCap

/-- Every invariant of the machine together. -/
structure State.Inv (s : State) : Prop where
  status : s.StatusInv
  writer : s.WriterInv
  memory : s.MemoryInv
  tree : s.TreeInv
  codes : s.CodesInv
  codeTail : s.CodeTailZero

/-! ### The opcode map, the errors and the host's accesses, as the spec lists them -/

/-- The illegal OP values, as 30_encoding.md R123 lists them. -/
def IllegalOp (op : Byte) : Prop :=
  op.toNat = 0x00 ∨ (0x06 ≤ op.toNat ∧ op.toNat ≤ 0x10) ∨ (0x16 ≤ op.toNat ∧ op.toNat ≤ 0x20) ∨
  (0x24 ≤ op.toNat ∧ op.toNat ≤ 0x30) ∨ (0x32 ≤ op.toNat ∧ op.toNat ≤ 0x40) ∨
  (0x45 ≤ op.toNat ∧ op.toNat ≤ 0x50) ∨ 0x55 ≤ op.toNat

/-- A host read at offset `a` in this state, with the core between commands or waiting, answers OKAY and `d` and
changes nothing (20_memory.md R86). -/
def State.Reads (s : State) (a : Nat) (d : Word) : Prop :=
  ∀ q, step { s with hostQueue := .read (BitVec.ofNat 32 a) :: q } =
    .next { s with hostQueue := q, busResp := some (.readData false d) }

/-- A host write of `d` at offset `a` in this state answers OKAY and leaves `t`. -/
def State.Writes (s : State) (a : Nat) (d : Word) (t : State) : Prop :=
  ∀ q, step { s with hostQueue := .write (BitVec.ofNat 32 a) d :: q } =
    .next { t with hostQueue := q, busResp := some (.writeAck false) }

/-- The unmapped ranges of 20_memory.md R80. -/
def UnmappedAddr (ibufSize obufSize a : Nat) : Prop :=
  (0x74 ≤ a ∧ a ≤ 0xFFF) ∨ (0x1800 ≤ a ∧ a ≤ 0x1FFF) ∨ (0x2400 ≤ a ∧ a ≤ 0x3FFF) ∨ (0x6000 ≤ a ∧ a ≤ 0x7FFF) ∨
  (0xA000 ≤ a ∧ a ≤ 0x00FFFFFF) ∨ (0x01000000 + ibufSize ≤ a ∧ a ≤ 0x01FFFFFF) ∨
  (0x02000000 + obufSize ≤ a ∧ a ≤ 0xFFFFFFFF)

/-- The read-only registers and windows (10_state.md R32, 20_memory.md R80, R85), by address; W3 of a NODE slot, which
"ignores writes", is among them. -/
def ReadOnlyAddr (a : Nat) : Prop :=
  (0x004 ≤ a ∧ a ≤ 0x00B) ∨ (0x014 ≤ a ∧ a ≤ 0x063) ∨ (0x068 ≤ a ∧ a ≤ 0x073) ∨ (0x2000 ≤ a ∧ a ≤ 0x23FF) ∨
  (0x4000 ≤ a ∧ a ≤ 0x5FFF) ∨ (0x8000 ≤ a ∧ a ≤ 0x9FFF ∧ a % 16 = 12)

/-! ### Runs of commands -/

/-- The completion steps of a sequence of commands, stopping at the first that does not end with ERR = 0. -/
def execAll : List Instr → State → Option State
  | [], s => some s
  | i :: is, s =>
    match exec i s with
    | .next t => if t.err then none else execAll is t
    | .fault _ => none
    | .refused _ => none

/-- The bits that a writer command adds to the bits `bs` added before it (40_bit_writer.md R154 to R157); none where
the command is not one of them. -/
def writerStep (bs : List Bool) : Instr → Option (List Bool)
  | .bwAddBit b => some (bs ++ [b])
  | .bwWriteChar v => some (bs ++ byteBits v)
  | .bwPad => some (fillTo (8 * ((bs.length + 7) / 8)) true bs)
  | .bwResetCounts => some bs
  | .bwInit | .brInit | .brGetBit | .brReadChar | .brAlign | .brResetCounts => none
  | .tbCount | .tbBuild | .tbAdopt | .ctGen => none
  | .encWriteHeader | .encSerializeTree | .encEncodeSymbol _ | .encCompress => none
  | .decReadHeader | .decDeserializeTree | .decDecodeSymbol | .decDecompress => none

/-- All the bits that a sequence of writer commands adds after the bits `bs`. -/
def writerBits : List Instr → List Bool → Option (List Bool)
  | [], bs => some bs
  | i :: is, bs => (writerStep bs i).bind (writerBits is)

/-- The symbols of a code list are distinct and every code fits CODE (43_code_table_gen.md R240). -/
def CodesOk (cs : List (Byte × List Bool)) : Prop :=
  (cs.map Prod.fst).Nodup ∧ ∀ c ∈ cs, c.2.length ≤ Config.codeMaxLen

end Sys2Proof.Machine
end

