-- ==== Sys2Proof/Certificates/Slice0/Obligations.lean ====
section
/-! DEFINITION. The statements for the provers. Each formalises rules of spec/, named in its docstring and in
OBLIGATIONS.json. Where a statement says of a register "unchanged", it does so through the record update: every field
that the update does not name is the field before. -/

section
open Sys2Proof Sys2Proof.Machine

/-! ### Encoding -/

/-- 30_encoding.md R121, R122, R124, R126: decoding the word of a command gives the command back, and a word selects a
command exactly when the bits the command looks at are those of its word. -/
def Obligations.DecodeMatchesEncode : Prop :=
  (∀ i : Instr, i.wf = true → decode (encode i) = .ok i) ∧
  ∀ (w : Word) (i : Instr), decode w = .ok i ↔ w &&& i.usedBits = encode i

/-- Words written out from the spec's own examples (30_encoding.md R126, 44_huffman_encoder.md R268) and from the
opcode map (R122), one of each block. A sanity statement. -/
def Obligations.SampleWordsDecode : Prop :=
  decode 0x00000102 = .ok (.bwAddBit true) ∧
  decode 0x00410003 = .ok (.bwWriteChar 0x41) ∧
  decode 0x00000013 = .ok .brReadChar ∧
  decode 0x00000022 = .ok .tbBuild ∧
  decode 0x00000031 = .ok .ctGen ∧
  decode 0x00620043 = .ok (.encEncodeSymbol 0x62) ∧
  decode 0x00000044 = .ok .encCompress ∧
  decode 0x00000054 = .ok .decDecompress ∧
  decode 0x00000006 = .error (.illegalOp 0x06)

/-- 30_encoding.md R123, 60_exceptions.md R338: the listed OP values and no others are no commands; such a word is
accepted like any command, and when it completes it sets ERR and ERR_CODE 0x41 and changes nothing else; LAST_OP, set at
acceptance, is the illegal OP. -/
def Obligations.IllegalCommand : Prop :=
  (∀ w : Word, IllegalOp (opField w) ↔ ∀ i, decode w ≠ .ok i) ∧
  (∀ (s : State) (w : Word), s.phase = .idle → IllegalOp (opField w) → ∃ t, s.Writes 0x000 w t ∧ t.busy = true) ∧
  ∀ s : State, s.phase = .running → s.delay = 0 → IllegalOp (opField s.cmdLatch) →
    ∃ t, step s = .next t ∧ t = { s with err := true, errCode := 0x41, phase := .idle } ∧
      (s.StatusInv → t.lastOp = opField s.cmdLatch)

/-! ### The life cycle of a command -/

/-- How a step and the meanings fit together (60_exceptions.md R322): a command whose latency has elapsed completes as
its meaning says; before that, and while idle, only the host acts. That a delay counts down is the model's choice
(log 5), and so is the host as a queue (log 6). -/
def Obligations.StepRunsDecodedCommand : Prop :=
  (∀ (s : State) (i : Instr), s.phase = .running → s.delay = 0 → decode s.cmdLatch = .ok i → step s = exec i s) ∧
  (∀ (s : State) (d : Nat), s.phase = .running → s.delay = d + 1 → step s = .next { s with delay := d }.serveHost) ∧
  ∀ s : State, s.phase = .idle → step s = .next s.serveHost

/-- 60_exceptions.md R320: what acceptance writes. The delay it sets is a free value (log 5). -/
def Obligations.CommandAccepted : Prop :=
  ∀ (s : State) (w : Word), s.phase = .idle →
    s.Writes 0x000 w
      { s with
        cmdLatch := w, done := false, err := false, errCode := 0x00, cmdOvr := false
        lastOp := w.extractLsb' 0 8, phase := .running
        delay := Config.latency s.accepted, accepted := s.accepted + 1 }

/-- 60_exceptions.md R321, 20_memory.md R87: while a command runs, a CMD write sets CMD_OVR and nothing else, every
other write is ignored, a read of STATUS returns its value, and any other read returns a free value (log 4). Waiting
costs one step of the delay (log 5). -/
def Obligations.HostAccessWhileBusy : Prop :=
  ∀ (s : State) (d : Nat) (q : List HostAction), s.phase = .running → s.delay = d + 1 →
    (∀ w, step { s with hostQueue := .write 0x000 w :: q } =
      .next { s with hostQueue := q, delay := d, cmdOvr := true, busResp := some (.writeAck false) }) ∧
    (∀ a w : Word, a.toNat % 4 = 0 → a ≠ 0x000 → step { s with hostQueue := .write a w :: q } =
      .next { s with hostQueue := q, delay := d, busResp := some (.writeAck false) }) ∧
    (step { s with hostQueue := .read 0x004 :: q } =
      .next { s with hostQueue := q, delay := d, busResp := some (.readData false s.statusWord) }) ∧
    ∀ a : Word, a.toNat % 4 = 0 → a ≠ 0x004 → step { s with hostQueue := .read a :: q } =
      .next { s with
        hostQueue := q, delay := d, draws := s.draws + 1
        busResp := some (.readData false (Config.busyRead s.draws)) }

/-- 60_exceptions.md R324: every accepted command completes after a finite delay, and then exactly one of DONE and ERR
is 1. That State holds the delay as a number of steps, and that it counts down, is the model's choice (log 5). A reset
in between would abandon the command, so none stands among the host's actions that fall into the wait. -/
def Obligations.EveryCommandCompletes : Prop :=
  ∀ (n : Nat) (s : State), s.phase = .running → s.delay = n → s.StatusInv → s.TreeInv →
    HostAction.reset ∉ s.hostQueue.take n →
    ∃ t : State, core.run (n + 1) s = .next t ∧ t.phase = .idle ∧ t.done = !t.err

/-- 60_exceptions.md R324 over the invariant of 10_state.md R39: no step faults or refuses. -/
def Obligations.EveryStepGoesOn : Prop :=
  ∀ s : State, s.TreeInv → ∃ t, step s = .next t

/-! ### Host accesses -/

/-- 20_memory.md R83, R84: a misaligned access is answered with a bus error, a read with 0, and changes no state of
the machine; an unmapped address reads as 0 and ignores writes; a read-only one ignores writes, W3 of a NODE slot among
them (R85, R86; log 9); CMD reads as 0. The response held in State is the model's form (log 14). -/
def Obligations.AccessesWithoutEffect : Prop :=
  (∀ (s : State) (a d : Word) (q : List HostAction), s.phase = .idle → a.toNat % 4 ≠ 0 →
    step { s with hostQueue := .read a :: q } =
      .next { s with hostQueue := q, busResp := some (.readData true 0) } ∧
    step { s with hostQueue := .write a d :: q } =
      .next { s with hostQueue := q, busResp := some (.writeAck true) }) ∧
  ∀ (s : State) (a : Nat) (d : Word), s.phase = .idle → s.params.wf = true → a < 2 ^ 32 → a % 4 = 0 →
    (UnmappedAddr s.ibufSize s.obufSize a → s.Reads a 0 ∧ s.Writes a d s) ∧
    (ReadOnlyAddr a → s.Writes a d s) ∧
    s.Reads 0x000 0

/-- 10_state.md R32, R34, R41 to R54: what every readable register reads as: the fields of STATUS, then the others, LO
halves before HI halves. -/
def Obligations.RegisterMap : Prop :=
  ∀ s : State, s.phase = .idle →
    (∃ d : Word, s.Reads 0x004 d ∧
      d.getLsbD 0 = s.busy ∧ d.getLsbD 1 = s.done ∧ d.getLsbD 2 = s.err ∧ d.getLsbD 3 = s.treeValid ∧
      d.getLsbD 4 = s.codesValid ∧ d.getLsbD 5 = s.cmdOvr ∧ d.extractLsb' 6 2 = 0 ∧
      d.extractLsb' 8 8 = s.errCode ∧ d.extractLsb' 16 8 = s.lastOp ∧ d.extractLsb' 24 8 = 0) ∧
    s.Reads 0x008 (s.result.zeroExtend 32) ∧
    s.Reads 0x00C (s.srcLen.extractLsb' 0 32) ∧ s.Reads 0x010 (s.srcLen.extractLsb' 32 32) ∧
    s.Reads 0x014 (s.orig.extractLsb' 0 32) ∧ s.Reads 0x018 (s.orig.extractLsb' 32 32) ∧
    s.Reads 0x01C (s.payload.extractLsb' 0 32) ∧ s.Reads 0x020 (s.payload.extractLsb' 32 32) ∧
    s.Reads 0x024 (s.metaSize.extractLsb' 0 32) ∧ s.Reads 0x028 (s.metaSize.extractLsb' 32 32) ∧
    s.Reads 0x02C (s.bw.wrptr.extractLsb' 0 32) ∧ s.Reads 0x030 (s.bw.wrptr.extractLsb' 32 32) ∧
    (∃ d, s.Reads 0x034 d ∧ d.extractLsb' 0 8 = s.bw.cur ∧ d.extractLsb' 8 3 = s.bw.pos ∧ d.extractLsb' 11 21 = 0) ∧
    s.Reads 0x038 (s.bw.bits.extractLsb' 0 32) ∧ s.Reads 0x03C (s.bw.bits.extractLsb' 32 32) ∧
    s.Reads 0x040 (s.bw.bytes.extractLsb' 0 32) ∧ s.Reads 0x044 (s.bw.bytes.extractLsb' 32 32) ∧
    (∃ d, s.Reads 0x048 d ∧ d.extractLsb' 0 8 = s.br.cur ∧ d.extractLsb' 8 3 = s.br.cursor ∧ d.extractLsb' 11 21 = 0) ∧
    s.Reads 0x04C (s.br.rdptr.extractLsb' 0 32) ∧ s.Reads 0x050 (s.br.rdptr.extractLsb' 32 32) ∧
    s.Reads 0x054 (s.br.bits.extractLsb' 0 32) ∧ s.Reads 0x058 (s.br.bits.extractLsb' 32 32) ∧
    s.Reads 0x05C (s.br.bytes.extractLsb' 0 32) ∧ s.Reads 0x060 (s.br.bytes.extractLsb' 32 32) ∧
    (∃ d, s.Reads 0x064 d ∧ d.extractLsb' 0 9 = s.root ∧ d.extractLsb' 16 10 = s.nodeCount ∧
      d.extractLsb' 9 7 = 0 ∧ d.extractLsb' 26 6 = 0) ∧
    s.Reads 0x068 (match s.params.headerOrder with | .le => 0 | .be => 1) ∧
    s.Reads 0x06C s.params.ibufSize ∧ s.Reads 0x070 s.params.obufSize

/-- 20_memory.md R81, R85: what the words of the windows read as. -/
def Obligations.WindowReads : Prop :=
  ∀ s : State, s.phase = .idle → s.params.wf = true →
    (∀ sym : Byte,
      s.Reads (0x1000 + 8 * sym.toNat) ((freqOf s.freq sym).extractLsb' 0 32) ∧
      s.Reads (0x1004 + 8 * sym.toNat) ((freqOf s.freq sym).extractLsb' 32 32) ∧
      s.Reads (0x2000 + 4 * sym.toNat) ((s.codeLenOf sym).zeroExtend 32) ∧
      ∀ w < 8, ∃ d, s.Reads (0x4000 + 32 * sym.toNat + 4 * w) d ∧
        ∀ j < 32, d.getLsbD j = (s.codeBitsOf sym).getLsbD (32 * w + j)) ∧
    (∀ i : NodeIdx,
      (∃ d, s.Reads (0x8000 + 16 * i.toNat) d ∧ d.extractLsb' 0 8 = (s.node i).sym ∧ d.getLsbD 8 = (s.node i).lp ∧
        d.getLsbD 9 = (s.node i).rp ∧ d.extractLsb' 10 9 = (s.node i).left ∧
        d.extractLsb' 19 9 = (s.node i).right ∧ d.extractLsb' 28 4 = 0) ∧
      s.Reads (0x8004 + 16 * i.toNat) ((s.node i).freq.extractLsb' 0 32) ∧
      s.Reads (0x8008 + 16 * i.toNat) ((s.node i).freq.extractLsb' 32 32) ∧
      s.Reads (0x800C + 16 * i.toNat) 0) ∧
    (∀ a, a % 4 = 0 → a < s.ibufSize → ∃ d, s.Reads (0x01000000 + a) d ∧
      ∀ k < 4, d.extractLsb' (8 * k) 8 = s.ibufByte (a + k)) ∧
    ∀ a, a % 4 = 0 → a < s.obufSize → ∃ d, s.Reads (0x02000000 + a) d ∧
      ∀ k < 4, d.extractLsb' (8 * k) 8 = s.obufByte (a + k)

/-- 10_state.md R42, R52, 20_memory.md R86: a host write of half of SRC_LEN stores that half, a host write of TREE
stores ROOT and NODE_COUNT and clears both validity flags; neither changes anything else. -/
def Obligations.RegisterWrites : Prop :=
  ∀ (s : State) (d : Word), s.phase = .idle →
    s.Writes 0x00C d { s with srcLen := s.srcLen.extractLsb' 32 32 ++ d } ∧
    s.Writes 0x010 d { s with srcLen := d ++ s.srcLen.extractLsb' 0 32 } ∧
    s.Writes 0x064 d { s with
      root := d.extractLsb' 0 9, nodeCount := d.extractLsb' 16 10, treeValid := false, codesValid := false }

/-- 20_memory.md R81, R85, R86: a host write to FREQ, NODE, IBUF or OBUF stores what it writes and nothing else, and a
write of W0, W1 or W2 of a NODE slot clears both validity flags besides. -/
def Obligations.WindowWrites : Prop :=
  ∀ (s : State) (d : Word), s.phase = .idle → s.params.wf = true →
    (∀ sym : Byte,
      (∃ f, s.Writes (0x1000 + 8 * sym.toNat) d { s with freq := f } ∧ ∀ b, freqOf f b =
        if b = sym then (freqOf s.freq sym).extractLsb' 32 32 ++ d else freqOf s.freq b) ∧
      ∃ f, s.Writes (0x1004 + 8 * sym.toNat) d { s with freq := f } ∧ ∀ b, freqOf f b =
        if b = sym then d ++ (freqOf s.freq sym).extractLsb' 0 32 else freqOf s.freq b) ∧
    (∀ i : NodeIdx,
      (∃ t, s.Writes (0x8000 + 16 * i.toNat) d t ∧
        t = { s with nodes := t.nodes, treeValid := false, codesValid := false } ∧
        (t.node i).sym = d.extractLsb' 0 8 ∧ (t.node i).lp = d.getLsbD 8 ∧ (t.node i).rp = d.getLsbD 9 ∧
        (t.node i).left = d.extractLsb' 10 9 ∧ (t.node i).right = d.extractLsb' 19 9 ∧
        (t.node i).freq = (s.node i).freq ∧ ∀ j ≠ i, t.node j = s.node j) ∧
      (∃ t, s.Writes (0x8004 + 16 * i.toNat) d t ∧
        t = { s with nodes := t.nodes, treeValid := false, codesValid := false } ∧
        t.node i = { s.node i with freq := (s.node i).freq.extractLsb' 32 32 ++ d } ∧ ∀ j ≠ i, t.node j = s.node j) ∧
      ∃ t, s.Writes (0x8008 + 16 * i.toNat) d t ∧
        t = { s with nodes := t.nodes, treeValid := false, codesValid := false } ∧
        t.node i = { s.node i with freq := d ++ (s.node i).freq.extractLsb' 0 32 } ∧ ∀ j ≠ i, t.node j = s.node j) ∧
    (∀ a, a % 4 = 0 → a < s.ibufSize → ∃ t, s.Writes (0x01000000 + a) d t ∧ t = { s with ibuf := t.ibuf } ∧
      (∀ k < 4, t.ibufByte (a + k) = d.extractLsb' (8 * k) 8) ∧
      ∀ b, b < a ∨ a + 4 ≤ b → t.ibufByte b = s.ibufByte b) ∧
    ∀ a, a % 4 = 0 → a < s.obufSize → ∃ t, s.Writes (0x02000000 + a) d t ∧ t = { s with obuf := t.obuf } ∧
      (∀ k < 4, t.obufByte (a + k) = d.extractLsb' (8 * k) 8) ∧
      ∀ b, b < a ∨ a + 4 ≤ b → t.obufByte b = s.obufByte b

/-! ### Reset -/

/-- 70_reset_and_hazards.md R360: every row of its table that gives a value, for every instance. The rows "unspecified"
(CMD_LATCH, NODE, IBUF, OBUF) say nothing, and neither does this. -/
def Obligations.ResetState : Prop :=
  ∀ (p : Params) (e : Nat) (s : State), s = State.resetAs p e →
    s.busy = false ∧ s.done = false ∧ s.err = false ∧ s.treeValid = false ∧ s.codesValid = false ∧ s.cmdOvr = false ∧
    s.errCode = 0x00 ∧ s.lastOp = 0x00 ∧ s.phase = .idle ∧ s.result = 0 ∧ s.srcLen = 0 ∧
    s.orig = 0 ∧ s.payload = 0 ∧ s.metaSize = 0 ∧
    s.bw.cur = 0 ∧ s.bw.pos = 0 ∧ s.bw.wrptr = 0 ∧ s.bw.bits = 0 ∧ s.bw.bytes = 0 ∧
    s.br.cur = 0 ∧ s.br.cursor = 0 ∧ s.br.rdptr = 0 ∧ s.br.bits = 0 ∧ s.br.bytes = 0 ∧
    s.root = 0 ∧ s.nodeCount = 0 ∧ s.params = p ∧
    (∀ sym, freqOf s.freq sym = 0 ∧ s.codeLenOf sym = 0 ∧ s.codeBitsOf sym = 0)

/-- 70_reset_and_hazards.md R361: a reset while idle, or while a command runs and has not completed, abandons the
command and gives the reset state of the same instance. What survives is the model's own (log 15): the host's coming
actions and the counters of free values. -/
def Obligations.PlatformReset : Prop :=
  ∀ (s : State) (q : List HostAction), (s.phase = .idle ∨ s.delay ≠ 0) →
    step { s with hostQueue := .reset :: q } =
      .next { State.resetAs s.params (s.epoch + 1) with
        hostQueue := q, accepted := s.accepted, draws := s.draws }

/-- Every invariant holds after reset, for every legal instance. -/
def Obligations.ResetMeetsInvariants : Prop :=
  (∀ (p : Params) (e : Nat), p.wf = true → (State.resetAs p e).Inv) ∧ State.reset.Inv

/-! ### Invariants of every step -/

/-- 10_state.md R35, and the sentence of R38 that CODES_VALID falls whenever TREE_VALID does: every step keeps the
STATUS invariants. -/
def Obligations.StatusInvariant : Prop :=
  ∀ s t : State, s.StatusInv → step s = .next t → t.StatusInv

/-- 10_state.md R46, R47: every step keeps the unwritten bits of BW_CUR zero and BW_WRPTR <= OBUF_SIZE. -/
def Obligations.WriterInvariant : Prop :=
  ∀ s t : State, s.WriterInv → step s = .next t → t.WriterInv

/-- Every step keeps the parameters legal and the three memories in canonical form inside their sizes (20_memory.md
R80). -/
def Obligations.MemoryInvariant : Prop :=
  ∀ s t : State, s.MemoryInv → step s = .next t → t.MemoryInv

/-- 10_state.md R39: every step keeps it that TREE_VALID = 1 only over a tree. -/
def Obligations.TreeInvariant : Prop :=
  ∀ s t : State, s.TreeInv → step s = .next t → t.TreeInv

/-- 10_state.md R40, R57, 43_code_table_gen.md R242 (a): every step keeps it that CODES_VALID = 1 only over the codes of
the current tree, and that no bit of CODE_BITS stands at or above CODE_LEN. -/
def Obligations.CodesInvariant : Prop :=
  ∀ s t : State, s.TreeInv → s.CodesInv → s.CodeTailZero → step s = .next t → t.CodesInv ∧ t.CodeTailZero

/-- 10_state.md R40, 43_code_table_gen.md R242 (a), (b): while CODES_VALID = 1, a symbol has a code exactly when a leaf
carries it, and no code is a prefix of another symbol's. -/
def Obligations.CodesPrefixFree : Prop :=
  ∀ (s : State) (sh : Shape), s.CodesInv → s.codesValid = true → s.HoldsTree sh →
    (∀ sym, s.codeLenOf sym ≠ 0 ↔ ∃ p, (sym, p) ∈ sh.codes) ∧
    ∀ a b, s.codeLenOf a ≠ 0 → s.codeLenOf b ≠ 0 → a ≠ b → ¬ s.codeBitsList a <+: s.codeBitsList b

/-! ### Rules about all commands -/

/-- 10_state.md R36, R42, R43, R52 to R55, R57, R59, 41_bit_reader.md R190: no command's completion changes the
parameters, SRC_LEN, IBUF, CMD_LATCH, LAST_OP, CMD_OVR or anything of the host's, and each block writes only its own
state; ENC_COMPRESS writes CODE too (log 12). TB_ADOPT leaves the arena, its failure included: that this releases nothing
follows 42_tree_builder.md R221 and 60_exceptions.md R341 (log 10). -/
def Obligations.CommandsWriteOnlyTheirState : Prop :=
  ∀ (i : Instr) (s t : State), exec i s = .next t →
    t.phase = .idle ∧ t.params = s.params ∧ t.srcLen = s.srcLen ∧ t.ibuf = s.ibuf ∧ t.cmdLatch = s.cmdLatch ∧
    t.lastOp = s.lastOp ∧ t.cmdOvr = s.cmdOvr ∧ t.busResp = s.busResp ∧ t.hostQueue = s.hostQueue ∧
    t.delay = s.delay ∧ t.accepted = s.accepted ∧ t.draws = s.draws ∧ t.epoch = s.epoch ∧
    (i.usesWriter = false → t.bw = s.bw ∧ t.obuf = s.obuf) ∧
    (i.usesReader = false → t.br = s.br) ∧
    (i.writesArena = false → t.nodes = s.nodes ∧ t.root = s.root ∧ t.nodeCount = s.nodeCount) ∧
    (i.writesArena = false → i ≠ .tbAdopt → t.treeValid = s.treeValid) ∧
    (i.writesArena = false → i ≠ .tbAdopt → i ≠ .ctGen → t.codesValid = s.codesValid) ∧
    (i ≠ .tbCount → i ≠ .encCompress → t.freq = s.freq) ∧
    (i ≠ .ctGen → i ≠ .encCompress → t.codeLen = s.codeLen ∧ t.codeBits = s.codeBits)

/-- 10_state.md R41, R43, R44, R45: RESULT changes only by the success of one of three commands, and which commands
write the three reported sizes. -/
def Obligations.ResultsWrittenOnly : Prop :=
  ∀ (i : Instr) (s t : State), exec i s = .next t →
    (s.err = false → (i ≠ .brGetBit ∧ i ≠ .brReadChar ∧ i ≠ .decDecodeSymbol) ∨ t.err = true →
      t.result = s.result) ∧
    (i ≠ .encWriteHeader → i ≠ .encCompress → i ≠ .decReadHeader → i ≠ .decDecompress → t.orig = s.orig) ∧
    (i ≠ .encCompress → i ≠ .decDecompress → t.payload = s.payload ∧ t.metaSize = s.metaSize)

/-- 60_exceptions.md R330, R346: a command that completes reports exactly one of success and an error, and the error is
one that the table gives that command. -/
def Obligations.ErrorsOfEachCommand : Prop :=
  ∀ (i : Instr) (s t : State), exec i s = .next t → s.done = false → s.err = false → s.errCode = 0 →
    (t.done = true ∧ t.err = false ∧ t.errCode = 0) ∨
    (t.done = false ∧ t.err = true ∧ t.errCode ∈ i.errorCodes)

/-- 41_bit_reader.md R183, 60_exceptions.md R331, R339, R345: the commands that read IBUF check SRC_LEN before anything
else, and those that need a tree refuse without one after that. -/
def Obligations.StartChecks : Prop :=
  (∀ (i : Instr) (s : State), s.ibufSize < s.srcLen.toNat →
    i ∈ [.tbCount, .brGetBit, .brReadChar, .encCompress, .decReadHeader, .decDeserializeTree, .decDecodeSymbol,
      .decDecompress] →
    exec i s = .next { s with err := true, errCode := 0x11, phase := .idle }) ∧
  ∀ s : State, s.treeValid = false →
    exec .ctGen s = .next { s with err := true, errCode := 0x42, phase := .idle } ∧
    exec .encSerializeTree s = .next { s with err := true, errCode := 0x42, phase := .idle } ∧
    (s.srcLen.toNat ≤ s.ibufSize →
      exec .decDecodeSymbol s = .next { s with err := true, errCode := 0x42, phase := .idle })

/-! ### bit_writer -/

/-- 40_bit_writer.md R153, R157: BW_INIT and BW_RESET_COUNTS. -/
def Obligations.BwInitAndResetCounts : Prop :=
  ∀ s : State,
    exec .bwInit s = .next { s with
      bw := { cur := 0, pos := 0, wrptr := 0, bits := 0, bytes := 0 }, done := true, phase := .idle } ∧
    exec .bwResetCounts s = .next { s with bw := { s.bw with bits := 0, bytes := 0 }, done := true, phase := .idle }

/-- 40_bit_writer.md R150, R154: BW_ADD_BIT, its three cases. -/
def Obligations.BwAddBit : Prop :=
  ∀ (b : Bool) (s : State),
    (s.bw.pos = 7 → s.obufSize ≤ s.bw.wrptr.toNat →
      exec (.bwAddBit b) s = .next { s with err := true, errCode := 0x12, phase := .idle }) ∧
    (s.bw.pos = 7 → s.bw.wrptr.toNat < s.obufSize → ∃ t, exec (.bwAddBit b) s = .next t ∧
      t = { s with
        bw := ⟨0, 0, s.bw.wrptr + 1, s.bw.bits + 1, s.bw.bytes + 1⟩, obuf := t.obuf, done := true, phase := .idle } ∧
      ∀ a, t.obufByte a =
        if a = s.bw.wrptr.toNat then s.bw.cur ||| (if b then 0x01 else 0x00) else s.obufByte a) ∧
    (s.bw.pos ≠ 7 → exec (.bwAddBit b) s = .next { s with
      bw := { s.bw with
        cur := s.bw.cur ||| (if b then (0x80 : Byte) >>> s.bw.pos.toNat else 0x00)
        pos := s.bw.pos + 1, bits := s.bw.bits + 1 }
      done := true, phase := .idle })

/-- 40_bit_writer.md R151, R155: BW_WRITE_CHAR, which adds its eight bits or those before the flush that finds OBUF
full. The premise is the invariant of 10_state.md R46. -/
def Obligations.BwWriteChar : Prop :=
  ∀ (v : Byte) (s : State), s.WriterTailZero →
    (s.bw.wrptr.toNat < s.obufSize → ∃ t, exec (.bwWriteChar v) s = .next t ∧ s.WroteBits t (byteBits v) ∧
      t = { s with bw := t.bw, obuf := t.obuf, done := true, phase := .idle }) ∧
    (s.obufSize ≤ s.bw.wrptr.toNat → ∃ t, exec (.bwWriteChar v) s = .next t ∧
      s.WroteBits t ((byteBits v).take (7 - s.bw.pos.toNat)) ∧
      t = { s with bw := t.bw, obuf := t.obuf, err := true, errCode := 0x12, phase := .idle })

/-- 40_bit_writer.md R152, R156: BW_PAD. -/
def Obligations.BwPad : Prop :=
  ∀ s : State, s.WriterTailZero →
    (s.bw.pos = 0 → exec .bwPad s = .next { s with done := true, phase := .idle }) ∧
    (s.bw.pos ≠ 0 → s.bw.wrptr.toNat < s.obufSize → ∃ t, exec .bwPad s = .next t ∧
      s.WroteBits t (List.replicate (8 - s.bw.pos.toNat) true) ∧ t.bw.pos = 0 ∧
      t = { s with bw := t.bw, obuf := t.obuf, done := true, phase := .idle }) ∧
    (s.bw.pos ≠ 0 → s.obufSize ≤ s.bw.wrptr.toNat → ∃ t, exec .bwPad s = .next t ∧
      s.WroteBits t (List.replicate (7 - s.bw.pos.toNat) true) ∧
      t = { s with bw := t.bw, obuf := t.obuf, err := true, errCode := 0x12, phase := .idle })

/-- 40_bit_writer.md R158: after BW_INIT and any sequence of successful writer commands that add the bits `bs`. -/
def Obligations.WriterStream : Prop :=
  ∀ (is : List Instr) (bs : List Bool) (s t : State), writerBits is [] = some bs →
    execAll (.bwInit :: is) s = some t → s.err = false →
    t.bw.wrptr.toNat = bs.length / 8 ∧ t.bw.pos.toNat = bs.length % 8 ∧
    (∀ j < bs.length / 8, t.obufByte j = byteOfBits ((bs.drop (8 * j)).take 8)) ∧
    (.bwResetCounts ∉ is → t.bw.bits.toNat = bs.length ∧ t.bw.bytes.toNat = bs.length / 8) ∧
    ∀ is₁ is₂ bs₁, is = is₁ ++ .bwResetCounts :: is₂ → .bwResetCounts ∉ is₂ → writerBits is₁ [] = some bs₁ →
      t.bw.bits.toNat = bs.length - bs₁.length ∧ t.bw.bytes.toNat = bs.length / 8 - bs₁.length / 8

/-! ### bit_reader -/

/-- 41_bit_reader.md R182, R184, R185, R189: BR_INIT, BR_RESET_COUNTS and BR_ALIGN. -/
def Obligations.BrInitResetAlign : Prop :=
  ∀ s : State,
    exec .brInit s = .next { s with
      br := { cur := 0, cursor := 0, rdptr := 0, bits := 0, bytes := 0 }, done := true, phase := .idle } ∧
    exec .brResetCounts s = .next { s with br := { s.br with bits := 0, bytes := 0 }, done := true, phase := .idle } ∧
    exec .brAlign s = .next { s with br := { s.br with cursor := 0 }, done := true, phase := .idle }

/-- 41_bit_reader.md R180, R186: BR_GET_BIT, its cases behind CheckSrc. -/
def Obligations.BrGetBit : Prop :=
  ∀ s : State, s.srcLen.toNat ≤ s.ibufSize →
    (s.br.cursor = 0 → s.srcLen.toNat ≤ s.br.rdptr.toNat →
      exec .brGetBit s = .next { s with err := true, errCode := 0x32, phase := .idle }) ∧
    (s.br.cursor = 0 → s.br.rdptr.toNat < s.srcLen.toNat → exec .brGetBit s = .next { s with
      result := if (s.ibufByte s.br.rdptr.toNat).getLsbD 7 then 1 else 0
      br := ⟨s.ibufByte s.br.rdptr.toNat, 1, s.br.rdptr + 1, s.br.bits + 1, s.br.bytes + 1⟩
      done := true, phase := .idle }) ∧
    (s.br.cursor ≠ 0 → exec .brGetBit s = .next { s with
      result := if s.br.cur.getLsbD (7 - s.br.cursor.toNat) then 1 else 0
      br := { s.br with cursor := s.br.cursor + 1, bits := s.br.bits + 1 }
      done := true, phase := .idle })

/-- 41_bit_reader.md R181, R187, R188: BR_READ_CHAR behind CheckSrc: the next eight bits high to low, or all the bits
that are left and FMT_TRUNCATED. -/
def Obligations.BrReadChar : Prop :=
  ∀ s : State, s.srcLen.toNat ≤ s.ibufSize →
    (8 ≤ s.unread.length → ∃ t, exec .brReadChar s = .next t ∧ s.ReadOn t 8 ∧
      byteBits t.result = s.unread.take 8 ∧
      t = { s with result := t.result, br := t.br, done := true, phase := .idle }) ∧
    (s.unread.length < 8 → ∃ t, exec .brReadChar s = .next t ∧ s.ReadOn t s.unread.length ∧
      t = { s with br := t.br, err := true, errCode := 0x32, phase := .idle })

/-! ### tree_builder -/

/-- 42_tree_builder.md R210, R211: TB_COUNT behind CheckSrc. -/
def Obligations.TbCount : Prop :=
  ∀ s : State, s.srcLen.toNat ≤ s.ibufSize → ∃ t, exec .tbCount s = .next t ∧
    t = { s with freq := t.freq, done := true, phase := .idle } ∧
    ∀ sym, (freqOf t.freq sym).toNat = (s.ibufBytes 0 s.srcLen.toNat).count sym

/-- 42_tree_builder.md R213, R215 to R220: TB_BUILD makes the tree of greedy merging with the fixed tie-break, or
releases the arena and reports ARG_FREQ_OVERFLOW. -/
def Obligations.TbBuild : Prop :=
  ∀ s : State,
    (∀ sh, huffmanTree s.freq = some sh → ∃ t, exec .tbBuild s = .next t ∧
      t = { s with
        treeValid := true, codesValid := false, root := t.root, nodeCount := t.nodeCount, nodes := t.nodes
        done := true, phase := .idle } ∧
      t.HoldsTree sh ∧ t.nodeCount.toNat = sh.size ∧ t.root.toNat = t.nodeCount.toNat - 1 ∧
      ∀ i : NodeIdx, t.nodeCount.toNat ≤ i.toNat → t.node i = s.node i) ∧
    (huffmanTree s.freq = none → ∃ t, exec .tbBuild s = .next t ∧
      t = { s with
        treeValid := false, codesValid := false, root := 0, nodeCount := 0, nodes := t.nodes
        err := true, errCode := 0x47, phase := .idle })

/-- 42_tree_builder.md R214, R216, R217, R219, R222: the slots that a successful TB_BUILD leaves: one leaf per present
symbol in ascending order, above them the merges with the sum of their children's frequencies, and the counts. -/
def Obligations.BuiltArena : Prop :=
  ∀ (s t : State) (syms : List Byte), exec .tbBuild s = .next t → t.treeValid = true → syms = presentSymbols s.freq →
    (∀ j (h : j < syms.length), t.node (BitVec.ofNat 9 j) = ⟨syms[j], false, false, 0, 0, freqOf s.freq syms[j]⟩) ∧
    (syms.length = 0 → t.nodeCount = 1 ∧ t.node 0 = ⟨0, false, false, 0, 0, 0⟩) ∧
    (∀ sym, syms = [sym] → t.nodeCount = 2 ∧ t.node 1 = ⟨0, true, false, 0, 0, freqOf s.freq sym⟩) ∧
    (2 ≤ syms.length → t.nodeCount.toNat = 2 * syms.length - 1 ∧
      ∀ i : NodeIdx, syms.length ≤ i.toNat → i.toNat < t.nodeCount.toNat →
        ∃ a b : NodeIdx, a.toNat < i.toNat ∧ b.toNat < i.toNat ∧ t.node i = ⟨0, true, true, a, b, (t.node i).freq⟩ ∧
          (t.node i).freq.toNat = (t.node a).freq.toNat + (t.node b).freq.toNat ∧
          ((t.node a).freq.toNat < (t.node b).freq.toNat ∨
            ((t.node a).freq = (t.node b).freq ∧ a.toNat < b.toNat)))

/-- 42_tree_builder.md R223: the tree depends on FREQ alone. -/
def Obligations.BuildDeterministic : Prop :=
  ∀ s s' t t' : State, s.freq = s'.freq → exec .tbBuild s = .next t → exec .tbBuild s' = .next t' →
    t.treeValid = t'.treeValid ∧ t.root = t'.root ∧ t.nodeCount = t'.nodeCount ∧
    ∀ i : NodeIdx, i.toNat < t.nodeCount.toNat → t.node i = t'.node i

/-- 42_tree_builder.md R224, 60_exceptions.md R344: with the counts that TB_COUNT makes, TB_BUILD succeeds. -/
def Obligations.CountedBuildSucceeds : Prop :=
  ∀ s t : State, s.srcLen.toNat ≤ s.ibufSize → exec .tbCount s = .next t →
    ∃ u, exec .tbBuild t = .next u ∧ u.done = true ∧ u.treeValid = true ∧ u.err = t.err

/-- 42_tree_builder.md R225, 43_code_table_gen.md R242 (c): CT_GEN on a tree that TB_BUILD made never fails, every code
has between 1 and 255 bits, and with two or more symbols the codes fill the code space. -/
def Obligations.BuiltTreeHasCodes : Prop :=
  ∀ s t : State, exec .tbBuild s = .next t → t.treeValid = true →
    ∃ u, exec .ctGen t = .next u ∧ u.done = true ∧ u.err = t.err ∧ u.codesValid = true ∧
      (∀ sym, u.codeLenOf sym ≠ 0 ↔ freqOf s.freq sym ≠ 0) ∧
      (2 ≤ (presentSymbols s.freq).length →
        ((presentSymbols s.freq).map fun sym => 2 ^ (255 - (u.codeLenOf sym).toNat)).sum = 2 ^ 255)

/-- 42_tree_builder.md R221, 60_exceptions.md R341: TB_ADOPT accepts exactly the arenas of 10_state.md R39. That its
failure releases nothing follows those two rules (log 10). -/
def Obligations.TbAdopt : Prop :=
  ∀ s : State,
    (s.ArenaIsTree → exec .tbAdopt s = .next { s with
      treeValid := true, codesValid := false, done := true, phase := .idle }) ∧
    (¬ s.ArenaIsTree → exec .tbAdopt s = .next { s with
      treeValid := false, codesValid := false, err := true, errCode := 0x44, phase := .idle })

/-! ### code_table_gen -/

/-- 43_code_table_gen.md R240, R241: CT_GEN over a tree whose symbols are distinct and whose codes fit. -/
def Obligations.CtGen : Prop :=
  ∀ (s : State) (sh : Shape), s.treeValid = true → s.HoldsTree sh → CodesOk sh.codes →
    ∃ t, exec .ctGen s = .next t ∧
      t = { s with codesValid := true, codeLen := t.codeLen, codeBits := t.codeBits, done := true, phase := .idle } ∧
      t.CodesAre sh.codes ∧ t.CodeTailZero

/-- 43_code_table_gen.md R240, R241, 60_exceptions.md R342, R343, R345: CT_GEN over a tree with a first leaf, in
preorder, that is too deep or repeats a symbol. The codes before it stay written. -/
def Obligations.CtGenFails : Prop :=
  ∀ (s : State) (sh : Shape) (pre post : List (Byte × List Bool)) (sym : Byte) (p : List Bool),
    s.treeValid = true → s.HoldsTree sh → sh.codes = pre ++ (sym, p) :: post → CodesOk pre →
    ((Config.codeMaxLen < p.length ∨ sym ∈ pre.map Prod.fst) →
      ∃ t, exec .ctGen s = .next t ∧
        t = { s with
          codesValid := false, codeLen := t.codeLen, codeBits := t.codeBits, err := true
          errCode := if Config.codeMaxLen < p.length then 0x46 else 0x45
          phase := .idle } ∧
        t.CodesAre pre)

/-! ### huffman_encoder -/

/-- 44_huffman_encoder.md R260, R264: ENC_WRITE_HEADER writes the eight bytes of SRC_LEN, the least significant first
under LE and the most significant first under BE, and ORIG in any case. -/
def Obligations.EncWriteHeader : Prop :=
  ∀ (s : State) (bytes : List Byte), s.WriterTailZero →
    bytes = (List.range 8).map (fun j => s.srcLen.extractLsb'
      (match s.params.headerOrder with | .le => 8 * j | .be => 56 - 8 * j) 8) →
    (s.HasRoom 64 → ∃ t, exec .encWriteHeader s = .next t ∧ s.WroteBits t (bytes.flatMap byteBits) ∧
      t = { s with orig := s.srcLen, bw := t.bw, obuf := t.obuf, done := true, phase := .idle }) ∧
    (¬ s.HasRoom 64 → ∃ t as, exec .encWriteHeader s = .next t ∧ as <+: bytes.flatMap byteBits ∧ s.WroteBits t as ∧
      t.bw.pos = 7 ∧ s.obufSize ≤ t.bw.wrptr.toNat ∧
      t = { s with orig := s.srcLen, bw := t.bw, obuf := t.obuf, err := true, errCode := 0x12, phase := .idle })

/-- 44_huffman_encoder.md R261, R265, R266: ENC_SERIALIZE_TREE writes the 10N - 8 bits of the tree, or those before the
flush that finds OBUF full. -/
def Obligations.EncSerializeTree : Prop :=
  ∀ (s : State) (sh : Shape), s.WriterTailZero → s.treeValid = true → s.HoldsTree sh →
    sh.treeBits.length = 10 * sh.size - 8 ∧
    (s.HasRoom (10 * sh.size - 8) → ∃ t, exec .encSerializeTree s = .next t ∧ s.WroteBits t sh.treeBits ∧
      t = { s with bw := t.bw, obuf := t.obuf, done := true, phase := .idle }) ∧
    (¬ s.HasRoom (10 * sh.size - 8) → ∃ t as, exec .encSerializeTree s = .next t ∧ as <+: sh.treeBits ∧
      s.WroteBits t as ∧ t.bw.pos = 7 ∧ s.obufSize ≤ t.bw.wrptr.toNat ∧
      t = { s with bw := t.bw, obuf := t.obuf, err := true, errCode := 0x12, phase := .idle })

/-- 44_huffman_encoder.md R262, R268, 60_exceptions.md R340: ENC_ENCODE_SYMBOL. -/
def Obligations.EncEncodeSymbol : Prop :=
  ∀ (sym : Byte) (s : State), s.WriterTailZero →
    (s.codesValid = false ∨ s.codeLenOf sym = 0 →
      exec (.encEncodeSymbol sym) s = .next { s with err := true, errCode := 0x43, phase := .idle }) ∧
    (s.codesValid = true → s.codeLenOf sym ≠ 0 → s.HasRoom (s.codeLenOf sym).toNat →
      ∃ t, exec (.encEncodeSymbol sym) s = .next t ∧
        s.WroteBits t ((List.range (s.codeLenOf sym).toNat).map (s.codeBitsOf sym).getLsbD) ∧
        t = { s with bw := t.bw, obuf := t.obuf, done := true, phase := .idle }) ∧
    (s.codesValid = true → s.codeLenOf sym ≠ 0 → ¬ s.HasRoom (s.codeLenOf sym).toNat →
      ∃ t as, exec (.encEncodeSymbol sym) s = .next t ∧
        as <+: (List.range (s.codeLenOf sym).toNat).map (s.codeBitsOf sym).getLsbD ∧
        s.WroteBits t as ∧ t.bw.pos = 7 ∧ s.obufSize ≤ t.bw.wrptr.toNat ∧
        t = { s with bw := t.bw, obuf := t.obuf, err := true, errCode := 0x12, phase := .idle })

/-- 44_huffman_encoder.md R270, R271, 42_tree_builder.md R217, 10_state.md R57, R59, 30_encoding.md R130 to R135:
ENC_COMPRESS of an input whose archive fits. That it writes CODE and CODES_VALID follows R270 (log 12). -/
def Obligations.EncCompress : Prop :=
  ∀ (s : State) (xs archive : List Byte), s.srcLen.toNat ≤ s.ibufSize → xs = s.ibufBytes 0 s.srcLen.toNat →
    archive = archiveOf s.params.headerOrder xs → archive.length ≤ s.obufSize →
    ∃ t sh, exec .encCompress s = .next t ∧ huffmanTree (countsOf xs) = some sh ∧
      t = { s with
        treeValid := true, codesValid := true, root := t.root, nodeCount := t.nodeCount, nodes := t.nodes
        freq := countsOf xs, codeLen := t.codeLen, codeBits := t.codeBits
        orig := s.srcLen, metaSize := t.metaSize, payload := t.payload, bw := t.bw, obuf := t.obuf
        done := true, phase := .idle } ∧
      t.HoldsTree sh ∧ t.nodeCount.toNat = sh.size ∧ t.root.toNat = t.nodeCount.toNat - 1 ∧
      (∀ i : NodeIdx, t.nodeCount.toNat ≤ i.toNat → t.node i = s.node i) ∧ t.CodesAre sh.codes ∧ t.CodeTailZero ∧
      t.obufBytes 0 archive.length = archive ∧ (∀ a, archive.length ≤ a → t.obufByte a = s.obufByte a) ∧
      t.metaSize.toNat = 8 + (10 * sh.size - 8 + 7) / 8 ∧
      t.payload.toNat = ((xs.map fun x => (t.codeLenOf x).toNat).sum + 7) / 8 ∧
      t.bw = ⟨0, 0, t.metaSize + t.payload, 8 * t.payload, t.payload⟩ ∧
      archive.length = t.metaSize.toNat + t.payload.toNat

/-- 44_huffman_encoder.md R270, R271, 60_exceptions.md R332: ENC_COMPRESS of an input whose archive does not fit fills
OBUF with a prefix of it and holds the first seven bits of the next byte; the tree and its codes are valid by then
(log 12). META and the counters stand at the boundary between the regions once the `front` bytes of header and tree are
all flushed, and before that at 0. -/
def Obligations.EncCompressOverflow : Prop :=
  ∀ (s : State) (xs archive : List Byte), s.srcLen.toNat ≤ s.ibufSize → xs = s.ibufBytes 0 s.srcLen.toNat →
    archive = archiveOf s.params.headerOrder xs → s.obufSize < archive.length →
    ∃ t sh front boundary, exec .encCompress s = .next t ∧ huffmanTree (countsOf xs) = some sh ∧
      front = 8 + (10 * sh.size - 8 + 7) / 8 ∧ boundary = (if s.obufSize < front then 0 else front) ∧
      t = { s with
        treeValid := true, codesValid := true, root := t.root, nodeCount := t.nodeCount, nodes := t.nodes
        freq := countsOf xs, codeLen := t.codeLen, codeBits := t.codeBits
        orig := s.srcLen, metaSize := BitVec.ofNat 64 boundary, payload := 0
        bw := {
          cur := archive.getD s.obufSize 0 &&& 0xFE, pos := 7, wrptr := BitVec.ofNat 64 s.obufSize
          bits := BitVec.ofNat 64 (8 * (s.obufSize - boundary) + 7), bytes := BitVec.ofNat 64 (s.obufSize - boundary) }
        obuf := t.obuf, err := true, errCode := 0x12, phase := .idle } ∧
      t.HoldsTree sh ∧ t.nodeCount.toNat = sh.size ∧ t.root.toNat = t.nodeCount.toNat - 1 ∧
      (∀ i : NodeIdx, t.nodeCount.toNat ≤ i.toNat → t.node i = s.node i) ∧ t.CodesAre sh.codes ∧ t.CodeTailZero ∧
      t.obufBytes 0 s.obufSize = archive.take s.obufSize ∧ ∀ a, s.obufSize ≤ a → t.obufByte a = s.obufByte a

/-! ### huffman_decoder -/

/-- 45_huffman_decoder.md R290, R291: DEC_READ_HEADER behind CheckSrc. -/
def Obligations.DecReadHeader : Prop :=
  ∀ s : State, s.srcLen.toNat ≤ s.ibufSize →
    (64 ≤ s.unread.length → ∃ t, exec .decReadHeader s = .next t ∧ s.ReadOn t 64 ∧
      (headerBytes s.params.headerOrder t.orig).flatMap byteBits = s.unread.take 64 ∧
      t = { s with orig := t.orig, br := t.br, done := true, phase := .idle }) ∧
    (s.unread.length < 64 → ∃ t, exec .decReadHeader s = .next t ∧ s.ReadOn t s.unread.length ∧
      t = { s with br := t.br, err := true, errCode := 0x32, phase := .idle })

/-- 45_huffman_decoder.md R292, R293, R294: DEC_DESERIALIZE_TREE on a stream that begins with a tree of at most 512
nodes: it reads the tree's bits and no more, and the nodes stand in preorder. -/
def Obligations.DecDeserializeTree : Prop :=
  ∀ (s : State) (sh : Shape) (rest : List Bool), s.srcLen.toNat ≤ s.ibufSize → sh ≠ .absent → sh.size ≤ 512 →
    s.unread = sh.treeBits ++ rest →
    ∃ t, exec .decDeserializeTree s = .next t ∧ s.ReadOn t (10 * sh.size - 8) ∧
      t = { s with
        treeValid := true, codesValid := false, root := 0, nodeCount := BitVec.ofNat 10 sh.size, nodes := t.nodes
        br := t.br, done := true, phase := .idle } ∧
      s.Rebuilt t sh

/-- 45_huffman_decoder.md R295, 60_exceptions.md R333, R335, 10_state.md R59: DEC_DESERIALIZE_TREE on any other stream
releases the arena. Either the stream ends inside the tree, all of it is consumed and the slots not allocated are
unchanged, or the reader stops just after the symbol byte of the 513th node. -/
def Obligations.DecDeserializeTreeFails : Prop :=
  ∀ s : State, s.srcLen.toNat ≤ s.ibufSize →
    (∀ (sh : Shape) (rest : List Bool), sh ≠ .absent → sh.size ≤ 512 → s.unread ≠ sh.treeBits ++ rest) →
    ∃ (t : State) (code : Byte) (used : Nat), exec .decDeserializeTree s = .next t ∧
      t = { s with
        treeValid := false, codesValid := false, root := 0, nodeCount := 0, nodes := t.nodes, br := t.br
        err := true, errCode := code, phase := .idle } ∧
      s.ReadOn t used ∧
      (code = 0x21 ∧ treeEnd s.unread = .full used ∨
        code = 0x32 ∧ used = s.unread.length ∧
          ∃ n, treeEnd s.unread = .truncated n ∧ ∀ i : NodeIdx, n ≤ i.toNat → t.node i = s.node i) ∧
      ((∃ (sh : Shape) (rest : List Bool), 512 < sh.size ∧ s.unread = sh.treeBits ++ rest) → code = 0x21)

/-- 45_huffman_decoder.md R297, R298, R299, 60_exceptions.md R334 to R336: DEC_DECODE_SYMBOL behind CheckSrc and over a
tree. -/
def Obligations.DecDecodeSymbol : Prop :=
  ∀ (s : State) (sh : Shape), s.srcLen.toNat ≤ s.ibufSize → s.treeValid = true → s.HoldsTree sh →
    (sh.isChildless = true →
      exec .decDecodeSymbol s = .next { s with err := true, errCode := 0x33, phase := .idle }) ∧
    (sh.isChildless = false → ∃ t, exec .decDecodeSymbol s = .next t ∧
      match sh.walkDown s.unread 0 with
      | .symbol sym used => s.ReadOn t used ∧
          t = { s with result := sym, br := t.br, done := true, phase := .idle }
      | .absentChild used => s.ReadOn t used ∧
          t = { s with br := t.br, err := true, errCode := 0x31, phase := .idle }
      | .truncated used => s.ReadOn t used ∧
          t = { s with br := t.br, err := true, errCode := 0x32, phase := .idle })

/-- 45_huffman_decoder.md R299: DecodeSymbol inverts EncodeSymbol: when the stream begins with the code of a symbol,
that symbol is decoded and exactly its code is read. -/
def Obligations.DecodeInvertsEncode : Prop :=
  ∀ (s : State) (sym : Byte), s.srcLen.toNat ≤ s.ibufSize → s.CodesInv → s.codesValid = true → s.codeLenOf sym ≠ 0 →
    s.codeBitsList sym <+: s.unread →
    ∃ t, exec .decDecodeSymbol s = .next t ∧ s.ReadOn t (s.codeLenOf sym).toNat ∧
      t = { s with result := sym, br := t.br, done := true, phase := .idle }

/-- 45_huffman_decoder.md R300, R303, 30_encoding.md R130 to R136: DEC_DECOMPRESS of an archive with any tree of at most
512 nodes, any padding, and anything after the payload. -/
def Obligations.DecDecompress : Prop :=
  ∀ (s : State) (sh : Shape) (xs tree rest : List Byte) (codes pad junk : List Bool),
    s.srcLen.toNat ≤ s.ibufSize →
    s.ibufBytes 0 s.srcLen.toNat =
      headerBytes s.params.headerOrder (BitVec.ofNat 64 xs.length) ++ (tree ++ rest) →
    tree.flatMap byteBits = sh.treeBits ++ pad → pad.length < 8 →
    codes = xs.flatMap (codeFor sh.codes) → rest.flatMap byteBits = codes ++ junk →
    sh ≠ .absent → sh.size ≤ 512 → (∀ x ∈ xs, ∃ p, (x, p) ∈ sh.codes) → xs.length ≤ s.obufSize →
    ∃ t, exec .decDecompress s = .next t ∧
      t = { s with
        treeValid := true, codesValid := false, root := 0, nodeCount := BitVec.ofNat 10 sh.size, nodes := t.nodes
        orig := BitVec.ofNat 64 xs.length, metaSize := BitVec.ofNat 64 (8 + tree.length)
        payload := BitVec.ofNat 64 ((codes.length + 7) / 8), br := s.readerAfter (8 + tree.length) codes.length
        bw := writerAfter xs.length, obuf := t.obuf, done := true, phase := .idle } ∧
      s.Unpacked t sh xs

/-- 45_huffman_decoder.md R300, 60_exceptions.md R336: DEC_DECOMPRESS of an archive with a positive count and a
childless root stops before any payload bit. -/
def Obligations.DecDecompressEmptyTree : Prop :=
  ∀ (s : State) (count : DWord) (rest : List Byte) (pad : List Bool), s.srcLen.toNat ≤ s.ibufSize → count ≠ 0 →
    s.ibufBytes 0 s.srcLen.toNat = headerBytes s.params.headerOrder count ++ rest →
    rest.flatMap byteBits = false :: false :: pad →
    ∃ t, exec .decDecompress s = .next t ∧
      t = { s with
        treeValid := true, codesValid := false, root := 0, nodeCount := 1, nodes := t.nodes
        orig := count, metaSize := 9, payload := 0, br := ⟨s.ibufByte 8, 0, 9, 0, 0⟩, bw := ⟨0, 0, 0, 0, 0⟩
        err := true, errCode := 0x33, phase := .idle } ∧
      t.HoldsTree (.leaf 0) ∧ t.node 0 = ⟨0, false, false, 0, 0, 0⟩ ∧
      ∀ i : NodeIdx, 1 ≤ i.toNat → t.node i = s.node i

/-- 45_huffman_decoder.md R295, R300, 60_exceptions.md R327, R333, R335: DEC_DECOMPRESS of an archive that ends inside
the header, or ends inside the tree, or has more than 512 nodes. The registers cleared at the start stay cleared, OBUF
is unchanged, ORIG is the header where there is a whole one, and the arena is released once the tree was begun. -/
def Obligations.DecDecompressNoTree : Prop :=
  ∀ s : State, s.srcLen.toNat ≤ s.ibufSize →
    (s.srcLen.toNat < 8 → exec .decDecompress s = .next { s with
      orig := 0, metaSize := 0, payload := 0, br := s.readerAfter 0 (8 * s.srcLen.toNat), bw := ⟨0, 0, 0, 0, 0⟩
      err := true, errCode := 0x32, phase := .idle }) ∧
    ∀ (count : DWord) (rest : List Byte),
      s.ibufBytes 0 s.srcLen.toNat = headerBytes s.params.headerOrder count ++ rest →
      (∀ n, treeEnd (rest.flatMap byteBits) = .truncated n → ∃ t, exec .decDecompress s = .next t ∧
        t = { s with
          treeValid := false, codesValid := false, root := 0, nodeCount := 0, nodes := t.nodes
          orig := count, metaSize := 0, payload := 0, br := s.readerAfter 0 (8 * s.srcLen.toNat), bw := ⟨0, 0, 0, 0, 0⟩
          err := true, errCode := 0x32, phase := .idle } ∧
        ∀ i : NodeIdx, n ≤ i.toNat → t.node i = s.node i) ∧
      ∀ used, treeEnd (rest.flatMap byteBits) = .full used → ∃ t, exec .decDecompress s = .next t ∧
        t = { s with
          treeValid := false, codesValid := false, root := 0, nodeCount := 0, nodes := t.nodes
          orig := count, metaSize := 0, payload := 0, br := s.readerAfter 0 (64 + used), bw := ⟨0, 0, 0, 0, 0⟩
          err := true, errCode := 0x21, phase := .idle }

/-- 45_huffman_decoder.md R297, R300, 60_exceptions.md R327, R332, R334, R335: the payload of DEC_DECOMPRESS under any
tree with a child and over any stream. While the tree decodes the symbols `xs` from the first `n` payload bits, they
are in OBUF; then the count is reached, or the next symbol finds OBUF full, or the next bits select a missing child, or
the stream ends. -/
def Obligations.DecDecompressPayload : Prop :=
  ∀ (s : State) (sh : Shape) (count : DWord) (xs tree rest : List Byte) (pad : List Bool) (n : Nat),
    s.srcLen.toNat ≤ s.ibufSize →
    s.ibufBytes 0 s.srcLen.toNat = headerBytes s.params.headerOrder count ++ (tree ++ rest) →
    tree.flatMap byteBits = sh.treeBits ++ pad → pad.length < 8 →
    sh ≠ .absent → sh.size ≤ 512 → sh.isChildless = false →
    sh.Decodes (rest.flatMap byteBits) xs n → xs.length ≤ s.obufSize →
    (xs.length = count.toNat → ∃ t, exec .decDecompress s = .next t ∧ s.Unpacked t sh xs ∧
      t = { s.inPayload t sh count tree.length n (writerAfter xs.length) with
        payload := BitVec.ofNat 64 ((n + 7) / 8), done := true, phase := .idle }) ∧
    (xs.length < count.toNat →
      (∀ sym k, sh.walkDown ((rest.flatMap byteBits).drop n) 0 = .symbol sym k → xs.length = s.obufSize →
        ∃ t, exec .decDecompress s = .next t ∧ s.Unpacked t sh xs ∧
          t = { s.inPayload t sh count tree.length (n + k) (writerBlocked xs.length sym) with
            err := true, errCode := 0x12, phase := .idle }) ∧
      (∀ k, sh.walkDown ((rest.flatMap byteBits).drop n) 0 = .absentChild k →
        ∃ t, exec .decDecompress s = .next t ∧ s.Unpacked t sh xs ∧
          t = { s.inPayload t sh count tree.length (n + k) (writerAfter xs.length) with
            err := true, errCode := 0x31, phase := .idle }) ∧
      ∀ k, sh.walkDown ((rest.flatMap byteBits).drop n) 0 = .truncated k →
        ∃ t, exec .decDecompress s = .next t ∧ s.Unpacked t sh xs ∧
          t = { s.inPayload t sh count tree.length (n + k) (writerAfter xs.length) with
            err := true, errCode := 0x32, phase := .idle })

/-! ### The whole codec -/

/-- 45_huffman_decoder.md R301, R302, R303: what ENC_COMPRESS wrote, copied to IBUF with anything behind it,
decompresses to the input, on this or another instance with the same HEADER_ORDER, with the same reported sizes. -/
def Obligations.RoundTrip : Prop :=
  ∀ s t s' : State, exec .encCompress s = .next t → t.err = false →
    s'.params.headerOrder = s.params.headerOrder → s'.srcLen.toNat ≤ s'.ibufSize →
    t.bw.wrptr.toNat ≤ s'.srcLen.toNat → s.srcLen.toNat ≤ s'.obufSize →
    (∀ a < t.bw.wrptr.toNat, s'.ibufByte a = t.obufByte a) →
    ∃ u, exec .decDecompress s' = .next u ∧ u.done = true ∧ u.err = s'.err ∧
      u.obufBytes 0 s.srcLen.toNat = s.ibufBytes 0 s.srcLen.toNat ∧ u.bw.wrptr = s.srcLen ∧
      u.orig = t.orig ∧ u.payload = t.payload ∧ u.metaSize = t.metaSize

/-- 10_state.md R61: the outcome of ENC_COMPRESS depends only on the parameters, SRC_LEN and the input bytes. That CODE
and CODES_VALID belong to its outcome follows 44_huffman_encoder.md R270 (log 12). -/
def Obligations.CompressDependsOnInputOnly : Prop :=
  ∀ s s' t t' : State, s.params = s'.params → s.srcLen = s'.srcLen → s.srcLen.toNat ≤ s.ibufSize →
    (∀ a < s.srcLen.toNat, s.ibufByte a = s'.ibufByte a) →
    s.done = false → s.err = false → s.errCode = 0 → s'.done = false → s'.err = false → s'.errCode = 0 →
    exec .encCompress s = .next t → exec .encCompress s' = .next t' →
    t.done = t'.done ∧ t.err = t'.err ∧ t.errCode = t'.errCode ∧ t.treeValid = t'.treeValid ∧
    t.codesValid = t'.codesValid ∧ t.bw = t'.bw ∧ t.orig = t'.orig ∧ t.payload = t'.payload ∧
    t.metaSize = t'.metaSize ∧ t.freq = t'.freq ∧ t.root = t'.root ∧ t.nodeCount = t'.nodeCount ∧
    t.codeLen = t'.codeLen ∧ t.codeBits = t'.codeBits ∧
    (∀ i : NodeIdx, i.toNat < t.nodeCount.toNat → t.node i = t'.node i) ∧
    ∀ a < t.bw.wrptr.toNat, t.obufByte a = t'.obufByte a

/-- 10_state.md R61: the outcome of DEC_DECOMPRESS depends only on the parameters, SRC_LEN and the archive bytes. What a
command that fails before the tree leaves of an earlier tree is no outcome of it. -/
def Obligations.DecompressDependsOnInputOnly : Prop :=
  ∀ s s' t t' : State, s.params = s'.params → s.srcLen = s'.srcLen → s.srcLen.toNat ≤ s.ibufSize →
    (∀ a < s.srcLen.toNat, s.ibufByte a = s'.ibufByte a) →
    s.done = false → s.err = false → s.errCode = 0 → s'.done = false → s'.err = false → s'.errCode = 0 →
    exec .decDecompress s = .next t → exec .decDecompress s' = .next t' →
    t.done = t'.done ∧ t.err = t'.err ∧ t.errCode = t'.errCode ∧ t.bw = t'.bw ∧ t.br = t'.br ∧
    t.orig = t'.orig ∧ t.payload = t'.payload ∧ t.metaSize = t'.metaSize ∧
    (∀ a < t.bw.wrptr.toNat, t.obufByte a = t'.obufByte a) ∧
    (t.done = true → t.root = t'.root ∧ t.nodeCount = t'.nodeCount ∧
      ∀ i : NodeIdx, i.toNat < t.nodeCount.toNat → t.node i = t'.node i)

end
end

