-- ==== Sys2Proof/Laws/State.lean ====
section
/-! SUPPORT. One lemma per field per named update of State, true by definition, so that no later proof unfolds a record
update. -/

namespace Sys2Proof.Machine.State

section completeOk
variable (s : State)
@[simp] theorem completeOk_params : s.completeOk.params = s.params := rfl
@[simp] theorem completeOk_phase : s.completeOk.phase = .idle := rfl
@[simp] theorem completeOk_done : s.completeOk.done = true := rfl
@[simp] theorem completeOk_err : s.completeOk.err = s.err := rfl
@[simp] theorem completeOk_treeValid : s.completeOk.treeValid = s.treeValid := rfl
@[simp] theorem completeOk_codesValid : s.completeOk.codesValid = s.codesValid := rfl
@[simp] theorem completeOk_cmdOvr : s.completeOk.cmdOvr = s.cmdOvr := rfl
@[simp] theorem completeOk_errCode : s.completeOk.errCode = s.errCode := rfl
@[simp] theorem completeOk_lastOp : s.completeOk.lastOp = s.lastOp := rfl
@[simp] theorem completeOk_cmdLatch : s.completeOk.cmdLatch = s.cmdLatch := rfl
@[simp] theorem completeOk_result : s.completeOk.result = s.result := rfl
@[simp] theorem completeOk_srcLen : s.completeOk.srcLen = s.srcLen := rfl
@[simp] theorem completeOk_orig : s.completeOk.orig = s.orig := rfl
@[simp] theorem completeOk_payload : s.completeOk.payload = s.payload := rfl
@[simp] theorem completeOk_metaSize : s.completeOk.metaSize = s.metaSize := rfl
@[simp] theorem completeOk_bw : s.completeOk.bw = s.bw := rfl
@[simp] theorem completeOk_br : s.completeOk.br = s.br := rfl
@[simp] theorem completeOk_root : s.completeOk.root = s.root := rfl
@[simp] theorem completeOk_nodeCount : s.completeOk.nodeCount = s.nodeCount := rfl
@[simp] theorem completeOk_freq : s.completeOk.freq = s.freq := rfl
@[simp] theorem completeOk_nodes : s.completeOk.nodes = s.nodes := rfl
@[simp] theorem completeOk_codeLen : s.completeOk.codeLen = s.codeLen := rfl
@[simp] theorem completeOk_codeBits : s.completeOk.codeBits = s.codeBits := rfl
@[simp] theorem completeOk_ibuf : s.completeOk.ibuf = s.ibuf := rfl
@[simp] theorem completeOk_obuf : s.completeOk.obuf = s.obuf := rfl
@[simp] theorem completeOk_busResp : s.completeOk.busResp = s.busResp := rfl
@[simp] theorem completeOk_hostQueue : s.completeOk.hostQueue = s.hostQueue := rfl
@[simp] theorem completeOk_delay : s.completeOk.delay = s.delay := rfl
@[simp] theorem completeOk_accepted : s.completeOk.accepted = s.accepted := rfl
@[simp] theorem completeOk_draws : s.completeOk.draws = s.draws := rfl
@[simp] theorem completeOk_epoch : s.completeOk.epoch = s.epoch := rfl
end completeOk

section completeErr
variable (s : State) (e : ErrCode)
@[simp] theorem completeErr_params : (s.completeErr e).params = s.params := rfl
@[simp] theorem completeErr_phase : (s.completeErr e).phase = .idle := rfl
@[simp] theorem completeErr_done : (s.completeErr e).done = s.done := rfl
@[simp] theorem completeErr_err : (s.completeErr e).err = true := rfl
@[simp] theorem completeErr_treeValid : (s.completeErr e).treeValid = s.treeValid := rfl
@[simp] theorem completeErr_codesValid : (s.completeErr e).codesValid = s.codesValid := rfl
@[simp] theorem completeErr_cmdOvr : (s.completeErr e).cmdOvr = s.cmdOvr := rfl
@[simp] theorem completeErr_errCode : (s.completeErr e).errCode = e.code := rfl
@[simp] theorem completeErr_lastOp : (s.completeErr e).lastOp = s.lastOp := rfl
@[simp] theorem completeErr_cmdLatch : (s.completeErr e).cmdLatch = s.cmdLatch := rfl
@[simp] theorem completeErr_result : (s.completeErr e).result = s.result := rfl
@[simp] theorem completeErr_srcLen : (s.completeErr e).srcLen = s.srcLen := rfl
@[simp] theorem completeErr_orig : (s.completeErr e).orig = s.orig := rfl
@[simp] theorem completeErr_payload : (s.completeErr e).payload = s.payload := rfl
@[simp] theorem completeErr_metaSize : (s.completeErr e).metaSize = s.metaSize := rfl
@[simp] theorem completeErr_bw : (s.completeErr e).bw = s.bw := rfl
@[simp] theorem completeErr_br : (s.completeErr e).br = s.br := rfl
@[simp] theorem completeErr_root : (s.completeErr e).root = s.root := rfl
@[simp] theorem completeErr_nodeCount : (s.completeErr e).nodeCount = s.nodeCount := rfl
@[simp] theorem completeErr_freq : (s.completeErr e).freq = s.freq := rfl
@[simp] theorem completeErr_nodes : (s.completeErr e).nodes = s.nodes := rfl
@[simp] theorem completeErr_codeLen : (s.completeErr e).codeLen = s.codeLen := rfl
@[simp] theorem completeErr_codeBits : (s.completeErr e).codeBits = s.codeBits := rfl
@[simp] theorem completeErr_ibuf : (s.completeErr e).ibuf = s.ibuf := rfl
@[simp] theorem completeErr_obuf : (s.completeErr e).obuf = s.obuf := rfl
@[simp] theorem completeErr_busResp : (s.completeErr e).busResp = s.busResp := rfl
@[simp] theorem completeErr_hostQueue : (s.completeErr e).hostQueue = s.hostQueue := rfl
@[simp] theorem completeErr_delay : (s.completeErr e).delay = s.delay := rfl
@[simp] theorem completeErr_accepted : (s.completeErr e).accepted = s.accepted := rfl
@[simp] theorem completeErr_draws : (s.completeErr e).draws = s.draws := rfl
@[simp] theorem completeErr_epoch : (s.completeErr e).epoch = s.epoch := rfl
end completeErr

section accept
variable (s : State) (w : Word)
@[simp] theorem accept_params : (s.accept w).params = s.params := rfl
@[simp] theorem accept_phase : (s.accept w).phase = .running := rfl
@[simp] theorem accept_done : (s.accept w).done = false := rfl
@[simp] theorem accept_err : (s.accept w).err = false := rfl
@[simp] theorem accept_treeValid : (s.accept w).treeValid = s.treeValid := rfl
@[simp] theorem accept_codesValid : (s.accept w).codesValid = s.codesValid := rfl
@[simp] theorem accept_cmdOvr : (s.accept w).cmdOvr = false := rfl
@[simp] theorem accept_errCode : (s.accept w).errCode = 0 := rfl
@[simp] theorem accept_lastOp : (s.accept w).lastOp = opField w := rfl
@[simp] theorem accept_cmdLatch : (s.accept w).cmdLatch = w := rfl
@[simp] theorem accept_result : (s.accept w).result = s.result := rfl
@[simp] theorem accept_srcLen : (s.accept w).srcLen = s.srcLen := rfl
@[simp] theorem accept_orig : (s.accept w).orig = s.orig := rfl
@[simp] theorem accept_payload : (s.accept w).payload = s.payload := rfl
@[simp] theorem accept_metaSize : (s.accept w).metaSize = s.metaSize := rfl
@[simp] theorem accept_bw : (s.accept w).bw = s.bw := rfl
@[simp] theorem accept_br : (s.accept w).br = s.br := rfl
@[simp] theorem accept_root : (s.accept w).root = s.root := rfl
@[simp] theorem accept_nodeCount : (s.accept w).nodeCount = s.nodeCount := rfl
@[simp] theorem accept_freq : (s.accept w).freq = s.freq := rfl
@[simp] theorem accept_nodes : (s.accept w).nodes = s.nodes := rfl
@[simp] theorem accept_codeLen : (s.accept w).codeLen = s.codeLen := rfl
@[simp] theorem accept_codeBits : (s.accept w).codeBits = s.codeBits := rfl
@[simp] theorem accept_ibuf : (s.accept w).ibuf = s.ibuf := rfl
@[simp] theorem accept_obuf : (s.accept w).obuf = s.obuf := rfl
@[simp] theorem accept_busResp : (s.accept w).busResp = s.busResp := rfl
@[simp] theorem accept_hostQueue : (s.accept w).hostQueue = s.hostQueue := rfl
@[simp] theorem accept_delay : (s.accept w).delay = Config.latency s.accepted := rfl
@[simp] theorem accept_accepted : (s.accept w).accepted = s.accepted + 1 := rfl
@[simp] theorem accept_draws : (s.accept w).draws = s.draws := rfl
@[simp] theorem accept_epoch : (s.accept w).epoch = s.epoch := rfl
end accept

section invalidateTree
variable (s : State)
@[simp] theorem invalidateTree_params : s.invalidateTree.params = s.params := rfl
@[simp] theorem invalidateTree_phase : s.invalidateTree.phase = s.phase := rfl
@[simp] theorem invalidateTree_done : s.invalidateTree.done = s.done := rfl
@[simp] theorem invalidateTree_err : s.invalidateTree.err = s.err := rfl
@[simp] theorem invalidateTree_treeValid : s.invalidateTree.treeValid = false := rfl
@[simp] theorem invalidateTree_codesValid : s.invalidateTree.codesValid = false := rfl
@[simp] theorem invalidateTree_cmdOvr : s.invalidateTree.cmdOvr = s.cmdOvr := rfl
@[simp] theorem invalidateTree_errCode : s.invalidateTree.errCode = s.errCode := rfl
@[simp] theorem invalidateTree_lastOp : s.invalidateTree.lastOp = s.lastOp := rfl
@[simp] theorem invalidateTree_cmdLatch : s.invalidateTree.cmdLatch = s.cmdLatch := rfl
@[simp] theorem invalidateTree_result : s.invalidateTree.result = s.result := rfl
@[simp] theorem invalidateTree_srcLen : s.invalidateTree.srcLen = s.srcLen := rfl
@[simp] theorem invalidateTree_orig : s.invalidateTree.orig = s.orig := rfl
@[simp] theorem invalidateTree_payload : s.invalidateTree.payload = s.payload := rfl
@[simp] theorem invalidateTree_metaSize : s.invalidateTree.metaSize = s.metaSize := rfl
@[simp] theorem invalidateTree_bw : s.invalidateTree.bw = s.bw := rfl
@[simp] theorem invalidateTree_br : s.invalidateTree.br = s.br := rfl
@[simp] theorem invalidateTree_root : s.invalidateTree.root = s.root := rfl
@[simp] theorem invalidateTree_nodeCount : s.invalidateTree.nodeCount = s.nodeCount := rfl
@[simp] theorem invalidateTree_freq : s.invalidateTree.freq = s.freq := rfl
@[simp] theorem invalidateTree_nodes : s.invalidateTree.nodes = s.nodes := rfl
@[simp] theorem invalidateTree_codeLen : s.invalidateTree.codeLen = s.codeLen := rfl
@[simp] theorem invalidateTree_codeBits : s.invalidateTree.codeBits = s.codeBits := rfl
@[simp] theorem invalidateTree_ibuf : s.invalidateTree.ibuf = s.ibuf := rfl
@[simp] theorem invalidateTree_obuf : s.invalidateTree.obuf = s.obuf := rfl
@[simp] theorem invalidateTree_busResp : s.invalidateTree.busResp = s.busResp := rfl
@[simp] theorem invalidateTree_hostQueue : s.invalidateTree.hostQueue = s.hostQueue := rfl
@[simp] theorem invalidateTree_delay : s.invalidateTree.delay = s.delay := rfl
@[simp] theorem invalidateTree_accepted : s.invalidateTree.accepted = s.accepted := rfl
@[simp] theorem invalidateTree_draws : s.invalidateTree.draws = s.draws := rfl
@[simp] theorem invalidateTree_epoch : s.invalidateTree.epoch = s.epoch := rfl
end invalidateTree

section releaseArena
variable (s : State)
@[simp] theorem releaseArena_params : s.releaseArena.params = s.params := rfl
@[simp] theorem releaseArena_phase : s.releaseArena.phase = s.phase := rfl
@[simp] theorem releaseArena_done : s.releaseArena.done = s.done := rfl
@[simp] theorem releaseArena_err : s.releaseArena.err = s.err := rfl
@[simp] theorem releaseArena_treeValid : s.releaseArena.treeValid = false := rfl
@[simp] theorem releaseArena_codesValid : s.releaseArena.codesValid = false := rfl
@[simp] theorem releaseArena_cmdOvr : s.releaseArena.cmdOvr = s.cmdOvr := rfl
@[simp] theorem releaseArena_errCode : s.releaseArena.errCode = s.errCode := rfl
@[simp] theorem releaseArena_lastOp : s.releaseArena.lastOp = s.lastOp := rfl
@[simp] theorem releaseArena_cmdLatch : s.releaseArena.cmdLatch = s.cmdLatch := rfl
@[simp] theorem releaseArena_result : s.releaseArena.result = s.result := rfl
@[simp] theorem releaseArena_srcLen : s.releaseArena.srcLen = s.srcLen := rfl
@[simp] theorem releaseArena_orig : s.releaseArena.orig = s.orig := rfl
@[simp] theorem releaseArena_payload : s.releaseArena.payload = s.payload := rfl
@[simp] theorem releaseArena_metaSize : s.releaseArena.metaSize = s.metaSize := rfl
@[simp] theorem releaseArena_bw : s.releaseArena.bw = s.bw := rfl
@[simp] theorem releaseArena_br : s.releaseArena.br = s.br := rfl
@[simp] theorem releaseArena_root : s.releaseArena.root = 0 := rfl
@[simp] theorem releaseArena_nodeCount : s.releaseArena.nodeCount = 0 := rfl
@[simp] theorem releaseArena_freq : s.releaseArena.freq = s.freq := rfl
@[simp] theorem releaseArena_nodes : s.releaseArena.nodes = s.nodes := rfl
@[simp] theorem releaseArena_codeLen : s.releaseArena.codeLen = s.codeLen := rfl
@[simp] theorem releaseArena_codeBits : s.releaseArena.codeBits = s.codeBits := rfl
@[simp] theorem releaseArena_ibuf : s.releaseArena.ibuf = s.ibuf := rfl
@[simp] theorem releaseArena_obuf : s.releaseArena.obuf = s.obuf := rfl
@[simp] theorem releaseArena_busResp : s.releaseArena.busResp = s.busResp := rfl
@[simp] theorem releaseArena_hostQueue : s.releaseArena.hostQueue = s.hostQueue := rfl
@[simp] theorem releaseArena_delay : s.releaseArena.delay = s.delay := rfl
@[simp] theorem releaseArena_accepted : s.releaseArena.accepted = s.accepted := rfl
@[simp] theorem releaseArena_draws : s.releaseArena.draws = s.draws := rfl
@[simp] theorem releaseArena_epoch : s.releaseArena.epoch = s.epoch := rfl
end releaseArena

section setIbuf
variable (s : State) (a : Nat) (v : Byte)
@[simp] theorem setIbuf_params : (s.setIbuf a v).params = s.params := rfl
@[simp] theorem setIbuf_phase : (s.setIbuf a v).phase = s.phase := rfl
@[simp] theorem setIbuf_done : (s.setIbuf a v).done = s.done := rfl
@[simp] theorem setIbuf_err : (s.setIbuf a v).err = s.err := rfl
@[simp] theorem setIbuf_treeValid : (s.setIbuf a v).treeValid = s.treeValid := rfl
@[simp] theorem setIbuf_codesValid : (s.setIbuf a v).codesValid = s.codesValid := rfl
@[simp] theorem setIbuf_cmdOvr : (s.setIbuf a v).cmdOvr = s.cmdOvr := rfl
@[simp] theorem setIbuf_errCode : (s.setIbuf a v).errCode = s.errCode := rfl
@[simp] theorem setIbuf_lastOp : (s.setIbuf a v).lastOp = s.lastOp := rfl
@[simp] theorem setIbuf_cmdLatch : (s.setIbuf a v).cmdLatch = s.cmdLatch := rfl
@[simp] theorem setIbuf_result : (s.setIbuf a v).result = s.result := rfl
@[simp] theorem setIbuf_srcLen : (s.setIbuf a v).srcLen = s.srcLen := rfl
@[simp] theorem setIbuf_orig : (s.setIbuf a v).orig = s.orig := rfl
@[simp] theorem setIbuf_payload : (s.setIbuf a v).payload = s.payload := rfl
@[simp] theorem setIbuf_metaSize : (s.setIbuf a v).metaSize = s.metaSize := rfl
@[simp] theorem setIbuf_bw : (s.setIbuf a v).bw = s.bw := rfl
@[simp] theorem setIbuf_br : (s.setIbuf a v).br = s.br := rfl
@[simp] theorem setIbuf_root : (s.setIbuf a v).root = s.root := rfl
@[simp] theorem setIbuf_nodeCount : (s.setIbuf a v).nodeCount = s.nodeCount := rfl
@[simp] theorem setIbuf_freq : (s.setIbuf a v).freq = s.freq := rfl
@[simp] theorem setIbuf_nodes : (s.setIbuf a v).nodes = s.nodes := rfl
@[simp] theorem setIbuf_codeLen : (s.setIbuf a v).codeLen = s.codeLen := rfl
@[simp] theorem setIbuf_codeBits : (s.setIbuf a v).codeBits = s.codeBits := rfl
@[simp] theorem setIbuf_ibuf : (s.setIbuf a v).ibuf = Cells.set s.ibuf a v := rfl
@[simp] theorem setIbuf_obuf : (s.setIbuf a v).obuf = s.obuf := rfl
@[simp] theorem setIbuf_busResp : (s.setIbuf a v).busResp = s.busResp := rfl
@[simp] theorem setIbuf_hostQueue : (s.setIbuf a v).hostQueue = s.hostQueue := rfl
@[simp] theorem setIbuf_delay : (s.setIbuf a v).delay = s.delay := rfl
@[simp] theorem setIbuf_accepted : (s.setIbuf a v).accepted = s.accepted := rfl
@[simp] theorem setIbuf_draws : (s.setIbuf a v).draws = s.draws := rfl
@[simp] theorem setIbuf_epoch : (s.setIbuf a v).epoch = s.epoch := rfl
end setIbuf

section setObuf
variable (s : State) (a : Nat) (v : Byte)
@[simp] theorem setObuf_params : (s.setObuf a v).params = s.params := rfl
@[simp] theorem setObuf_phase : (s.setObuf a v).phase = s.phase := rfl
@[simp] theorem setObuf_done : (s.setObuf a v).done = s.done := rfl
@[simp] theorem setObuf_err : (s.setObuf a v).err = s.err := rfl
@[simp] theorem setObuf_treeValid : (s.setObuf a v).treeValid = s.treeValid := rfl
@[simp] theorem setObuf_codesValid : (s.setObuf a v).codesValid = s.codesValid := rfl
@[simp] theorem setObuf_cmdOvr : (s.setObuf a v).cmdOvr = s.cmdOvr := rfl
@[simp] theorem setObuf_errCode : (s.setObuf a v).errCode = s.errCode := rfl
@[simp] theorem setObuf_lastOp : (s.setObuf a v).lastOp = s.lastOp := rfl
@[simp] theorem setObuf_cmdLatch : (s.setObuf a v).cmdLatch = s.cmdLatch := rfl
@[simp] theorem setObuf_result : (s.setObuf a v).result = s.result := rfl
@[simp] theorem setObuf_srcLen : (s.setObuf a v).srcLen = s.srcLen := rfl
@[simp] theorem setObuf_orig : (s.setObuf a v).orig = s.orig := rfl
@[simp] theorem setObuf_payload : (s.setObuf a v).payload = s.payload := rfl
@[simp] theorem setObuf_metaSize : (s.setObuf a v).metaSize = s.metaSize := rfl
@[simp] theorem setObuf_bw : (s.setObuf a v).bw = s.bw := rfl
@[simp] theorem setObuf_br : (s.setObuf a v).br = s.br := rfl
@[simp] theorem setObuf_root : (s.setObuf a v).root = s.root := rfl
@[simp] theorem setObuf_nodeCount : (s.setObuf a v).nodeCount = s.nodeCount := rfl
@[simp] theorem setObuf_freq : (s.setObuf a v).freq = s.freq := rfl
@[simp] theorem setObuf_nodes : (s.setObuf a v).nodes = s.nodes := rfl
@[simp] theorem setObuf_codeLen : (s.setObuf a v).codeLen = s.codeLen := rfl
@[simp] theorem setObuf_codeBits : (s.setObuf a v).codeBits = s.codeBits := rfl
@[simp] theorem setObuf_ibuf : (s.setObuf a v).ibuf = s.ibuf := rfl
@[simp] theorem setObuf_obuf : (s.setObuf a v).obuf = Cells.set s.obuf a v := rfl
@[simp] theorem setObuf_busResp : (s.setObuf a v).busResp = s.busResp := rfl
@[simp] theorem setObuf_hostQueue : (s.setObuf a v).hostQueue = s.hostQueue := rfl
@[simp] theorem setObuf_delay : (s.setObuf a v).delay = s.delay := rfl
@[simp] theorem setObuf_accepted : (s.setObuf a v).accepted = s.accepted := rfl
@[simp] theorem setObuf_draws : (s.setObuf a v).draws = s.draws := rfl
@[simp] theorem setObuf_epoch : (s.setObuf a v).epoch = s.epoch := rfl
end setObuf

section setNode
variable (s : State) (i : NodeIdx) (n : Node)
@[simp] theorem setNode_params : (s.setNode i n).params = s.params := rfl
@[simp] theorem setNode_phase : (s.setNode i n).phase = s.phase := rfl
@[simp] theorem setNode_done : (s.setNode i n).done = s.done := rfl
@[simp] theorem setNode_err : (s.setNode i n).err = s.err := rfl
@[simp] theorem setNode_treeValid : (s.setNode i n).treeValid = s.treeValid := rfl
@[simp] theorem setNode_codesValid : (s.setNode i n).codesValid = s.codesValid := rfl
@[simp] theorem setNode_cmdOvr : (s.setNode i n).cmdOvr = s.cmdOvr := rfl
@[simp] theorem setNode_errCode : (s.setNode i n).errCode = s.errCode := rfl
@[simp] theorem setNode_lastOp : (s.setNode i n).lastOp = s.lastOp := rfl
@[simp] theorem setNode_cmdLatch : (s.setNode i n).cmdLatch = s.cmdLatch := rfl
@[simp] theorem setNode_result : (s.setNode i n).result = s.result := rfl
@[simp] theorem setNode_srcLen : (s.setNode i n).srcLen = s.srcLen := rfl
@[simp] theorem setNode_orig : (s.setNode i n).orig = s.orig := rfl
@[simp] theorem setNode_payload : (s.setNode i n).payload = s.payload := rfl
@[simp] theorem setNode_metaSize : (s.setNode i n).metaSize = s.metaSize := rfl
@[simp] theorem setNode_bw : (s.setNode i n).bw = s.bw := rfl
@[simp] theorem setNode_br : (s.setNode i n).br = s.br := rfl
@[simp] theorem setNode_root : (s.setNode i n).root = s.root := rfl
@[simp] theorem setNode_nodeCount : (s.setNode i n).nodeCount = s.nodeCount := rfl
@[simp] theorem setNode_freq : (s.setNode i n).freq = s.freq := rfl
@[simp] theorem setNode_nodes : (s.setNode i n).nodes = Cells.set s.nodes i.toNat n := rfl
@[simp] theorem setNode_codeLen : (s.setNode i n).codeLen = s.codeLen := rfl
@[simp] theorem setNode_codeBits : (s.setNode i n).codeBits = s.codeBits := rfl
@[simp] theorem setNode_ibuf : (s.setNode i n).ibuf = s.ibuf := rfl
@[simp] theorem setNode_obuf : (s.setNode i n).obuf = s.obuf := rfl
@[simp] theorem setNode_busResp : (s.setNode i n).busResp = s.busResp := rfl
@[simp] theorem setNode_hostQueue : (s.setNode i n).hostQueue = s.hostQueue := rfl
@[simp] theorem setNode_delay : (s.setNode i n).delay = s.delay := rfl
@[simp] theorem setNode_accepted : (s.setNode i n).accepted = s.accepted := rfl
@[simp] theorem setNode_draws : (s.setNode i n).draws = s.draws := rfl
@[simp] theorem setNode_epoch : (s.setNode i n).epoch = s.epoch := rfl
end setNode

section initWriter
variable (s : State)
@[simp] theorem initWriter_params : s.initWriter.params = s.params := rfl
@[simp] theorem initWriter_phase : s.initWriter.phase = s.phase := rfl
@[simp] theorem initWriter_done : s.initWriter.done = s.done := rfl
@[simp] theorem initWriter_err : s.initWriter.err = s.err := rfl
@[simp] theorem initWriter_treeValid : s.initWriter.treeValid = s.treeValid := rfl
@[simp] theorem initWriter_codesValid : s.initWriter.codesValid = s.codesValid := rfl
@[simp] theorem initWriter_cmdOvr : s.initWriter.cmdOvr = s.cmdOvr := rfl
@[simp] theorem initWriter_errCode : s.initWriter.errCode = s.errCode := rfl
@[simp] theorem initWriter_lastOp : s.initWriter.lastOp = s.lastOp := rfl
@[simp] theorem initWriter_cmdLatch : s.initWriter.cmdLatch = s.cmdLatch := rfl
@[simp] theorem initWriter_result : s.initWriter.result = s.result := rfl
@[simp] theorem initWriter_srcLen : s.initWriter.srcLen = s.srcLen := rfl
@[simp] theorem initWriter_orig : s.initWriter.orig = s.orig := rfl
@[simp] theorem initWriter_payload : s.initWriter.payload = s.payload := rfl
@[simp] theorem initWriter_metaSize : s.initWriter.metaSize = s.metaSize := rfl
@[simp] theorem initWriter_bw : s.initWriter.bw = .zero := rfl
@[simp] theorem initWriter_br : s.initWriter.br = s.br := rfl
@[simp] theorem initWriter_root : s.initWriter.root = s.root := rfl
@[simp] theorem initWriter_nodeCount : s.initWriter.nodeCount = s.nodeCount := rfl
@[simp] theorem initWriter_freq : s.initWriter.freq = s.freq := rfl
@[simp] theorem initWriter_nodes : s.initWriter.nodes = s.nodes := rfl
@[simp] theorem initWriter_codeLen : s.initWriter.codeLen = s.codeLen := rfl
@[simp] theorem initWriter_codeBits : s.initWriter.codeBits = s.codeBits := rfl
@[simp] theorem initWriter_ibuf : s.initWriter.ibuf = s.ibuf := rfl
@[simp] theorem initWriter_obuf : s.initWriter.obuf = s.obuf := rfl
@[simp] theorem initWriter_busResp : s.initWriter.busResp = s.busResp := rfl
@[simp] theorem initWriter_hostQueue : s.initWriter.hostQueue = s.hostQueue := rfl
@[simp] theorem initWriter_delay : s.initWriter.delay = s.delay := rfl
@[simp] theorem initWriter_accepted : s.initWriter.accepted = s.accepted := rfl
@[simp] theorem initWriter_draws : s.initWriter.draws = s.draws := rfl
@[simp] theorem initWriter_epoch : s.initWriter.epoch = s.epoch := rfl
end initWriter

section initReader
variable (s : State)
@[simp] theorem initReader_params : s.initReader.params = s.params := rfl
@[simp] theorem initReader_phase : s.initReader.phase = s.phase := rfl
@[simp] theorem initReader_done : s.initReader.done = s.done := rfl
@[simp] theorem initReader_err : s.initReader.err = s.err := rfl
@[simp] theorem initReader_treeValid : s.initReader.treeValid = s.treeValid := rfl
@[simp] theorem initReader_codesValid : s.initReader.codesValid = s.codesValid := rfl
@[simp] theorem initReader_cmdOvr : s.initReader.cmdOvr = s.cmdOvr := rfl
@[simp] theorem initReader_errCode : s.initReader.errCode = s.errCode := rfl
@[simp] theorem initReader_lastOp : s.initReader.lastOp = s.lastOp := rfl
@[simp] theorem initReader_cmdLatch : s.initReader.cmdLatch = s.cmdLatch := rfl
@[simp] theorem initReader_result : s.initReader.result = s.result := rfl
@[simp] theorem initReader_srcLen : s.initReader.srcLen = s.srcLen := rfl
@[simp] theorem initReader_orig : s.initReader.orig = s.orig := rfl
@[simp] theorem initReader_payload : s.initReader.payload = s.payload := rfl
@[simp] theorem initReader_metaSize : s.initReader.metaSize = s.metaSize := rfl
@[simp] theorem initReader_bw : s.initReader.bw = s.bw := rfl
@[simp] theorem initReader_br : s.initReader.br = .zero := rfl
@[simp] theorem initReader_root : s.initReader.root = s.root := rfl
@[simp] theorem initReader_nodeCount : s.initReader.nodeCount = s.nodeCount := rfl
@[simp] theorem initReader_freq : s.initReader.freq = s.freq := rfl
@[simp] theorem initReader_nodes : s.initReader.nodes = s.nodes := rfl
@[simp] theorem initReader_codeLen : s.initReader.codeLen = s.codeLen := rfl
@[simp] theorem initReader_codeBits : s.initReader.codeBits = s.codeBits := rfl
@[simp] theorem initReader_ibuf : s.initReader.ibuf = s.ibuf := rfl
@[simp] theorem initReader_obuf : s.initReader.obuf = s.obuf := rfl
@[simp] theorem initReader_busResp : s.initReader.busResp = s.busResp := rfl
@[simp] theorem initReader_hostQueue : s.initReader.hostQueue = s.hostQueue := rfl
@[simp] theorem initReader_delay : s.initReader.delay = s.delay := rfl
@[simp] theorem initReader_accepted : s.initReader.accepted = s.accepted := rfl
@[simp] theorem initReader_draws : s.initReader.draws = s.draws := rfl
@[simp] theorem initReader_epoch : s.initReader.epoch = s.epoch := rfl
end initReader

section setResult
variable (s : State) (v : Byte)
@[simp] theorem setResult_params : (s.setResult v).params = s.params := rfl
@[simp] theorem setResult_phase : (s.setResult v).phase = s.phase := rfl
@[simp] theorem setResult_done : (s.setResult v).done = s.done := rfl
@[simp] theorem setResult_err : (s.setResult v).err = s.err := rfl
@[simp] theorem setResult_treeValid : (s.setResult v).treeValid = s.treeValid := rfl
@[simp] theorem setResult_codesValid : (s.setResult v).codesValid = s.codesValid := rfl
@[simp] theorem setResult_cmdOvr : (s.setResult v).cmdOvr = s.cmdOvr := rfl
@[simp] theorem setResult_errCode : (s.setResult v).errCode = s.errCode := rfl
@[simp] theorem setResult_lastOp : (s.setResult v).lastOp = s.lastOp := rfl
@[simp] theorem setResult_cmdLatch : (s.setResult v).cmdLatch = s.cmdLatch := rfl
@[simp] theorem setResult_result : (s.setResult v).result = v := rfl
@[simp] theorem setResult_srcLen : (s.setResult v).srcLen = s.srcLen := rfl
@[simp] theorem setResult_orig : (s.setResult v).orig = s.orig := rfl
@[simp] theorem setResult_payload : (s.setResult v).payload = s.payload := rfl
@[simp] theorem setResult_metaSize : (s.setResult v).metaSize = s.metaSize := rfl
@[simp] theorem setResult_bw : (s.setResult v).bw = s.bw := rfl
@[simp] theorem setResult_br : (s.setResult v).br = s.br := rfl
@[simp] theorem setResult_root : (s.setResult v).root = s.root := rfl
@[simp] theorem setResult_nodeCount : (s.setResult v).nodeCount = s.nodeCount := rfl
@[simp] theorem setResult_freq : (s.setResult v).freq = s.freq := rfl
@[simp] theorem setResult_nodes : (s.setResult v).nodes = s.nodes := rfl
@[simp] theorem setResult_codeLen : (s.setResult v).codeLen = s.codeLen := rfl
@[simp] theorem setResult_codeBits : (s.setResult v).codeBits = s.codeBits := rfl
@[simp] theorem setResult_ibuf : (s.setResult v).ibuf = s.ibuf := rfl
@[simp] theorem setResult_obuf : (s.setResult v).obuf = s.obuf := rfl
@[simp] theorem setResult_busResp : (s.setResult v).busResp = s.busResp := rfl
@[simp] theorem setResult_hostQueue : (s.setResult v).hostQueue = s.hostQueue := rfl
@[simp] theorem setResult_delay : (s.setResult v).delay = s.delay := rfl
@[simp] theorem setResult_accepted : (s.setResult v).accepted = s.accepted := rfl
@[simp] theorem setResult_draws : (s.setResult v).draws = s.draws := rfl
@[simp] theorem setResult_epoch : (s.setResult v).epoch = s.epoch := rfl
end setResult

section setTree
variable (s : State) (r : NodeIdx)
@[simp] theorem setTree_params : (s.setTree r).params = s.params := rfl
@[simp] theorem setTree_phase : (s.setTree r).phase = s.phase := rfl
@[simp] theorem setTree_done : (s.setTree r).done = s.done := rfl
@[simp] theorem setTree_err : (s.setTree r).err = s.err := rfl
@[simp] theorem setTree_treeValid : (s.setTree r).treeValid = true := rfl
@[simp] theorem setTree_codesValid : (s.setTree r).codesValid = s.codesValid := rfl
@[simp] theorem setTree_cmdOvr : (s.setTree r).cmdOvr = s.cmdOvr := rfl
@[simp] theorem setTree_errCode : (s.setTree r).errCode = s.errCode := rfl
@[simp] theorem setTree_lastOp : (s.setTree r).lastOp = s.lastOp := rfl
@[simp] theorem setTree_cmdLatch : (s.setTree r).cmdLatch = s.cmdLatch := rfl
@[simp] theorem setTree_result : (s.setTree r).result = s.result := rfl
@[simp] theorem setTree_srcLen : (s.setTree r).srcLen = s.srcLen := rfl
@[simp] theorem setTree_orig : (s.setTree r).orig = s.orig := rfl
@[simp] theorem setTree_payload : (s.setTree r).payload = s.payload := rfl
@[simp] theorem setTree_metaSize : (s.setTree r).metaSize = s.metaSize := rfl
@[simp] theorem setTree_bw : (s.setTree r).bw = s.bw := rfl
@[simp] theorem setTree_br : (s.setTree r).br = s.br := rfl
@[simp] theorem setTree_root : (s.setTree r).root = r := rfl
@[simp] theorem setTree_nodeCount : (s.setTree r).nodeCount = s.nodeCount := rfl
@[simp] theorem setTree_freq : (s.setTree r).freq = s.freq := rfl
@[simp] theorem setTree_nodes : (s.setTree r).nodes = s.nodes := rfl
@[simp] theorem setTree_codeLen : (s.setTree r).codeLen = s.codeLen := rfl
@[simp] theorem setTree_codeBits : (s.setTree r).codeBits = s.codeBits := rfl
@[simp] theorem setTree_ibuf : (s.setTree r).ibuf = s.ibuf := rfl
@[simp] theorem setTree_obuf : (s.setTree r).obuf = s.obuf := rfl
@[simp] theorem setTree_busResp : (s.setTree r).busResp = s.busResp := rfl
@[simp] theorem setTree_hostQueue : (s.setTree r).hostQueue = s.hostQueue := rfl
@[simp] theorem setTree_delay : (s.setTree r).delay = s.delay := rfl
@[simp] theorem setTree_accepted : (s.setTree r).accepted = s.accepted := rfl
@[simp] theorem setTree_draws : (s.setTree r).draws = s.draws := rfl
@[simp] theorem setTree_epoch : (s.setTree r).epoch = s.epoch := rfl
end setTree

section countFreq
variable (s : State)
@[simp] theorem countFreq_params : s.countFreq.params = s.params := rfl
@[simp] theorem countFreq_phase : s.countFreq.phase = s.phase := rfl
@[simp] theorem countFreq_done : s.countFreq.done = s.done := rfl
@[simp] theorem countFreq_err : s.countFreq.err = s.err := rfl
@[simp] theorem countFreq_treeValid : s.countFreq.treeValid = s.treeValid := rfl
@[simp] theorem countFreq_codesValid : s.countFreq.codesValid = s.codesValid := rfl
@[simp] theorem countFreq_cmdOvr : s.countFreq.cmdOvr = s.cmdOvr := rfl
@[simp] theorem countFreq_errCode : s.countFreq.errCode = s.errCode := rfl
@[simp] theorem countFreq_lastOp : s.countFreq.lastOp = s.lastOp := rfl
@[simp] theorem countFreq_cmdLatch : s.countFreq.cmdLatch = s.cmdLatch := rfl
@[simp] theorem countFreq_result : s.countFreq.result = s.result := rfl
@[simp] theorem countFreq_srcLen : s.countFreq.srcLen = s.srcLen := rfl
@[simp] theorem countFreq_orig : s.countFreq.orig = s.orig := rfl
@[simp] theorem countFreq_payload : s.countFreq.payload = s.payload := rfl
@[simp] theorem countFreq_metaSize : s.countFreq.metaSize = s.metaSize := rfl
@[simp] theorem countFreq_bw : s.countFreq.bw = s.bw := rfl
@[simp] theorem countFreq_br : s.countFreq.br = s.br := rfl
@[simp] theorem countFreq_root : s.countFreq.root = s.root := rfl
@[simp] theorem countFreq_nodeCount : s.countFreq.nodeCount = s.nodeCount := rfl
@[simp] theorem countFreq_freq : s.countFreq.freq = s.countBytes s.srcLen.toNat := rfl
@[simp] theorem countFreq_nodes : s.countFreq.nodes = s.nodes := rfl
@[simp] theorem countFreq_codeLen : s.countFreq.codeLen = s.codeLen := rfl
@[simp] theorem countFreq_codeBits : s.countFreq.codeBits = s.codeBits := rfl
@[simp] theorem countFreq_ibuf : s.countFreq.ibuf = s.ibuf := rfl
@[simp] theorem countFreq_obuf : s.countFreq.obuf = s.obuf := rfl
@[simp] theorem countFreq_busResp : s.countFreq.busResp = s.busResp := rfl
@[simp] theorem countFreq_hostQueue : s.countFreq.hostQueue = s.hostQueue := rfl
@[simp] theorem countFreq_delay : s.countFreq.delay = s.delay := rfl
@[simp] theorem countFreq_accepted : s.countFreq.accepted = s.accepted := rfl
@[simp] theorem countFreq_draws : s.countFreq.draws = s.draws := rfl
@[simp] theorem countFreq_epoch : s.countFreq.epoch = s.epoch := rfl
end countFreq

section clearCodes
variable (s : State)
@[simp] theorem clearCodes_params : s.clearCodes.params = s.params := rfl
@[simp] theorem clearCodes_phase : s.clearCodes.phase = s.phase := rfl
@[simp] theorem clearCodes_done : s.clearCodes.done = s.done := rfl
@[simp] theorem clearCodes_err : s.clearCodes.err = s.err := rfl
@[simp] theorem clearCodes_treeValid : s.clearCodes.treeValid = s.treeValid := rfl
@[simp] theorem clearCodes_codesValid : s.clearCodes.codesValid = false := rfl
@[simp] theorem clearCodes_cmdOvr : s.clearCodes.cmdOvr = s.cmdOvr := rfl
@[simp] theorem clearCodes_errCode : s.clearCodes.errCode = s.errCode := rfl
@[simp] theorem clearCodes_lastOp : s.clearCodes.lastOp = s.lastOp := rfl
@[simp] theorem clearCodes_cmdLatch : s.clearCodes.cmdLatch = s.cmdLatch := rfl
@[simp] theorem clearCodes_result : s.clearCodes.result = s.result := rfl
@[simp] theorem clearCodes_srcLen : s.clearCodes.srcLen = s.srcLen := rfl
@[simp] theorem clearCodes_orig : s.clearCodes.orig = s.orig := rfl
@[simp] theorem clearCodes_payload : s.clearCodes.payload = s.payload := rfl
@[simp] theorem clearCodes_metaSize : s.clearCodes.metaSize = s.metaSize := rfl
@[simp] theorem clearCodes_bw : s.clearCodes.bw = s.bw := rfl
@[simp] theorem clearCodes_br : s.clearCodes.br = s.br := rfl
@[simp] theorem clearCodes_root : s.clearCodes.root = s.root := rfl
@[simp] theorem clearCodes_nodeCount : s.clearCodes.nodeCount = s.nodeCount := rfl
@[simp] theorem clearCodes_freq : s.clearCodes.freq = s.freq := rfl
@[simp] theorem clearCodes_nodes : s.clearCodes.nodes = s.nodes := rfl
@[simp] theorem clearCodes_codeLen : s.clearCodes.codeLen = Vector.replicate 256 0 := rfl
@[simp] theorem clearCodes_codeBits : s.clearCodes.codeBits = Vector.replicate 256 0 := rfl
@[simp] theorem clearCodes_ibuf : s.clearCodes.ibuf = s.ibuf := rfl
@[simp] theorem clearCodes_obuf : s.clearCodes.obuf = s.obuf := rfl
@[simp] theorem clearCodes_busResp : s.clearCodes.busResp = s.busResp := rfl
@[simp] theorem clearCodes_hostQueue : s.clearCodes.hostQueue = s.hostQueue := rfl
@[simp] theorem clearCodes_delay : s.clearCodes.delay = s.delay := rfl
@[simp] theorem clearCodes_accepted : s.clearCodes.accepted = s.accepted := rfl
@[simp] theorem clearCodes_draws : s.clearCodes.draws = s.draws := rfl
@[simp] theorem clearCodes_epoch : s.clearCodes.epoch = s.epoch := rfl
end clearCodes

section setCode
variable (s : State) (sym : Byte) (p : List Bool)
@[simp] theorem setCode_params : (s.setCode sym p).params = s.params := rfl
@[simp] theorem setCode_phase : (s.setCode sym p).phase = s.phase := rfl
@[simp] theorem setCode_done : (s.setCode sym p).done = s.done := rfl
@[simp] theorem setCode_err : (s.setCode sym p).err = s.err := rfl
@[simp] theorem setCode_treeValid : (s.setCode sym p).treeValid = s.treeValid := rfl
@[simp] theorem setCode_codesValid : (s.setCode sym p).codesValid = s.codesValid := rfl
@[simp] theorem setCode_cmdOvr : (s.setCode sym p).cmdOvr = s.cmdOvr := rfl
@[simp] theorem setCode_errCode : (s.setCode sym p).errCode = s.errCode := rfl
@[simp] theorem setCode_lastOp : (s.setCode sym p).lastOp = s.lastOp := rfl
@[simp] theorem setCode_cmdLatch : (s.setCode sym p).cmdLatch = s.cmdLatch := rfl
@[simp] theorem setCode_result : (s.setCode sym p).result = s.result := rfl
@[simp] theorem setCode_srcLen : (s.setCode sym p).srcLen = s.srcLen := rfl
@[simp] theorem setCode_orig : (s.setCode sym p).orig = s.orig := rfl
@[simp] theorem setCode_payload : (s.setCode sym p).payload = s.payload := rfl
@[simp] theorem setCode_metaSize : (s.setCode sym p).metaSize = s.metaSize := rfl
@[simp] theorem setCode_bw : (s.setCode sym p).bw = s.bw := rfl
@[simp] theorem setCode_br : (s.setCode sym p).br = s.br := rfl
@[simp] theorem setCode_root : (s.setCode sym p).root = s.root := rfl
@[simp] theorem setCode_nodeCount : (s.setCode sym p).nodeCount = s.nodeCount := rfl
@[simp] theorem setCode_freq : (s.setCode sym p).freq = s.freq := rfl
@[simp] theorem setCode_nodes : (s.setCode sym p).nodes = s.nodes := rfl
@[simp] theorem setCode_codeLen : (s.setCode sym p).codeLen = s.codeLen.set sym.toNat (BitVec.ofNat 8 p.length) sym.isLt := rfl
@[simp] theorem setCode_codeBits : (s.setCode sym p).codeBits = s.codeBits.set sym.toNat (pathBits p) sym.isLt := rfl
@[simp] theorem setCode_ibuf : (s.setCode sym p).ibuf = s.ibuf := rfl
@[simp] theorem setCode_obuf : (s.setCode sym p).obuf = s.obuf := rfl
@[simp] theorem setCode_busResp : (s.setCode sym p).busResp = s.busResp := rfl
@[simp] theorem setCode_hostQueue : (s.setCode sym p).hostQueue = s.hostQueue := rfl
@[simp] theorem setCode_delay : (s.setCode sym p).delay = s.delay := rfl
@[simp] theorem setCode_accepted : (s.setCode sym p).accepted = s.accepted := rfl
@[simp] theorem setCode_draws : (s.setCode sym p).draws = s.draws := rfl
@[simp] theorem setCode_epoch : (s.setCode sym p).epoch = s.epoch := rfl
end setCode

end Sys2Proof.Machine.State
end

