-- ==== Sys2Proof/Laws/Proc.lean ====
section
/-! SUPPORT. How a command's pseudocode runs: sequencing, `raise`, and what the completion step answers
(spec/60_exceptions.md R322, R323, R326, R327). -/

namespace Sys2Proof.Machine

namespace Proc
variable {α β : Type}

theorem bind_apply (p : Proc α) (f : α → Proc β) (s : State) :
    (p >>= f) s = match p s with
      | .ok a t => f a t
      | .error e t => .error e t := by
  show EStateM.bind p f s = _
  unfold EStateM.bind
  cases p s <;> rfl

theorem bind_ok {p : Proc α} {f : α → Proc β} {s t : State} {a : α} (h : p s = .ok a t) : (p >>= f) s = f a t := by
  rw [bind_apply, h]

theorem bind_error {p : Proc α} {f : α → Proc β} {s t : State} {e : Abort} (h : p s = .error e t) :
    (p >>= f) s = .error e t := by
  rw [bind_apply, h]

/-- What a sequence answers, taken apart. -/
theorem bind_cases {p : Proc α} {f : α → Proc β} {s : State} {r : EStateM.Result Abort State β}
    (h : (p >>= f) s = r) :
    (∃ a t, p s = .ok a t ∧ f a t = r) ∨ (∃ e t, p s = .error e t ∧ r = .error e t) := by
  rw [bind_apply] at h
  cases hp : p s with
  | ok a t => rw [hp] at h; exact .inl ⟨a, t, rfl, h⟩
  | error e t => rw [hp] at h; exact .inr ⟨e, t, rfl, h.symm⟩

@[simp] theorem pure_apply (a : α) (s : State) : (pure a : Proc α) s = .ok a s := rfl

@[simp] theorem raise_apply (e : ErrCode) (s : State) : (raise e : Proc α) s = .error (.raised e) s := rfl

@[simp] theorem diverge_apply (s : State) : (diverge : Proc α) s = .error .diverged s := rfl

@[simp] theorem look_apply (f : State → α) (s : State) : look f s = .ok (f s) s := rfl

@[simp] theorem change_apply (f : State → State) (s : State) : change f s = .ok () (f s) := rfl

@[simp] theorem look_bind (f : State → α) (g : α → Proc β) (s : State) : (look f >>= g) s = g (f s) s := rfl

@[simp] theorem change_bind (f : State → State) (g : Unit → Proc β) (s : State) :
    (change f >>= g) s = g () (f s) := rfl

@[simp] theorem pure_bind_apply (a : α) (g : α → Proc β) (s : State) : ((pure a : Proc α) >>= g) s = g a s := rfl

@[simp] theorem raise_bind (e : ErrCode) (g : α → Proc β) (s : State) :
    ((raise e : Proc α) >>= g) s = .error (.raised e) s := rfl

theorem orRelease_ok {p : Proc α} {s t : State} {a : α} (h : p s = .ok a t) : orRelease p s = .ok a t := by
  simp only [orRelease, h]

theorem orRelease_error {p : Proc α} {s t : State} {e : Abort} (h : p s = .error e t) :
    orRelease p s = .error e t.releaseArena := by
  simp only [orRelease, h]

/-- `p` keeps `P`: whatever it answers, the state it leaves has `P` if the state before had it. -/
def Keeps (P : State → Prop) (p : Proc α) : Prop :=
  ∀ s, P s → match p s with
    | .ok _ t => P t
    | .error _ t => P t

theorem Keeps.of_ok {P : State → Prop} {p : Proc α} (h : Keeps P p) {s t : State} {a : α} (hs : P s)
    (hp : p s = .ok a t) : P t := by
  have := h s hs
  rwa [hp] at this

theorem Keeps.of_error {P : State → Prop} {p : Proc α} (h : Keeps P p) {s t : State} {e : Abort} (hs : P s)
    (hp : p s = .error e t) : P t := by
  have := h s hs
  rwa [hp] at this

theorem Keeps.bind {P : State → Prop} {p : Proc α} {f : α → Proc β} (hp : Keeps P p) (hf : ∀ a, Keeps P (f a)) :
    Keeps P (p >>= f) := by
  intro s hs
  have h := hp s hs
  rw [bind_apply]
  cases hps : p s with
  | ok a t => rw [hps] at h; exact hf a t h
  | error e t => rw [hps] at h; exact h

theorem Keeps.pure {P : State → Prop} (a : α) : Keeps P (Pure.pure a : Proc α) := fun _ hs => hs

theorem Keeps.raise {P : State → Prop} (e : ErrCode) : Keeps P (Proc.raise e : Proc α) := fun _ hs => hs

theorem Keeps.diverge {P : State → Prop} : Keeps P (Proc.diverge : Proc α) := fun _ hs => hs

theorem Keeps.look {P : State → Prop} (f : State → α) : Keeps P (Proc.look f) := fun _ hs => hs

theorem Keeps.change {P : State → Prop} {f : State → State} (h : ∀ s, P s → P (f s)) : Keeps P (Proc.change f) :=
  fun s hs => h s hs

theorem Keeps.orRelease {P : State → Prop} {p : Proc α} (hp : Keeps P p) (h : ∀ s, P s → P s.releaseArena) :
    Keeps P (Proc.orRelease p) := by
  intro s hs
  have hps := hp s hs
  cases hr : p s with
  | ok a t => rw [hr] at hps; rw [orRelease_ok hr]; exact hps
  | error e t => rw [hr] at hps; rw [orRelease_error hr]; exact h t hps

end Proc

theorem complete_of_ok {p : Proc Unit} {s t : State} (h : p s = .ok () t) : complete p s = .next t.completeOk := by
  simp only [complete, h]

theorem complete_of_raised {p : Proc Unit} {s t : State} {e : ErrCode} (h : p s = .error (.raised e) t) :
    complete p s = .next (t.completeErr e) := by
  simp only [complete, h]

/-- A completion step depends on what its pseudocode answers alone. -/
theorem complete_congr {p q : Proc Unit} {s s' : State} (h : p s = q s') : complete p s = complete q s' := by
  simp only [complete, h]

/-- CheckSrc and the check for a tree, when they pass and when they do not (41_bit_reader.md R183, 60_exceptions.md
R339). -/
theorem checkSrc_ok {s : State} (h : s.srcLen.toNat ≤ s.ibufSize) : checkSrc s = .ok () s := by
  unfold checkSrc
  rw [if_neg (Nat.not_lt.2 h)]

theorem checkSrc_bad {s : State} (h : s.ibufSize < s.srcLen.toNat) : checkSrc s = .error (.raised .resSrcRange) s := by
  unfold checkSrc
  rw [if_pos h]
  rfl

theorem requireTree_ok {s : State} (h : s.treeValid = true) : requireTree s = .ok () s := by
  unfold requireTree
  rw [if_pos h]

theorem requireTree_bad {s : State} (h : s.treeValid = false) : requireTree s = .error (.raised .argNoTree) s := by
  unfold requireTree
  rw [h]
  rfl

/-- Everything a completion step can answer. -/
theorem complete_cases {p : Proc Unit} {s : State} {r : Host.Outcome State Fault Refusal} (h : complete p s = r) :
    (∃ t, p s = .ok () t ∧ r = .next t.completeOk) ∨
    (∃ e t, p s = .error (.raised e) t ∧ r = .next (t.completeErr e)) ∨
    (∃ t, p s = .error .diverged t ∧ r = .fault .codeWalkDiverges) := by
  unfold complete at h
  cases hp : p s with
  | ok a t => rw [hp] at h; exact .inl ⟨t, rfl, h.symm⟩
  | error e t =>
    rw [hp] at h
    cases e with
    | raised e => exact .inr (.inl ⟨e, t, rfl, h.symm⟩)
    | diverged => exact .inr (.inr ⟨t, rfl, h.symm⟩)

/-- When a completion step answers a next state, and which. -/
theorem complete_next {p : Proc Unit} {s t : State} (h : complete p s = .next t) :
    (∃ u, p s = .ok () u ∧ t = u.completeOk) ∨ (∃ e u, p s = .error (.raised e) u ∧ t = u.completeErr e) := by
  rcases complete_cases h with ⟨u, hu, ht⟩ | ⟨e, u, hu, ht⟩ | ⟨u, hu, ht⟩
  · exact .inl ⟨u, hu, by injection ht⟩
  · exact .inr ⟨e, u, hu, by injection ht⟩
  · cases ht

/-- Everything a step can answer: the latched command's completion, an illegal word's, or what the host does. -/
theorem step_cases {s : State} {r : Host.Outcome State Fault Refusal} (h : step s = r) :
    (∃ i, s.phase = .running ∧ s.delay = 0 ∧ s.latched = .ok i ∧ exec i s = r) ∨
    (s.phase = .running ∧ s.delay = 0 ∧ (∃ e, s.latched = .error e) ∧ r = .next (s.completeErr .argIllegalCmd)) ∨
    (s.phase = .running ∧ s.delay ≠ 0 ∧ r = .next s.waitStep) ∨
    (s.phase = .idle ∧ r = .next s.serveHost) := by
  unfold step at h
  split at h
  · rename_i hp hd
    split at h
    · rename_i i hi
      exact .inl ⟨i, hp, hd, hi, h⟩
    · rename_i e he
      exact .inr (.inl ⟨hp, hd, ⟨e, he⟩, h.symm⟩)
  · rename_i hp hd
    exact .inr (.inr (.inl ⟨hp, by omega, h.symm⟩))
  · rename_i hp
    exact .inr (.inr (.inr ⟨hp, h.symm⟩))

end Sys2Proof.Machine
end

