-- ==== Sys2Proof/Laws/Cells.lean ====
section
/-! SUPPORT. The laws of sparse storage: what a read after a write gives, the canonical form is kept, and equal contents
are equal lists. Then the same through the machine's own reads and writes. -/

namespace Sys2Proof.Machine

namespace Cells
variable {α : Type}

theorem get?_set_same (m : Cells α) (a : Nat) (x : α) : get? (set m a x) a = some x := by
  induction m with
  | nil => simp [set, get?]
  | cons c m ih =>
    obtain ⟨k, v⟩ := c
    unfold set
    split_ifs with h1 h2
    · simp [get?]
    · simp [get?]
    · simp [get?, Ne.symm h2, ih]

theorem get?_set_other (m : Cells α) {a b : Nat} (h : b ≠ a) (x : α) : get? (set m a x) b = get? m b := by
  induction m with
  | nil => simp [set, get?, Ne.symm h]
  | cons c m ih =>
    obtain ⟨k, v⟩ := c
    unfold set
    split_ifs with h1 h2
    · simp [get?, Ne.symm h]
    · subst h2; simp [get?, Ne.symm h]
    · simp only [get?, ih]

theorem get?_set (m : Cells α) (a b : Nat) (x : α) :
    get? (set m a x) b = if b = a then some x else get? m b := by
  split_ifs with h
  · rw [h, get?_set_same]
  · exact get?_set_other m h x

theorem mem_set {m : Cells α} {a : Nat} {x : α} {c : Nat × α} (h : c ∈ set m a x) : c = (a, x) ∨ c ∈ m := by
  induction m with
  | nil => simpa [set] using h
  | cons d m ih =>
    obtain ⟨k, v⟩ := d
    unfold set at h
    split_ifs at h with h1 h2
    · simpa using h
    · simp only [List.mem_cons] at h ⊢
      tauto
    · simp only [List.mem_cons] at h ⊢
      rcases h with h | h
      · exact .inr (.inl h)
      · exact (ih h).imp_right .inr

/-- A write inside the size keeps the canonical form. -/
theorem wf_set {m : Cells α} {size a : Nat} (h : wf m size) (ha : a < size) (x : α) : wf (set m a x) size := by
  refine ⟨?_, fun c hc => ?_⟩
  · have hp := h.1
    clear h
    induction m with
    | nil => simp [set]
    | cons d m ih =>
      obtain ⟨k, v⟩ := d
      rw [List.pairwise_cons] at hp
      unfold set
      split_ifs with h1 h2
      · refine List.pairwise_cons.2 ⟨fun c hc => ?_, List.pairwise_cons.2 hp⟩
        rcases List.mem_cons.1 hc with rfl | hc
        · exact h1
        · exact h1.trans (hp.1 c hc)
      · subst h2; exact List.pairwise_cons.2 hp
      · refine List.pairwise_cons.2 ⟨fun c hc => ?_, ih hp.2⟩
        rcases mem_set hc with rfl | hc
        · show k < a
          omega
        · exact hp.1 c hc
  · rcases mem_set hc with rfl | hc
    · exact ha
    · exact h.2 c hc

theorem get?_eq_none_of_lt {m : Cells α} {a : Nat} (h : ∀ c ∈ m, a < c.1) : get? m a = none := by
  induction m with
  | nil => rfl
  | cons c m ih =>
    have hc := h c (by simp)
    simp only [get?, if_neg (Nat.ne_of_gt hc)]
    exact ih fun d hd => h d (by simp [hd])

/-- Canonical storage with equal contents is equal. -/
theorem ext_of_get? {m m' : Cells α} {n n' : Nat} (h : wf m n) (h' : wf m' n') (e : ∀ a, get? m a = get? m' a) :
    m = m' := by
  obtain ⟨hp, -⟩ := h
  obtain ⟨hp', -⟩ := h'
  induction m generalizing m' with
  | nil =>
    cases m' with
    | nil => rfl
    | cons c m' => simpa [get?] using e c.1
  | cons c m ih =>
    cases m' with
    | nil => simpa [get?] using e c.1
    | cons d m' =>
      rw [List.pairwise_cons] at hp hp'
      have hk : c.1 = d.1 := by
        rcases Nat.lt_trichotomy c.1 d.1 with hlt | heq | hlt
        · have h1 := e c.1
          rw [get?_eq_none_of_lt (m := d :: m') (a := c.1) (by
            intro x hx
            rcases List.mem_cons.1 hx with rfl | hx
            · exact hlt
            · exact hlt.trans (hp'.1 x hx))] at h1
          simp [get?] at h1
        · exact heq
        · have h1 := e d.1
          rw [get?_eq_none_of_lt (m := c :: m) (a := d.1) (by
            intro x hx
            rcases List.mem_cons.1 hx with rfl | hx
            · exact hlt
            · exact hlt.trans (hp.1 x hx))] at h1
          simp [get?] at h1
      have hv : c.2 = d.2 := by
        have h1 := e c.1
        simpa [get?, hk] using h1
      have hcd : c = d := Prod.ext hk hv
      subst hcd
      congr 1
      refine ih (fun a => ?_) hp.2 hp'.2
      by_cases ha : c.1 = a
      · subst ha
        rw [get?_eq_none_of_lt hp.1, get?_eq_none_of_lt hp'.1]
      · simpa [get?, ha] using e a

end Cells

namespace State

theorem ibufByte_setIbuf (s : State) (a b : Nat) (v : Byte) :
    (s.setIbuf a v).ibufByte b = if b = a then v else s.ibufByte b := by
  simp only [ibufByte, setIbuf_ibuf, setIbuf_epoch, Cells.get?_set]
  split_ifs <;> rfl

theorem obufByte_setObuf (s : State) (a b : Nat) (v : Byte) :
    (s.setObuf a v).obufByte b = if b = a then v else s.obufByte b := by
  simp only [obufByte, setObuf_obuf, setObuf_epoch, Cells.get?_set]
  split_ifs <;> rfl

theorem node_setNode (s : State) (i j : NodeIdx) (n : Node) :
    (s.setNode i n).node j = if j = i then n else s.node j := by
  simp only [node, setNode_nodes, setNode_epoch, Cells.get?_set, BitVec.toNat_inj]
  split_ifs <;> rfl

end State

theorem freqOf_setFreqOf (t : Vector DWord 256) (a b : Byte) (v : DWord) :
    freqOf (setFreqOf t a v) b = if b = a then v else freqOf t b := by
  unfold freqOf setFreqOf
  rw [Vector.getElem_set]
  simp only [BitVec.toNat_inj, eq_comm]

theorem freqOf_replicate (b : Byte) : freqOf (Vector.replicate 256 0) b = 0 := by
  simp [freqOf]

namespace State

theorem codeLenOf_setCode (s : State) (a b : Byte) (p : List Bool) :
    (s.setCode a p).codeLenOf b = if b = a then BitVec.ofNat 8 p.length else s.codeLenOf b := by
  unfold codeLenOf
  simp only [setCode_codeLen, Vector.getElem_set, BitVec.toNat_inj, eq_comm]

theorem codeBitsOf_setCode (s : State) (a b : Byte) (p : List Bool) :
    (s.setCode a p).codeBitsOf b = if b = a then pathBits p else s.codeBitsOf b := by
  unfold codeBitsOf
  simp only [setCode_codeBits, Vector.getElem_set, BitVec.toNat_inj, eq_comm]

@[simp] theorem codeLenOf_clearCodes (s : State) (b : Byte) : s.clearCodes.codeLenOf b = 0 := by
  simp [codeLenOf]

@[simp] theorem codeBitsOf_clearCodes (s : State) (b : Byte) : s.clearCodes.codeBitsOf b = 0 := by
  simp [codeBitsOf]

end State

end Sys2Proof.Machine
end

