-- ==== Sys2Proof/Laws/Writer.lean ====
section
/-! SUPPORT. What the bit_writer's operations do (spec/40_bit_writer.md R150 to R152, R158): a run of AddBit calls either
adds all its bits, or stops with RES_OUT_OVERFLOW, and which of the two is decided by the room in OBUF. -/

namespace Sys2Proof.Machine

/-! ### Bytes and their bits -/

theorem byteOfBits_byteBits : ∀ v : Byte, byteOfBits (byteBits v) = v := by decide +kernel

theorem byteBits_byteOfBits :
    ∀ b7 b6 b5 b4 b3 b2 b1 b0 : Bool,
      byteBits (byteOfBits [b7, b6, b5, b4, b3, b2, b1, b0]) = [b7, b6, b5, b4, b3, b2, b1, b0] := by
  decide +kernel

@[simp] theorem length_byteBits (v : Byte) : (byteBits v).length = 8 := rfl

theorem byteBits_byteOfBits_of_length {bs : List Bool} (h : bs.length = 8) : byteBits (byteOfBits bs) = bs := by
  obtain ⟨b7, b6, b5, b4, b3, b2, b1, b0, rfl⟩ : ∃ b7 b6 b5 b4 b3 b2 b1 b0, bs = [b7, b6, b5, b4, b3, b2, b1, b0] := by
    match bs, h with
    | [b7, b6, b5, b4, b3, b2, b1, b0], _ => exact ⟨b7, b6, b5, b4, b3, b2, b1, b0, rfl⟩
  exact byteBits_byteOfBits ..

theorem byteBits_injective {v w : Byte} (h : byteBits v = byteBits w) : v = w := by
  rw [← byteOfBits_byteBits v, h, byteOfBits_byteBits]

/-- The bits of `v` below the first `p` are zero. -/
abbrev TailZero (v : Byte) (p : BitVec 3) : Prop := ∀ i, i < 8 → i + p.toNat < 8 → v.getLsbD i = false

theorem State.writerTailZero_iff (s : State) : s.WriterTailZero ↔ TailZero s.bw.cur s.bw.pos :=
  ⟨fun h i _ hi => h i hi, fun h i hi => h i (by omega) hi⟩

theorem byteOfBits_held : ∀ (p : BitVec 3) (v : Byte), TailZero v p →
    byteOfBits (fillTo 8 false ((byteBits v).take p.toNat)) = v := by
  decide +kernel

/-- ORing a bit in at position 7 - p appends it to the bits held. -/
theorem held_or : ∀ (p : BitVec 3) (v : Byte) (b : Bool), TailZero v p →
    (byteBits (v ||| ((BitVec.ofBool b).zeroExtend 8 <<< (7 - p.toNat)))).take (p.toNat + 1) =
      (byteBits v).take p.toNat ++ [b] ∧
    (p ≠ 7 → TailZero (v ||| ((BitVec.ofBool b).zeroExtend 8 <<< (7 - p.toNat))) (p + 1)) := by
  decide +kernel

theorem tailZero_zero (p : BitVec 3) : TailZero 0 p := fun i _ _ => by simp

/-! ### One AddBit -/

theorem addBit_apply (b : Bool) (s : State) :
    addBit b s = if s.flushBlocked then .error (.raised .resOutOverflow) s else .ok () (s.placeBit b) := rfl

theorem State.flushBlocked_iff (s : State) : s.flushBlocked = true ↔ s.bw.pos = 7 ∧ s.obufSize ≤ s.bw.wrptr.toNat := by
  simp [State.flushBlocked]

/-- AddBit changes the writer's registers and OBUF, and nothing else (40_bit_writer.md R150). -/
theorem State.placeBit_frame (s : State) (b : Bool) :
    s.placeBit b = { s with bw := (s.placeBit b).bw, obuf := (s.placeBit b).obuf } := by
  unfold State.placeBit
  split_ifs <;> rfl

theorem State.placeBit_of_pos_eq {s : State} (h : s.bw.pos = 7) (b : Bool) :
    s.placeBit b = { s.setObuf s.bw.wrptr.toNat (s.bw.curWith b) with
      bw := ⟨0, 0, s.bw.wrptr + 1, s.bw.bits + 1, s.bw.bytes + 1⟩ } := by
  unfold State.placeBit
  rw [if_pos h]

theorem State.placeBit_of_pos_ne {s : State} (h : s.bw.pos ≠ 7) (b : Bool) :
    s.placeBit b = { s with bw := ⟨s.bw.curWith b, s.bw.pos + 1, s.bw.wrptr, s.bw.bits + 1, s.bw.bytes⟩ } := by
  unfold State.placeBit
  rw [if_neg h]

theorem State.placeBit_tailZero {s : State} (h : s.WriterTailZero) (b : Bool) : (s.placeBit b).WriterTailZero := by
  rw [writerTailZero_iff] at h ⊢
  by_cases hp : s.bw.pos = 7
  · rw [placeBit_of_pos_eq hp]; exact tailZero_zero _
  · rw [placeBit_of_pos_ne hp]; exact (held_or _ _ b h).2 hp

theorem toNat_add_one_of_ne {p : BitVec 3} (h : p ≠ 7) : (p + 1).toNat = p.toNat + 1 := by
  revert p; decide

/-- The heart of 40_bit_writer.md R158: what holds after the bits `bs` from `s.placeBit b` on, holds after `b :: bs`
from `s` on. -/
theorem State.WroteBits.cons {s t : State} {b : Bool} {bs : List Bool} (hz : s.WriterTailZero)
    (hw : s.bw.pos = 7 → s.bw.wrptr.toNat + 1 < 2 ^ 64) (h : (s.placeBit b).WroteBits t bs) :
    s.WroteBits t (b :: bs) := by
  rw [writerTailZero_iff] at hz
  obtain ⟨h1, h2, h3, h4, h5, h6⟩ := h
  have hor := (held_or _ _ b hz).1
  by_cases hp : s.bw.pos = 7
  · have hpn : s.bw.pos.toNat = 7 := by rw [hp]; rfl
    rw [placeBit_of_pos_eq hp] at h1 h2 h3 h4 h5 h6
    have hfl : s.flushes (bs.length + 1) = bs.length / 8 + 1 := by
      simp only [flushes, hpn]; omega
    have hheld : s.heldBits.length = 7 := by simp [heldBits, hpn]
    have hcur : byteOfBits (s.heldBits ++ [b]) = s.bw.curWith b := by
      have h8 : (byteBits (s.bw.curWith b)).take 8 = s.heldBits ++ [b] := by
        have := hor
        rw [hpn] at this
        simpa only [heldBits, hpn, BitWriter.curWith] using this
      rw [← h8, List.take_of_length_le (by simp), byteOfBits_byteBits]
    have hw1 : (s.bw.wrptr + 1).toNat = s.bw.wrptr.toNat + 1 := by
      have := hw hp
      simp only [BitVec.toNat_add, BitVec.ofNat_eq_ofNat, BitVec.toNat_ofNat]
      omega
    have ho : ∀ a, t.obufByte a =
        if s.bw.wrptr.toNat + 1 ≤ a ∧ a < s.bw.wrptr.toNat + 1 + bs.length / 8 then
          byteOfBits ((bs.drop (8 * (a - (s.bw.wrptr.toNat + 1)))).take 8)
        else if a = s.bw.wrptr.toNat then s.bw.curWith b else s.obufByte a := by
      intro a
      refine (h6 a).trans ?_
      show (if (s.bw.wrptr + 1).toNat ≤ a ∧ a < (s.bw.wrptr + 1).toNat + (0 + bs.length) / 8 then
        byteOfBits ((([] ++ bs).drop (8 * (a - (s.bw.wrptr + 1).toNat))).take 8)
        else (s.setObuf s.bw.wrptr.toNat (s.bw.curWith b)).obufByte a) = _
      rw [hw1, Nat.zero_add, List.nil_append, obufByte_setObuf]
    clear h6
    simp only [flushes, heldBits, BitVec.ofNat_eq_ofNat, BitVec.toNat_ofNat, Nat.zero_mod, Nat.zero_add,
      List.take_zero, List.nil_append] at h1 h2 h3 h4 h5
    have hdrop : ∀ n, (s.heldBits ++ b :: bs).drop (8 * (n + 1)) = bs.drop (8 * n) := by
      intro n
      rw [show s.heldBits ++ b :: bs = (s.heldBits ++ [b]) ++ bs by simp, List.drop_append]
      have : (s.heldBits ++ [b]).length = 8 := by simp [hheld]
      rw [List.drop_of_length_le (by omega), this]
      simp only [List.nil_append]
      congr 1
    refine ⟨?_, ?_, ?_, ?_, ?_, fun a => ?_⟩
    · rw [h1, hp, List.length_cons]
      apply BitVec.eq_of_toNat_eq
      simp only [BitVec.toNat_add, BitVec.ofNat_eq_ofNat, BitVec.toNat_ofNat, Nat.zero_mod, Nat.zero_add]
      omega
    · rw [h2, List.length_cons, hfl, hdrop]
    · rw [h3, List.length_cons, hfl]
      apply BitVec.eq_of_toNat_eq
      simp only [BitVec.toNat_add, BitVec.toNat_ofNat]
      omega
    · rw [h4, List.length_cons]
      apply BitVec.eq_of_toNat_eq
      simp only [BitVec.toNat_add, BitVec.toNat_ofNat]
      omega
    · rw [h5, List.length_cons, hfl]
      apply BitVec.eq_of_toNat_eq
      simp only [BitVec.toNat_add, BitVec.toNat_ofNat]
      omega
    · rw [ho a, List.length_cons, hfl]
      by_cases ha : a = s.bw.wrptr.toNat
      · subst ha
        rw [if_neg (by omega), if_pos rfl, if_pos (by omega), Nat.sub_self, Nat.mul_zero, List.drop_zero, ← hcur]
        congr 1
        rw [show s.heldBits ++ b :: bs = (s.heldBits ++ [b]) ++ bs by simp, List.take_append]
        have : (s.heldBits ++ [b]).length = 8 := by simp [hheld]
        rw [this, List.take_of_length_le (by omega)]
        simp
      · rw [if_neg ha]
        by_cases hin : s.bw.wrptr.toNat + 1 ≤ a ∧ a < s.bw.wrptr.toNat + 1 + bs.length / 8
        · rw [if_pos hin, if_pos (by omega)]
          congr 2
          have := hdrop (a - (s.bw.wrptr.toNat + 1))
          rw [show a - (s.bw.wrptr.toNat + 1) + 1 = a - s.bw.wrptr.toNat by omega] at this
          exact this.symm
        · rw [if_neg hin, if_neg (by omega)]
  · have hpn := toNat_add_one_of_ne hp
    rw [placeBit_of_pos_ne hp] at h1 h2 h3 h4 h5 h6
    have hfl : (s.bw.pos.toNat + 1 + bs.length) / 8 = s.flushes (bs.length + 1) := by
      simp only [flushes]; congr 1; omega
    have hheld : (byteBits (s.bw.curWith b)).take (s.bw.pos.toNat + 1) ++ bs = s.heldBits ++ b :: bs := by
      rw [show s.heldBits ++ b :: bs = (s.heldBits ++ [b]) ++ bs by simp]
      congr 1
    simp only [flushes, heldBits, hpn, hfl, hheld] at h1 h2 h3 h4 h5 h6
    refine ⟨?_, ?_, ?_, ?_, ?_, fun a => ?_⟩
    · rw [h1, List.length_cons]
      apply BitVec.eq_of_toNat_eq
      simp only [BitVec.toNat_add, BitVec.ofNat_eq_ofNat, BitVec.toNat_ofNat]
      omega
    · rw [h2, List.length_cons]; rfl
    · rw [h3, List.length_cons]; rfl
    · rw [h4, List.length_cons]
      apply BitVec.eq_of_toNat_eq
      simp only [BitVec.toNat_add, BitVec.ofNat_eq_ofNat, BitVec.toNat_ofNat]
      omega
    · rw [h5, List.length_cons]; rfl
    · rw [h6 a, List.length_cons]; rfl

theorem State.WroteBits.nil {s : State} (hz : s.WriterTailZero) : s.WroteBits s [] := by
  rw [writerTailZero_iff] at hz
  have hlt : s.bw.pos.toNat < 8 := s.bw.pos.isLt
  have hfl : s.flushes 0 = 0 := by simp only [flushes]; omega
  refine ⟨by simp, ?_, by simp [hfl], by simp, by simp [hfl], fun a => ?_⟩
  · simp only [List.length_nil, hfl, Nat.mul_zero, List.drop_zero, List.append_nil]
    exact (byteOfBits_held _ _ hz).symm
  · rw [List.length_nil, hfl, if_neg (by omega)]

/-! ### A run of AddBit calls -/

theorem addBits_cons (b : Bool) (bs : List Bool) : addBits (b :: bs) = (addBit b >>= fun _ => addBits bs) := rfl

theorem addBits_append (as bs : List Bool) (s : State) :
    addBits (as ++ bs) s = (addBits as >>= fun _ => addBits bs) s := by
  induction as generalizing s with
  | nil => rfl
  | cons a as ih =>
    rw [List.cons_append, addBits_cons, addBits_cons, Proc.bind_apply, Proc.bind_apply, Proc.bind_apply]
    cases addBit a s with
    | ok x t => simp only [ih, Proc.bind_apply]
    | error e t => rfl

theorem State.hasRoom_cons {s : State} {b : Bool} {n : Nat} (h : s.HasRoom (n + 1)) :
    s.flushBlocked = false ∧ (s.placeBit b).HasRoom n := by
  have hlt : s.bw.pos.toNat < 8 := s.bw.pos.isLt
  have hobs : s.obufSize < 2 ^ 32 := s.params.obufSize.isLt
  have hblk : s.flushBlocked = false := by
    rw [Bool.eq_false_iff, ne_eq, flushBlocked_iff]
    rintro ⟨hp, hle⟩
    have hpn : s.bw.pos.toNat = 7 := by rw [hp]; rfl
    have : 1 ≤ s.flushes (n + 1) := by simp only [flushes, hpn]; omega
    rcases h with h | h <;> omega
  refine ⟨hblk, ?_⟩
  by_cases hp : s.bw.pos = 7
  · have hpn : s.bw.pos.toNat = 7 := by rw [hp]; rfl
    rw [placeBit_of_pos_eq hp]
    have hf : s.flushes (n + 1) = n / 8 + 1 := by simp only [flushes, hpn]; omega
    have hw : (s.bw.wrptr + 1).toNat = s.bw.wrptr.toNat + 1 := by
      have : s.bw.wrptr.toNat < s.obufSize := by rcases h with h | h <;> omega
      simp only [BitVec.toNat_add, BitVec.ofNat_eq_ofNat, BitVec.toNat_ofNat]
      omega
    right
    show (s.bw.wrptr + 1).toNat + (0 + n) / 8 ≤ s.obufSize
    rw [hw]
    rcases h with h | h <;> omega
  · rw [placeBit_of_pos_ne hp]
    have hpn := toNat_add_one_of_ne hp
    have hf : ((s.bw.pos + 1).toNat + n) / 8 = s.flushes (n + 1) := by
      simp only [flushes, hpn]; congr 1; omega
    show (((s.bw.pos + 1).toNat + n) / 8 = 0) ∨ s.bw.wrptr.toNat + ((s.bw.pos + 1).toNat + n) / 8 ≤ s.obufSize
    rw [hf]
    exact h

/-- With room, a run of AddBit calls adds all its bits, and changes nothing else. -/
theorem addBits_ok (bs : List Bool) {s : State} (hz : s.WriterTailZero) (hr : s.HasRoom bs.length) :
    ∃ t, addBits bs s = .ok () t ∧ s.WroteBits t bs ∧ t.WriterTailZero ∧ t = { s with bw := t.bw, obuf := t.obuf } := by
  induction bs generalizing s with
  | nil => exact ⟨s, rfl, .nil hz, hz, rfl⟩
  | cons b bs ih =>
    obtain ⟨hblk, hr'⟩ := State.hasRoom_cons (b := b) hr
    obtain ⟨t, ht, hw, htz, hf⟩ := ih (State.placeBit_tailZero hz b) hr'
    refine ⟨t, ?_, hw.cons hz fun hp => ?_, htz, ?_⟩
    · rw [addBits_cons, Proc.bind_ok (a := ()) (t := s.placeBit b)]
      · exact ht
      · rw [addBit_apply, hblk]; rfl
    · have hobs : s.obufSize < 2 ^ 32 := s.params.obufSize.isLt
      have := mt (s.flushBlocked_iff).2 (by simp [hblk])
      have : s.bw.wrptr.toNat < s.obufSize := by
        by_contra hc
        exact this ⟨hp, by omega⟩
      omega
    · rw [s.placeBit_frame b] at hf
      exact hf

theorem State.not_hasRoom_cons {s : State} {b : Bool} {n : Nat} (hblk : s.flushBlocked = false)
    (h : ¬ s.HasRoom (n + 1)) : ¬ (s.placeBit b).HasRoom n := by
  have hlt : s.bw.pos.toNat < 8 := s.bw.pos.isLt
  have hobs : s.obufSize < 2 ^ 32 := s.params.obufSize.isLt
  by_cases hp : s.bw.pos = 7
  · have hpn : s.bw.pos.toNat = 7 := by rw [hp]; rfl
    rw [placeBit_of_pos_eq hp]
    have hf : s.flushes (n + 1) = n / 8 + 1 := by simp only [flushes, hpn]; omega
    have hlt' : s.bw.wrptr.toNat < s.obufSize := by
      have := mt (s.flushBlocked_iff).2 (by simp [hblk])
      by_contra hc
      exact this ⟨hp, by omega⟩
    have hw : (s.bw.wrptr + 1).toNat = s.bw.wrptr.toNat + 1 := by
      simp only [BitVec.toNat_add, BitVec.ofNat_eq_ofNat, BitVec.toNat_ofNat]
      omega
    show ¬ ((0 + n) / 8 = 0 ∨ (s.bw.wrptr + 1).toNat + (0 + n) / 8 ≤ s.obufSize)
    rw [hw]
    intro hc
    apply h
    right
    rcases hc with hc | hc <;> omega
  · rw [placeBit_of_pos_ne hp]
    have hpn := toNat_add_one_of_ne hp
    have hf : ((s.bw.pos + 1).toNat + n) / 8 = s.flushes (n + 1) := by
      simp only [flushes, hpn]; congr 1; omega
    show ¬ ((((s.bw.pos + 1).toNat + n) / 8 = 0) ∨ s.bw.wrptr.toNat + ((s.bw.pos + 1).toNat + n) / 8 ≤ s.obufSize)
    rw [hf]
    exact h

/-- Without room, a run of AddBit calls stops with RES_OUT_OVERFLOW; the bits before the failing one, a proper prefix,
were added (60_exceptions.md R327, R332). -/
theorem addBits_overflow (bs : List Bool) {s : State} (hz : s.WriterTailZero) (hr : ¬ s.HasRoom bs.length) :
    ∃ t as, addBits bs s = .error (.raised .resOutOverflow) t ∧ as <+: bs ∧ as.length < bs.length ∧
      s.WroteBits t as ∧ t.WriterTailZero ∧ t.flushBlocked = true ∧ t = { s with bw := t.bw, obuf := t.obuf } := by
  induction bs generalizing s with
  | nil =>
    exact absurd (Or.inl (by simp only [State.flushes, List.length_nil]; have := s.bw.pos.isLt; omega)) hr
  | cons b bs ih =>
    cases hblk : s.flushBlocked with
    | true =>
      refine ⟨s, [], ?_, List.nil_prefix, by simp, .nil hz, hz, hblk, rfl⟩
      rw [addBits_cons, Proc.bind_error]
      rw [addBit_apply, hblk]; rfl
    | false =>
      obtain ⟨t, as, ht, hpre, hlen, hw, htz, hfb, hf⟩ :=
        ih (State.placeBit_tailZero hz b) (State.not_hasRoom_cons hblk hr)
      refine ⟨t, b :: as, ?_, ?_, by simpa using hlen, hw.cons hz fun hp => ?_, htz, hfb, ?_⟩
      · rw [addBits_cons, Proc.bind_ok (a := ()) (t := s.placeBit b)]
        · exact ht
        · rw [addBit_apply, hblk]; rfl
      · exact (List.prefix_cons_inj b).2 hpre
      · have hobs : s.obufSize < 2 ^ 32 := s.params.obufSize.isLt
        have := mt (s.flushBlocked_iff).2 (by simp [hblk])
        have : s.bw.wrptr.toNat < s.obufSize := by
          by_contra hc
          exact this ⟨hp, by omega⟩
        omega
      · rw [s.placeBit_frame b] at hf
        exact hf

/-- Everything a run of AddBit calls can answer, in any state: it changes the writer's registers and OBUF alone, and
its only error is RES_OUT_OVERFLOW. -/
theorem addBits_frame (bs : List Bool) (s : State) :
    match addBits bs s with
    | .ok _ t => t = { s with bw := t.bw, obuf := t.obuf }
    | .error e t => e = .raised .resOutOverflow ∧ t = { s with bw := t.bw, obuf := t.obuf } := by
  induction bs generalizing s with
  | nil => rfl
  | cons b bs ih =>
    rw [addBits_cons, Proc.bind_apply, addBit_apply]
    cases hblk : s.flushBlocked with
    | true => exact ⟨rfl, rfl⟩
    | false =>
      have h := ih (s.placeBit b)
      simp only [Bool.false_eq_true, if_false]
      cases hr : addBits bs (s.placeBit b) with
      | ok x t =>
        rw [hr] at h
        rw [s.placeBit_frame b] at h
        exact h
      | error e t =>
        rw [hr] at h
        rw [s.placeBit_frame b] at h
        exact h

/-! ### The room left in OBUF -/

/-- How many AddBit calls can still succeed. -/
def State.room (s : State) : Nat := 8 * (s.obufSize - s.bw.wrptr.toNat) + (7 - s.bw.pos.toNat)

theorem State.room_placeBit {s : State} {b : Bool} (h : s.flushBlocked = false) : (s.placeBit b).room + 1 = s.room := by
  have hlt := s.bw.pos.isLt
  by_cases hp : s.bw.pos = 7
  · have hpn : s.bw.pos.toNat = 7 := by rw [hp]; rfl
    have hw : s.bw.wrptr.toNat < s.obufSize := by
      have := mt (s.flushBlocked_iff).2 (by simp [h])
      by_contra hc
      exact this ⟨hp, by omega⟩
    have hobs : s.obufSize < 2 ^ 32 := s.params.obufSize.isLt
    have hw1 : (s.bw.wrptr + 1).toNat = s.bw.wrptr.toNat + 1 := by
      simp only [BitVec.toNat_add, BitVec.ofNat_eq_ofNat, BitVec.toNat_ofNat]
      omega
    rw [placeBit_of_pos_eq hp]
    show 8 * (s.obufSize - (s.bw.wrptr + 1).toNat) + (7 - 0) + 1 = 8 * (s.obufSize - s.bw.wrptr.toNat) + (7 - s.bw.pos.toNat)
    omega
  · have hpn := toNat_add_one_of_ne hp
    rw [placeBit_of_pos_ne hp]
    show 8 * (s.obufSize - s.bw.wrptr.toNat) + (7 - (s.bw.pos + 1).toNat) + 1 = 8 * (s.obufSize - s.bw.wrptr.toNat) + (7 - s.bw.pos.toNat)
    omega

theorem addBits_room {bs : List Bool} {s t : State} {x : Unit} (h : addBits bs s = .ok x t) :
    t.room + bs.length = s.room := by
  induction bs generalizing s with
  | nil => cases h; rfl
  | cons b bs ih =>
    rw [addBits_cons, Proc.bind_apply, addBit_apply] at h
    cases hblk : s.flushBlocked with
    | true => rw [hblk] at h; cases h
    | false =>
      rw [hblk] at h
      have := ih h
      have := State.room_placeBit (b := b) hblk
      rw [List.length_cons]
      omega

/-- Where a run of AddBit calls stops: after the bits `as`, at a full OBUF. -/
theorem addBits_stops {bs : List Bool} {s t : State} {e : Abort} (h : addBits bs s = .error e t) :
    ∃ as, as <+: bs ∧ as.length < bs.length ∧ addBits as s = .ok () t ∧ t.flushBlocked = true := by
  induction bs generalizing s with
  | nil => cases h
  | cons b bs ih =>
    rw [addBits_cons, Proc.bind_apply, addBit_apply] at h
    cases hblk : s.flushBlocked with
    | true =>
      rw [hblk] at h
      cases h
      exact ⟨[], List.nil_prefix, by simp, rfl, hblk⟩
    | false =>
      rw [hblk] at h
      obtain ⟨as, h1, h2, h3, h4⟩ := ih h
      refine ⟨b :: as, (List.prefix_cons_inj b).2 h1, by simpa using h2, ?_, h4⟩
      rw [addBits_cons, Proc.bind_apply, addBit_apply, hblk]
      exact h3

/-! ### One run after another -/

theorem State.length_heldBits (s : State) : s.heldBits.length = s.bw.pos.toNat := by
  have := s.bw.pos.isLt
  simp only [heldBits, List.length_take, length_byteBits]
  omega

theorem take_fillTo {n k : Nat} {b : Bool} {bs : List Bool} (h : bs.length = k) : (fillTo n b bs).take k = bs := by
  subst h
  simp [fillTo]

/-- The bits held after a run are those of the sequence that were not flushed. -/
theorem State.WroteBits.heldBits {s t : State} {as : List Bool} (h : s.WroteBits t as) :
    t.heldBits = (s.heldBits ++ as).drop (8 * s.flushes as.length) := by
  obtain ⟨h1, h2, -⟩ := h
  have hlt := s.bw.pos.isLt
  have hp : t.bw.pos.toNat = (s.bw.pos.toNat + as.length) % 8 := by
    rw [h1]; simp only [BitVec.toNat_add, BitVec.toNat_ofNat]; omega
  have hl : ((s.heldBits ++ as).drop (8 * s.flushes as.length)).length = t.bw.pos.toNat := by
    rw [List.length_drop, List.length_append, length_heldBits, hp]
    simp only [flushes]; omega
  unfold State.heldBits at *
  rw [h2, byteBits_byteOfBits_of_length, take_fillTo hl]
  rw [fillTo, List.length_append, List.length_replicate, hl, hp]
  omega

theorem State.flushes_add {s t : State} {as : List Bool} (h : s.WroteBits t as) (m : Nat) :
    s.flushes (as.length + m) = s.flushes as.length + t.flushes m := by
  have hp : t.bw.pos.toNat = (s.bw.pos.toNat + as.length) % 8 := by
    rw [h.1]; simp only [BitVec.toNat_add, BitVec.toNat_ofNat]; omega
  simp only [flushes, hp]
  omega

/-- Two runs, with anything in between that leaves the writer and OBUF alone, are one. -/
theorem State.WroteBits.trans {s t u : State} {as bs : List Bool} (h : s.WroteBits t as) (h' : t.WroteBits u bs)
    (hw : s.bw.wrptr.toNat + s.flushes as.length < 2 ^ 64) : s.WroteBits u (as ++ bs) := by
  have hh := h.heldBits
  have hfl := flushes_add h bs.length
  have hlt := s.bw.pos.isLt
  have hX : 8 * s.flushes as.length ≤ (s.heldBits ++ as).length := by
    rw [List.length_append, length_heldBits]; simp only [flushes]; omega
  obtain ⟨h1, h2, h3, h4, h5, h6⟩ := h
  obtain ⟨g1, g2, g3, g4, g5, g6⟩ := h'
  have hwt : t.bw.wrptr.toNat = s.bw.wrptr.toNat + s.flushes as.length := by
    rw [h3]; simp only [BitVec.toNat_add, BitVec.toNat_ofNat]; omega
  have hdrop : ∀ n, (s.heldBits ++ (as ++ bs)).drop (8 * (s.flushes as.length + n)) =
      (t.heldBits ++ bs).drop (8 * n) := by
    intro n
    rw [hh, ← List.append_assoc, Nat.mul_add, ← List.drop_drop, List.drop_append_of_le_length hX]
  refine ⟨?_, ?_, ?_, ?_, ?_, fun a => ?_⟩
  · rw [g1, h1, List.length_append, BitVec.ofNat_add]; ac_rfl
  · rw [g2, List.length_append, hfl, hdrop]
  · rw [g3, h3, List.length_append, hfl, BitVec.ofNat_add]; ac_rfl
  · rw [g4, h4, List.length_append, BitVec.ofNat_add]; ac_rfl
  · rw [g5, h5, List.length_append, hfl, BitVec.ofNat_add]; ac_rfl
  · rw [g6, h6, hwt, List.length_append, hfl]
    by_cases ha : s.bw.wrptr.toNat + s.flushes as.length ≤ a ∧
        a < s.bw.wrptr.toNat + s.flushes as.length + t.flushes bs.length
    · rw [if_pos ha, if_pos (by omega), ← hdrop]
      congr 3
      omega
    · rw [if_neg ha]
      by_cases hb : s.bw.wrptr.toNat ≤ a ∧ a < s.bw.wrptr.toNat + s.flushes as.length
      · rw [if_pos hb, if_pos (by omega), ← List.append_assoc]
        have h8 : 8 * (a - s.bw.wrptr.toNat) + 8 ≤ (s.heldBits ++ as).length := by omega
        rw [List.drop_append_of_le_length (l₁ := s.heldBits ++ as) (l₂ := bs) (by omega), List.take_append_of_le_length]
        rw [List.length_drop]; omega
      · rw [if_neg hb, if_neg (by omega)]

/-! ### WriteChar and Pad are runs of AddBit calls -/

theorem writeChar_eq (v : Byte) : writeChar v = addBits (byteBits v) := rfl

theorem writeChars_eq (vs : List Byte) (s : State) : writeChars vs s = addBits (vs.flatMap byteBits) s := by
  induction vs generalizing s with
  | nil => rfl
  | cons v vs ih =>
    show (writeChar v >>= fun _ => writeChars vs) s = _
    rw [List.flatMap_cons, addBits_append, Proc.bind_apply, Proc.bind_apply, writeChar_eq]
    cases addBits (byteBits v) s with
    | ok x t => exact ih t
    | error e t => rfl

/-- How many 1-bits Pad adds (40_bit_writer.md R152). -/
def State.padCount (s : State) : Nat := if s.bw.pos = 0 then 0 else 8 - s.bw.pos.toNat

theorem padLoop_eq (n : Nat) (s : State) (h : s.padCount ≤ n) :
    padLoop n s = addBits (List.replicate s.padCount true) s := by
  induction n generalizing s with
  | zero =>
    have : s.padCount = 0 := by omega
    rw [this]; rfl
  | succ n ih =>
    show ((Proc.look (·.bw.pos)) >>= fun pos => if pos = 0 then pure () else addBit true >>= fun _ => padLoop n) s = _
    rw [Proc.look_bind]
    by_cases hp : s.bw.pos = 0
    · have : s.padCount = 0 := by simp [State.padCount, hp]
      rw [if_pos hp, this]; rfl
    · rw [if_neg hp]
      have hlt : s.bw.pos.toNat < 8 := s.bw.pos.isLt
      have hne : s.bw.pos.toNat ≠ 0 := fun h0 => hp (BitVec.eq_of_toNat_eq (by simpa using h0))
      have hc : s.padCount = 8 - s.bw.pos.toNat := by unfold State.padCount; rw [if_neg hp]
      obtain ⟨m, hm⟩ : ∃ m, s.padCount = m + 1 := ⟨7 - s.bw.pos.toNat, by omega⟩
      rw [hm, List.replicate_succ, addBits_cons, Proc.bind_apply, Proc.bind_apply, addBit_apply]
      cases hblk : s.flushBlocked with
      | true => rfl
      | false =>
        simp only [Bool.false_eq_true, if_false]
        have hpc : (s.placeBit true).padCount = m := by
          by_cases h7 : s.bw.pos = 7
          · rw [State.placeBit_of_pos_eq h7]
            have : s.bw.pos.toNat = 7 := by rw [h7]; rfl
            simp only [State.padCount]
            rw [if_pos trivial]
            omega
          · rw [State.placeBit_of_pos_ne h7]
            have h1 := toNat_add_one_of_ne h7
            simp only [State.padCount]
            rw [if_neg (fun h0 => by rw [h0] at h1; simp at h1), h1]
            omega
        rw [← hpc]
        exact ih _ (by omega)

theorem pad_eq (s : State) : pad s = addBits (List.replicate s.padCount true) s := by
  refine padLoop_eq 8 s ?_
  unfold State.padCount
  split_ifs <;> omega

end Sys2Proof.Machine
end

