-- ==== Sys2Proof/Laws/Reader.lean ====
section
/-! SUPPORT. What the bit_reader's operations do (spec/41_bit_reader.md R180 to R183, R187): GetBit returns the next
unread bit, and a run of GetBit calls either returns the bits asked for or consumes all that are left and raises
FMT_TRUNCATED. -/

namespace Sys2Proof.Machine

/-! ### The unread bits -/

/-- How many unread bits BR_CUR still holds. -/
def State.curLeft (s : State) : Nat := if s.br.cursor = 0 then 0 else 8 - s.br.cursor.toNat

theorem State.length_curUnread (s : State) : s.curUnread.length = s.curLeft := by
  unfold curUnread curLeft
  split_ifs <;> simp

@[simp] theorem State.length_ibufBytes (s : State) (a n : Nat) : (s.ibufBytes a n).length = n := by
  simp [ibufBytes]

@[simp] theorem State.length_obufBytes (s : State) (a n : Nat) : (s.obufBytes a n).length = n := by
  simp [obufBytes]

theorem length_flatMap_byteBits (vs : List Byte) : (vs.flatMap byteBits).length = 8 * vs.length := by
  induction vs with
  | nil => rfl
  | cons v vs ih => rw [List.flatMap_cons, List.length_append, ih, length_byteBits, List.length_cons]; omega

theorem State.length_unread (s : State) :
    s.unread.length = s.curLeft + 8 * (s.srcLen.toNat - s.br.rdptr.toNat) := by
  rw [unread, List.length_append, length_curUnread, length_flatMap_byteBits, length_ibufBytes]

theorem State.ibufBytes_succ (s : State) (a n : Nat) : s.ibufBytes a (n + 1) = s.ibufByte a :: s.ibufBytes (a + 1) n := by
  simp only [ibufBytes, List.range_succ_eq_map, List.map_cons, List.map_map, Nat.add_zero]
  congr 1
  apply List.map_congr_left
  intro k _
  simp only [Function.comp, Nat.succ_eq_add_one]
  congr 1
  omega

theorem cursor_toNat_ne_zero {c : BitVec 3} (h : c ≠ 0) : c.toNat ≠ 0 := fun h0 =>
  h (BitVec.eq_of_toNat_eq (by simpa using h0))

/-! ### One GetBit -/

theorem getBit_apply (s : State) :
    getBit s = if s.sourceEnded then .error (.raised .fmtTruncated) s
      else .ok s.pulled.br.currentBit s.pulled.stepCursor := rfl

/-- Where the reader stands after the next bit. -/
def State.nextBit (s : State) : State := s.pulled.stepCursor

theorem State.nextBit_frame (s : State) : s.nextBit = { s with br := s.nextBit.br } := by
  unfold nextBit pulled
  split_ifs <;> rfl

theorem State.sourceEnded_iff (s : State) : s.sourceEnded = true ↔ s.unread = [] := by
  rw [← List.length_eq_zero_iff, length_unread]
  unfold sourceEnded curLeft
  by_cases h : s.br.cursor = 0
  · simp only [h, BEq.rfl, Bool.true_and, decide_eq_true_eq, if_true]
    rw [BitVec.le_def]
    omega
  · have := s.br.cursor.isLt
    simp only [beq_eq_false_iff_ne.2 h, Bool.false_and, if_neg h]
    simp only [Bool.false_eq_true, false_iff]
    omega

theorem drop_byteBits : ∀ (c : BitVec 3) (v : Byte),
    (byteBits v).drop c.toNat = v.getLsbD (7 - c.toNat) :: (if c + 1 = 0 then [] else (byteBits v).drop (c + 1).toNat) := by
  decide +kernel

/-- GetBit returns the first unread bit and leaves the others (41_bit_reader.md R180). -/
theorem State.unread_eq_cons {s : State} (h : s.sourceEnded = false) :
    s.unread = s.pulled.br.currentBit :: s.nextBit.unread := by
  by_cases hc : s.br.cursor = 0
  · have hlt : s.br.rdptr.toNat < s.srcLen.toNat := by
      simp only [sourceEnded, hc, BEq.rfl, Bool.true_and, decide_eq_false_iff_not, BitVec.le_def] at h
      omega
    have hw : (s.br.rdptr + 1).toNat = s.br.rdptr.toNat + 1 := by
      have := s.srcLen.isLt
      simp only [BitVec.toNat_add, BitVec.ofNat_eq_ofNat, BitVec.toNat_ofNat]
      omega
    have hb := drop_byteBits 0 (s.ibufByte s.br.rdptr.toNat)
    obtain ⟨m, hm⟩ : ∃ m, s.srcLen.toNat - s.br.rdptr.toNat = m + 1 := ⟨_, (Nat.succ_pred_eq_of_pos (by omega)).symm⟩
    have hm' : s.srcLen.toNat - (s.br.rdptr.toNat + 1) = m := by omega
    have hp : s.nextBit = { s with br :=
        ⟨s.ibufByte s.br.rdptr.toNat, 1, s.br.rdptr + 1, s.br.bits + 1, s.br.bytes + 1⟩ } := by
      simp only [nextBit, pulled, stepCursor, hc]
      rfl
    have hbit : s.pulled.br.currentBit = (s.ibufByte s.br.rdptr.toNat).getLsbD 7 := by
      simp only [pulled, BitReader.currentBit, hc]
      rfl
    have hn : s.nextBit.unread =
        (byteBits (s.ibufByte s.br.rdptr.toNat)).drop 1 ++ (s.ibufBytes (s.br.rdptr.toNat + 1) m).flatMap byteBits := by
      rw [hp, ← hm', ← hw]
      rfl
    rw [hn, hbit]
    unfold unread curUnread
    rw [if_pos hc, hm, ibufBytes_succ, List.flatMap_cons, List.nil_append, ← List.cons_append]
    congr 1
  · have hp : s.pulled = s := by simp only [pulled, if_neg hc]
    have hb := drop_byteBits s.br.cursor s.br.cur
    have hn : s.nextBit.unread = (if s.br.cursor + 1 = 0 then [] else (byteBits s.br.cur).drop (s.br.cursor + 1).toNat) ++
        (s.ibufBytes s.br.rdptr.toNat (s.srcLen.toNat - s.br.rdptr.toNat)).flatMap byteBits := by
      rw [nextBit, hp]
      rfl
    rw [hn, hp]
    unfold unread curUnread
    rw [if_neg hc, ← List.cons_append, hb]
    rfl

/-! ### Reading on -/

/-- `t` comes from `s` by reading `n` bits, whatever else changed but the source. -/
structure State.Advanced (s t : State) (n : Nat) : Prop where
  enough : n ≤ s.unread.length
  rest : t.unread = s.unread.drop n
  readOn : s.ReadOn t n
  ibuf : t.ibuf = s.ibuf
  epoch : t.epoch = s.epoch
  srcLen : t.srcLen = s.srcLen

theorem State.pulls_le {s : State} {n : Nat} (h : n ≤ s.unread.length) :
    s.pulls n = 0 ∨ s.br.rdptr.toNat + s.pulls n ≤ s.srcLen.toNat := by
  rw [length_unread] at h
  unfold curLeft at h
  unfold pulls
  have := s.br.cursor.isLt
  by_cases hc : s.br.cursor = 0
  · rw [if_pos hc] at h ⊢; omega
  · have := cursor_toNat_ne_zero hc
    rw [if_neg hc] at h ⊢; omega

theorem State.Advanced.refl (s : State) : s.Advanced s 0 := by
  have hp : s.pulls 0 = 0 := by
    have := s.br.cursor.isLt
    unfold pulls
    split_ifs <;> omega
  exact ⟨Nat.zero_le _, by simp, ⟨by simp, by simp [hp], by simp, by simp [hp], by simp [hp]⟩, rfl, rfl, rfl⟩

/-- The cursor and the pulls of two runs add up (41_bit_reader.md R187). -/
theorem State.pulls_add {s t : State} {n m : Nat} (h : t.br.cursor = s.br.cursor + BitVec.ofNat 3 n) :
    s.pulls (n + m) = s.pulls n + t.pulls m := by
  have h1 : t.br.cursor.toNat = (s.br.cursor.toNat + n) % 8 := by
    rw [h]; simp only [BitVec.toNat_add, BitVec.toNat_ofNat]; omega
  have hs : s.br.cursor = 0 ↔ s.br.cursor.toNat = 0 :=
    ⟨fun h => by rw [h]; rfl, fun h => BitVec.eq_of_toNat_eq (by simpa using h)⟩
  have ht : t.br.cursor = 0 ↔ t.br.cursor.toNat = 0 :=
    ⟨fun h => by rw [h]; rfl, fun h => BitVec.eq_of_toNat_eq (by simpa using h)⟩
  have := s.br.cursor.isLt
  simp only [pulls, hs, ht]
  split_ifs <;> omega

theorem State.Advanced.trans {s t u : State} {n m : Nat} (h : s.Advanced t n) (h' : t.Advanced u m) :
    s.Advanced u (n + m) := by
  obtain ⟨hc, hr, hbi, hby, hcur⟩ := h.readOn
  obtain ⟨hc', hr', hbi', hby', hcur'⟩ := h'.readOn
  have hlen := h'.enough
  rw [h.rest, List.length_drop] at hlen
  have henough := h.enough
  have hp := pulls_add (m := m) hc
  have hrn : s.pulls n ≠ 0 → t.br.rdptr.toNat = s.br.rdptr.toNat + s.pulls n := by
    intro h0
    have := pulls_le henough
    have := s.srcLen.isLt
    rw [hr]
    simp only [BitVec.toNat_add, BitVec.toNat_ofNat]
    omega
  have hr0 : s.pulls n = 0 → t.br.rdptr = s.br.rdptr := by intro h0; rw [hr, h0]; simp
  have hi : ∀ a, t.ibufByte a = s.ibufByte a := fun a => by simp only [ibufByte, h.ibuf, h.epoch]
  refine ⟨by omega, ?_, ⟨?_, ?_, ?_, ?_, ?_⟩, h'.ibuf.trans h.ibuf, h'.epoch.trans h.epoch, h'.srcLen.trans h.srcLen⟩
  · rw [h'.rest, h.rest, List.drop_drop]
  · rw [hc', hc, BitVec.ofNat_add]; ac_rfl
  · rw [hr', hr, hp, BitVec.ofNat_add]; ac_rfl
  · rw [hbi', hbi, BitVec.ofNat_add]; ac_rfl
  · rw [hby', hby, hp, BitVec.ofNat_add]; ac_rfl
  · rw [hcur', hp, hcur]
    by_cases h0 : t.pulls m = 0
    · rw [if_pos h0, h0, Nat.add_zero]
    · rw [if_neg h0, if_neg (by omega), hi]
      by_cases h1 : s.pulls n = 0
      · rw [hr0 h1, h1, Nat.zero_add]
      · rw [hrn h1]
        congr 1
        omega

/-- One GetBit is one bit of reading on. -/
theorem State.advanced_nextBit {s : State} (h : s.sourceEnded = false) : s.Advanced s.nextBit 1 := by
  have hu := unread_eq_cons h
  have hi := s.nextBit_frame
  refine ⟨by rw [hu]; simp, by rw [hu]; rfl, ?_, by rw [hi], by rw [hi], by rw [hi]⟩
  by_cases hc : s.br.cursor = 0
  · have hp : s.pulls 1 = 1 := by simp only [pulls, if_pos hc]
    have hn : s.nextBit = { s with br :=
        ⟨s.ibufByte s.br.rdptr.toNat, 1, s.br.rdptr + 1, s.br.bits + 1, s.br.bytes + 1⟩ } := by
      simp only [nextBit, pulled, stepCursor, hc]
      rfl
    rw [hn]
    refine ⟨by rw [hc]; rfl, by rw [hp]; rfl, rfl, by rw [hp]; rfl, ?_⟩
    rw [hp]; rfl
  · have hlt := s.br.cursor.isLt
    have hp : s.pulls 1 = 0 := by
      have := cursor_toNat_ne_zero hc
      simp only [pulls, if_neg hc]; omega
    have hn : s.nextBit = { s with br := { s.br with cursor := s.br.cursor + 1, bits := s.br.bits + 1 } } := by
      simp only [nextBit, pulled, if_neg hc, stepCursor]
    rw [hn]
    refine ⟨rfl, by rw [hp]; simp, rfl, by rw [hp]; simp, ?_⟩
    rw [if_pos hp]

/-- GetBit, said once: the next unread bit, or FMT_TRUNCATED and no change when there is none. -/
theorem getBit_cases (s : State) :
    (s.unread = [] ∧ getBit s = .error (.raised .fmtTruncated) s) ∨
    ∃ b bs, s.unread = b :: bs ∧ getBit s = .ok b s.nextBit ∧ s.nextBit.unread = bs ∧ s.Advanced s.nextBit 1 ∧
      s.nextBit = { s with br := s.nextBit.br } := by
  cases h : s.sourceEnded with
  | true => exact .inl ⟨s.sourceEnded_iff.1 h, by rw [getBit_apply, h]; rfl⟩
  | false =>
    exact .inr ⟨_, _, State.unread_eq_cons h, by rw [getBit_apply, h]; rfl, rfl, State.advanced_nextBit h,
      s.nextBit_frame⟩

/-! ### Runs of GetBit -/

/-- `n` GetBit calls shifted into `v`, with enough bits. -/
theorem readBits_ok (n : Nat) (v : Byte) {s : State} (h : n ≤ s.unread.length) :
    ∃ t, readBits n v s = .ok ((s.unread.take n).foldl (fun v b => (v <<< 1) ||| (BitVec.ofBool b).zeroExtend 8) v) t ∧
      s.Advanced t n ∧ t = { s with br := t.br } := by
  induction n generalizing v s with
  | zero => exact ⟨s, rfl, .refl s, rfl⟩
  | succ n ih =>
    rcases getBit_cases s with ⟨hu, -⟩ | ⟨b, bs, hu, hg, hn, ha, hf⟩
    · rw [hu] at h; simp at h
    · rw [hu] at h
      obtain ⟨t, ht, hat, hft⟩ := ih ((v <<< 1) ||| (BitVec.ofBool b).zeroExtend 8) (s := s.nextBit)
        (by rw [hn]; simpa using h)
      refine ⟨t, ?_, by rw [Nat.add_comm]; exact ha.trans hat, by rw [hft, hf]⟩
      show (getBit >>= fun b => readBits n ((v <<< 1) ||| (BitVec.ofBool b).zeroExtend 8)) s = _
      rw [Proc.bind_ok hg, ht, hu, hn]
      rfl

/-- `n` GetBit calls with too few bits: all of them are consumed, and FMT_TRUNCATED. -/
theorem readBits_short (n : Nat) (v : Byte) {s : State} (h : s.unread.length < n) :
    ∃ t, readBits n v s = .error (.raised .fmtTruncated) t ∧ s.Advanced t s.unread.length ∧
      t = { s with br := t.br } := by
  induction n generalizing v s with
  | zero => omega
  | succ n ih =>
    show ∃ t, (getBit >>= fun b => readBits n ((v <<< 1) ||| (BitVec.ofBool b).zeroExtend 8)) s = _ ∧ _
    rcases getBit_cases s with ⟨hu, hg⟩ | ⟨b, bs, hu, hg, hn, ha, hf⟩
    · exact ⟨s, Proc.bind_error hg, by rw [hu]; exact .refl s, rfl⟩
    · rw [hu] at h
      obtain ⟨t, ht, hat, hft⟩ := ih ((v <<< 1) ||| (BitVec.ofBool b).zeroExtend 8) (s := s.nextBit)
        (by rw [hn]; simpa using h)
      refine ⟨t, by rw [Proc.bind_ok hg, ht], ?_, by rw [hft, hf]⟩
      have := ha.trans hat
      rw [hn] at this
      rw [hu, List.length_cons, Nat.add_comm]
      exact this

/-- ReadChar with eight unread bits (41_bit_reader.md R181). -/
theorem readChar_ok {s : State} (h : 8 ≤ s.unread.length) :
    ∃ v t, readChar s = .ok v t ∧ byteBits v = s.unread.take 8 ∧ s.Advanced t 8 ∧ t = { s with br := t.br } := by
  obtain ⟨t, ht, ha, hf⟩ := readBits_ok 8 0 h
  exact ⟨_, t, ht, byteBits_byteOfBits_of_length (by rw [List.length_take]; omega), ha, hf⟩

theorem readChar_short {s : State} (h : s.unread.length < 8) :
    ∃ t, readChar s = .error (.raised .fmtTruncated) t ∧ s.Advanced t s.unread.length ∧ t = { s with br := t.br } :=
  readBits_short 8 0 h

end Sys2Proof.Machine
end

