-- ==== Sys2Proof/Laws/Tree.lean ====
section
/-! SUPPORT. The tree that the arena holds: it is determined by the links, it has at most NODE_CAP nodes, and the three
recursive procedures that walk it (SerNode, Walk, DecodeSymbol) do what the tree's shape says (spec/44 R261, 43 R240,
45 R297). -/

namespace Sys2Proof.Machine

/-! ### Shapes -/

theorem Shape.isAbsent_iff (t : Shape) : t.isAbsent = true ↔ t = .absent := by
  cases t <;> simp [isAbsent]

theorem Shape.size_pos {t : Shape} (h : t ≠ .absent) : 0 < t.size := by
  cases t with
  | absent => exact absurd rfl h
  | node _ l r => simp only [size]; omega

theorem Shape.length_slotBits (t : Shape) : t.slotBits.length = 10 * t.size + 1 := by
  induction t with
  | absent => rfl
  | node sym l r ihl ihr =>
    simp only [slotBits, List.length_cons, List.length_append, length_byteBits, ihl, ihr, size]
    omega

/-- 30_encoding.md R133: a tree of N nodes serializes to 10N - 8 bits. -/
theorem Shape.length_treeBits {t : Shape} (h : t ≠ .absent) : t.treeBits.length = 10 * t.size - 8 := by
  cases t with
  | absent => exact absurd rfl h
  | node sym l r =>
    simp only [treeBits, List.length_append, length_slotBits, size]
    omega

/-! ### The arena's tree -/

theorem Subtree.isAbsent {nd : NodeIdx → Node} {b : Bool} {i : NodeIdx} {t : Shape} {ns : List NodeIdx}
    (h : Subtree nd b i t ns) : t.isAbsent = !b := by
  cases h <;> rfl

theorem Subtree.size {nd : NodeIdx → Node} {b : Bool} {i : NodeIdx} {t : Shape} {ns : List NodeIdx}
    (h : Subtree nd b i t ns) : t.size = ns.length := by
  induction h with
  | absent i => rfl
  | present i l r ls rs hl hr ihl ihr =>
    simp only [Shape.size, ihl, ihr, List.length_cons, List.length_append]
    omega

/-- The links determine the tree and its preorder. -/
theorem Subtree.unique {nd : NodeIdx → Node} {b : Bool} {i : NodeIdx} {t t' : Shape} {ns ns' : List NodeIdx}
    (h : Subtree nd b i t ns) (h' : Subtree nd b i t' ns') : t = t' ∧ ns = ns' := by
  induction h generalizing t' ns' with
  | absent i => cases h'; exact ⟨rfl, rfl⟩
  | present i l r ls rs hl hr ihl ihr =>
    cases h' with
    | present _ l' r' ls' rs' hl' hr' =>
      obtain ⟨rfl, rfl⟩ := ihl hl'
      obtain ⟨rfl, rfl⟩ := ihr hr'
      exact ⟨rfl, rfl⟩

/-- Slots outside the tree do not matter. -/
theorem Subtree.congr {nd nd' : NodeIdx → Node} {b : Bool} {i : NodeIdx} {t : Shape} {ns : List NodeIdx}
    (h : Subtree nd b i t ns) (e : ∀ j ∈ ns, nd' j = nd j) : Subtree nd' b i t ns := by
  induction h with
  | absent i => exact .absent i
  | present i l r ls rs hl hr ihl ihr =>
    have e0 := e i (by simp)
    have hl' := ihl fun j hj => e j (by simp [hj])
    have hr' := ihr fun j hj => e j (by simp [hj])
    have := Subtree.present (nd := nd') i l r ls rs (by rw [e0]; exact hl') (by rw [e0]; exact hr')
    rwa [e0] at this

theorem nodup_length_le {ns : List NodeIdx} (h : ns.Nodup) {n : Nat} (hb : ∀ i ∈ ns, i.toNat < n) :
    ns.length ≤ n := by
  have h1 : (ns.map BitVec.toNat).Nodup := h.map (fun a b hab => BitVec.eq_of_toNat_eq hab)
  have h2 : (ns.map BitVec.toNat) ⊆ List.range n := by
    intro x hx
    obtain ⟨i, hi, rfl⟩ := List.mem_map.1 hx
    exact List.mem_range.2 (hb i hi)
  have := (h1.subperm h2).length_le
  simpa using this

theorem State.HoldsTree.size_le {s : State} {t : Shape} (h : s.HoldsTree t) : t.size ≤ 512 := by
  obtain ⟨-, hcap, -, ns, hs, hnd, hb⟩ := h
  rw [hs.size]
  exact (nodup_length_le hnd hb).trans hcap

theorem State.HoldsTree.ne_absent {s : State} {t : Shape} (h : s.HoldsTree t) : t ≠ .absent := by
  obtain ⟨-, -, -, ns, hs, -, -⟩ := h
  rintro rfl
  cases hs

theorem State.HoldsTree.unique {s : State} {t t' : Shape} (h : s.HoldsTree t) (h' : s.HoldsTree t') : t = t' := by
  obtain ⟨-, -, -, ns, hs, -, -⟩ := h
  obtain ⟨-, -, -, ns', hs', -, -⟩ := h'
  exact (hs.unique hs').1

/-- R39 depends on NODE, ROOT and NODE_COUNT alone. -/
theorem State.HoldsTree.congr {s s' : State} {t : Shape} (h : s.HoldsTree t) (hr : s'.root = s.root)
    (hc : s'.nodeCount = s.nodeCount) (hn : ∀ i : NodeIdx, i.toNat < s.nodeCount.toNat → s'.node i = s.node i) :
    s'.HoldsTree t := by
  obtain ⟨h1, h2, h3, ns, hs, hnd, hb⟩ := h
  refine ⟨by rw [hc]; exact h1, by rw [hc]; exact h2, by rw [hc, hr]; exact h3, ns, ?_, hnd, by rw [hc]; exact hb⟩
  rw [hr]
  exact hs.congr fun j hj => hn j (hb j hj)

/-- The childless test on a node and on the tree below it. -/
theorem Subtree.isChildless {nd : NodeIdx → Node} {i : NodeIdx} {t : Shape} {ns : List NodeIdx}
    (h : Subtree nd true i t ns) : (nd i).isChildless = t.isChildless := by
  cases h with
  | present _ l r ls rs hl hr => simp only [Node.isChildless, Shape.isChildless, hl.isAbsent, hr.isAbsent]

/-! ### SerNode -/

theorem State.node_of_writer {s : State} (bw : BitWriter) (obuf : Memory) :
    State.node { s with bw := bw, obuf := obuf } = s.node := rfl

/-- AddBit calls keep everything that depends neither on the writer nor on OBUF. -/
theorem addBits_keeps {P : State → Prop} (h : ∀ (s : State) (bw : BitWriter) (obuf : Memory), P s →
    P { s with bw := bw, obuf := obuf }) (bs : List Bool) : Proc.Keeps P (addBits bs) := by
  intro s hs
  have hf := addBits_frame bs s
  cases hr : addBits bs s with
  | ok a t =>
    rw [hr] at hf
    have hf : t = { s with bw := t.bw, obuf := t.obuf } := hf
    show P t
    rw [hf]
    exact h _ _ _ hs
  | error e t =>
    rw [hr] at hf
    have hf : t = { s with bw := t.bw, obuf := t.obuf } := hf.2
    show P t
    rw [hf]
    exact h _ _ _ hs

theorem addBits_keeps_node (nd : NodeIdx → Node) (bs : List Bool) : Proc.Keeps (fun s => s.node = nd) (addBits bs) :=
  addBits_keeps (fun _ _ _ h => h) bs

/-- Sequencing runs of AddBit with anything that equals one over the same arena. -/
theorem addBits_bind {nd : NodeIdx → Node} {p : Proc Unit} {as bs : List Bool} {s : State} (hs : s.node = nd)
    (h : ∀ t : State, t.node = nd → p t = addBits bs t) :
    (addBits as >>= fun _ => p) s = addBits (as ++ bs) s := by
  rw [addBits_append, Proc.bind_apply, Proc.bind_apply]
  cases hr : addBits as s with
  | ok a t => exact h t ((addBits_keeps_node nd as).of_ok hs hr)
  | error e t => rfl

theorem addBits_singleton (b : Bool) (s : State) : addBit b s = addBits [b] s := by
  show _ = (addBit b >>= fun _ => pure ()) s
  rw [Proc.bind_apply]
  cases addBit b s <;> rfl

/-- The same, where what follows may lean on the room that the first run has used up. -/
theorem addBits_bind_room {nd : NodeIdx → Node} {p : Proc Unit} {as bs : List Bool} {s : State} (hs : s.node = nd)
    (h : ∀ t : State, t.node = nd → t.room + as.length = s.room → p t = addBits bs t) :
    (addBits as >>= fun _ => p) s = addBits (as ++ bs) s := by
  rw [addBits_append, Proc.bind_apply, Proc.bind_apply]
  cases hr : addBits as s with
  | ok a t => exact h t ((addBits_keeps_node nd as).of_ok hs hr) (addBits_room hr)
  | error e t => rfl

/-- SerNode over a tree writes the tree's bits (44_huffman_encoder.md R261). The nesting suffices when it covers the
tree, or when OBUF is full before it is used up. -/
theorem serNode_eq {nd : NodeIdx → Node} {i : NodeIdx} {t : Shape} {ns : List NodeIdx} (h : Subtree nd true i t ns) :
    ∀ (fuel : Nat) (s : State), t.size ≤ fuel ∨ s.room < fuel → s.node = nd →
      serNode fuel i s = addBits t.treeBits s := by
  suffices H : ∀ {b : Bool} {i : NodeIdx} {t : Shape} {ns : List NodeIdx}, Subtree nd b i t ns →
      ∀ (fuel : Nat) (s : State), s.node = nd →
        (b = true → t.size ≤ fuel ∨ s.room < fuel → serNode fuel i s = addBits t.treeBits s) ∧
        (t.size ≤ fuel ∨ s.room < fuel + 9 → serSide (serNode fuel) b i s = addBits t.slotBits s) by
    intro fuel s hf hs
    exact (H h fuel s hs).1 rfl hf
  intro b i t ns h
  induction h with
  | absent i =>
    intro fuel s hs
    exact ⟨fun h => absurd h (by simp), fun _ => addBits_singleton false s⟩
  | present i l r ls rs hl hr ihl ihr =>
    intro fuel s hs
    have key : ∀ (fuel : Nat) (s : State), s.node = nd → (Shape.node (nd i).sym l r).size ≤ fuel ∨ s.room < fuel →
        serNode fuel i s = addBits (Shape.node (nd i).sym l r).treeBits s := by
      intro fuel s hs hf
      simp only [Shape.size] at hf
      cases fuel with
      | zero => omega
      | succ m =>
        show (serSide (serNode m) (s.node i).lp (s.node i).left >>=
          fun _ => serSide (serNode m) (s.node i).rp (s.node i).right) s = addBits (l.slotBits ++ r.slotBits) s
        rw [hs, Proc.bind_apply, (ihl m s hs).2 (by omega), ← Proc.bind_apply]
        refine addBits_bind_room hs fun t ht hroom => (ihr m t ht).2 ?_
        omega
    refine ⟨fun _ => key fuel s hs, fun hf => ?_⟩
    show (addBit true >>= fun _ => Proc.look (·.node i) >>= fun c => writeChar c.sym >>= fun _ => serNode fuel i) s = _
    have e : Shape.slotBits (.node (nd i).sym l r) =
        [true] ++ (byteBits (nd i).sym ++ (Shape.node (nd i).sym l r).treeBits) := rfl
    rw [e, Proc.bind_apply, addBits_singleton, ← Proc.bind_apply]
    refine addBits_bind_room hs fun t ht hrt => ?_
    show (writeChar (t.node i).sym >>= fun _ => serNode fuel i) t = _
    rw [ht]
    refine addBits_bind_room ht fun u hu hru => key fuel u hu ?_
    have h1 : ([true] : List Bool).length = 1 := rfl
    have h8 : (byteBits (nd i).sym).length = 8 := rfl
    omega

/-! ### Walk -/

/-- Walk's record of each leaf of a code list, in order (43_code_table_gen.md R240). -/
def recordAll : List (Byte × List Bool) → Proc Unit
  | [] => pure ()
  | c :: cs => do
    recordLeaf c.1 c.2
    recordAll cs

theorem recordAll_append (as bs : List (Byte × List Bool)) (s : State) :
    recordAll (as ++ bs) s = (recordAll as >>= fun _ => recordAll bs) s := by
  induction as generalizing s with
  | nil => rfl
  | cons a as ih =>
    show (recordLeaf a.1 a.2 >>= fun _ => recordAll (as ++ bs)) s =
      ((recordLeaf a.1 a.2 >>= fun _ => recordAll as) >>= fun _ => recordAll bs) s
    rw [Proc.bind_apply, Proc.bind_apply, Proc.bind_apply]
    cases recordLeaf a.1 a.2 s with
    | ok x t => simp only [ih, Proc.bind_apply]
    | error e t => rfl

/-- Recording changes CODE alone. -/
theorem recordAll_keeps {P : State → Prop} (h : ∀ (s : State) (l : Vector Byte 256) (c : Vector (BitVec 255) 256),
    P s → P { s with codeLen := l, codeBits := c }) (cs : List (Byte × List Bool)) : Proc.Keeps P (recordAll cs) := by
  induction cs with
  | nil => exact .pure ()
  | cons c cs ih =>
    refine Proc.Keeps.bind (fun s hs => ?_) fun _ => ih
    unfold recordLeaf
    by_cases h1 : Config.codeMaxLen < c.2.length
    · simp only [if_pos h1, Proc.raise_apply]; exact hs
    · by_cases h2 : s.codeLenOf c.1 ≠ 0
      · simp only [if_neg h1, if_pos h2, Proc.raise_apply]; exact hs
      · simp only [if_neg h1, if_neg h2]; exact h _ _ _ hs

theorem recordAll_keeps_node (nd : NodeIdx → Node) (cs : List (Byte × List Bool)) :
    Proc.Keeps (fun s => s.node = nd) (recordAll cs) :=
  recordAll_keeps (fun _ _ _ h => h) cs

theorem recordAll_bind {nd : NodeIdx → Node} {p : Proc Unit} {as bs : List (Byte × List Bool)} {s : State}
    (hs : s.node = nd) (h : ∀ t : State, t.node = nd → p t = recordAll bs t) :
    (recordAll as >>= fun _ => p) s = recordAll (as ++ bs) s := by
  rw [recordAll_append, Proc.bind_apply, Proc.bind_apply]
  cases hr : recordAll as s with
  | ok a t => exact h t ((recordAll_keeps_node nd as).of_ok hs hr)
  | error e t => rfl

/-- Walk over a tree records the tree's leaves in preorder (43_code_table_gen.md R240). -/
theorem codeWalk_eq {nd : NodeIdx → Node} {b : Bool} {i : NodeIdx} {t : Shape} {ns : List NodeIdx}
    (h : Subtree nd b i t ns) :
    ∀ (fuel : Nat) (p : List Bool) (s : State), t.size ≤ fuel → s.node = nd →
      walkSide (codeWalk fuel) b i p s = recordAll (t.codesAt p) s := by
  induction h with
  | absent i => intro fuel p s hf hs; rfl
  | present i l r ls rs hl hr ihl ihr =>
    intro fuel p s hf hs
    simp only [Shape.size] at hf
    obtain ⟨m, rfl⟩ : ∃ m, fuel = m + 1 := ⟨fuel - 1, by omega⟩
    have hc : (nd i).isChildless = (l.isAbsent && r.isAbsent) := (Subtree.present i l r ls rs hl hr).isChildless
    show (if (s.node i).isChildless then recordLeaf (s.node i).sym p else
        walkSide (codeWalk m) (s.node i).lp (s.node i).left (p ++ [false]) >>=
          fun _ => walkSide (codeWalk m) (s.node i).rp (s.node i).right (p ++ [true])) s =
      recordAll (if l.isAbsent && r.isAbsent then [((nd i).sym, p)] else
        l.codesAt (p ++ [false]) ++ r.codesAt (p ++ [true])) s
    rw [hs, hc]
    by_cases h0 : (l.isAbsent && r.isAbsent) = true
    · rw [if_pos h0, if_pos h0]
      show _ = (recordLeaf (nd i).sym p >>= fun _ => pure ()) s
      rw [Proc.bind_apply]
      cases recordLeaf (nd i).sym p s <;> rfl
    · rw [if_neg h0, if_neg h0, Proc.bind_apply, ihl m _ s (by omega) hs, ← Proc.bind_apply]
      exact recordAll_bind hs fun t ht => ihr m _ t (by omega) ht

/-! ### DecodeSymbol -/

/-- DecodeSymbol's loop over a tree does what the walk down the shape says (45_huffman_decoder.md R297). -/
theorem decodeLoop_eq {nd : NodeIdx → Node} {i : NodeIdx} {t : Shape} {ns : List NodeIdx}
    (h : Subtree nd true i t ns) :
    ∀ (fuel k : Nat) (s : State), t.size ≤ fuel ∨ s.unread.length < fuel → s.node = nd →
      ∃ u, u = { s with br := u.br } ∧
        match t.walkDown s.unread k with
        | .symbol sym used => k ≤ used ∧ decodeLoop fuel i s = .ok sym u ∧ s.Advanced u (used - k)
        | .absentChild used => k ≤ used ∧ decodeLoop fuel i s = .error (.raised .fmtAbsentChild) u ∧
            s.Advanced u (used - k)
        | .truncated used => k ≤ used ∧ decodeLoop fuel i s = .error (.raised .fmtTruncated) u ∧
            s.Advanced u (used - k) ∧ used - k = s.unread.length := by
  suffices H : ∀ {b : Bool} {i : NodeIdx} {t : Shape} {ns : List NodeIdx}, Subtree nd b i t ns → b = true →
      ∀ (fuel k : Nat) (s : State), t.size ≤ fuel ∨ s.unread.length < fuel → s.node = nd →
      ∃ u, u = { s with br := u.br } ∧
        match t.walkDown s.unread k with
        | .symbol sym used => k ≤ used ∧ decodeLoop fuel i s = .ok sym u ∧ s.Advanced u (used - k)
        | .absentChild used => k ≤ used ∧ decodeLoop fuel i s = .error (.raised .fmtAbsentChild) u ∧
            s.Advanced u (used - k)
        | .truncated used => k ≤ used ∧ decodeLoop fuel i s = .error (.raised .fmtTruncated) u ∧
            s.Advanced u (used - k) ∧ used - k = s.unread.length from H h rfl
  intro b i t ns h
  induction h with
  | absent i => intro hb; cases hb
  | present i l r ls rs hl hr ihl ihr =>
    intro _ fuel k s hf hs
    simp only [Shape.size] at hf
    obtain ⟨m, rfl⟩ : ∃ m, fuel = m + 1 := ⟨fuel - 1, by omega⟩
    have hc : (nd i).isChildless = (l.isAbsent && r.isAbsent) := (Subtree.present i l r ls rs hl hr).isChildless
    have hstep : decodeLoop (m + 1) i s =
        (if (nd i).isChildless then pure (nd i).sym else
          getBit >>= fun b => if (if b then (nd i).rp else (nd i).lp) then
            decodeLoop m (if b then (nd i).right else (nd i).left) else Proc.raise .fmtAbsentChild) s := by
      rw [← hs]; rfl
    rw [hstep, hc]
    by_cases h0 : (l.isAbsent && r.isAbsent) = true
    · refine ⟨s, rfl, ?_⟩
      have hw : (Shape.node (nd i).sym l r).walkDown s.unread k = .symbol (nd i).sym k := by
        unfold Shape.walkDown; rw [if_pos h0]
      rw [hw, if_pos h0]
      exact ⟨le_refl k, rfl, by rw [Nat.sub_self]; exact .refl s⟩
    · rw [if_neg h0]
      rcases getBit_cases s with ⟨hu, hg⟩ | ⟨b, bs, hu, hg, hn, ha, hfr⟩
      · refine ⟨s, rfl, ?_⟩
        have hw : (Shape.node (nd i).sym l r).walkDown s.unread k = .truncated k := by
          rw [hu]; unfold Shape.walkDown; rw [if_neg h0]
        rw [hw, Proc.bind_error hg]
        exact ⟨le_refl k, rfl, by rw [Nat.sub_self]; exact .refl s, by rw [hu]; simp⟩
      · have hsn : s.nextBit.node = nd := by
          rw [show s.nextBit.node = _ from congrArg State.node hfr, ← hs]; rfl
        have hw : (Shape.node (nd i).sym l r).walkDown s.unread k =
            if b then r.walkDown s.nextBit.unread (k + 1) else l.walkDown s.nextBit.unread (k + 1) := by
          rw [hu, hn]
          conv_lhs => unfold Shape.walkDown
          rw [if_neg h0]
        rw [hw, Proc.bind_ok hg]
        have hlen' : s.unread.length = s.nextBit.unread.length + 1 := by rw [hu, hn]; rfl
        -- both sides alike
        have side : ∀ (c : Shape) (cp : Bool) (ci : NodeIdx) (cs : List NodeIdx), Subtree nd cp ci c cs →
            c.size ≤ m ∨ s.nextBit.unread.length < m →
            (cp = true → ∀ (fuel k : Nat) (s : State), c.size ≤ fuel ∨ s.unread.length < fuel → s.node = nd →
              ∃ u, u = { s with br := u.br } ∧
              match c.walkDown s.unread k with
              | .symbol sym used => k ≤ used ∧ decodeLoop fuel ci s = .ok sym u ∧ s.Advanced u (used - k)
              | .absentChild used => k ≤ used ∧ decodeLoop fuel ci s = .error (.raised .fmtAbsentChild) u ∧
                  s.Advanced u (used - k)
              | .truncated used => k ≤ used ∧ decodeLoop fuel ci s = .error (.raised .fmtTruncated) u ∧
                  s.Advanced u (used - k) ∧ used - k = s.unread.length) →
            ∃ u, u = { s with br := u.br } ∧
              match c.walkDown s.nextBit.unread (k + 1) with
              | .symbol sym used => k ≤ used ∧
                  (if cp then decodeLoop m ci else Proc.raise .fmtAbsentChild) s.nextBit = .ok sym u ∧
                  s.Advanced u (used - k)
              | .absentChild used => k ≤ used ∧
                  (if cp then decodeLoop m ci else Proc.raise .fmtAbsentChild) s.nextBit =
                    .error (.raised .fmtAbsentChild) u ∧ s.Advanced u (used - k)
              | .truncated used => k ≤ used ∧
                  (if cp then decodeLoop m ci else Proc.raise .fmtAbsentChild) s.nextBit =
                    .error (.raised .fmtTruncated) u ∧ s.Advanced u (used - k) ∧ used - k = s.unread.length := by
          intro c cp ci cs hcs hsz ihc
          cases cp with
          | false =>
            have : c = .absent := (Shape.isAbsent_iff c).1 hcs.isAbsent
            subst this
            refine ⟨s.nextBit, hfr, ?_⟩
            show k ≤ k + 1 ∧ _ ∧ _
            refine ⟨by omega, rfl, ?_⟩
            rw [show k + 1 - k = 1 by omega]; exact ha
          | true =>
            obtain ⟨u, hu1, hu2⟩ := ihc rfl m (k + 1) s.nextBit hsz hsn
            refine ⟨u, by rw [hu1, hfr], ?_⟩
            have hlen : s.unread.length = s.nextBit.unread.length + 1 := by rw [hu, hn]; rfl
            cases hwd : c.walkDown s.nextBit.unread (k + 1) with
            | symbol sym used =>
              rw [hwd] at hu2
              obtain ⟨g1, g2, g3⟩ := hu2
              refine ⟨by omega, g2, ?_⟩
              have := ha.trans g3
              rwa [show 1 + (used - (k + 1)) = used - k by omega] at this
            | absentChild used =>
              rw [hwd] at hu2
              obtain ⟨g1, g2, g3⟩ := hu2
              refine ⟨by omega, g2, ?_⟩
              have := ha.trans g3
              rwa [show 1 + (used - (k + 1)) = used - k by omega] at this
            | truncated used =>
              rw [hwd] at hu2
              obtain ⟨g1, g2, g3, g4⟩ := hu2
              refine ⟨by omega, g2, ?_, by omega⟩
              have := ha.trans g3
              rwa [show 1 + (used - (k + 1)) = used - k by omega] at this
        cases b with
        | false => exact side l _ _ _ hl (by omega) (fun hb => ihl hb)
        | true => exact side r _ _ _ hr (by omega) (fun hb => ihr hb)

end Sys2Proof.Machine
end

