-- ==== Sys2Proof/Laws/Adopt.lean ====
section
/-! SUPPORT. TB_ADOPT's check (spec/42_tree_builder.md R221) accepts exactly the arenas of spec/10_state.md R39. -/

namespace Sys2Proof.Machine

/-- A visit that does not raise has met a tree, all of whose indices are new and in range. -/
theorem State.visit_sound (s : State) (fuel : Nat) {i : NodeIdx} {seen seen' : List NodeIdx}
    (h : s.visit fuel i seen = some seen') :
    ∃ t ns, Subtree s.node true i t ns ∧ seen' = ns.reverse ++ seen ∧ ns.Nodup ∧
      ∀ j ∈ ns, j.toNat < s.nodeCount.toNat ∧ j ∉ seen := by
  induction fuel generalizing i seen seen' with
  | zero => cases h
  | succ fuel ih =>
    unfold State.visit at h
    split_ifs at h with h0
    rw [not_or] at h0
    -- one side
    have side : ∀ (b : Bool) (c : NodeIdx) (seen seen' : List NodeIdx),
        (if b then s.visit fuel c seen else some seen) = some seen' →
        ∃ t ns, Subtree s.node b c t ns ∧ seen' = ns.reverse ++ seen ∧ ns.Nodup ∧
          ∀ j ∈ ns, j.toNat < s.nodeCount.toNat ∧ j ∉ seen := by
      intro b c seen seen' hb
      cases b with
      | false => exact ⟨.absent, [], .absent c, by simpa using hb.symm, .nil, by simp⟩
      | true => exact ih hb
    dsimp only at h
    cases hl : (if (s.node i).lp = true then s.visit fuel (s.node i).left (i :: seen) else some (i :: seen)) with
    | none => rw [hl] at h; cases h
    | some mid =>
      rw [hl] at h
      obtain ⟨l, ls, hsl, rfl, hnl, hbl⟩ := side _ _ _ _ hl
      obtain ⟨r, rs, hsr, rfl, hnr, hbr⟩ := side _ _ _ _ h
      refine ⟨_, _, .present i l r ls rs hsl hsr, by simp, ?_, ?_⟩
      · rw [List.nodup_cons, List.nodup_append]
        refine ⟨?_, hnl, hnr, ?_⟩
        · intro hm
          rcases List.mem_append.1 hm with hm | hm
          · exact (hbl i hm).2 (by simp)
          · exact (hbr i hm).2 (by simp)
        · rintro a ha b hb rfl
          exact (hbr a hb).2 (by simp [ha])
      · intro j hj
        rcases List.mem_cons.1 hj with rfl | hj
        · exact ⟨by omega, h0.2⟩
        · rcases List.mem_append.1 hj with hj | hj
          · exact ⟨(hbl j hj).1, fun hm => (hbl j hj).2 (by simp [hm])⟩
          · exact ⟨(hbr j hj).1, fun hm => (hbr j hj).2 (by simp [hm])⟩

/-- Over a tree whose indices are new and in range, the visit does not raise. -/
theorem State.visit_complete (s : State) {b : Bool} {i : NodeIdx} {t : Shape} {ns : List NodeIdx}
    (h : Subtree s.node b i t ns) : ∀ (fuel : Nat) (seen : List NodeIdx), t.size ≤ fuel → ns.Nodup →
      (∀ j ∈ ns, j.toNat < s.nodeCount.toNat ∧ j ∉ seen) →
      (if b then s.visit fuel i seen else some seen) = some (ns.reverse ++ seen) := by
  induction h with
  | absent i => intro fuel seen _ _ _; rfl
  | present i l r ls rs hl hr ihl ihr =>
    intro fuel seen hf hn hb
    simp only [Shape.size] at hf
    obtain ⟨m, rfl⟩ : ∃ m, fuel = m + 1 := ⟨fuel - 1, by omega⟩
    rw [List.nodup_cons, List.nodup_append] at hn
    obtain ⟨hi, hnl, hnr, hd⟩ := hn
    have hbi := hb i (by simp)
    have h1 := ihl m (i :: seen) (by omega) hnl fun j hj =>
      ⟨(hb j (by simp [hj])).1, fun hm => by
        rcases List.mem_cons.1 hm with rfl | hm
        · exact hi (by simp [hj])
        · exact (hb j (by simp [hj])).2 hm⟩
    have h2 := ihr m (ls.reverse ++ i :: seen) (by omega) hnr fun j hj =>
      ⟨(hb j (by simp [hj])).1, fun hm => by
        rcases List.mem_append.1 hm with hm | hm
        · exact hd j (List.mem_reverse.1 hm) j hj rfl
        · rcases List.mem_cons.1 hm with rfl | hm
          · exact hi (by simp [hj])
          · exact (hb j (by simp [hj])).2 hm⟩
    show s.visit (m + 1) i seen = _
    unfold State.visit
    rw [if_neg (by rw [not_or]; exact ⟨by omega, hbi.2⟩)]
    dsimp only
    rw [h1]
    dsimp only
    rw [h2]
    simp

/-- 42_tree_builder.md R221: TB_ADOPT's check is 10_state.md R39. -/
theorem State.treeIsSound_iff (s : State) : s.treeIsSound = true ↔ s.ArenaIsTree := by
  have hz : ¬ s.nodeCount = 0 ↔ 1 ≤ s.nodeCount.toNat := by
    constructor
    · intro h
      by_contra h0
      exact h (BitVec.eq_of_toNat_eq (by rw [show s.nodeCount.toNat = 0 by omega]; rfl))
    · intro h h0
      rw [h0] at h
      exact absurd h (by decide)
  unfold State.treeIsSound
  simp only [Bool.and_eq_true, Bool.not_eq_true', beq_eq_false_iff_ne, decide_eq_true_eq, hz]
  constructor
  · rintro ⟨⟨⟨h1, h2⟩, h3⟩, h4⟩
    obtain ⟨seen, hs⟩ := Option.isSome_iff_exists.1 h4
    obtain ⟨t, ns, ht, -, hn, hb⟩ := s.visit_sound _ hs
    exact ⟨t, h1, h2, h3, ns, ht, hn, fun j hj => (hb j hj).1⟩
  · rintro ⟨t, ht⟩
    have hsz := ht.size_le
    obtain ⟨h1, h2, h3, ns, hs, hn, hb⟩ := ht
    refine ⟨⟨⟨h1, h2⟩, h3⟩, ?_⟩
    have := s.visit_complete hs (Config.nodeCap + 1) [] (by unfold Config.nodeCap; omega) hn
      fun j hj => ⟨hb j hj, by simp⟩
    have h : s.visit (Config.nodeCap + 1) s.root [] = some (ns.reverse ++ []) := this
    rw [h]
    rfl

end Sys2Proof.Machine
end

