-- ==== Sys2Proof/Laws/Builder.lean ====
section
/-! SUPPORT. What Alloc and BuildTree do (spec/42_tree_builder.md R212 to R220): the arena's merge loop builds the tree
that greedy merging over weighted trees gives, `huffmanTree`, and stops exactly when that has none. -/

namespace Sys2Proof.Machine

/-! ### Alloc -/

/-- Alloc, said once (42_tree_builder.md R212), where there is a free slot. -/
theorem alloc_ok (n : Node) {s : State} (h : s.nodeCount.toNat < 512) :
    ∃ k t, alloc n s = .ok k t ∧ k.toNat = s.nodeCount.toNat ∧ t.nodeCount.toNat = s.nodeCount.toNat + 1 ∧
      (∀ j, t.node j = if j = k then n else s.node j) ∧ t = { s with nodes := t.nodes, nodeCount := t.nodeCount } := by
  refine ⟨BitVec.ofNat 9 s.nodeCount.toNat,
    { s.setNode (BitVec.ofNat 9 s.nodeCount.toNat) n with nodeCount := s.nodeCount + 1 }, ?_, ?_, ?_, fun j => ?_, rfl⟩
  · unfold alloc Config.nodeCap
    rw [if_neg (by omega)]
  · simp only [BitVec.toNat_ofNat]; omega
  · show (s.nodeCount + 1).toNat = _
    simp only [BitVec.toNat_add, BitVec.ofNat_eq_ofNat, BitVec.toNat_ofNat]; omega
  · exact State.node_setNode s _ j n

theorem alloc_full (n : Node) {s : State} (h : 512 ≤ s.nodeCount.toNat) :
    alloc n s = .error (.raised .allocNodes) s := by
  unfold alloc Config.nodeCap
  rw [if_pos h]
  rfl

/-! ### The two priority queues -/

/-- The order of 42_tree_builder.md R215 as a strict order on pairs of numbers. -/
theorem comesBefore_iff (f : NodeIdx → DWord) (a b : NodeIdx) :
    comesBefore f a b = true ↔ (f a).toNat < (f b).toNat ∨ ((f a).toNat = (f b).toNat ∧ a.toNat < b.toNat) := by
  simp only [comesBefore, Bool.or_eq_true, Bool.and_eq_true, decide_eq_true_eq, beq_iff_eq, BitVec.lt_def,
    BitVec.toNat_inj]

theorem Weighted.before_iff (a b : Weighted) :
    a.before b = true ↔ a.freq < b.freq ∨ (a.freq = b.freq ∧ a.seq < b.seq) := by
  simp [Weighted.before]

/-- PopMin's choice is in the queue and before all the others. -/
theorem leastOf_spec (f : NodeIdx → DWord) (a : NodeIdx) (q : List NodeIdx) :
    leastOf f a q ∈ a :: q ∧ ∀ x ∈ a :: q, x ≠ leastOf f a q → comesBefore f (leastOf f a q) x = true := by
  induction q generalizing a with
  | nil =>
    refine ⟨by simp [leastOf], fun x hx hne => ?_⟩
    simp only [List.mem_singleton] at hx
    exact absurd hx hne
  | cons b q ih =>
    unfold leastOf
    by_cases hb : comesBefore f b a = true
    · rw [if_pos hb]
      obtain ⟨h1, h2⟩ := ih b
      refine ⟨by simp only [List.mem_cons] at h1 ⊢; tauto, fun x hx hne => ?_⟩
      rcases List.mem_cons.1 hx with rfl | hx
      · by_cases hm : b = leastOf f b q
        · rw [← hm]; exact hb
        · have h3 := h2 b (by simp) hm
          rw [comesBefore_iff] at h3 hb ⊢
          omega
      · exact h2 x hx hne
    · rw [if_neg hb]
      obtain ⟨h1, h2⟩ := ih a
      refine ⟨by simp only [List.mem_cons] at h1 ⊢; tauto, fun x hx hne => ?_⟩
      simp only [List.mem_cons] at hx
      rcases hx with rfl | rfl | hx
      · exact h2 x (by simp) hne
      · have hab : a ≠ x → comesBefore f a x = true := by
          intro hne'
          have : a.toNat ≠ x.toNat := fun h => hne' (BitVec.eq_of_toNat_eq h)
          rw [Bool.not_eq_true, Bool.eq_false_iff, ne_eq, comesBefore_iff] at hb
          rw [comesBefore_iff]
          omega
        by_cases hm : a = leastOf f a q
        · rw [← hm] at hne ⊢; exact hab (Ne.symm hne)
        · have h3 := h2 a (by simp) hm
          by_cases hax : a = x
          · rw [← hax]; exact h3
          · have h4 := hab hax
            rw [comesBefore_iff] at h3 h4 ⊢
            omega
      · exact h2 x (by simp [hx]) hne

/-- `takeFirst` takes one tree out and leaves the others, none of which is before it. -/
theorem takeFirst_spec (a : Weighted) (q : List Weighted) :
    ((takeFirst a q).1 :: (takeFirst a q).2).Perm (a :: q) ∧
    ∀ x ∈ (takeFirst a q).2, x.before (takeFirst a q).1 = false := by
  induction q generalizing a with
  | nil => exact ⟨.refl _, fun x hx => by simp [takeFirst] at hx⟩
  | cons b q ih =>
    unfold takeFirst
    have notBefore : ∀ c d : Weighted, c.before d = false ↔ ¬ (c.freq < d.freq ∨ (c.freq = d.freq ∧ c.seq < d.seq)) := by
      intro c d; rw [← Weighted.before_iff, Bool.not_eq_true]
    by_cases hb : b.before a = true
    · rw [if_pos hb]
      obtain ⟨h1, h2⟩ := ih b
      refine ⟨(List.Perm.swap _ _ _).trans (h1.cons a), fun x hx => ?_⟩
      rcases List.mem_cons.1 hx with rfl | hx
      · rcases List.mem_cons.1 (h1.mem_iff.2 (List.mem_cons_self)) with hm | hm
        · rw [← hm]
          rw [notBefore]; rw [Weighted.before_iff] at hb; omega
        · have h3 := h2 b hm
          rw [notBefore] at h3 ⊢; rw [Weighted.before_iff] at hb; dsimp only at h3 ⊢; omega
      · exact h2 x hx
    · rw [if_neg hb]
      obtain ⟨h1, h2⟩ := ih a
      refine ⟨((List.Perm.swap _ _ _).trans (h1.cons b)).trans (List.Perm.swap _ _ _), fun x hx => ?_⟩
      rw [Bool.not_eq_true] at hb
      rcases List.mem_cons.1 hx with rfl | hx
      · rcases List.mem_cons.1 (h1.mem_iff.2 (List.mem_cons_self)) with hm | hm
        · rw [← hm]; exact hb
        · have h3 := h2 a hm
          rw [notBefore] at h3 hb ⊢; dsimp only at h3 ⊢; omega
      · exact h2 x hx

/-! ### The merge loop -/

/-- What one merge makes of two queue indices (42_tree_builder.md R216): the sum's overflow, or the new node. -/
theorem mergePair_cases (a b : NodeIdx) {s : State} (h : s.nodeCount.toNat < 512) :
    (2 ^ 64 ≤ (s.node a).freq.toNat + (s.node b).freq.toNat ∧
      mergePair a b s = .error (.raised .argFreqOverflow) s) ∨
    ((s.node a).freq.toNat + (s.node b).freq.toNat < 2 ^ 64 ∧
      ∃ k t, mergePair a b s = .ok k t ∧ k.toNat = s.nodeCount.toNat ∧ t.nodeCount.toNat = s.nodeCount.toNat + 1 ∧
        (∀ j, t.node j = if j = k then ⟨0, true, true, a, b, (s.node a).freq + (s.node b).freq⟩ else s.node j) ∧
        t = { s with nodes := t.nodes, nodeCount := t.nodeCount }) := by
  have e : mergePair a b s =
      (if 2 ^ 64 ≤ (s.node a).freq.toNat + (s.node b).freq.toNat then Proc.raise .argFreqOverflow
        else alloc ⟨0, true, true, a, b, (s.node a).freq + (s.node b).freq⟩ : Proc NodeIdx) s := rfl
  by_cases ho : 2 ^ 64 ≤ (s.node a).freq.toNat + (s.node b).freq.toNat
  · exact .inl ⟨ho, by rw [e, if_pos ho]; rfl⟩
  · refine .inr ⟨by omega, ?_⟩
    rw [e, if_neg ho]
    exact alloc_ok _ h

/-- The weighted tree that a queue index stands for. -/
def weightedOf (nd : NodeIdx → Node) (sh : NodeIdx → Shape) (i : NodeIdx) : Weighted :=
  ⟨(nd i).freq.toNat, i.toNat, sh i⟩

/-- A queue of arena indices, the trees they hold (`sh`) and the indices of these (`pre`): disjoint, and all the slots
below NODE_COUNT. -/
structure Forest (nd : NodeIdx → Node) (k : Nat) (Q : List NodeIdx) (sh : NodeIdx → Shape)
    (pre : NodeIdx → List NodeIdx) : Prop where
  tree : ∀ i ∈ Q, Subtree nd true i (sh i) (pre i)
  nodup : (Q.flatMap pre).Nodup
  below : ∀ j ∈ Q.flatMap pre, j.toNat < k
  all : (Q.flatMap pre).length = k

theorem Subtree.root_mem {nd : NodeIdx → Node} {i : NodeIdx} {t : Shape} {ns : List NodeIdx}
    (h : Subtree nd true i t ns) : i ∈ ns := by
  cases h; simp

theorem Forest.lt {nd : NodeIdx → Node} {k : Nat} {Q : List NodeIdx} {sh : NodeIdx → Shape}
    {pre : NodeIdx → List NodeIdx} (h : Forest nd k Q sh pre) {i : NodeIdx} (hi : i ∈ Q) : i.toNat < k :=
  h.below i (List.mem_flatMap.2 ⟨i, hi, (h.tree i hi).root_mem⟩)

theorem Forest.perm {nd : NodeIdx → Node} {k : Nat} {Q Q' : List NodeIdx} {sh : NodeIdx → Shape}
    {pre : NodeIdx → List NodeIdx} (h : Forest nd k Q sh pre) (hp : Q.Perm Q') : Forest nd k Q' sh pre := by
  have hf : (Q.flatMap pre).Perm (Q'.flatMap pre) := hp.flatMap_right pre
  exact ⟨fun i hi => h.tree i (hp.mem_iff.2 hi), hf.nodup_iff.1 h.nodup, fun j hj => h.below j (hf.mem_iff.2 hj),
    by rw [← hf.length_eq]; exact h.all⟩

theorem Forest.queue_nodup {nd : NodeIdx → Node} {k : Nat} {Q : List NodeIdx} {sh : NodeIdx → Shape}
    {pre : NodeIdx → List NodeIdx} (h : Forest nd k Q sh pre) : Q.Nodup := by
  obtain ⟨ht, hn, -, -⟩ := h
  induction Q with
  | nil => exact .nil
  | cons i Q ih =>
    rw [List.flatMap_cons] at hn
    refine List.nodup_cons.2 ⟨fun hm => ?_, ih (fun j hj => ht j (by simp [hj])) hn.of_append_right⟩
    have h1 := (ht i (by simp)).root_mem
    exact List.disjoint_of_nodup_append hn h1 (List.mem_flatMap.2 ⟨i, hm, h1⟩)

/-- Merging the first two trees of a forest. -/
theorem Forest.merge {nd nd' : NodeIdx → Node} {n : Nat} {a b k : NodeIdx} {Q : List NodeIdx} {sh : NodeIdx → Shape}
    {pre : NodeIdx → List NodeIdx} {f : DWord} (h : Forest nd n (a :: b :: Q) sh pre) (hk : k.toNat = n)
    (hnd : ∀ j, nd' j = if j = k then ⟨0, true, true, a, b, f⟩ else nd j) :
    Forest nd' (n + 1) (Q ++ [k]) (Function.update sh k (.node 0 (sh a) (sh b)))
      (Function.update pre k (k :: (pre a ++ pre b))) := by
  have hlt : ∀ i ∈ a :: b :: Q, i ≠ k := fun i hi he => by
    have := h.lt hi
    rw [he, hk] at this
    omega
  have hnek : ∀ j ∈ (a :: b :: Q).flatMap pre, j ≠ k := fun j hj he => by
    have := h.below j hj
    rw [he, hk] at this
    omega
  have old : ∀ i ∈ a :: b :: Q, Subtree nd' true i (sh i) (pre i) := fun i hi =>
    (h.tree i hi).congr fun j hj => by
      rw [hnd, if_neg (hnek j (List.mem_flatMap.2 ⟨i, hi, hj⟩))]
  have hQ : Q.flatMap (Function.update pre k (k :: (pre a ++ pre b))) = Q.flatMap pre := by
    apply List.flatMap_congr
    intro i hi
    rw [Function.update_of_ne (hlt i (by simp [hi]))]
  have hfm : (Q ++ [k]).flatMap (Function.update pre k (k :: (pre a ++ pre b))) =
      Q.flatMap pre ++ k :: (pre a ++ pre b) := by
    rw [List.flatMap_append, hQ]
    simp
  have hperm : (Q.flatMap pre ++ k :: (pre a ++ pre b)).Perm (k :: (a :: b :: Q).flatMap pre) := by
    refine List.perm_middle.trans (List.Perm.cons k ?_)
    rw [List.flatMap_cons, List.flatMap_cons]
    exact List.perm_append_comm.trans (by rw [List.append_assoc])
  refine ⟨fun i hi => ?_, ?_, fun j hj => ?_, ?_⟩
  · rcases List.mem_append.1 hi with hi | hi
    · have hne := hlt i (by simp [hi])
      rw [Function.update_of_ne hne, Function.update_of_ne hne]
      exact old i (by simp [hi])
    · rw [List.mem_singleton] at hi
      subst hi
      rw [Function.update_self, Function.update_self]
      have hki := hnd i
      rw [if_pos rfl] at hki
      have := Subtree.present (nd := nd') i (sh a) (sh b) (pre a) (pre b)
        (by rw [hki]; exact old a (by simp)) (by rw [hki]; exact old b (by simp))
      rwa [hki] at this
  · rw [hfm, hperm.nodup_iff, List.nodup_cons]
    exact ⟨fun hm => hnek k hm rfl, h.nodup⟩
  · rw [hfm, hperm.mem_iff, List.mem_cons] at hj
    rcases hj with rfl | hj
    · omega
    · have := h.below j hj; omega
  · rw [hfm, hperm.length_eq, List.length_cons, h.all]

/-- The two queues choose the same tree. -/
theorem popMin_takeFirst {nd : NodeIdx → Node} {sh : NodeIdx → Shape} {x : NodeIdx} {q : List NodeIdx} {w : Weighted}
    {ws : List Weighted} (hnd : (x :: q).Nodup) (hp : (w :: ws).Perm ((x :: q).map (weightedOf nd sh))) :
    (takeFirst w ws).1 = weightedOf nd sh (popMin (fun i => (nd i).freq) x q).1 ∧
    ((takeFirst w ws).2).Perm ((popMin (fun i => (nd i).freq) x q).2.map (weightedOf nd sh)) ∧
    ((popMin (fun i => (nd i).freq) x q).1 :: (popMin (fun i => (nd i).freq) x q).2).Perm (x :: q) ∧
    (∀ y ∈ (popMin (fun i => (nd i).freq) x q).2,
      comesBefore (fun i => (nd i).freq) (popMin (fun i => (nd i).freq) x q).1 y = true) := by
  obtain ⟨h1, h2⟩ := takeFirst_spec w ws
  obtain ⟨g1, g2⟩ := leastOf_spec (fun i => (nd i).freq) x q
  set m := leastOf (fun i => (nd i).freq) x q with hm
  have hperm : (m :: (x :: q).erase m).Perm (x :: q) := (List.perm_cons_erase g1).symm
  have hfirst : (takeFirst w ws).1 = weightedOf nd sh m := by
    have hmem : (takeFirst w ws).1 ∈ (x :: q).map (weightedOf nd sh) :=
      hp.mem_iff.1 (h1.mem_iff.1 List.mem_cons_self)
    obtain ⟨i, hi, hw⟩ := List.mem_map.1 hmem
    by_cases him : i = m
    · rw [← hw, him]
    · exfalso
      have hmw : weightedOf nd sh m ∈ (takeFirst w ws).1 :: (takeFirst w ws).2 :=
        h1.mem_iff.2 (hp.mem_iff.2 (List.mem_map.2 ⟨m, g1, rfl⟩))
      have hb := g2 i hi him
      rw [comesBefore_iff] at hb
      rcases List.mem_cons.1 hmw with he | he
      · rw [← hw] at he
        have : m.toNat = i.toNat := congrArg Weighted.seq he
        exact him (BitVec.eq_of_toNat_eq this.symm)
      · have h3 := h2 _ he
        rw [← hw, ← Bool.not_eq_true, Weighted.before_iff] at h3
        exact h3 (by simpa [weightedOf] using hb)
  refine ⟨hfirst, ?_, hperm, fun y hy => ?_⟩
  · have : ((takeFirst w ws).1 :: (takeFirst w ws).2).Perm (weightedOf nd sh m :: ((x :: q).erase m).map (weightedOf nd sh)) :=
      (h1.trans hp).trans ((hperm.map (weightedOf nd sh)).symm)
    rw [hfirst] at this
    exact this.cons_inv
  · have hne : y ≠ m := fun he => by
      rw [he] at hy
      exact hnd.not_mem_erase hy
    exact g2 y (List.mem_of_mem_erase hy) hne

/-- A slot made by a merge (42_tree_builder.md R216): children below it, frequency their sum, the first-popped first. -/
def MergedAt (nd : NodeIdx → Node) (i : NodeIdx) : Prop :=
  ∃ a b : NodeIdx, a.toNat < i.toNat ∧ b.toNat < i.toNat ∧ nd i = ⟨0, true, true, a, b, (nd i).freq⟩ ∧
    (nd i).freq.toNat = (nd a).freq.toNat + (nd b).freq.toNat ∧
    ((nd a).freq.toNat < (nd b).freq.toNat ∨ ((nd a).freq = (nd b).freq ∧ a.toNat < b.toNat))

theorem MergedAt.congr {nd nd' : NodeIdx → Node} {i : NodeIdx} (h : MergedAt nd i)
    (e : ∀ j : NodeIdx, j.toNat ≤ i.toNat → nd' j = nd j) : MergedAt nd' i := by
  obtain ⟨a, b, ha, hb, h1, h2, h3⟩ := h
  refine ⟨a, b, ha, hb, ?_, ?_, ?_⟩
  · rw [e i le_rfl]; exact h1
  · rw [e i le_rfl, e a ha.le, e b hb.le]; exact h2
  · rw [e a ha.le, e b hb.le]; exact h3

/-- The merge loop over a forest is greedy merging of its weighted trees (42_tree_builder.md R216). -/
theorem mergeLoop_eq (n : Nat) {Q : List NodeIdx} {W : List Weighted} {sh : NodeIdx → Shape}
    {pre : NodeIdx → List NodeIdx} {s : State} (hF : Forest s.node s.nodeCount.toNat Q sh pre)
    (hW : W.Perm (Q.map (weightedOf s.node sh))) (hlen : Q.length ≤ n) (hne : Q ≠ [])
    (hcap : s.nodeCount.toNat + Q.length ≤ 512) :
    match mergeAll n s.nodeCount.toNat W with
    | some shape => ∃ r t ns, mergeLoop n Q s = .ok r t ∧ Subtree t.node true r shape ns ∧ ns.Nodup ∧
        (∀ j ∈ ns, j.toNat < t.nodeCount.toNat) ∧ ns.length = t.nodeCount.toNat ∧
        t.nodeCount.toNat = s.nodeCount.toNat + Q.length - 1 ∧ (2 ≤ Q.length → r.toNat = t.nodeCount.toNat - 1) ∧
        (∀ i : NodeIdx, i.toNat < s.nodeCount.toNat ∨ t.nodeCount.toNat ≤ i.toNat → t.node i = s.node i) ∧
        (∀ i : NodeIdx, s.nodeCount.toNat ≤ i.toNat → i.toNat < t.nodeCount.toNat → MergedAt t.node i) ∧
        t = { s with nodes := t.nodes, nodeCount := t.nodeCount }
    | none => ∃ t, mergeLoop n Q s = .error (.raised .argFreqOverflow) t ∧
        t = { s with nodes := t.nodes, nodeCount := t.nodeCount } := by
  induction n generalizing Q W sh pre s with
  | zero =>
    exact absurd (List.length_eq_zero_iff.1 (by omega)) hne
  | succ n ih =>
    match Q, hne with
    | [r], _ =>
      have hw1 : W = [weightedOf s.node sh r] := List.perm_singleton.1 hW
      subst hw1
      have hm : mergeAll (n + 1) s.nodeCount.toNat [weightedOf s.node sh r] = some (sh r) := by
        simp [mergeAll, weightedOf]
      rw [hm]
      have hnd := hF.nodup
      have hbl := hF.below
      have hall := hF.all
      simp only [List.flatMap_cons, List.flatMap_nil, List.append_nil] at hnd hbl hall
      refine ⟨r, s, pre r, rfl, hF.tree r (by simp), hnd, hbl, hall, by simp, by simp, fun i _ => rfl, ?_, rfl⟩
      intro i h1 h2; omega
    | x :: y :: q, _ =>
      obtain ⟨w, w', ws, rfl⟩ : ∃ w w' ws, W = w :: w' :: ws := by
        have := hW.length_eq
        match W, this with
        | w :: w' :: ws, _ => exact ⟨w, w', ws, rfl⟩
      have hxq := hF.queue_nodup
      obtain ⟨p1, p2, p3, p4⟩ := popMin_takeFirst hxq hW
      set pa := popMin (fun i => (s.node i).freq) x (y :: q) with hpa
      have hl2 : pa.2.length = q.length + 1 := by
        have := p3.length_eq; simpa using this
      obtain ⟨z, q', hz⟩ : ∃ z q', pa.2 = z :: q' := by
        match hh : pa.2, hl2 with
        | z :: q', _ => exact ⟨z, q', rfl⟩
      rw [hz] at p2 p3 p4
      obtain ⟨w2, ws2, hws⟩ : ∃ w2 ws2, (takeFirst w (w' :: ws)).2 = w2 :: ws2 := by
        have := p2.length_eq
        match hh : (takeFirst w (w' :: ws)).2, this with
        | w2 :: ws2, _ => exact ⟨w2, ws2, rfl⟩
      rw [hws] at p2
      have hzq : (z :: q').Nodup := by
        have := (p3.nodup_iff.2 hxq)
        exact (List.nodup_cons.1 this).2
      obtain ⟨r1, r2, r3, r4⟩ := popMin_takeFirst hzq p2
      set pb := popMin (fun i => (s.node i).freq) z q' with hpb
      have hPerm : (pa.1 :: pb.1 :: pb.2).Perm (x :: y :: q) := (r3.cons pa.1).trans p3
      have hF' := hF.perm hPerm.symm
      have hlq : pb.2.length = q.length := by
        have := hPerm.length_eq; simpa using this
      -- both sides unfold one turn
      have hA : mergeAll (n + 1) s.nodeCount.toNat (w :: w' :: ws) =
          if 2 ^ 64 ≤ (s.node pa.1).freq.toNat + (s.node pb.1).freq.toNat then none
          else mergeAll n (s.nodeCount.toNat + 1) ((takeFirst w2 ws2).2 ++
            [⟨(s.node pa.1).freq.toNat + (s.node pb.1).freq.toNat, s.nodeCount.toNat, .node 0 (sh pa.1) (sh pb.1)⟩]) := by
        conv_lhs => unfold mergeAll
        simp only [hws, p1, r1, weightedOf]
      have hL : mergeLoop (n + 1) (x :: y :: q) s =
          (mergePair pa.1 pb.1 >>= fun k => mergeLoop n (pb.2 ++ [k])) s := by
        show (match pa.2 with
          | [] => Proc.diverge
          | z :: q' => mergePair pa.1 (popMin (fun i => (s.node i).freq) z q').1 >>= fun k =>
              mergeLoop n ((popMin (fun i => (s.node i).freq) z q').2 ++ [k])) s = _
        rw [hz]
      have hlt : s.nodeCount.toNat < 512 := by simp only [List.length_cons] at hcap; omega
      rcases mergePair_cases pa.1 pb.1 hlt with ⟨ho, hm⟩ | ⟨ho, k, t, hm, hk, hc, hnd, hfr⟩
      · rw [hA, if_pos ho]
        exact ⟨s, by rw [hL, Proc.bind_error hm], rfl⟩
      · rw [hA, if_neg (by omega)]
        have hM := hF'.merge hk hnd
        have hne' : ∀ i ∈ pb.2, i ≠ k := fun i hi he => by
          have := hF'.lt (i := i) (by simp [hi])
          rw [he, hk] at this
          omega
        have hfreq : ((s.node pa.1).freq + (s.node pb.1).freq).toNat =
            (s.node pa.1).freq.toNat + (s.node pb.1).freq.toNat := by
          rw [BitVec.toNat_add]; omega
        have hmap : (pb.2 ++ [k]).map (weightedOf t.node (Function.update sh k (.node 0 (sh pa.1) (sh pb.1)))) =
            pb.2.map (weightedOf s.node sh) ++
              [⟨(s.node pa.1).freq.toNat + (s.node pb.1).freq.toNat, s.nodeCount.toNat, .node 0 (sh pa.1) (sh pb.1)⟩] := by
          rw [List.map_append, List.map_cons, List.map_nil]
          congr 1
          · apply List.map_congr_left
            intro i hi
            simp only [weightedOf, hnd, if_neg (hne' i hi), Function.update_of_ne (hne' i hi)]
          · simp only [weightedOf, hnd, if_pos, Function.update_self, hk, hfreq]
        have hI := ih (Q := pb.2 ++ [k]) (W := (takeFirst w2 ws2).2 ++
            [⟨(s.node pa.1).freq.toNat + (s.node pb.1).freq.toNat, s.nodeCount.toNat, .node 0 (sh pa.1) (sh pb.1)⟩])
          (s := t) (by rw [hc]; exact hM) (by rw [hmap]; exact r2.append_right _)
          (by simp only [List.length_append, List.length_cons, List.length_nil] at hlen ⊢; omega)
          (by simp)
          (by simp only [List.length_append, List.length_cons, List.length_nil] at hcap ⊢; omega)
        rw [hc] at hI
        rw [hL, Proc.bind_ok hm]
        have hmk : MergedAt t.node k := by
          have hka : pa.1 ≠ k := fun he => by
            have := hF'.lt (i := pa.1) (by simp)
            rw [he, hk] at this; omega
          have hkb : pb.1 ≠ k := fun he => by
            have := hF'.lt (i := pb.1) (by simp)
            rw [he, hk] at this; omega
          have hna : t.node pa.1 = s.node pa.1 := by rw [hnd, if_neg hka]
          have hnb : t.node pb.1 = s.node pb.1 := by rw [hnd, if_neg hkb]
          have hnk : t.node k = ⟨0, true, true, pa.1, pb.1, (s.node pa.1).freq + (s.node pb.1).freq⟩ := by
            rw [hnd, if_pos rfl]
          refine ⟨pa.1, pb.1, ?_, ?_, by rw [hnk], ?_, ?_⟩
          · rw [hk]; exact hF'.lt (by simp)
          · rw [hk]; exact hF'.lt (by simp)
          · rw [hnk, hna, hnb]; exact hfreq
          · rw [hna, hnb]
            have hb1 : pb.1 ∈ z :: q' := r3.mem_iff.1 (by simp)
            have := p4 pb.1 hb1
            rw [comesBefore_iff] at this
            rcases this with h | ⟨h, h'⟩
            · exact .inl h
            · exact .inr ⟨BitVec.eq_of_toNat_eq h, h'⟩
        cases hR : mergeAll n (s.nodeCount.toNat + 1) ((takeFirst w2 ws2).2 ++
            [⟨(s.node pa.1).freq.toNat + (s.node pb.1).freq.toNat, s.nodeCount.toNat, .node 0 (sh pa.1) (sh pb.1)⟩]) with
        | none =>
          rw [hR] at hI
          obtain ⟨u, hu, hfu⟩ := hI
          exact ⟨u, hu, by rw [hfu, hfr]⟩
        | some shape =>
          rw [hR] at hI
          obtain ⟨r, u, ns, g1, g2, g3, g4, g5, g6, g7, g8, g9, g10⟩ := hI
          simp only [List.length_append, List.length_cons, List.length_nil] at g6 g7
          refine ⟨r, u, ns, g1, g2, g3, g4, g5, by simp only [List.length_cons]; omega, fun _ => ?_, fun i hi => ?_,
            fun i h1 h2 => ?_, by rw [g10, hfr]⟩
          · by_cases hq : pb.2 = []
            · rw [hq] at g1 g6
              have hone : mergeLoop n [k] t = .ok k t := by cases n <;> rfl
              rw [List.nil_append, hone] at g1
              injection g1 with e1 e2
              rw [← e1, ← e2, hk, hc]; omega
            · exact g7 (by have := List.length_pos_iff.2 hq; omega)
          · rw [g8 i (by omega), hnd, if_neg]
            intro he
            rw [he, hk] at hi
            omega
          · by_cases hik : i.toNat = s.nodeCount.toNat
            · have hik' : i = k := BitVec.eq_of_toNat_eq (by rw [hik, hk])
              subst hik'
              exact hmk.congr fun j hj => g8 j (by omega)
            · exact g9 i (by omega) h2

/-! ### The leaves -/

theorem mem_presentSymbols (t : Vector DWord 256) (sym : Byte) : sym ∈ presentSymbols t ↔ freqOf t sym ≠ 0 := by
  unfold presentSymbols
  rw [List.mem_filter, bne_iff_ne, and_iff_right]
  exact List.mem_map.2 ⟨sym.toNat, List.mem_range.2 sym.isLt, by simp⟩

theorem presentSymbols_nodup (t : Vector DWord 256) : (presentSymbols t).Nodup := by
  refine List.Nodup.filter _ (List.Nodup.map_on ?_ List.nodup_range)
  intro a ha b hb hab
  have := congrArg BitVec.toNat hab
  simp only [BitVec.toNat_ofNat] at this
  rw [List.mem_range] at ha hb
  omega

theorem length_presentSymbols_le (t : Vector DWord 256) : (presentSymbols t).length ≤ 256 := by
  have := List.length_filter_le (fun sym => freqOf t sym != 0) ((List.range 256).map (BitVec.ofNat 8))
  simpa [presentSymbols] using this

/-- The indices that `n` Alloc calls return from NODE_COUNT = `k` on. -/
def indicesFrom (k n : Nat) : List NodeIdx := (List.range n).map fun j => BitVec.ofNat 9 (k + j)

theorem indicesFrom_succ (k n : Nat) : indicesFrom k (n + 1) = BitVec.ofNat 9 k :: indicesFrom (k + 1) n := by
  simp only [indicesFrom, List.range_succ_eq_map, List.map_cons, List.map_map, Nat.add_zero]
  congr 1
  apply List.map_congr_left
  intro j _
  simp only [Function.comp, Nat.succ_eq_add_one]
  congr 1
  omega

@[simp] theorem length_indicesFrom (k n : Nat) : (indicesFrom k n).length = n := by simp [indicesFrom]

theorem toNat_of_mem_indicesFrom {k n : Nat} (h : k + n ≤ 512) {i : NodeIdx} :
    i ∈ indicesFrom k n ↔ k ≤ i.toNat ∧ i.toNat < k + n := by
  simp only [indicesFrom, List.mem_map, List.mem_range]
  constructor
  · rintro ⟨j, hj, rfl⟩
    simp only [BitVec.toNat_ofNat]
    omega
  · rintro ⟨h1, h2⟩
    refine ⟨i.toNat - k, by omega, ?_⟩
    apply BitVec.eq_of_toNat_eq
    simp only [BitVec.toNat_ofNat]
    omega

theorem indicesFrom_nodup {k n : Nat} (h : k + n ≤ 512) : (indicesFrom k n).Nodup := by
  refine List.Nodup.map_on ?_ List.nodup_range
  intro a ha b hb hab
  have := congrArg BitVec.toNat hab
  simp only [BitVec.toNat_ofNat] at this
  rw [List.mem_range] at ha hb
  omega

/-- The leaves of BuildTree (42_tree_builder.md R214). -/
theorem allocLeaves_ok (T : Vector DWord 256) (syms : List Byte) {s : State}
    (h : s.nodeCount.toNat + syms.length ≤ 512) :
    ∃ t, allocLeaves T syms s = .ok (indicesFrom s.nodeCount.toNat syms.length) t ∧
      t.nodeCount.toNat = s.nodeCount.toNat + syms.length ∧
      (∀ (j : Nat) (hj : j < syms.length), t.node (BitVec.ofNat 9 (s.nodeCount.toNat + j)) =
        Node.childless syms[j] (freqOf T syms[j])) ∧
      (∀ i : NodeIdx, i.toNat < s.nodeCount.toNat ∨ t.nodeCount.toNat ≤ i.toNat → t.node i = s.node i) ∧
      t = { s with nodes := t.nodes, nodeCount := t.nodeCount } := by
  induction syms generalizing s with
  | nil => exact ⟨s, rfl, rfl, fun j hj => absurd hj (by simp), fun i _ => rfl, rfl⟩
  | cons sym syms ih =>
    simp only [List.length_cons] at h
    obtain ⟨k, u, hu, hk, hc, hn, hf⟩ := alloc_ok (Node.childless sym (freqOf T sym)) (s := s) (by omega)
    obtain ⟨t, ht, htc, htn, hto, htf⟩ := ih (s := u) (by rw [hc]; omega)
    have hk' : k = BitVec.ofNat 9 s.nodeCount.toNat := by
      apply BitVec.eq_of_toNat_eq
      simp only [BitVec.toNat_ofNat]
      omega
    refine ⟨t, ?_, by rw [htc, hc, List.length_cons]; omega, fun j hj => ?_, fun i hi => ?_, by rw [htf, hf]⟩
    · show (alloc (Node.childless sym (freqOf T sym)) >>= fun k => allocLeaves T syms >>= fun ks => pure (k :: ks)) s = _
      rw [Proc.bind_ok hu, Proc.bind_ok ht, List.length_cons, indicesFrom_succ, ← hk', hc]
      rfl
    · cases j with
      | zero =>
        rw [Nat.add_zero, ← hk', hto k (.inl (by omega)), hn, if_pos rfl]
        rfl
      | succ j =>
        have := htn j (by simpa using hj)
        rw [hc] at this
        rw [show s.nodeCount.toNat + (j + 1) = s.nodeCount.toNat + 1 + j by omega]
        exact this
    · rw [hto i (by omega), hn, if_neg]
      intro he
      rw [he, hk] at hi
      omega

/-- A childless node is a tree of its own. -/
theorem subtree_leaf {nd : NodeIdx → Node} {i : NodeIdx} {sym : Byte} {f : DWord}
    (h : nd i = Node.childless sym f) : Subtree nd true i (.leaf sym) [i] := by
  have := Subtree.present (nd := nd) i .absent .absent [] []
    (by rw [h]; exact .absent _) (by rw [h]; exact .absent _)
  rwa [h] at this

/-! ### BuildTree -/

/-- The arena after a successful BuildTree, slot by slot (42_tree_builder.md R214, R216, R217, R219, R220, R222). -/
structure Built (s t : State) (syms : List Byte) : Prop where
  leaves : ∀ (j : Nat) (h : j < syms.length), t.node (BitVec.ofNat 9 j) = Node.childless syms[j] (freqOf s.freq syms[j])
  none : syms = [] → t.nodeCount.toNat = 1 ∧ t.node 0 = Node.childless 0 0
  one : ∀ sym, syms = [sym] → t.nodeCount.toNat = 2 ∧ t.node 1 = ⟨0, true, false, 0, 0, freqOf s.freq sym⟩
  many : 2 ≤ syms.length → t.nodeCount.toNat = 2 * syms.length - 1 ∧
    ∀ i : NodeIdx, syms.length ≤ i.toNat → i.toNat < t.nodeCount.toNat → MergedAt t.node i
  root : t.root.toNat = t.nodeCount.toNat - 1
  outside : ∀ i : NodeIdx, t.nodeCount.toNat ≤ i.toNat → t.node i = s.node i

/-- BuildTree, said once (42_tree_builder.md R213, R217, R218). -/
theorem buildTree_eq (s : State) :
    match huffmanTree s.freq with
    | some sh => ∃ t, buildTree s = .ok () t ∧ t.HoldsTree sh ∧ sh.size = t.nodeCount.toNat ∧
        Built s t (presentSymbols s.freq) ∧
        t = { s with
          treeValid := true, codesValid := false, root := t.root, nodeCount := t.nodeCount, nodes := t.nodes }
    | none => ∃ t, buildTree s = .error (.raised .argFreqOverflow) t ∧
        t = { s with treeValid := false, codesValid := false, root := 0, nodeCount := 0, nodes := t.nodes } := by
  have hlen := length_presentSymbols_le s.freq
  obtain ⟨u, hu, huc, hun, huo, huf⟩ := allocLeaves_ok s.freq (presentSymbols s.freq) (s := s.releaseArena)
    (by show 0 + _ ≤ 512; omega)
  have hz : s.releaseArena.nodeCount.toNat = 0 := rfl
  rw [hz, Nat.zero_add] at huc
  rw [hz] at hu hun huo
  simp only [Nat.zero_add] at hun
  -- BuildTree is the leaves, the join and the end, with release on failure
  have hB : ∀ (p : Proc NodeIdx), joinLeaves s.freq (presentSymbols s.freq) (indicesFrom 0 (presentSymbols s.freq).length) = p →
      buildTree s = Proc.orRelease (fun _ => (p >>= fun r => Proc.change (·.setTree r)) u) s := by
    rintro p rfl
    show Proc.orRelease (clearTree >>= fun _ => _) s = _
    unfold Proc.orRelease
    have : (clearTree >>= fun _ => Proc.look (·.freq) >>= fun t => allocLeaves t (presentSymbols t) >>= fun ks =>
        joinLeaves t (presentSymbols t) ks >>= fun r => Proc.change (·.setTree r)) s =
        (joinLeaves s.freq (presentSymbols s.freq) (indicesFrom 0 (presentSymbols s.freq).length) >>=
          fun r => Proc.change (·.setTree r)) u := by
      show (allocLeaves s.freq (presentSymbols s.freq) >>= fun ks =>
        joinLeaves s.freq (presentSymbols s.freq) ks >>= fun r => Proc.change (·.setTree r)) s.releaseArena = _
      rw [Proc.bind_ok hu]
    rw [this]
  -- what an ok join gives
  have hOk : ∀ (p : Proc NodeIdx) (r : NodeIdx) (t : State), p u = .ok r t →
      joinLeaves s.freq (presentSymbols s.freq) (indicesFrom 0 (presentSymbols s.freq).length) = p →
      buildTree s = .ok () (t.setTree r) := by
    intro p r t hp he
    rw [hB p he]
    exact Proc.orRelease_ok (by rw [Proc.bind_ok hp]; rfl)
  have hFrame : ∀ (t : State) (r : NodeIdx), t = { u with nodes := t.nodes, nodeCount := t.nodeCount } →
      t.setTree r = { s with
        treeValid := true, codesValid := false, root := (t.setTree r).root, nodeCount := (t.setTree r).nodeCount
        nodes := (t.setTree r).nodes } := by
    intro t r ht
    rw [ht, huf]
    rfl
  have hout : ∀ i : NodeIdx, u.nodeCount.toNat ≤ i.toNat → u.node i = s.node i := fun i hi => huo i (.inr hi)
  match hS : presentSymbols s.freq with
  | [] =>
    have hT : huffmanTree s.freq = some (.leaf 0) := by unfold huffmanTree; rw [hS]
    rw [hT]
    rw [hS] at huc hOk
    simp only [List.length_nil] at huc
    obtain ⟨k, t, ht, hk, hc, hn, hf⟩ := alloc_ok (Node.childless 0 0) (s := u) (by omega)
    have hk0 : k = 0 := BitVec.eq_of_toNat_eq (by rw [hk, huc]; rfl)
    subst hk0
    have hn0 : t.node 0 = Node.childless 0 0 := by rw [hn, if_pos rfl]
    refine ⟨t.setTree 0, hOk _ 0 t ht rfl, ⟨?_, ?_, ?_, [0], subtree_leaf hn0, by simp, ?_⟩, ?_,
      ⟨fun j h => absurd h (by simp), fun _ => ⟨?_, hn0⟩, fun sym h => absurd h (by simp), fun h => absurd h (by simp), ?_,
        fun i hi => ?_⟩, hFrame t 0 hf⟩
    · show 1 ≤ t.nodeCount.toNat; omega
    · show t.nodeCount.toNat ≤ 512; omega
    · show 0 < t.nodeCount.toNat; omega
    · intro i hi
      rw [List.mem_singleton.1 hi]
      show 0 < t.nodeCount.toNat; omega
    · show 1 = t.nodeCount.toNat; omega
    · show t.nodeCount.toNat = 1; omega
    · show 0 = t.nodeCount.toNat - 1; omega
    · have hi : t.nodeCount.toNat ≤ i.toNat := hi
      show t.node i = s.node i
      rw [hn, if_neg, hout i (by omega)]
      rintro rfl
      have : (0 : NodeIdx).toNat = 0 := rfl
      omega
  | [sym] =>
    have hT : huffmanTree s.freq = some (.node 0 (.leaf sym) .absent) := by unfold huffmanTree; rw [hS]
    rw [hT]
    rw [hS] at huc hOk hun
    simp only [List.length_cons, List.length_nil, Nat.zero_add] at huc
    obtain ⟨k, t, ht, hk, hc, hn, hf⟩ := alloc_ok (⟨0, true, false, 0, 0, freqOf s.freq sym⟩ : Node) (s := u) (by omega)
    have hk1 : k = 1 := BitVec.eq_of_toNat_eq (by rw [hk, huc]; rfl)
    subst hk1
    have hn1 : t.node 1 = ⟨0, true, false, 0, 0, freqOf s.freq sym⟩ := by rw [hn, if_pos rfl]
    have hu0 : u.node 0 = Node.childless sym (freqOf s.freq sym) := hun 0 (by simp)
    have hn0 : t.node 0 = Node.childless sym (freqOf s.freq sym) := by rw [hn, if_neg (by decide), hu0]
    have hsub : Subtree t.node true 1 (.node 0 (.leaf sym) .absent) [1, 0] := by
      have := Subtree.present (nd := t.node) 1 (.leaf sym) .absent [0] []
        (by rw [hn1]; exact subtree_leaf hn0) (by rw [hn1]; exact .absent _)
      rwa [hn1] at this
    refine ⟨t.setTree 1, hOk _ 1 t ht rfl, ⟨?_, ?_, ?_, [1, 0], hsub, by decide, ?_⟩, ?_,
      ⟨fun j h => ?_, fun h => absurd h (by simp), fun a h => ⟨?_, ?_⟩, fun h => absurd h (by simp), ?_,
        fun i hi => ?_⟩, hFrame t 1 hf⟩
    · show 1 ≤ t.nodeCount.toNat; omega
    · show t.nodeCount.toNat ≤ 512; omega
    · show 1 < t.nodeCount.toNat; omega
    · intro i hi
      show i.toNat < t.nodeCount.toNat
      simp only [List.mem_cons, List.not_mem_nil, or_false] at hi
      rcases hi with rfl | rfl
      · show 1 < t.nodeCount.toNat; omega
      · show 0 < t.nodeCount.toNat; omega
    · show 2 = t.nodeCount.toNat; omega
    · have : j = 0 := by simpa using h
      subst this
      exact hn0
    · show t.nodeCount.toNat = 2; omega
    · rw [← (List.cons.inj h).1]; exact hn1
    · show 1 = t.nodeCount.toNat - 1; omega
    · have hi : t.nodeCount.toNat ≤ i.toNat := hi
      show t.node i = s.node i
      rw [hn, if_neg, hout i (by omega)]
      rintro rfl
      have : (1 : NodeIdx).toNat = 1 := rfl
      omega
  | x :: y :: q =>
    have hn2 : (presentSymbols s.freq).length = q.length + 2 := by rw [hS]; rfl
    set n := (presentSymbols s.freq).length with hn
    have hT : huffmanTree s.freq = mergeAll n n ((presentSymbols s.freq).zipIdx.map fun x =>
        ⟨(freqOf s.freq x.1).toNat, x.2, .leaf x.1⟩) := by
      rw [hn]; unfold huffmanTree; rw [hS]
    rw [← hS]
    have hJ : joinLeaves s.freq (presentSymbols s.freq) (indicesFrom 0 n) = mergeLoop n (indicesFrom 0 n) := by
      rw [hn2, indicesFrom_succ, indicesFrom_succ]
      show mergeLoop _ _ = _
      simp
    have hF : Forest u.node u.nodeCount.toNat (indicesFrom 0 n) (fun i => .leaf (u.node i).sym) (fun i => [i]) := by
      have hfm : (indicesFrom 0 n).flatMap (fun i => [i]) = indicesFrom 0 n := by simp
      refine ⟨fun i hi => ?_, by rw [hfm]; exact indicesFrom_nodup (by omega), fun j hj => ?_, by rw [hfm, length_indicesFrom, huc]⟩
      · have hi' := (toNat_of_mem_indicesFrom (by omega)).1 hi
        have hl := hun i.toNat (by omega)
        rw [BitVec.ofNat_toNat, BitVec.setWidth_eq] at hl
        simp only [hl, Node.childless]
        exact subtree_leaf hl
      · rw [hfm, toNat_of_mem_indicesFrom (by omega)] at hj
        omega
    have hW : ((presentSymbols s.freq).zipIdx.map fun x => (⟨(freqOf s.freq x.1).toNat, x.2, .leaf x.1⟩ : Weighted)) =
        (indicesFrom 0 n).map (weightedOf u.node fun i => .leaf (u.node i).sym) := by
      apply List.ext_getElem
      · simp [hn]
      · intro j h1 h2
        have hj : j < (presentSymbols s.freq).length := by simpa using h1
        simp only [List.getElem_map, List.getElem_zipIdx, indicesFrom, List.getElem_range, Nat.zero_add, weightedOf, hun j hj,
          Node.childless]
        congr 1
        simp only [BitVec.toNat_ofNat]
        omega
    have hM := mergeLoop_eq n (W := (indicesFrom 0 n).map (weightedOf u.node fun i => .leaf (u.node i).sym)) hF (.refl _)
      (by simp) (by rw [hn2, indicesFrom_succ]; simp) (by rw [length_indicesFrom, huc]; omega)
    rw [hT, hW]
    rw [huc] at hM
    cases hR : mergeAll n n ((indicesFrom 0 n).map (weightedOf u.node fun i => .leaf (u.node i).sym)) with
    | none =>
      rw [hR] at hM
      obtain ⟨t, ht, hf⟩ := hM
      refine ⟨t.releaseArena, ?_, ?_⟩
      · rw [hB _ hJ]
        exact Proc.orRelease_error (Proc.bind_error ht)
      · rw [hf, huf]; rfl
    | some shape =>
      rw [hR] at hM
      obtain ⟨r, t, ns, g1, g2, g3, g4, g5, g6, g7, g8, g9, g10⟩ := hM
      rw [length_indicesFrom] at g6 g7
      refine ⟨t.setTree r, hOk _ r t g1 hJ, ⟨?_, ?_, ?_, ns, g2, g3, g4⟩, ?_, ⟨fun j h => ?_, fun h => ?_, fun a h => ?_,
        fun _ => ⟨?_, ?_⟩, ?_, fun i hi => ?_⟩, hFrame t r g10⟩
      · show 1 ≤ t.nodeCount.toNat; omega
      · show t.nodeCount.toNat ≤ 512; omega
      · show r.toNat < t.nodeCount.toNat; have := g7 (by omega); omega
      · rw [g2.size, g5]; rfl
      · show t.node _ = _
        rw [g8 _ (.inl (by simp only [BitVec.toNat_ofNat]; omega))]
        exact hun j h
      · rw [h] at hS; cases hS
      · rw [h] at hS; cases hS
      · show t.nodeCount.toNat = 2 * n - 1; omega
      · exact g9
      · exact g7 (by omega)
      · have hi : t.nodeCount.toNat ≤ i.toNat := hi
        show t.node i = s.node i
        rw [g8 i (.inr hi), hout i (by omega)]

end Sys2Proof.Machine
end

