-- ==== Sys2Proof/Laws/Codes.lean ====
section
/-! SUPPORT. The code table (spec/43_code_table_gen.md R240 to R242): a path is read back from CODE as it was stored, the
codes of a tree are prefix-free, and GenCodes over a tree records exactly its codes, or those before the first leaf that
cannot be recorded. -/

namespace Sys2Proof.Machine

/-! ### A path in CODE_BITS -/

theorem getLsbD_pathBits (p : List Bool) (i : Nat) (hi : i < 255) : (pathBits p).getLsbD i = (p[i]?).getD false := by
  induction p generalizing i with
  | nil => simp [pathBits]
  | cons b p ih =>
    cases i with
    | zero => simp [pathBits]
    | succ i =>
      have := ih i (by omega)
      simp only [pathBits, BitVec.getLsbD_or, BitVec.getLsbD_shiftLeft, List.getElem?_cons_succ]
      simp [hi, this]

/-- A stored code reads back as the path (10_state.md R57). -/
theorem codeOf_pathBits {p : List Bool} (h : p.length ≤ 255) : codeOf (BitVec.ofNat 8 p.length) (pathBits p) = p := by
  have hl : (BitVec.ofNat 8 p.length).toNat = p.length := by simp only [BitVec.toNat_ofNat]; omega
  unfold codeOf
  rw [hl]
  apply List.ext_getElem
  · simp
  · intro i h1 h2
    simp only [List.getElem_map, List.getElem_range]
    rw [getLsbD_pathBits p i (by omega), List.getElem?_eq_getElem h2]
    rfl

theorem length_codeOf (l : Byte) (c : BitVec 255) : (codeOf l c).length = l.toNat := by simp [codeOf]

/-! ### The codes of a tree -/

/-- Following a code down the tree ends at its leaf, whatever bits come after (45_huffman_decoder.md R299). -/
theorem Shape.walkDown_code {t : Shape} {p q : List Bool} {sym : Byte} (h : (sym, q) ∈ t.codesAt p) :
    ∃ r, q = p ++ r ∧ ∀ rest k, t.walkDown (r ++ rest) k = .symbol sym (k + r.length) := by
  induction t generalizing p with
  | absent => simp [codesAt] at h
  | node s l r ihl ihr =>
    unfold codesAt at h
    by_cases h0 : (l.isAbsent && r.isAbsent) = true
    · rw [if_pos h0] at h
      obtain ⟨rfl, rfl⟩ := Prod.mk.inj (List.mem_singleton.1 h)
      refine ⟨[], by simp, fun rest k => ?_⟩
      unfold walkDown
      rw [if_pos h0]
      rfl
    · rw [if_neg h0] at h
      have step : ∀ (b : Bool) (c : Shape), c = (if b then r else l) → (∃ r', q = (p ++ [b]) ++ r' ∧
          ∀ rest k, c.walkDown (r' ++ rest) k = .symbol sym (k + r'.length)) →
          ∃ r', q = p ++ r' ∧ ∀ rest k, (Shape.node s l r).walkDown (r' ++ rest) k = .symbol sym (k + r'.length) := by
        rintro b c rfl ⟨r', hq, hw⟩
        refine ⟨b :: r', by rw [hq]; simp, fun rest k => ?_⟩
        conv_lhs => unfold walkDown
        rw [if_neg h0]
        have := hw rest (k + 1)
        cases b <;> simpa [Nat.add_assoc, Nat.add_comm 1] using this
      rcases List.mem_append.1 h with h | h
      · exact step false l rfl (ihl h)
      · exact step true r rfl (ihr h)

theorem Shape.codes_eq {t : Shape} (h : t.isChildless = false) : t.codes = t.codesAt [] := by
  unfold codes; rw [h]; rfl

theorem Shape.mem_codes {t : Shape} {c : Byte × List Bool} (h : c ∈ t.codes) :
    t.isChildless = false ∧ c ∈ t.codesAt [] := by
  unfold codes at h
  cases hc : t.isChildless with
  | true => rw [hc] at h; simp at h
  | false => rw [hc] at h; exact ⟨rfl, h⟩

/-- What a code in the tree's table means for the decoder (45_huffman_decoder.md R299). -/
theorem Shape.walkDown_of_mem_codes {t : Shape} {q : List Bool} {sym : Byte} (h : (sym, q) ∈ t.codes) (rest : List Bool)
    (k : Nat) : t.walkDown (q ++ rest) k = .symbol sym (k + q.length) := by
  obtain ⟨r, hr, hw⟩ := walkDown_code (mem_codes h).2
  rw [show q = r by simpa using hr]
  exact hw rest k

/-- No code is empty (43_code_table_gen.md R240). -/
theorem Shape.code_ne_nil {t : Shape} {q : List Bool} {sym : Byte} (h : (sym, q) ∈ t.codes) : q ≠ [] := by
  rintro rfl
  have hw := walkDown_of_mem_codes h [] 0
  have hc := (mem_codes h).1
  cases t with
  | absent => simp [walkDown] at hw
  | node s l r =>
    unfold walkDown at hw
    simp only [isChildless] at hc
    rw [hc] at hw
    simp at hw

/-- Two codes of one tree of which one is a prefix of the other are one code (43_code_table_gen.md R242 (b)). -/
theorem Shape.codes_prefix {t : Shape} {q q' : List Bool} {a b : Byte} (h : (a, q) ∈ t.codes) (h' : (b, q') ∈ t.codes)
    (hp : q <+: q') : a = b ∧ q = q' := by
  obtain ⟨r, rfl⟩ := hp
  have h1 := walkDown_of_mem_codes h r 0
  have h2 := walkDown_of_mem_codes h' [] 0
  rw [List.append_nil, h1] at h2
  injection h2 with e1 e2
  rw [List.length_append] at e2
  have : r = [] := List.length_eq_zero_iff.1 (by omega)
  rw [this]
  exact ⟨e1, by simp⟩

/-! ### Recording -/

theorem CodesOk.cons_of_append {pre cs : List (Byte × List Bool)} {c : Byte × List Bool}
    (h : CodesOk (pre ++ c :: cs)) : CodesOk (pre ++ [c]) ∧ c.1 ∉ pre.map Prod.fst ∧ c.2.length ≤ 255 := by
  obtain ⟨h1, h2⟩ := h
  rw [List.map_append, List.map_cons] at h1
  refine ⟨⟨?_, fun d hd => h2 d ?_⟩, fun hm => ?_, h2 c (by simp)⟩
  · rw [List.map_append, List.map_cons, List.map_nil]
    have : List.Sublist (pre.map Prod.fst ++ [c.1]) (pre.map Prod.fst ++ c.1 :: cs.map Prod.fst) :=
      List.Sublist.append_left (by simp) _
    exact h1.sublist this
  · simp only [List.mem_append, List.mem_cons] at hd ⊢
    tauto
  · have := List.disjoint_of_nodup_append h1
    exact this hm (by simp)

/-- A symbol outside the list has no code. -/
theorem State.CodesAre.codeLen_eq_zero {s : State} {cs : List (Byte × List Bool)} (h : s.CodesAre cs) {sym : Byte}
    (hs : sym ∉ cs.map Prod.fst) : s.codeLenOf sym = 0 := by
  by_contra hne
  exact hs (List.mem_map.2 ⟨_, (h sym _).2 ⟨hne, rfl⟩, rfl⟩)

theorem State.CodesAre.codeLen_ne_zero {s : State} {cs : List (Byte × List Bool)} (h : s.CodesAre cs) {sym : Byte}
    (hs : sym ∈ cs.map Prod.fst) : s.codeLenOf sym ≠ 0 := by
  obtain ⟨⟨a, p⟩, hm, rfl⟩ := List.mem_map.1 hs
  exact ((h a p).1 hm).1

/-- One leaf recorded. -/
theorem State.CodesAre.setCode {s : State} {pre : List (Byte × List Bool)} {sym : Byte} {p : List Bool}
    (h : s.CodesAre pre) (hs : sym ∉ pre.map Prod.fst) (hl : p.length ≤ 255) (hp : p ≠ []) :
    (s.setCode sym p).CodesAre (pre ++ [(sym, p)]) := by
  intro a q
  have hne : BitVec.ofNat 8 p.length ≠ 0 := by
    intro h0
    have := congrArg BitVec.toNat h0
    have hpos : 0 < p.length := List.length_pos_iff.2 hp
    simp only [BitVec.toNat_ofNat] at this
    have h00 : (0 : Byte).toNat = 0 := rfl
    omega
  rw [codeLenOf_setCode]
  unfold codeBitsList
  rw [codeLenOf_setCode, codeBitsOf_setCode]
  by_cases ha : a = sym
  · subst ha
    simp only [if_true, codeOf_pathBits hl, List.mem_append, List.mem_singleton]
    constructor
    · rintro (hm | hm)
      · exact absurd (List.mem_map.2 ⟨_, hm, rfl⟩) hs
      · exact ⟨hne, (Prod.mk.inj hm).2.symm⟩
    · rintro ⟨-, rfl⟩
      exact .inr rfl
  · simp only [if_neg ha, List.mem_append, List.mem_singleton]
    rw [h a q]
    constructor
    · rintro (hm | hm)
      · exact hm
      · exact absurd (Prod.mk.inj hm).1 ha
    · exact .inl

theorem State.CodeTailZero.setCode {s : State} (h : s.CodeTailZero) (sym : Byte) {p : List Bool} (hl : p.length ≤ 255) :
    (s.setCode sym p).CodeTailZero := by
  intro a i hi
  rw [codeLenOf_setCode] at hi
  rw [codeBitsOf_setCode]
  by_cases ha : a = sym
  · rw [if_pos ha] at hi ⊢
    by_cases h255 : i < 255
    · rw [getLsbD_pathBits p i h255, List.getElem?_eq_none]
      · rfl
      · simp only [BitVec.toNat_ofNat] at hi; omega
    · exact BitVec.getLsbD_of_ge _ _ (by omega)
  · rw [if_neg ha] at hi ⊢
    exact h a i hi

theorem recordLeaf_ok {s : State} {sym : Byte} {p : List Bool} (hl : p.length ≤ 255) (h0 : s.codeLenOf sym = 0) :
    recordLeaf sym p s = .ok () (s.setCode sym p) := by
  unfold recordLeaf
  rw [if_neg (by unfold Config.codeMaxLen; omega), if_neg (by simp [h0])]

/-- Leaves that can be recorded are recorded, one after the other. -/
theorem recordAll_ok {pre cs : List (Byte × List Bool)} {s : State} (h : s.CodesAre pre) (hz : s.CodeTailZero)
    (hok : CodesOk (pre ++ cs)) (hne : ∀ c ∈ cs, c.2 ≠ []) :
    ∃ t, recordAll cs s = .ok () t ∧ t.CodesAre (pre ++ cs) ∧ t.CodeTailZero ∧
      t = { s with codeLen := t.codeLen, codeBits := t.codeBits } := by
  induction cs generalizing pre s with
  | nil => exact ⟨s, rfl, by rwa [List.append_nil], hz, rfl⟩
  | cons c cs ih =>
    obtain ⟨-, hs, hl⟩ := hok.cons_of_append
    obtain ⟨t, ht, hc, hz', hf⟩ := ih (pre := pre ++ [c]) (s := s.setCode c.1 c.2)
      (h.setCode hs hl (hne c (by simp))) (hz.setCode c.1 hl) (by simpa using hok)
      fun d hd => hne d (by simp [hd])
    refine ⟨t, ?_, by simpa using hc, hz', by rw [hf]; rfl⟩
    show (recordLeaf c.1 c.2 >>= fun _ => recordAll cs) s = _
    rw [Proc.bind_ok (recordLeaf_ok hl (h.codeLen_eq_zero hs)), ht]

/-- The first leaf that cannot be recorded stops the walk; those before it stay (60_exceptions.md R342, R343, R345). -/
theorem recordAll_bad {pre mid post : List (Byte × List Bool)} {sym : Byte} {p : List Bool} {s : State}
    (h : s.CodesAre pre) (hz : s.CodeTailZero) (hok : CodesOk (pre ++ mid)) (hne : ∀ c ∈ mid, c.2 ≠ [])
    (hbad : 255 < p.length ∨ sym ∈ (pre ++ mid).map Prod.fst) :
    ∃ t, recordAll (mid ++ (sym, p) :: post) s =
        .error (.raised (if 255 < p.length then .argCodeTooLong else .argDupSymbol)) t ∧
      t.CodesAre (pre ++ mid) ∧ t.CodeTailZero ∧ t = { s with codeLen := t.codeLen, codeBits := t.codeBits } := by
  obtain ⟨t, ht, hc, hz', hf⟩ := recordAll_ok h hz hok hne
  refine ⟨t, ?_, hc, hz', hf⟩
  rw [recordAll_append, Proc.bind_ok ht]
  refine Proc.bind_error ?_
  unfold recordLeaf Config.codeMaxLen
  by_cases h1 : 255 < p.length
  · rw [if_pos h1, if_pos h1]; rfl
  · rw [if_neg h1, if_neg h1, if_pos (hc.codeLen_ne_zero (hbad.resolve_left h1))]; rfl

/-! ### GenCodes -/

theorem State.clearCodes_codesAre (s : State) : s.clearCodes.CodesAre [] := by
  intro a p
  simp

theorem State.clearCodes_tailZero (s : State) : s.clearCodes.CodeTailZero := by
  intro a i _
  simp

/-- GenCodes over a tree (43_code_table_gen.md R240): clear CODE, record the codes, set CODES_VALID. -/
theorem genCodes_eq {s : State} {t : Shape} (h : s.HoldsTree t) :
    genCodes s = (recordAll t.codes >>= fun _ => Proc.change ({ · with codesValid := true })) s.clearCodes := by
  have hsz := h.size_le
  obtain ⟨-, -, -, ns, hs, -, -⟩ := h
  have hc := hs.isChildless
  have hn : s.clearCodes.node = s.node := rfl
  show (if (s.node s.root).isChildless then Proc.change ({ · with codesValid := true }) else
    codeWalk codeWalkFuel s.root [] >>= fun _ => Proc.change ({ · with codesValid := true })) s.clearCodes = _
  rw [hc]
  cases hcl : t.isChildless with
  | true =>
    have : t.codes = [] := by unfold Shape.codes; rw [hcl]; rfl
    rw [this]
    rfl
  | false =>
    have hw := codeWalk_eq hs codeWalkFuel [] s.clearCodes (by unfold codeWalkFuel Config.nodeCap; omega) hn
    have hw : codeWalk codeWalkFuel s.root [] s.clearCodes = recordAll (t.codesAt []) s.clearCodes := hw
    rw [Shape.codes_eq hcl, if_neg (by simp), Proc.bind_apply, Proc.bind_apply, hw]

/-- GenCodes over a tree whose codes can all be recorded. -/
theorem genCodes_ok {s : State} {t : Shape} (h : s.HoldsTree t) (hok : CodesOk t.codes) :
    ∃ u, genCodes s = .ok () u ∧ u.CodesAre t.codes ∧ u.CodeTailZero ∧
      u = { s with codesValid := true, codeLen := u.codeLen, codeBits := u.codeBits } := by
  obtain ⟨u, hu, hc, hz, hf⟩ := recordAll_ok (pre := []) (cs := t.codes) s.clearCodes_codesAre s.clearCodes_tailZero hok
    (fun c hc => Shape.code_ne_nil (sym := c.1) hc)
  refine ⟨{ u with codesValid := true }, ?_, hc, hz, ?_⟩
  · rw [genCodes_eq h, Proc.bind_ok hu]; rfl
  · rw [hf]; rfl

/-- GenCodes over a tree with a first leaf that cannot be recorded. -/
theorem genCodes_bad {s : State} {t : Shape} {pre post : List (Byte × List Bool)} {sym : Byte} {p : List Bool}
    (h : s.HoldsTree t) (ht : t.codes = pre ++ (sym, p) :: post) (hok : CodesOk pre)
    (hbad : 255 < p.length ∨ sym ∈ pre.map Prod.fst) :
    ∃ u, genCodes s = .error (.raised (if 255 < p.length then .argCodeTooLong else .argDupSymbol)) u ∧
      u.CodesAre pre ∧ u.CodeTailZero ∧
      u = { s with codesValid := false, codeLen := u.codeLen, codeBits := u.codeBits } := by
  have hne : ∀ c ∈ pre, c.2 ≠ [] := fun c hc => Shape.code_ne_nil (t := t) (sym := c.1) (by rw [ht]; simp [hc])
  obtain ⟨u, hu, hc, hz, hf⟩ := recordAll_bad (pre := []) (mid := pre) (post := post) s.clearCodes_codesAre
    s.clearCodes_tailZero hok hne hbad
  refine ⟨u, ?_, hc, hz, ?_⟩
  · rw [genCodes_eq h, ht, Proc.bind_error hu]
  · rw [hf]; rfl

end Sys2Proof.Machine
end

