-- ==== Sys2Proof/Laws/Huffman.lean ====
section
/-! SUPPORT. The Huffman tree of a frequency table (spec/42_tree_builder.md R214 to R225): its leaves are the present
symbols, each once, its internal nodes are full, so its codes fit and fill the code space, and with the counts of an
input no merged frequency overflows. -/

namespace Sys2Proof.Machine

/-! ### Leaves -/

/-- The symbols of the leaves, in preorder. -/
def Shape.leafSyms : Shape → List Byte
  | .absent => []
  | .node sym l r => if l.isAbsent && r.isAbsent then [sym] else l.leafSyms ++ r.leafSyms

theorem Shape.codesAt_fst (t : Shape) (p : List Bool) : (t.codesAt p).map Prod.fst = t.leafSyms := by
  induction t generalizing p with
  | absent => rfl
  | node sym l r ihl ihr =>
    unfold codesAt leafSyms
    split_ifs
    · rfl
    · rw [List.map_append, ihl, ihr]

/-- Every internal node has two children (43_code_table_gen.md R242 (c)). -/
inductive Shape.Full : Shape → Prop where
  | leaf (sym : Byte) : Full (.node sym .absent .absent)
  | node (sym : Byte) (l r : Shape) : Full l → Full r → Full (.node sym l r)

theorem Shape.Full.not_absent {t : Shape} (h : t.Full) : t.isAbsent = false := by cases h <;> rfl

theorem Shape.Full.leafSyms_node {sym : Byte} {l r : Shape} (hl : l.Full) :
    (Shape.node sym l r).leafSyms = l.leafSyms ++ r.leafSyms := by
  show (if l.isAbsent && r.isAbsent then [sym] else l.leafSyms ++ r.leafSyms) = _
  rw [hl.not_absent]
  rfl

theorem Shape.Full.codesAt_node {sym : Byte} {l r : Shape} (hl : l.Full) (p : List Bool) :
    (Shape.node sym l r).codesAt p = l.codesAt (p ++ [false]) ++ r.codesAt (p ++ [true]) := by
  show (if l.isAbsent && r.isAbsent then [(sym, p)] else l.codesAt (p ++ [false]) ++ r.codesAt (p ++ [true])) = _
  rw [hl.not_absent]
  rfl

theorem Shape.Full.leafSyms_pos {t : Shape} (h : t.Full) : 0 < t.leafSyms.length := by
  induction h with
  | leaf sym => simp [leafSyms, isAbsent]
  | node sym l r hl hr ihl ihr => rw [hl.leafSyms_node, List.length_append]; omega

/-- A full tree of n leaves is at most n - 1 deep (42_tree_builder.md R225). -/
theorem Shape.Full.depth {t : Shape} (h : t.Full) {p q : List Bool} {sym : Byte} (hm : (sym, q) ∈ t.codesAt p) :
    q.length + 1 ≤ p.length + t.leafSyms.length := by
  induction h generalizing p with
  | leaf s =>
    have : (sym, q) = (s, p) := by simpa [codesAt, isAbsent] using hm
    obtain ⟨-, rfl⟩ := Prod.mk.inj this
    simp [leafSyms, isAbsent]
  | node s l r hl hr ihl ihr =>
    rw [hl.codesAt_node] at hm
    rw [hl.leafSyms_node, List.length_append]
    have := hl.leafSyms_pos
    have := hr.leafSyms_pos
    rcases List.mem_append.1 hm with hm | hm
    · have := ihl hm; simp only [List.length_append, List.length_cons, List.length_nil] at this; omega
    · have := ihr hm; simp only [List.length_append, List.length_cons, List.length_nil] at this; omega

/-- The codes of a full tree fill the code space (43_code_table_gen.md R242 (c)). -/
theorem Shape.Full.kraft {t : Shape} (h : t.Full) (p : List Bool) (D : Nat)
    (hD : ∀ c ∈ t.codesAt p, c.2.length ≤ D) : ((t.codesAt p).map fun c => 2 ^ (D - c.2.length)).sum = 2 ^ (D - p.length) := by
  induction h generalizing p with
  | leaf s => simp [codesAt, isAbsent]
  | node s l r hl hr ihl ihr =>
    rw [hl.codesAt_node] at hD ⊢
    rw [List.map_append, List.sum_append, ihl _ fun c hc => hD c (by simp [hc]), ihr _ fun c hc => hD c (by simp [hc])]
    have hlt : p.length < D := by
      obtain ⟨c, hc⟩ : ∃ c, c ∈ l.codesAt (p ++ [false]) := by
        have := hl.leafSyms_pos
        rw [← codesAt_fst l (p ++ [false]), List.length_map] at this
        exact ⟨_, List.getElem_mem this⟩
      have h1 := hD c (by simp [hc])
      obtain ⟨r', hr', -⟩ := Shape.walkDown_code (sym := c.1) (q := c.2) hc
      rw [hr'] at h1
      simp only [List.length_append, List.length_cons, List.length_nil] at h1
      omega
    simp only [List.length_append, List.length_cons, List.length_nil]
    rw [show D - p.length = (D - (p.length + (0 + 1))) + 1 by omega, Nat.pow_succ]
    omega

/-! ### Greedy merging -/

/-- What greedy merging keeps: fullness, and the leaves. -/
theorem mergeAll_spec (n k : Nat) {W : List Weighted} {t : Shape} (hW : ∀ w ∈ W, w.shape.Full)
    (h : mergeAll n k W = some t) :
    t.Full ∧ t.leafSyms.Perm (W.flatMap fun w => w.shape.leafSyms) ∧ (∀ w ∈ W, W.length = 1 → t = w.shape) ∧
    (2 ≤ W.length → ∃ l r, t = .node 0 l r ∧ l.Full ∧ r.Full) := by
  induction n generalizing k W with
  | zero =>
    match W, h with
    | [w], h =>
      obtain rfl : w.shape = t := by simpa [mergeAll] using h
      exact ⟨hW w (by simp), by simp, fun w' hw' _ => by rw [List.mem_singleton.1 hw'], fun h => absurd h (by simp)⟩
  | succ n ih =>
    match W, h with
    | [w], h =>
      obtain rfl : w.shape = t := by simpa [mergeAll] using h
      exact ⟨hW w (by simp), by simp, fun w' hw' _ => by rw [List.mem_singleton.1 hw'], fun h => absurd h (by simp)⟩
    | x :: y :: q, h =>
      unfold mergeAll at h
      dsimp only at h
      have h1 := (takeFirst_spec x (y :: q)).1
      cases hz : (takeFirst x (y :: q)).2 with
      | nil => rw [hz] at h; simp at h
      | cons z q' =>
        rw [hz] at h h1
        have h2 := (takeFirst_spec z q').1
        simp only at h
        split_ifs at h with ho
        have hp : ((takeFirst x (y :: q)).1 :: (takeFirst z q').1 :: (takeFirst z q').2).Perm (x :: y :: q) :=
          (h2.cons _).trans h1
        have hfull : ∀ w ∈ (takeFirst x (y :: q)).1 :: (takeFirst z q').1 :: (takeFirst z q').2, w.shape.Full :=
          fun w hw => hW w (hp.mem_iff.1 hw)
        have hfa := hfull (takeFirst x (y :: q)).1 (by simp)
        have hfb := hfull (takeFirst z q').1 (by simp)
        have hnew : (Shape.node 0 (takeFirst x (y :: q)).1.shape (takeFirst z q').1.shape).Full := .node 0 _ _ hfa hfb
        obtain ⟨g1, g2, g3, g4⟩ := ih (k + 1) (W := (takeFirst z q').2 ++ [_]) (fun w hw => by
          rcases List.mem_append.1 hw with hw | hw
          · exact hfull w (by simp [hw])
          · rw [List.mem_singleton.1 hw]; exact hnew) h
        refine ⟨g1, g2.trans ?_, fun w hw hl => absurd hl (by simp), fun _ => ?_⟩
        · refine List.Perm.trans ?_ (hp.flatMap_right _)
          rw [List.flatMap_append, List.flatMap_cons, List.flatMap_nil, List.append_nil, List.flatMap_cons,
            List.flatMap_cons, hfa.leafSyms_node]
          exact List.perm_append_comm.trans (by rw [List.append_assoc])
        · by_cases hq : (takeFirst z q').2 = []
          · rw [hq] at g3
            exact ⟨_, _, g3 _ (List.mem_append_right _ (List.mem_singleton_self _)) rfl, hfa, hfb⟩
          · exact g4 (by have := List.length_pos_iff.2 hq; simp; omega)

/-- With frequencies whose sum fits, no merge overflows (42_tree_builder.md R224). -/
theorem mergeAll_isSome (n k : Nat) {W : List Weighted} (hne : W ≠ []) (hlen : W.length ≤ n)
    (hsum : (W.map Weighted.freq).sum < 2 ^ 64) : (mergeAll n k W).isSome = true := by
  induction n generalizing k W with
  | zero => exact absurd (List.length_eq_zero_iff.1 (by omega)) hne
  | succ n ih =>
    match W, hne with
    | [w], _ => simp [mergeAll]
    | x :: y :: q, _ =>
      unfold mergeAll
      have h1 := (takeFirst_spec x (y :: q)).1
      cases hz : (takeFirst x (y :: q)).2 with
      | nil =>
        have := h1.length_eq
        rw [hz] at this
        simp at this
      | cons z q' =>
        rw [hz] at h1
        have h2 := (takeFirst_spec z q').1
        have hp : ((takeFirst x (y :: q)).1 :: (takeFirst z q').1 :: (takeFirst z q').2).Perm (x :: y :: q) :=
          (h2.cons _).trans h1
        have hs := (hp.map Weighted.freq).sum_eq
        simp only [List.map_cons, List.sum_cons] at hs hsum
        have hl := hp.length_eq
        simp only [List.length_cons] at hl hlen
        simp only [hz]
        rw [if_neg (by omega)]
        refine ih (k + 1) (by simp) (by simp; omega) ?_
        simp only [List.map_append, List.map_cons, List.map_nil, List.sum_append, List.sum_cons, List.sum_nil]
        omega

/-! ### The tree of a table -/

theorem huffmanTree_many {t : Vector DWord 256} (h : 2 ≤ (presentSymbols t).length) :
    huffmanTree t = mergeAll (presentSymbols t).length (presentSymbols t).length
      ((presentSymbols t).zipIdx.map fun x => ⟨(freqOf t x.1).toNat, x.2, .leaf x.1⟩) := by
  unfold huffmanTree
  match hS : presentSymbols t, h with
  | x :: y :: q, _ => rfl

theorem flatMap_leaf (syms : List Byte) (f : Byte → Nat) (k : Nat) :
    (((syms.zipIdx k).map fun x => (⟨f x.1, x.2, .leaf x.1⟩ : Weighted)).flatMap fun w => w.shape.leafSyms) = syms := by
  induction syms generalizing k with
  | nil => rfl
  | cons a syms ih =>
    rw [List.zipIdx_cons, List.map_cons, List.flatMap_cons, ih]
    rfl

theorem map_freq (syms : List Byte) (f : Byte → Nat) (k : Nat) :
    (syms.zipIdx k).map (Weighted.freq ∘ fun x => (⟨f x.1, x.2, .leaf x.1⟩ : Weighted)) = syms.map f := by
  induction syms generalizing k with
  | nil => rfl
  | cons a syms ih =>
    rw [List.zipIdx_cons, List.map_cons, ih]
    rfl

/-- The leaves of the tree are the present symbols, each once; its codes fit CODE; with two symbols or more every
internal node has two children (42_tree_builder.md R214, R219, R220, R225, 43_code_table_gen.md R242). -/
theorem huffmanTree_codes {t : Vector DWord 256} {sh : Shape} (h : huffmanTree t = some sh) :
    (sh.codes.map Prod.fst).Perm (presentSymbols t) ∧ CodesOk sh.codes ∧
    (2 ≤ (presentSymbols t).length → sh.Full ∧ sh.isChildless = false) ∧ ∃ l r, sh = .node 0 l r := by
  have hnd := presentSymbols_nodup t
  have hlen := length_presentSymbols_le t
  by_cases h2 : 2 ≤ (presentSymbols t).length
  · rw [huffmanTree_many h2] at h
    have hW : ∀ w ∈ ((presentSymbols t).zipIdx.map fun x => (⟨(freqOf t x.1).toNat, x.2, .leaf x.1⟩ : Weighted)),
        w.shape.Full := by
      intro w hw
      obtain ⟨x, -, rfl⟩ := List.mem_map.1 hw
      exact .leaf _
    obtain ⟨g1, g2, -, g4⟩ := mergeAll_spec _ _ hW h
    rw [flatMap_leaf _ (fun a => (freqOf t a).toNat) 0] at g2
    obtain ⟨l, r, rfl, hl, hr⟩ := g4 (by simpa using h2)
    have hcl : (Shape.node 0 l r).isChildless = false := by
      show (l.isAbsent && r.isAbsent) = false
      rw [hl.not_absent]; rfl
    have hfst : (Shape.node 0 l r).codes.map Prod.fst = (Shape.node 0 l r).leafSyms := by
      rw [Shape.codes_eq hcl, Shape.codesAt_fst]
    refine ⟨by rw [hfst]; exact g2, ⟨by rw [hfst]; exact g2.nodup_iff.2 hnd, fun c hc => ?_⟩, fun _ => ⟨g1, hcl⟩, l, r, rfl⟩
    have := g1.depth (p := []) (q := c.2) (sym := c.1) (Shape.mem_codes hc).2
    rw [g2.length_eq] at this
    simp only [List.length_nil] at this
    unfold Config.codeMaxLen
    omega
  · match hS : presentSymbols t with
    | [] =>
      have : sh = .leaf 0 := by unfold huffmanTree at h; rw [hS] at h; exact (Option.some.inj h).symm
      subst this
      exact ⟨by decide, ⟨by decide, by decide⟩, fun h => absurd h (by simp), _, _, rfl⟩
    | [sym] =>
      have : sh = .node 0 (.leaf sym) .absent := by
        unfold huffmanTree at h; rw [hS] at h; exact (Option.some.inj h).symm
      subst this
      have hc : (Shape.node 0 (.leaf sym) .absent).codes = [(sym, [false])] := rfl
      refine ⟨by rw [hc]; exact .refl _, ⟨by rw [hc]; simp, fun c h => ?_⟩, fun h => absurd h (by simp), _, _, rfl⟩
      rw [hc, List.mem_singleton] at h
      rw [h]
      exact show 1 ≤ 255 by decide
    | x :: y :: q => rw [hS] at h2; simp at h2

/-! ### Counting -/

theorem freqOf_countsOf (xs : List Byte) (sym : Byte) : freqOf (countsOf xs) sym = BitVec.ofNat 64 (xs.count sym) := by
  simp [freqOf, countsOf]

theorem State.ibufBytes_succ_last (s : State) (n : Nat) : s.ibufBytes 0 (n + 1) = s.ibufBytes 0 n ++ [s.ibufByte n] := by
  simp [ibufBytes, List.range_succ]

/-- CountFreq counts occurrences (42_tree_builder.md R211). -/
theorem State.countBytes_eq (s : State) (n : Nat) : s.countBytes n = countsOf (s.ibufBytes 0 n) := by
  have key : ∀ sym : Byte, freqOf (s.countBytes n) sym = BitVec.ofNat 64 ((s.ibufBytes 0 n).count sym) := by
    induction n with
    | zero => intro sym; exact freqOf_replicate sym
    | succ n ih =>
      intro sym
      rw [countBytes, freqOf_setFreqOf, ibufBytes_succ_last, List.count_append]
      by_cases h : sym = s.ibufByte n
      · rw [if_pos h, ih, h, BitVec.ofNat_add]
        simp
      · rw [if_neg h, ih]
        congr 1
        simp [Ne.symm h]
  apply Vector.ext
  intro i hi
  have := key (BitVec.ofNat 8 i)
  rw [← freqOf_countsOf] at this
  simpa [freqOf, Nat.mod_eq_of_lt hi] using this

theorem sum_count_le {syms : List Byte} (hn : syms.Nodup) (xs : List Byte) :
    (syms.map fun sym => xs.count sym).sum ≤ xs.length := by
  induction xs with
  | nil => simp
  | cons x xs ih =>
    have h1 : (syms.map fun sym => (x :: xs).count sym).sum =
        (syms.map fun sym => xs.count sym).sum + (syms.map fun sym => if x = sym then 1 else 0).sum := by
      rw [← List.sum_map_add]
      congr 1
      apply List.map_congr_left
      intro sym _
      rw [List.count_cons]
      simp
    have h2 : (syms.map fun sym => if x = sym then 1 else 0).sum ≤ 1 := by
      clear h1 ih
      induction syms with
      | nil => simp
      | cons a syms ih =>
        rw [List.nodup_cons] at hn
        rw [List.map_cons, List.sum_cons]
        by_cases h : x = a
        · subst h
          have : (syms.map fun sym => if x = sym then 1 else 0) = syms.map fun _ => 0 := by
            apply List.map_congr_left
            intro b hb
            rw [if_neg]
            rintro rfl
            exact hn.1 hb
          rw [this]
          simp
        · have := ih hn.2
          rw [if_neg h]
          omega
    rw [h1, List.length_cons]
    omega

/-- The counts of an input never overflow a merge (42_tree_builder.md R224). -/
theorem huffmanTree_countsOf {xs : List Byte} (h : xs.length < 2 ^ 64) : ∃ sh, huffmanTree (countsOf xs) = some sh := by
  by_cases h2 : 2 ≤ (presentSymbols (countsOf xs)).length
  · rw [huffmanTree_many h2]
    refine Option.isSome_iff_exists.1 (mergeAll_isSome _ _ ?_ (by simp) ?_)
    · intro h0
      have := congrArg List.length h0
      simp at this
      rw [this] at h2
      simp at h2
    · rw [List.map_map]
      have e := map_freq (presentSymbols (countsOf xs)) (fun a => (freqOf (countsOf xs) a).toNat) 0
      rw [e]
      have : ((presentSymbols (countsOf xs)).map fun sym => (freqOf (countsOf xs) sym).toNat).sum ≤
          ((presentSymbols (countsOf xs)).map fun sym => xs.count sym).sum := by
        apply List.sum_le_sum
        intro sym _
        rw [freqOf_countsOf, BitVec.toNat_ofNat]
        exact Nat.mod_le _ _
      have := sum_count_le (presentSymbols_nodup (countsOf xs)) xs
      omega
  · match hS : presentSymbols (countsOf xs) with
    | [] => exact ⟨.leaf 0, by unfold huffmanTree; rw [hS]⟩
    | [sym] => exact ⟨.node 0 (.leaf sym) .absent, by unfold huffmanTree; rw [hS]⟩
    | x :: y :: q => rw [hS] at h2; simp at h2

end Sys2Proof.Machine
end

