-- ==== Sys2Proof/Laws/Encoder.lean ====
section
/-! SUPPORT. What the encoder's procedures do (spec/44_huffman_encoder.md R260 to R262, R270): each is a run of AddBit
calls over bits that the state determines, and ENC_COMPRESS writes its archive byte by byte. -/

namespace Sys2Proof.Machine

/-! ### The procedures as runs of AddBit -/

theorem writeHeader_eq (v : DWord) (s : State) :
    writeHeader v s = addBits ((headerBytes s.params.headerOrder v).flatMap byteBits) s :=
  writeChars_eq _ _

/-- SerializeTree over a tree (44_huffman_encoder.md R261, R266). -/
theorem serializeTree_eq {s : State} {sh : Shape} (h : s.HoldsTree sh) : serializeTree s = addBits sh.treeBits s := by
  obtain ⟨-, -, -, ns, hs, -, -⟩ := h
  have hlt := s.bw.pos.isLt
  refine serNode_eq hs s.serFuel s (.inr ?_) rfl
  unfold State.room State.serFuel
  omega

/-- EncodeSymbol of a symbol with a code (44_huffman_encoder.md R262). -/
theorem encodeSymbol_eq {s : State} {sym : Byte} (hv : s.codesValid = true) (hl : s.codeLenOf sym ≠ 0) :
    encodeSymbol sym s = addBits (s.codeBitsList sym) s := by
  unfold encodeSymbol
  rw [if_neg (by simpa [hv] using hl)]
  rfl

/-- EncodeSymbol of a symbol without one (60_exceptions.md R340). -/
theorem encodeSymbol_noCode {s : State} {sym : Byte} (h : s.codesValid = false ∨ s.codeLenOf sym = 0) :
    encodeSymbol sym s = .error (.raised .argNoCode) s := by
  unfold encodeSymbol
  rw [if_pos]
  · rfl
  · rcases h with h | h <;> simp [h]

/-- The payload loop of ENC_COMPRESS, when every input byte has a code (44_huffman_encoder.md R269, R270). -/
theorem encodeLoop_eq (n i : Nat) {s : State} (hv : s.codesValid = true)
    (hl : ∀ x ∈ s.ibufBytes i n, s.codeLenOf x ≠ 0) :
    encodeLoop n i s = addBits ((s.ibufBytes i n).flatMap s.codeBitsList) s := by
  induction n generalizing i s with
  | zero => rfl
  | succ n ih =>
    rw [State.ibufBytes_succ] at hl ⊢
    rw [List.flatMap_cons, addBits_append, Proc.bind_apply]
    show (encodeSymbol (s.ibufByte i) >>= fun _ => encodeLoop n (i + 1)) s = _
    rw [Proc.bind_apply, encodeSymbol_eq hv (hl _ (by simp))]
    have hk := addBits_keeps (P := fun t => t.codesValid = s.codesValid ∧ t.codeLenOf = s.codeLenOf ∧
      t.codeBitsList = s.codeBitsList ∧ t.ibufBytes = s.ibufBytes) (fun u bw obuf h => h) (s.codeBitsList (s.ibufByte i))
    cases hr : addBits (s.codeBitsList (s.ibufByte i)) s with
    | error e t => rfl
    | ok x t =>
      obtain ⟨h1, h2, h3, h4⟩ := hk.of_ok ⟨rfl, rfl, rfl, rfl⟩ hr
      have := ih (i + 1) (s := t) (by rw [h1]; exact hv) (by
        rw [h2, h4]; exact fun x hx => hl x (by simp [hx]))
      rw [h3, h4] at this
      exact this

/-! ### Whole bytes -/

theorem addBits_pos {bs : List Bool} {s t : State} {x : Unit} (h : addBits bs s = .ok x t) :
    t.bw.pos = s.bw.pos + BitVec.ofNat 3 bs.length := by
  induction bs generalizing s with
  | nil => cases h; simp
  | cons b bs ih =>
    rw [addBits_cons, Proc.bind_apply, addBit_apply] at h
    cases hblk : s.flushBlocked with
    | true => rw [hblk] at h; cases h
    | false =>
      rw [hblk] at h
      have hp : (s.placeBit b).bw.pos = s.bw.pos + 1 := by
        by_cases h7 : s.bw.pos = 7
        · rw [State.placeBit_of_pos_eq h7, h7]; rfl
        · rw [State.placeBit_of_pos_ne h7]
      rw [ih h, hp, List.length_cons, BitVec.ofNat_add, BitVec.add_assoc, BitVec.add_comm 1]
      rfl

/-- The bits of `packBits` are the bits given and the padding 1-bits (30_encoding.md R134, R135). -/
theorem packBits_bits (bs : List Bool) :
    (packBits bs).flatMap byteBits = bs ++ List.replicate (8 * ((bs.length + 7) / 8) - bs.length) true := by
  suffices H : ∀ (m : Nat) (bs : List Bool), m = (bs.length + 7) / 8 →
      ((List.range m).map fun k => byteOfBits (fillTo 8 true ((bs.drop (8 * k)).take 8))).flatMap byteBits =
        bs ++ List.replicate (8 * m - bs.length) true from H _ bs rfl
  intro m
  induction m with
  | zero =>
    intro bs h
    have : bs = [] := List.length_eq_zero_iff.1 (by omega)
    subst this
    rfl
  | succ m ih =>
    intro bs h
    rw [List.range_succ_eq_map, List.map_cons, List.flatMap_cons, List.map_map, Nat.mul_zero, List.drop_zero]
    have hrest : ((List.range m).map ((fun k => byteOfBits (fillTo 8 true ((bs.drop (8 * k)).take 8))) ∘ Nat.succ)) =
        (List.range m).map fun k => byteOfBits (fillTo 8 true (((bs.drop 8).drop (8 * k)).take 8)) := by
      apply List.map_congr_left
      intro k _
      simp only [Function.comp, List.drop_drop, Nat.succ_eq_add_one]
      congr 4
      omega
    rw [hrest, ih (bs.drop 8) (by rw [List.length_drop]; omega)]
    rw [byteBits_byteOfBits_of_length (by
      rw [fillTo, List.length_append, List.length_replicate, List.length_take]; omega)]
    unfold fillTo
    by_cases h8 : 8 ≤ bs.length
    · rw [List.length_take, Nat.min_eq_left h8, Nat.sub_self, List.replicate_zero, List.append_nil, ← List.append_assoc,
        List.take_append_drop, List.length_drop]
      congr 2
      omega
    · rw [List.take_of_length_le (by omega), List.drop_of_length_le (by omega)]
      have : m = 0 := by omega
      subst this
      simp

theorem length_packBits (bs : List Bool) : (packBits bs).length = (bs.length + 7) / 8 := by simp [packBits]

/-- A run of AddBit calls and the padding after it are the bytes of `packBits` (40_bit_writer.md R152). -/
theorem addBits_pad (pre : List Byte) (bs : List Bool) {s : State} (hp : s.bw.pos = 0) :
    (addBits (pre.flatMap byteBits ++ bs) >>= fun _ => pad) s = addBits ((pre ++ packBits bs).flatMap byteBits) s := by
  rw [List.flatMap_append, packBits_bits, ← List.append_assoc, addBits_append _ (List.replicate _ true), Proc.bind_apply,
    Proc.bind_apply]
  cases hr : addBits (pre.flatMap byteBits ++ bs) s with
  | error e t => rfl
  | ok x t =>
    have h1 := addBits_pos hr
    show pad t = _
    rw [pad_eq]
    congr 2
    have hpos : t.bw.pos.toNat = bs.length % 8 := by
      rw [h1, hp, List.length_append, length_flatMap_byteBits]
      simp only [BitVec.toNat_add, BitVec.ofNat_eq_ofNat, BitVec.toNat_ofNat]
      omega
    unfold State.padCount
    by_cases h0 : t.bw.pos = 0
    · rw [if_pos h0]
      rw [h0] at hpos
      have : (0 : BitVec 3).toNat = 0 := rfl
      omega
    · rw [if_neg h0]
      have := cursor_toNat_ne_zero h0
      omega

theorem byte_of_bits (vs : List Byte) {j : Nat} (h : j < vs.length) :
    byteOfBits (((vs.flatMap byteBits).drop (8 * j)).take 8) = vs[j] := by
  induction vs generalizing j with
  | nil => simp at h
  | cons v vs ih =>
    cases j with
    | zero =>
      rw [List.flatMap_cons, Nat.mul_zero, List.drop_zero, List.take_append_of_le_length (by simp),
        List.take_of_length_le (by simp), byteOfBits_byteBits]
      rfl
    | succ j =>
      rw [List.flatMap_cons, List.drop_append, List.drop_of_length_le (by simp), List.nil_append, length_byteBits,
        show 8 * (j + 1) - 8 = 8 * j by omega]
      exact ih (by simpa using h)

/-- Whole bytes from a byte boundary, with room. -/
theorem addBytes_ok (vs : List Byte) {s : State} (hp : s.bw.pos = 0) (hc : s.bw.cur = 0)
    (hr : s.bw.wrptr.toNat + vs.length ≤ s.obufSize) :
    ∃ t, addBits (vs.flatMap byteBits) s = .ok () t ∧
      t.bw = ⟨0, 0, s.bw.wrptr + BitVec.ofNat 64 vs.length, s.bw.bits + BitVec.ofNat 64 (8 * vs.length),
        s.bw.bytes + BitVec.ofNat 64 vs.length⟩ ∧
      (∀ j (h : j < vs.length), t.obufByte (s.bw.wrptr.toNat + j) = vs[j]) ∧
      (∀ a, a < s.bw.wrptr.toNat ∨ s.bw.wrptr.toNat + vs.length ≤ a → t.obufByte a = s.obufByte a) ∧
      t = { s with bw := t.bw, obuf := t.obuf } := by
  have hpn : s.bw.pos.toNat = 0 := by rw [hp]; rfl
  have hz : s.WriterTailZero := by intro i _; rw [hc]; simp
  have hfl : s.flushes (8 * vs.length) = vs.length := by simp only [State.flushes, hpn]; omega
  have hheld : s.heldBits = [] := List.length_eq_zero_iff.1 (by rw [State.length_heldBits, hpn])
  have hlen := length_flatMap_byteBits vs
  obtain ⟨t, ht, ⟨h1, h2, h3, h4, h5, h6⟩, htz, hf⟩ := addBits_ok (vs.flatMap byteBits) hz
    (by rw [hlen]; right; rw [hfl]; exact hr)
  rw [hlen] at h1 h2 h3 h4 h5 h6
  rw [hfl] at h2 h3 h5 h6
  rw [hheld] at h2 h6
  refine ⟨t, ht, ?_, fun j hj => ?_, fun a ha => ?_, hf⟩
  · have hcur : t.bw.cur = 0 := by
      rw [h2, List.nil_append, List.drop_of_length_le (by rw [hlen])]
      decide
    have hpos : t.bw.pos = 0 := by
      rw [h1, hp]
      apply BitVec.eq_of_toNat_eq
      simp only [BitVec.toNat_add, BitVec.ofNat_eq_ofNat, BitVec.toNat_ofNat]
      omega
    cases hb : t.bw with
    | mk c p w b y =>
      rw [hb] at hcur hpos h3 h4 h5
      dsimp only at hcur hpos h3 h4 h5
      rw [hcur, hpos, h3, h4, h5]
  · rw [h6, if_pos (by omega), List.nil_append, Nat.add_sub_cancel_left]
    exact byte_of_bits vs hj
  · rw [h6, if_neg (by omega)]

/-- The first seven bits of a byte, held in BW_CUR. -/
theorem byteOfBits_take_seven : ∀ v : Byte, byteOfBits (fillTo 8 false ((byteBits v).take 7)) = v &&& 0xFE := by
  decide +kernel

/-- Whole bytes from a byte boundary, without room for all: OBUF is filled, and the first seven bits of the next byte
are held (60_exceptions.md R332). -/
theorem addBytes_overflow (vs : List Byte) {s : State} (hp : s.bw.pos = 0) (hc : s.bw.cur = 0)
    {k : Nat} (hk : s.bw.wrptr.toNat + k = s.obufSize) (hr : k < vs.length) :
    ∃ t, addBits (vs.flatMap byteBits) s = .error (.raised .resOutOverflow) t ∧
      t.bw = ⟨vs[k] &&& 0xFE, 7, s.bw.wrptr + BitVec.ofNat 64 k, s.bw.bits + BitVec.ofNat 64 (8 * k + 7),
        s.bw.bytes + BitVec.ofNat 64 k⟩ ∧
      (∀ j (h : j < vs.length), s.bw.wrptr.toNat + j < s.obufSize → t.obufByte (s.bw.wrptr.toNat + j) = vs[j]) ∧
      (∀ a, a < s.bw.wrptr.toNat ∨ s.obufSize ≤ a → t.obufByte a = s.obufByte a) ∧
      t = { s with bw := t.bw, obuf := t.obuf } := by
  have hpn : s.bw.pos.toNat = 0 := by rw [hp]; rfl
  have hz : s.WriterTailZero := by intro i _; rw [hc]; simp
  have hheld : s.heldBits = [] := List.length_eq_zero_iff.1 (by rw [State.length_heldBits, hpn])
  have hlen := length_flatMap_byteBits vs
  have hobs : s.obufSize < 2 ^ 32 := s.params.obufSize.isLt
  obtain ⟨t, -, ht, -, -, -, -, -, hf⟩ := addBits_overflow (vs.flatMap byteBits) hz (by
    rw [hlen]
    rintro (h | h) <;> simp only [State.flushes, hpn] at h <;> omega)
  obtain ⟨as, hpre, hal, has, hfb⟩ := addBits_stops ht
  rw [State.flushBlocked_iff] at hfb
  have hto : t.obufSize = s.obufSize := by rw [hf]; rfl
  rw [hto] at hfb
  have hroom := addBits_room has
  have h7 : t.bw.pos.toNat = 7 := by rw [hfb.1]; rfl
  simp only [State.room, hto, hpn, h7] at hroom
  have hfl : s.flushes as.length = as.length / 8 := by simp only [State.flushes, hpn]; omega
  have hroom' : s.HasRoom as.length := by right; rw [hfl]; omega
  obtain ⟨u, hu, ⟨h1, h2, h3, h4, h5, h6⟩, -, -⟩ := addBits_ok as hz hroom'
  rw [has] at hu
  injection hu with _ e
  subst e
  have hlas : as.length = 8 * k + 7 := by omega
  have hdiv : as.length / 8 = k := by omega
  rw [hfl] at h2 h3 h5 h6
  rw [hheld] at h2 h6
  rw [hdiv] at h2 h3 h5
  have hw3 : t.bw.wrptr.toNat = s.bw.wrptr.toNat + as.length / 8 := by
    rw [h3]; simp only [BitVec.toNat_add, BitVec.toNat_ofNat]; omega
  refine ⟨t, ht, ?_, fun j hj hja => ?_, fun a ha => ?_, hf⟩
  · have hcur : t.bw.cur = vs[k] &&& 0xFE := by
      have h8 : (((vs.flatMap byteBits).drop (8 * k)).take 8) = byteBits vs[k] := by
        rw [← byte_of_bits vs hr, byteBits_byteOfBits_of_length]
        rw [List.length_take, List.length_drop]
        omega
      obtain ⟨c, hc'⟩ := hpre
      have h7 : as.drop (8 * k) = (byteBits vs[k]).take 7 := by
        rw [← h8, List.take_take, ← hc', List.drop_append_of_le_length (by omega),
          List.take_append_of_le_length (by rw [List.length_drop]; omega),
          List.take_of_length_le (by rw [List.length_drop]; omega)]
      rw [h2, List.nil_append, h7]
      exact byteOfBits_take_seven _
    have hpos := hfb.1
    rw [hlas] at h4
    cases hb : t.bw with
    | mk c p w b y =>
      rw [hb] at hcur hpos h3 h4 h5
      dsimp only at hcur hpos h3 h4 h5
      rw [hcur, hpos, h3, h4, h5]
  · rw [h6, if_pos (by omega), List.nil_append, Nat.add_sub_cancel_left, ← byte_of_bits vs hj]
    obtain ⟨c, hc'⟩ := hpre
    rw [← hc', List.drop_append_of_le_length (by omega), List.take_append_of_le_length (by rw [List.length_drop]; omega)]
  · rw [h6, if_neg (by omega)]

end Sys2Proof.Machine
end

