-- ==== Sys2Proof/Laws/Compress.lean ====
section
/-! SUPPORT. ENC_COMPRESS said once (spec/44_huffman_encoder.md R270): which state it makes before it writes, and that it
then writes the bytes of the archive, those up to the end of the tree first. -/

namespace Sys2Proof.Machine

theorem length_headerBytes (o : HeaderOrder) (v : DWord) : (headerBytes o v).length = 8 := by cases o <;> rfl

/-- The code that CODE holds is the code of the list. -/
theorem State.CodesAre.codeFor {s : State} {cs : List (Byte × List Bool)} (h : s.CodesAre cs) {sym : Byte}
    (hs : sym ∈ cs.map Prod.fst) : s.codeBitsList sym = codeFor cs sym := by
  unfold Machine.codeFor
  cases hf : cs.find? fun c => c.1 == sym with
  | none =>
    obtain ⟨c, hc, rfl⟩ := List.mem_map.1 hs
    exact absurd (List.find?_eq_none.1 hf c hc) (by simp)
  | some c =>
    have h1 := List.mem_of_find?_eq_some hf
    have h2 : c.1 = sym := by simpa using List.find?_some hf
    subst h2
    exact ((h c.1 c.2).1 h1).2

theorem codeFor_mem {cs : List (Byte × List Bool)} {sym : Byte} (hs : sym ∈ cs.map Prod.fst) :
    (sym, codeFor cs sym) ∈ cs := by
  unfold Machine.codeFor
  cases hf : cs.find? fun c => c.1 == sym with
  | none =>
    obtain ⟨c, hc, rfl⟩ := List.mem_map.1 hs
    exact absurd (List.find?_eq_none.1 hf c hc) (by simp)
  | some c =>
    have h1 := List.mem_of_find?_eq_some hf
    have h2 : c.1 = sym := by simpa using List.find?_some hf
    subst h2
    exact h1

/-- What the second half of ENC_COMPRESS does: the header's and the tree's bytes, META, the payload's bytes, PAYLOAD. -/
def writeArchive (front payload : List Byte) : Proc Unit := do
  addBits (front.flatMap byteBits)
  Proc.change State.closeMetaWritten
  addBits (payload.flatMap byteBits)
  Proc.change State.closePayloadWritten

/-- The state of ENC_COMPRESS when its table of codes is made and nothing has been written. -/
structure ReadyToWrite (s u : State) (sh : Shape) : Prop where
  frame : u = { s with
    treeValid := true, codesValid := true, root := u.root, nodeCount := u.nodeCount, nodes := u.nodes
    freq := countsOf (s.ibufBytes 0 s.srcLen.toNat), codeLen := u.codeLen, codeBits := u.codeBits
    orig := s.srcLen, metaSize := 0, payload := 0, bw := .zero }
  tree : u.HoldsTree sh
  codes : u.CodesAre sh.codes
  codeTail : u.CodeTailZero
  count : u.nodeCount.toNat = sh.size
  root : u.root.toNat = u.nodeCount.toNat - 1
  others : ∀ i : NodeIdx, u.nodeCount.toNat ≤ i.toNat → u.node i = s.node i
  built : ∃ s1 s2 : State, s1.freq = countsOf (s.ibufBytes 0 s.srcLen.toNat) ∧ s1.node = s.node ∧
    buildTree s1 = .ok () s2 ∧ u.node = s2.node ∧ u.root = s2.root ∧ u.nodeCount = s2.nodeCount

/-- ENC_COMPRESS of a legal input makes a Huffman tree and its codes and then writes the archive's bytes. -/
theorem compress_eq {s : State} (h : s.srcLen.toNat ≤ s.ibufSize) :
    ∃ sh u, huffmanTree (countsOf (s.ibufBytes 0 s.srcLen.toNat)) = some sh ∧ ReadyToWrite s u sh ∧
      compress s = writeArchive (headerBytes s.params.headerOrder s.srcLen ++ packBits sh.treeBits)
        (packBits ((s.ibufBytes 0 s.srcLen.toNat).flatMap (codeFor sh.codes))) u := by
  obtain ⟨xs, hxs⟩ : ∃ xs, s.ibufBytes 0 s.srcLen.toNat = xs := ⟨_, rfl⟩
  have hlen : xs.length < 2 ^ 64 := by rw [← hxs, State.length_ibufBytes]; exact s.srcLen.isLt
  obtain ⟨sh, hsh⟩ := huffmanTree_countsOf hlen
  obtain ⟨hperm, hok, -, -⟩ := huffmanTree_codes hsh
  obtain ⟨s1, hs1⟩ : ∃ s1 : State, s1 = { s with
    bw := .zero, orig := s.srcLen, metaSize := 0, payload := 0, freq := countsOf xs } := ⟨_, rfl⟩
  have hcheck : checkSrc s = .ok () s := by
    unfold checkSrc
    rw [if_neg (by omega)]
  have hcount : (s.initWriter.startCompress).countFreq = s1 := by
    show { s.initWriter.startCompress with freq := s.initWriter.startCompress.countBytes s.srcLen.toNat } = s1
    rw [State.countBytes_eq, show s.initWriter.startCompress.ibufBytes 0 s.srcLen.toNat = xs from hxs, hs1]
    rfl
  have hb := buildTree_eq s1
  rw [show s1.freq = countsOf xs by rw [hs1], hsh] at hb
  obtain ⟨s2, hb2, htree, hsize, hbuilt, hf2⟩ := hb
  obtain ⟨u, hu, hca, hct, hfu⟩ := genCodes_ok htree hok
  have hfu' : u = { s with
      treeValid := true, codesValid := true, root := u.root, nodeCount := u.nodeCount, nodes := u.nodes
      freq := countsOf xs, codeLen := u.codeLen, codeBits := u.codeBits
      orig := s.srcLen, metaSize := 0, payload := 0, bw := .zero } := by
    have e1 : u.root = s2.root := by rw [hfu]
    have e2 : u.nodeCount = s2.nodeCount := by rw [hfu]
    have e3 : u.nodes = s2.nodes := by rw [hfu]
    rw [e1, e2, e3]
    refine hfu.trans ?_
    conv_lhs => rw [hf2, hs1]
  have hnode : u.node = s2.node := by rw [hfu]; rfl
  have hht : u.HoldsTree sh := htree.congr (by rw [hfu]) (by rw [hfu]) fun i _ => by rw [hnode]
  rw [hxs]
  refine ⟨sh, u, hsh, ⟨by rw [hxs]; exact hfu', hht, hca, hct, by rw [hfu]; exact hsize.symm, by
    rw [hfu]; exact hbuilt.root, fun i hi => ?_, ?_⟩, ?_⟩
  · rw [hnode, hbuilt.outside i (by rw [hfu] at hi; exact hi), hs1]
    rfl
  · exact ⟨s1, s2, by rw [hs1, hxs], by rw [hs1]; rfl, hb2, hnode, by rw [hfu], by rw [hfu]⟩
  · have hsyms : ∀ x ∈ xs, x ∈ sh.codes.map Prod.fst := by
      intro x hx
      rw [hperm.mem_iff, mem_presentSymbols, freqOf_countsOf]
      have h1 := List.count_pos_iff.2 hx
      have h2 := List.count_le_length (a := x) (l := xs)
      intro h0
      have := congrArg BitVec.toNat h0
      simp only [BitVec.toNat_ofNat] at this
      rw [Nat.mod_eq_of_lt (by omega)] at this
      simp at this
      omega
    have hfront : ∀ v : State, v.params = s.params → v.HoldsTree sh → v.bw.pos = 0 →
        (writeHeader s.srcLen >>= fun _ => serializeTree >>= fun _ => pad) v =
          addBits ((headerBytes s.params.headerOrder s.srcLen ++ packBits sh.treeBits).flatMap byteBits) v := by
      intro v hvp hvt hpos
      rw [← addBits_pad _ _ hpos, Proc.bind_apply, Proc.bind_apply (addBits _), addBits_append, Proc.bind_apply,
        writeHeader_eq, hvp]
      have hk := addBits_keeps (P := fun w => w.node = v.node ∧ w.root = v.root ∧ w.nodeCount = v.nodeCount)
        (fun w bw obuf hw => hw) ((headerBytes s.params.headerOrder s.srcLen).flatMap byteBits)
      cases hr : addBits ((headerBytes s.params.headerOrder s.srcLen).flatMap byteBits) v with
      | error e w => rfl
      | ok x w =>
        obtain ⟨k1, k2, k3⟩ := hk.of_ok ⟨rfl, rfl, rfl⟩ hr
        have hwt : w.HoldsTree sh := hvt.congr k2 k3 fun i _ => by rw [k1]
        show (serializeTree >>= fun _ => pad) w = _
        rw [Proc.bind_apply, serializeTree_eq hwt]
    have hloop : ∀ v : State, v.codesValid = true → v.codeLenOf = u.codeLenOf → v.codeBitsList = u.codeBitsList →
        v.ibufBytes = s.ibufBytes → v.bw.pos = 0 →
        (encodeLoop s.srcLen.toNat 0 >>= fun _ => pad) v =
          addBits ((packBits (xs.flatMap (codeFor sh.codes))).flatMap byteBits) v := by
      intro v h1 h2 h3 h4 hpos
      have hc : ∀ x ∈ xs, v.codeBitsList x = codeFor sh.codes x := fun x hx => by
        rw [h3]; exact hca.codeFor (hsyms x hx)
      have hl : encodeLoop s.srcLen.toNat 0 v = addBits (xs.flatMap (codeFor sh.codes)) v := by
        rw [encodeLoop_eq _ _ h1 (by
          rw [h4, hxs]
          intro x hx
          rw [h2]
          exact hca.codeLen_ne_zero (hsyms x hx)), h4, hxs, List.flatMap_congr hc]
      have := addBits_pad [] (xs.flatMap (codeFor sh.codes)) hpos
      rw [List.nil_append, List.flatMap_nil, List.nil_append] at this
      rw [← this, Proc.bind_apply, Proc.bind_apply, hl]
    -- the program's own order
    have hexp : compress s = (writeHeader s.srcLen >>= fun _ => serializeTree >>= fun _ => pad >>= fun _ =>
        Proc.change State.closeMetaWritten >>= fun _ => encodeLoop s.srcLen.toNat 0 >>= fun _ => pad >>= fun _ =>
        Proc.change State.closePayloadWritten) u := by
      have hsrc : u.srcLen = s.srcLen := by rw [hfu']
      unfold compress
      rw [Proc.bind_ok hcheck]
      show (buildTree >>= _) ((s.initWriter.startCompress).countFreq) = _
      rw [hcount, Proc.bind_ok hb2, Proc.bind_ok hu]
      show (writeHeader u.srcLen >>= fun _ => serializeTree >>= fun _ => pad >>= fun _ =>
        Proc.change State.closeMetaWritten >>= fun _ => encodeLoop u.srcLen.toNat 0 >>= fun _ => pad >>= fun _ =>
        Proc.change State.closePayloadWritten) u = _
      rw [hsrc]
    have hbw : u.bw = .zero := by rw [hfu']
    have hupar : u.params = s.params := by rw [hfu']
    rw [hexp]
    have hA := hfront u hupar hht (by rw [hbw]; rfl)
    unfold writeArchive
    rw [Proc.bind_apply (addBits _), ← hA]
    simp only [Proc.bind_apply]
    cases hw1 : writeHeader s.srcLen u with
    | error e w => rfl
    | ok x w =>
      dsimp only
      cases hw2 : serializeTree w with
      | error e w2 => rfl
      | ok x2 w2 =>
        dsimp only
        cases hw3 : pad w2 with
        | error e w3 => rfl
        | ok x3 w3 =>
          have hall : addBits ((headerBytes s.params.headerOrder s.srcLen ++ packBits sh.treeBits).flatMap byteBits) u =
              .ok x3 w3 := by
            rw [← hA, Proc.bind_ok hw1, Proc.bind_ok hw2, hw3]
          have hfr := addBits_frame ((headerBytes s.params.headerOrder s.srcLen ++ packBits sh.treeBits).flatMap byteBits) u
          rw [hall] at hfr
          have hfr : w3 = { u with bw := w3.bw, obuf := w3.obuf } := hfr
          have hp3 := addBits_pos hall
          have hpos3 : w3.bw.pos = 0 := by
            rw [hp3, hbw, length_flatMap_byteBits]
            apply BitVec.eq_of_toNat_eq
            show ((0 : BitVec 3) + _).toNat = _
            simp only [BitVec.toNat_add, BitVec.ofNat_eq_ofNat, BitVec.toNat_ofNat]
            omega
          have hC := hloop w3.closeMetaWritten (by rw [hfr, hfu']; rfl) (by rw [hfr]; rfl) (by rw [hfr]; rfl)
            (by rw [hfr, hfu']; rfl) hpos3
          dsimp only
          rw [Proc.change_apply]
          dsimp only
          rw [← hC, Proc.bind_apply]
          cases encodeLoop s.srcLen.toNat 0 w3.closeMetaWritten with
          | error e w4 => rfl
          | ok x4 w4 => rfl

/-- With room for all its bytes, the writing succeeds. -/
theorem writeArchive_ok {front payload : List Byte} {u : State} (hb : u.bw = .zero)
    (hr : front.length + payload.length ≤ u.obufSize) :
    ∃ t, writeArchive front payload u = .ok () t ∧
      t.bw = ⟨0, 0, BitVec.ofNat 64 (front.length + payload.length), BitVec.ofNat 64 (8 * payload.length),
        BitVec.ofNat 64 payload.length⟩ ∧
      (∀ j (h : j < (front ++ payload).length), t.obufByte j = (front ++ payload)[j]) ∧
      (∀ a, front.length + payload.length ≤ a → t.obufByte a = u.obufByte a) ∧
      t = { u with
        bw := t.bw, obuf := t.obuf, metaSize := BitVec.ofNat 64 front.length
        payload := BitVec.ofNat 64 payload.length } := by
  have hobs : u.obufSize < 2 ^ 32 := u.params.obufSize.isLt
  have hw0 : u.bw.wrptr.toNat = 0 := by rw [hb]; rfl
  obtain ⟨t1, h1, hbw1, hin1, hout1, hf1⟩ := addBytes_ok front (s := u) (by rw [hb]; rfl) (by rw [hb]; rfl)
    (by rw [hw0]; omega)
  have hbw1' : t1.bw = ⟨0, 0, BitVec.ofNat 64 front.length, BitVec.ofNat 64 (8 * front.length),
      BitVec.ofNat 64 front.length⟩ := by
    rw [hbw1, hb]
    simp [BitWriter.zero]
  have hw1 : t1.closeMetaWritten.bw.wrptr.toNat = front.length := by
    show t1.bw.wrptr.toNat = _
    rw [hbw1', BitVec.toNat_ofNat, Nat.mod_eq_of_lt (by omega)]
  have hos : t1.closeMetaWritten.obufSize = u.obufSize := by
    show t1.obufSize = _
    rw [hf1]; rfl
  obtain ⟨t2, h2, hbw2, hin2, hout2, hf2⟩ := addBytes_ok payload (s := t1.closeMetaWritten) (by
    show t1.bw.pos = 0; rw [hbw1']) (by show t1.bw.cur = 0; rw [hbw1']) (by rw [hw1, hos]; exact hr)
  rw [hw1] at hin2 hout2
  rw [hw0] at hin1 hout1
  have hbw2' : t2.bw = ⟨0, 0, BitVec.ofNat 64 (front.length + payload.length), BitVec.ofNat 64 (8 * payload.length),
      BitVec.ofNat 64 payload.length⟩ := by
    rw [hbw2]
    show BitWriter.mk 0 0 (t1.bw.wrptr + _) (0 + _) (0 + _) = _
    rw [hbw1', BitVec.ofNat_add]
    simp
  have hob : ∀ a, t1.closeMetaWritten.obufByte a = t1.obufByte a := fun a => rfl
  refine ⟨t2.closePayloadWritten, ?_, hbw2', fun j hj => ?_, fun a ha => ?_, ?_⟩
  · unfold writeArchive
    rw [Proc.bind_ok h1, Proc.change_bind, Proc.bind_ok h2]
    rfl
  · show t2.obufByte j = _
    by_cases hlt : j < front.length
    · rw [hout2 _ (.inl hlt), hob, List.getElem_append_left hlt]
      have := hin1 j hlt
      rwa [Nat.zero_add] at this
    · rw [List.getElem_append_right (by omega), ← hin2 (j - front.length) (by rw [List.length_append] at hj; omega)]
      congr 1
      omega
  · show t2.obufByte a = _
    rw [hout2 _ (.inr ha), hob, hout1 _ (.inr (by omega))]
  · have e1 : t2.bw.bytes = BitVec.ofNat 64 payload.length := by rw [hbw2']
    have e2 : t1.bw.bytes = BitVec.ofNat 64 front.length := by rw [hbw1']
    show { t2 with payload := t2.bw.bytes } = { u with
      bw := t2.bw, obuf := t2.obuf, metaSize := BitVec.ofNat 64 front.length, payload := BitVec.ofNat 64 payload.length }
    rw [e1, ← e2]
    conv_lhs => rw [hf2]
    show { ({ t1 with metaSize := t1.bw.bytes } : State) with
      bw := t2.bw, obuf := t2.obuf, payload := BitVec.ofNat 64 payload.length } = _
    conv_lhs => rw [hf1]

/-- Without, it stops with RES_OUT_OVERFLOW when OBUF is full of the first bytes; META and the counters stand at
`boundary`, the end of the front once that is all flushed. -/
theorem writeArchive_overflow {front payload : List Byte} {u : State} (hb : u.bw = .zero) (hm : u.metaSize = 0)
    (hr : u.obufSize < (front ++ payload).length) {boundary : Nat}
    (hbd : boundary = if u.obufSize < front.length then 0 else front.length) :
    ∃ t, writeArchive front payload u = .error (.raised .resOutOverflow) t ∧
      (∀ j (h : j < (front ++ payload).length), j < u.obufSize → t.obufByte j = (front ++ payload)[j]) ∧
      (∀ a, u.obufSize ≤ a → t.obufByte a = u.obufByte a) ∧
      t = { u with
        bw := ⟨(front ++ payload)[u.obufSize] &&& 0xFE, 7, BitVec.ofNat 64 u.obufSize,
          BitVec.ofNat 64 (8 * (u.obufSize - boundary) + 7), BitVec.ofNat 64 (u.obufSize - boundary)⟩
        obuf := t.obuf, metaSize := BitVec.ofNat 64 boundary } := by
  have hobs : u.obufSize < 2 ^ 32 := u.params.obufSize.isLt
  have hw0 : u.bw.wrptr.toNat = 0 := by rw [hb]; rfl
  have hlen := hr
  rw [List.length_append] at hlen
  by_cases hfit : front.length ≤ u.obufSize
  · rw [if_neg (by omega)] at hbd
    subst hbd
    obtain ⟨t1, h1, hbw1, hin1, hout1, hf1⟩ := addBytes_ok front (s := u) (by rw [hb]; rfl) (by rw [hb]; rfl)
      (by rw [hw0]; omega)
    have hbw1' : t1.bw = ⟨0, 0, BitVec.ofNat 64 front.length, BitVec.ofNat 64 (8 * front.length),
        BitVec.ofNat 64 front.length⟩ := by
      rw [hbw1, hb]
      simp [BitWriter.zero]
    have hw1 : t1.closeMetaWritten.bw.wrptr.toNat = front.length := by
      show t1.bw.wrptr.toNat = _
      rw [hbw1', BitVec.toNat_ofNat, Nat.mod_eq_of_lt (by omega)]
    have hos : t1.closeMetaWritten.obufSize = u.obufSize := by
      show t1.obufSize = _
      rw [hf1]; rfl
    obtain ⟨t2, h2, hbw2, hin2, hout2, hf2⟩ := addBytes_overflow payload (s := t1.closeMetaWritten) (by
      show t1.bw.pos = 0; rw [hbw1']) (by show t1.bw.cur = 0; rw [hbw1'])
      (k := u.obufSize - front.length) (by rw [hw1, hos]; omega) (by omega)
    rw [hw1] at hin2
    rw [hw1, hos] at hout2
    rw [hw0] at hin1 hout1
    rw [hos] at hin2
    have hob : ∀ a, t1.closeMetaWritten.obufByte a = t1.obufByte a := fun a => rfl
    have hbw2' : t2.bw = ⟨(front ++ payload)[u.obufSize] &&& 0xFE, 7, BitVec.ofNat 64 u.obufSize,
        BitVec.ofNat 64 (8 * (u.obufSize - front.length) + 7), BitVec.ofNat 64 (u.obufSize - front.length)⟩ := by
      rw [hbw2, List.getElem_append_right hfit]
      show BitWriter.mk _ 7 (t1.bw.wrptr + _) (0 + _) (0 + _) = _
      rw [hbw1', ← BitVec.ofNat_add, show front.length + (u.obufSize - front.length) = u.obufSize by omega]
      simp
    refine ⟨t2, ?_, fun j hj hju => ?_, fun a ha => ?_, ?_⟩
    · unfold writeArchive
      rw [Proc.bind_ok h1, Proc.change_bind, Proc.bind_error h2]
    · by_cases hlt : j < front.length
      · rw [hout2 _ (.inl hlt), hob, List.getElem_append_left hlt]
        have := hin1 j hlt
        rwa [Nat.zero_add] at this
      · rw [List.getElem_append_right (by omega), ← hin2 (j - front.length) (by rw [List.length_append] at hj; omega)
          (by omega)]
        congr 1
        omega
    · rw [hout2 _ (.inr ha), hob, hout1 _ (.inr (by omega))]
    · have e : t2.metaSize = BitVec.ofNat 64 front.length := by
        rw [hf2]
        show t1.bw.bytes = _
        rw [hbw1']
      rw [← hbw2', ← e]
      conv_lhs => rw [hf2]
      rw [e, ← show t1.bw.bytes = BitVec.ofNat 64 front.length by rw [hbw1']]
      show { ({ t1 with metaSize := t1.bw.bytes } : State) with bw := t2.bw, obuf := t2.obuf } = _
      conv_lhs => rw [hf1]
  · rw [if_pos (by omega)] at hbd
    subst hbd
    obtain ⟨t, h1, hbw, hin, hout, hf⟩ := addBytes_overflow front (s := u) (by rw [hb]; rfl) (by rw [hb]; rfl)
      (k := u.obufSize) (by rw [hw0]; omega) (by omega)
    rw [hw0] at hin hout
    have hbw' : t.bw = ⟨(front ++ payload)[u.obufSize] &&& 0xFE, 7, BitVec.ofNat 64 u.obufSize,
        BitVec.ofNat 64 (8 * (u.obufSize - 0) + 7), BitVec.ofNat 64 (u.obufSize - 0)⟩ := by
      rw [hbw, hb, List.getElem_append_left (by omega)]
      simp [BitWriter.zero]
    refine ⟨t, ?_, fun j hj hju => ?_, fun a ha => hout _ (.inr ha), ?_⟩
    · unfold writeArchive
      rw [Proc.bind_error h1]
    · rw [List.getElem_append_left (by omega)]
      have := hin j (by omega) (by omega)
      rwa [Nat.zero_add] at this
    · rw [← hbw']
      conv_lhs => rw [hf, show u = { u with metaSize := u.metaSize } from rfl, hm]
      rfl

end Sys2Proof.Machine
end

