-- ==== Sys2Proof/Laws/Decoder.lean ====
section
/-! SUPPORT. What the decoder's procedures do (spec/45_huffman_decoder.md R290, R297, R300): ReadHeader reads the bytes
of `headerBytes`, DecodeSymbol walks the tree down the unread bits, and the payload loop writes one symbol per code. -/

namespace Sys2Proof.Machine

/-! ### ReadHeader -/

/-- The header value from byte number `j` on. -/
def foldHeader (o : HeaderOrder) : Nat → DWord → List Byte → DWord
  | _, v, [] => v
  | j, v, b :: bs => foldHeader o (j + 1) (putHeaderByte o v j b) bs

/-- Which byte of the 64-bit value the header byte number `j` is. -/
def headerPlace : HeaderOrder → Nat → Nat
  | .le, j => j
  | .be, j => 7 - j

theorem headerBytes_eq (o : HeaderOrder) (v : DWord) :
    headerBytes o v = (List.range 8).map fun j => dwordByte v (headerPlace o j) := by
  cases o <;> rfl

theorem dwordByte_or (v : DWord) (b : Byte) {k l : Nat} (hk : k < 8) (hl : l < 8) :
    dwordByte (v ||| (b.zeroExtend 64 <<< (8 * l))) k = if k = l then dwordByte v k ||| b else dwordByte v k := by
  unfold dwordByte
  ext i hi
  simp only [BitVec.getElem_extractLsb', BitVec.getLsbD_or, BitVec.getLsbD_shiftLeft, BitVec.getLsbD_setWidth]
  have h1 : decide (8 * k + i < 64) = true := decide_eq_true (by omega)
  have h2 : decide (8 * k + i - 8 * l < 64) = true := decide_eq_true (by omega)
  rw [h1, h2, Bool.true_and, Bool.true_and]
  split_ifs with h
  · subst h
    rw [show decide (8 * k + i < 8 * k) = false from decide_eq_false (by omega), Nat.add_sub_cancel_left,
      BitVec.getElem_or, BitVec.getElem_extractLsb', ← BitVec.getLsbD_eq_getElem hi]
    rfl
  · rw [BitVec.getElem_extractLsb']
    by_cases hlt : k < l
    · rw [decide_eq_true (show 8 * k + i < 8 * l by omega)]
      simp
    · rw [BitVec.getLsbD_of_ge b _ (show 8 ≤ 8 * k + i - 8 * l by omega)]
      simp

theorem dwordByte_putHeaderByte (o : HeaderOrder) (v : DWord) (b : Byte) {j k : Nat} (hj : j < 8) (hk : k < 8) :
    dwordByte (putHeaderByte o v j b) (headerPlace o k) =
      if k = j then dwordByte v (headerPlace o k) ||| b else dwordByte v (headerPlace o k) := by
  have hs : headerShift o j = 8 * headerPlace o j := by
    cases o with
    | le => rfl
    | be => dsimp only [headerShift, headerPlace]; omega
  have hp : ∀ i < 8, headerPlace o i < 8 := fun i hi => by cases o <;> dsimp only [headerPlace] <;> omega
  have he : headerPlace o k = headerPlace o j ↔ k = j := by cases o <;> dsimp only [headerPlace] <;> omega
  unfold putHeaderByte
  rw [hs, dwordByte_or v b (hp k hk) (hp j hj)]
  simp only [he]

theorem dwordByte_foldHeader (o : HeaderOrder) (bs : List Byte) (j : Nat) (v : DWord) (h : j + bs.length ≤ 8)
    {k : Nat} (hk : k < 8) :
    dwordByte (foldHeader o j v bs) (headerPlace o k) =
      if j ≤ k then dwordByte v (headerPlace o k) ||| (bs[k - j]?).getD 0 else dwordByte v (headerPlace o k) := by
  induction bs generalizing j v with
  | nil => simp [foldHeader]
  | cons b bs ih =>
    rw [List.length_cons] at h
    rw [foldHeader, ih (j + 1) _ (by omega), dwordByte_putHeaderByte o v b (by omega) hk]
    by_cases h1 : k = j
    · subst h1
      rw [if_neg (by omega), if_pos rfl, if_pos (Nat.le_refl k), Nat.sub_self]
      rfl
    · rw [if_neg h1]
      by_cases h2 : j ≤ k
      · rw [if_pos (by omega), if_pos h2, show k - j = (k - (j + 1)) + 1 by omega, List.getElem?_cons_succ]
      · rw [if_neg (by omega), if_neg h2]

/-- The header value holds the bytes read, in the order of `headerBytes` (45_huffman_decoder.md R290). -/
theorem headerBytes_foldHeader (o : HeaderOrder) {bs : List Byte} (h : bs.length = 8) :
    headerBytes o (foldHeader o 0 0 bs) = bs := by
  rw [headerBytes_eq]
  apply List.ext_getElem (by simp [h])
  intro k h1 h2
  rw [List.getElem_map, List.getElem_range, dwordByte_foldHeader o bs 0 0 (by omega) (by omega), if_pos (Nat.zero_le k),
    Nat.sub_zero, List.getElem?_eq_getElem h2]
  simp [dwordByte]

/-- A 64-bit value is its eight header bytes (30_encoding.md R131). -/
theorem headerBytes_injective {o : HeaderOrder} {v w : DWord} (h : headerBytes o v = headerBytes o w) : v = w := by
  have hk : ∀ k < 8, dwordByte v k = dwordByte w k := by
    intro k hk
    cases o <;>
    · simp only [headerBytes, List.cons.injEq, and_true] at h
      interval_cases k <;> tauto
  apply BitVec.eq_of_getLsbD_eq
  intro i hi
  have := congrArg (fun x : Byte => x.getLsbD (i % 8)) (hk (i / 8) (by omega))
  simpa only [dwordByte, BitVec.getLsbD_extractLsb', decide_eq_true (show i % 8 < 8 by omega), Bool.true_and,
    show 8 * (i / 8) + i % 8 = i by omega] using this

theorem headerLoop_ok (o : HeaderOrder) (n j : Nat) (v : DWord) {s : State} (h : 8 * n ≤ s.unread.length) :
    ∃ bs t, headerLoop o n j v s = .ok (foldHeader o j v bs) t ∧ bs.length = n ∧
      bs.flatMap byteBits = s.unread.take (8 * n) ∧ s.Advanced t (8 * n) ∧ t = { s with br := t.br } := by
  induction n generalizing j v s with
  | zero => exact ⟨[], s, rfl, rfl, by simp, .refl s, rfl⟩
  | succ n ih =>
    obtain ⟨b, t, ht, hb, ha, hf⟩ := readChar_ok (s := s) (by omega)
    obtain ⟨bs, u, hu, hl, hbs, hau, hfu⟩ := ih (j + 1) (putHeaderByte o v j b) (s := t) (by
      rw [ha.rest, List.length_drop]; omega)
    refine ⟨b :: bs, u, ?_, by simpa using hl, ?_, ?_, by rw [hfu, hf]⟩
    · show (readChar >>= fun b => headerLoop o n (j + 1) (putHeaderByte o v j b)) s = _
      rw [Proc.bind_ok ht, hu]
      rfl
    · rw [List.flatMap_cons, hb, hbs, ha.rest, show 8 * (n + 1) = 8 + 8 * n by omega, List.take_add]
    · rw [show 8 * (n + 1) = 8 + 8 * n by omega]
      exact ha.trans hau

theorem headerLoop_short (o : HeaderOrder) (n j : Nat) (v : DWord) {s : State} (h : s.unread.length < 8 * n) :
    ∃ t, headerLoop o n j v s = .error (.raised .fmtTruncated) t ∧ s.Advanced t s.unread.length ∧
      t = { s with br := t.br } := by
  induction n generalizing j v s with
  | zero => omega
  | succ n ih =>
    show ∃ t, (readChar >>= fun b => headerLoop o n (j + 1) (putHeaderByte o v j b)) s = _ ∧ _
    by_cases h8 : s.unread.length < 8
    · obtain ⟨t, ht, ha, hf⟩ := readChar_short h8
      exact ⟨t, Proc.bind_error ht, ha, hf⟩
    · obtain ⟨b, t, ht, hb, ha, hf⟩ := readChar_ok (s := s) (by omega)
      obtain ⟨u, hu, hau, hfu⟩ := ih (j + 1) (putHeaderByte o v j b) (s := t) (by
        rw [ha.rest, List.length_drop]; omega)
      refine ⟨u, by rw [Proc.bind_ok ht, hu], ?_, by rw [hfu, hf]⟩
      have := ha.trans hau
      rwa [ha.rest, List.length_drop, Nat.add_sub_cancel' (by omega)] at this

/-- ReadHeader with 64 unread bits (45_huffman_decoder.md R290). -/
theorem readHeader_ok {s : State} (h : 64 ≤ s.unread.length) :
    ∃ v t, readHeader s = .ok v t ∧ (headerBytes s.params.headerOrder v).flatMap byteBits = s.unread.take 64 ∧
      s.Advanced t 64 ∧ t = { s with br := t.br } := by
  obtain ⟨bs, t, ht, hl, hbs, ha, hf⟩ := headerLoop_ok s.params.headerOrder 8 0 0 h
  refine ⟨_, t, ht, ?_, ha, hf⟩
  rw [headerBytes_foldHeader _ hl]
  exact hbs

theorem readHeader_short {s : State} (h : s.unread.length < 64) :
    ∃ t, readHeader s = .error (.raised .fmtTruncated) t ∧ s.Advanced t s.unread.length ∧ t = { s with br := t.br } :=
  headerLoop_short s.params.headerOrder 8 0 0 h

/-! ### DecodeSymbol -/

theorem State.unread_lt_decodeFuel (s : State) : s.unread.length < s.decodeFuel := by
  rw [State.length_unread]
  unfold State.decodeFuel State.curLeft
  split_ifs <;> omega

/-- DecodeSymbol over a tree that is not childless, said once (45_huffman_decoder.md R297). -/
theorem decodeSymbol_eq {s : State} {sh : Shape} (h : s.HoldsTree sh) (hc : sh.isChildless = false) :
    ∃ u, u = { s with br := u.br } ∧
      match sh.walkDown s.unread 0 with
      | .symbol sym used => decodeSymbol s = .ok sym u ∧ s.Advanced u used
      | .absentChild used => decodeSymbol s = .error (.raised .fmtAbsentChild) u ∧ s.Advanced u used
      | .truncated used => decodeSymbol s = .error (.raised .fmtTruncated) u ∧ s.Advanced u used ∧
          used = s.unread.length := by
  obtain ⟨-, -, -, ns, hs, -, -⟩ := h
  have hnc : (s.node s.root).isChildless = false := hs.isChildless.trans hc
  have e : decodeSymbol s = decodeLoop s.decodeFuel s.root s := by
    show (if (s.node s.root).isChildless then Proc.raise .fmtEmptyTree else
      Proc.look State.decodeFuel >>= fun fuel => decodeLoop fuel s.root) s = _
    rw [if_neg (by rw [hnc]; simp)]
    rfl
  obtain ⟨u, hu, hm⟩ := decodeLoop_eq hs s.decodeFuel 0 s (.inr s.unread_lt_decodeFuel) rfl
  refine ⟨u, hu, ?_⟩
  rw [e]
  revert hm
  cases sh.walkDown s.unread 0 with
  | symbol sym used => exact fun hm => ⟨hm.2.1, hm.2.2⟩
  | absentChild used => exact fun hm => ⟨hm.2.1, hm.2.2⟩
  | truncated used => exact fun hm => ⟨hm.2.1, hm.2.2.1, hm.2.2.2⟩

/-- DecodeSymbol under a childless root reads nothing (60_exceptions.md R336). -/
theorem decodeSymbol_empty {s : State} {sh : Shape} (h : s.HoldsTree sh) (hc : sh.isChildless = true) :
    decodeSymbol s = .error (.raised .fmtEmptyTree) s := by
  obtain ⟨-, -, -, ns, hs, -, -⟩ := h
  show (if (s.node s.root).isChildless then Proc.raise .fmtEmptyTree else
    Proc.look State.decodeFuel >>= fun fuel => decodeLoop fuel s.root) s = _
  rw [if_pos (hs.isChildless.trans hc)]
  rfl

/-! ### The payload loop -/

/-- What is written does not change what is read. -/
theorem State.Advanced.of_writer {s t u : State} {n : Nat} (h : s.Advanced t n)
    (hf : u = { t with bw := u.bw, obuf := u.obuf }) : s.Advanced u n := by
  obtain ⟨h1, h2, h3, h4, h5, h6⟩ := h
  rw [hf]
  exact ⟨h1, h2, h3, h4, h5, h6⟩

/-- DecodeSymbol over the code of a symbol (45_huffman_decoder.md R299). -/
theorem decodeSymbol_code {s : State} {sh : Shape} {sym : Byte} {p rest : List Bool} (h : s.HoldsTree sh)
    (hm : (sym, p) ∈ sh.codes) (hu : s.unread = p ++ rest) :
    ∃ u, decodeSymbol s = .ok sym u ∧ s.Advanced u p.length ∧ u = { s with br := u.br } := by
  obtain ⟨u, hf, hw⟩ := decodeSymbol_eq h (Shape.mem_codes hm).1
  rw [hu, Shape.walkDown_of_mem_codes hm, Nat.zero_add] at hw
  exact ⟨u, hw.1, hw.2, hf⟩

/-- One byte from a byte boundary, with room (40_bit_writer.md R151). -/
theorem writeChar_ok (v : Byte) {s : State} (hp : s.bw.pos = 0) (hc : s.bw.cur = 0)
    (hr : s.bw.wrptr.toNat < s.obufSize) :
    ∃ t, writeChar v s = .ok () t ∧
      t.bw = ⟨0, 0, s.bw.wrptr + 1, s.bw.bits + 8, s.bw.bytes + 1⟩ ∧
      (∀ a, t.obufByte a = if a = s.bw.wrptr.toNat then v else s.obufByte a) ∧
      t = { s with bw := t.bw, obuf := t.obuf } := by
  obtain ⟨t, ht, hbw, hin, hout, hf⟩ := addBytes_ok [v] hp hc hr
  rw [List.flatMap_cons, List.flatMap_nil, List.append_nil] at ht
  refine ⟨t, ht, hbw, fun a => ?_, hf⟩
  split_ifs with h
  · have := hin 0 (by simp)
    rw [h]
    simpa using this
  · exact hout a (by simp only [List.length_singleton]; omega)

/-- One byte from a byte boundary, with OBUF full (60_exceptions.md R332). -/
theorem writeChar_full (v : Byte) {s : State} (hp : s.bw.pos = 0) (hc : s.bw.cur = 0)
    (hr : s.bw.wrptr.toNat = s.obufSize) :
    ∃ t, writeChar v s = .error (.raised .resOutOverflow) t ∧
      t.bw = ⟨v &&& 0xFE, 7, s.bw.wrptr, s.bw.bits + 7, s.bw.bytes⟩ ∧ (∀ a, t.obufByte a = s.obufByte a) ∧
      t = { s with bw := t.bw, obuf := t.obuf } := by
  obtain ⟨t, ht, hbw, -, hout, hf⟩ := addBytes_overflow [v] hp hc (k := 0) hr (by simp)
  rw [List.flatMap_cons, List.flatMap_nil, List.append_nil] at ht
  exact ⟨t, ht, by rw [hbw]; simp, fun a => hout a (by omega), hf⟩

/-- The codes of symbols, one after the other, decode to those symbols (45_huffman_decoder.md R299). -/
theorem Shape.Decodes.of_codes {sh : Shape} {xs : List Byte} (hx : ∀ x ∈ xs, ∃ p, (x, p) ∈ sh.codes)
    (junk : List Bool) :
    sh.Decodes (xs.flatMap (codeFor sh.codes) ++ junk) xs (xs.flatMap (codeFor sh.codes)).length := by
  induction xs with
  | nil => exact .nil _
  | cons x xs ih =>
    obtain ⟨p, hp⟩ := hx x (by simp)
    have hm := codeFor_mem (List.mem_map.2 ⟨_, hp, rfl⟩ : x ∈ sh.codes.map Prod.fst)
    rw [List.flatMap_cons, List.append_assoc, List.length_append]
    refine .cons (by rw [Shape.walkDown_of_mem_codes hm, Nat.zero_add]) ?_
    rw [List.drop_left]
    exact ih fun y hy => hx y (by simp [hy])

/-- The payload loop while the tree decodes `xs` and OBUF has room for them: it comes to the state `t` with that many
turns fewer to go (45_huffman_decoder.md R300). -/
theorem decompressLoop_decodes {sh : Shape} {bs : List Bool} {xs : List Byte} {n : Nat} (hd : sh.Decodes bs xs n) :
    ∀ {s : State}, s.HoldsTree sh → (xs ≠ [] → sh.isChildless = false) → s.unread = bs → s.bw.pos = 0 → s.bw.cur = 0 →
    s.bw.wrptr.toNat + xs.length ≤ s.obufSize →
    ∃ t, (∀ m, decompressLoop (xs.length + m) s = decompressLoop m t) ∧ s.Advanced t n ∧
      t.bw = ⟨0, 0, s.bw.wrptr + BitVec.ofNat 64 xs.length, s.bw.bits + BitVec.ofNat 64 (8 * xs.length),
        s.bw.bytes + BitVec.ofNat 64 xs.length⟩ ∧
      (∀ j (h : j < xs.length), t.obufByte (s.bw.wrptr.toNat + j) = xs[j]) ∧
      (∀ a, a < s.bw.wrptr.toNat ∨ s.bw.wrptr.toNat + xs.length ≤ a → t.obufByte a = s.obufByte a) ∧
      t = { s with br := t.br, bw := t.bw, obuf := t.obuf } := by
  induction hd with
  | nil bs =>
    intro s _ _ _ hp hc _
    refine ⟨s, fun m => by simp, .refl s, ?_, by simp, fun a _ => rfl, rfl⟩
    cases hb : s.bw with
    | mk c p w b y =>
      rw [hb] at hp hc
      dsimp only at hp hc
      subst hp hc
      simp
  | @cons bs x xs k n hw hd ih =>
    intro s h hne hu hp hc hr
    have hobs : s.obufSize < 2 ^ 32 := s.params.obufSize.isLt
    have hnc := hne (by simp)
    rw [List.length_cons] at hr
    obtain ⟨u, hfu, hdec⟩ := decodeSymbol_eq h hnc
    rw [hu, hw] at hdec
    obtain ⟨hdec, hau⟩ := hdec
    have hub : u.bw = s.bw := by rw [hfu]
    have huo : u.obufSize = s.obufSize := by rw [hfu]; rfl
    have hubyte : ∀ a, u.obufByte a = s.obufByte a := fun a => by rw [hfu]; rfl
    obtain ⟨t, hwr, htb, hto, hft⟩ := writeChar_ok x (s := u) (by rw [hub]; exact hp) (by rw [hub]; exact hc)
      (by rw [hub, huo]; omega)
    rw [hub] at htb hto
    have hat := hau.of_writer hft
    have htw : t.bw.wrptr.toNat = s.bw.wrptr.toNat + 1 := by
      rw [htb]
      simp only [BitVec.toNat_add, BitVec.ofNat_eq_ofNat, BitVec.toNat_ofNat]
      omega
    have htos : t.obufSize = s.obufSize := by rw [hft]; exact huo
    have htt : t.HoldsTree sh := h.congr (by rw [hft, hfu]) (by rw [hft, hfu]) fun i _ => by rw [hft, hfu]; rfl
    obtain ⟨v, hloop, hav, hvb, hvin, hvout, hfv⟩ := ih (s := t) htt (fun _ => hnc)
      (by rw [hat.rest, hu]) (by rw [htb]) (by rw [htb]) (by rw [htw, htos]; omega)
    rw [htw] at hvin hvout
    refine ⟨v, fun m => ?_, hat.trans hav, ?_, fun j hj => ?_, fun a ha => ?_, ?_⟩
    · rw [List.length_cons, show xs.length + 1 + m = (xs.length + m) + 1 by omega]
      show (decodeSymbol >>= fun sym => writeChar sym >>= fun _ => decompressLoop (xs.length + m)) s = _
      rw [Proc.bind_ok hdec, Proc.bind_ok hwr, hloop]
    · rw [hvb, htb, List.length_cons, Nat.mul_succ, BitVec.ofNat_add, BitVec.ofNat_add]
      simp only [BitVec.add_assoc]
      rw [BitVec.add_comm 1, BitVec.add_comm 8]
      rfl
    · cases j with
      | zero =>
        rw [Nat.add_zero, hvout _ (.inl (by omega)), hto, if_pos rfl]
        rfl
      | succ j =>
        have := hvin j (by simpa using hj)
        rw [show s.bw.wrptr.toNat + (j + 1) = s.bw.wrptr.toNat + 1 + j by omega, this]
        rfl
    · rw [List.length_cons] at ha
      rw [hvout _ (by omega), hto, if_neg (by omega), hubyte]
    · rw [hfv, hft, hfu]

end Sys2Proof.Machine
end

