-- ==== Sys2Proof/Laws/Deserialize.lean ====
section
/-! SUPPORT. What Fill and DeserializeTree do (spec/45_huffman_decoder.md R292 to R295): they read back the tree whose
serialization the stream begins with, allocating its nodes in preorder, or raise because the stream ends inside it or
because it has more than NODE_CAP nodes. -/

namespace Sys2Proof.Machine

/-! ### Serializations are self-delimiting -/

/-- No serialization is a proper prefix of another (30_encoding.md R132). -/
theorem Shape.slotBits_unique {l l' : Shape} {a b : List Bool} (h : l.slotBits ++ a = l'.slotBits ++ b) :
    l = l' ∧ a = b := by
  induction l generalizing l' a b with
  | absent =>
    cases l' with
    | absent => exact ⟨rfl, by simpa [slotBits] using h⟩
    | node s x y => simp [slotBits] at h
  | node s x y ihx ihy =>
    cases l' with
    | absent => simp [slotBits] at h
    | node s' x' y' =>
      simp only [slotBits, List.cons_append, List.cons.injEq, true_and, List.append_assoc] at h
      obtain ⟨h1, h2⟩ := List.append_inj h (by simp)
      obtain ⟨rfl, h3⟩ := ihx h2
      obtain ⟨rfl, h4⟩ := ihy h3
      exact ⟨by rw [byteBits_injective h1], h4⟩

/-! ### Counting open slots -/

/-- A whole child slot closes one slot and gives its nodes (30_encoding.md R132). -/
theorem treeEndFrom_slotBits (x : Shape) : ∀ (rest : List Bool) (slots nodes used : Nat), nodes + x.size ≤ 512 →
    treeEndFrom (x.slotBits ++ rest) (slots + 1) nodes used =
      treeEndFrom rest slots (nodes + x.size) (used + x.slotBits.length) := by
  induction x with
  | absent => intro rest slots nodes used _; rfl
  | node sym l r ihl ihr =>
    intro rest slots nodes used h
    simp only [Shape.size] at h
    have e : treeEndFrom ((Shape.node sym l r).slotBits ++ rest) (slots + 1) nodes used =
        treeEndFrom (l.slotBits ++ (r.slotBits ++ rest)) (slots + 2) (nodes + 1) (used + 9) := by
      simp only [Shape.slotBits, byteBits, List.cons_append, List.nil_append, List.append_assoc]
      exact if_neg (show ¬ 512 ≤ nodes by omega)
    rw [e, ihl _ _ _ _ (by omega), ihr _ _ _ _ (by omega)]
    simp only [Shape.slotBits, Shape.size, List.length_cons, List.length_append, length_byteBits]
    congr 1 <;> omega

/-- A node's presence bit and symbol byte, with the arena not full. -/
theorem treeEndFrom_node {nodes : Nat} (sym : Byte) (bs : List Bool) (slots used : Nat) (h : nodes < 512) :
    treeEndFrom (true :: (byteBits sym ++ bs)) (slots + 1) nodes used =
      treeEndFrom bs (slots + 2) (nodes + 1) (used + 9) :=
  if_neg (show ¬ 512 ≤ nodes by omega)

/-- A presence bit with less than a symbol byte behind it. -/
theorem treeEndFrom_short {bs : List Bool} (h : bs.length < 8) (slots nodes used : Nat) :
    treeEndFrom (true :: bs) (slots + 1) nodes used = .truncated nodes := by
  rcases bs with _ | ⟨_, _ | ⟨_, _ | ⟨_, _ | ⟨_, _ | ⟨_, _ | ⟨_, _ | ⟨_, _ | ⟨_, bs⟩⟩⟩⟩⟩⟩⟩⟩
  all_goals first | rfl | (simp only [List.length_cons] at h; omega)

/-- The bits of a whole tree of at most 512 nodes (45_huffman_decoder.md R293). -/
theorem treeEnd_treeBits {t : Shape} (h : t ≠ .absent) (hs : t.size ≤ 512) (rest : List Bool) :
    treeEnd (t.treeBits ++ rest) = .complete := by
  cases t with
  | absent => exact absurd rfl h
  | node sym l r =>
    simp only [Shape.size] at hs
    unfold treeEnd
    rw [Shape.treeBits, List.append_assoc, treeEndFrom_slotBits l _ 1 _ _ (by omega),
      treeEndFrom_slotBits r _ 0 _ _ (by omega)]
    cases rest with
    | nil => rfl
    | cons b bs => cases b <;> rfl

/-! ### One child slot -/

/-- What changes while a tree is read: the reader, the slots and NODE_COUNT. -/
abbrev ReadFrame (s t : State) : Prop := t = { s with br := t.br, nodes := t.nodes, nodeCount := t.nodeCount }

theorem State.Advanced.of_frame {s t u : State} {n : Nat} (h : s.Advanced t n)
    (hf : u = { t with nodes := u.nodes, nodeCount := u.nodeCount }) : s.Advanced u n := by
  obtain ⟨h1, h2, h3, h4, h5, h6⟩ := h
  rw [hf]
  exact ⟨h1, h2, h3, h4, h5, h6⟩

/-- What a child slot read from the stream leaves (45_huffman_decoder.md R292): `l` is what was read, `c` the index its
root got, `att` how it was attached to `i`. -/
structure SlotRead (s t : State) (i : NodeIdx) (att : NodeIdx → Node → Node) (l : Shape) (rest : List Bool) : Prop where
  bits : s.unread = l.slotBits ++ rest
  advanced : s.Advanced t l.slotBits.length
  count : t.nodeCount.toNat = s.nodeCount.toNat + l.size
  cap : t.nodeCount.toNat ≤ 512
  parent : t.node i = if l.isAbsent then s.node i else att (BitVec.ofNat 9 s.nodeCount.toNat) (s.node i)
  tree : Subtree t.node (!l.isAbsent) (BitVec.ofNat 9 s.nodeCount.toNat) l (indicesFrom s.nodeCount.toNat l.size)
  others : ∀ j : NodeIdx, j ≠ i → j.toNat < s.nodeCount.toNat ∨ t.nodeCount.toNat ≤ j.toNat → t.node j = s.node j
  plain : ∀ j : NodeIdx, s.nodeCount.toNat ≤ j.toNat → j.toNat < t.nodeCount.toNat → (t.node j).Plain
  frame : ReadFrame s t

/-- What Fill leaves at node `i` (45_huffman_decoder.md R292). -/
structure FillRead (s t : State) (i : NodeIdx) (l r : Shape) (rest : List Bool) : Prop where
  bits : s.unread = l.slotBits ++ (r.slotBits ++ rest)
  advanced : s.Advanced t (l.slotBits.length + r.slotBits.length)
  count : t.nodeCount.toNat = s.nodeCount.toNat + (l.size + r.size)
  cap : t.nodeCount.toNat ≤ 512
  tree : Subtree t.node true i (.node (s.node i).sym l r) (i :: indicesFrom s.nodeCount.toNat (l.size + r.size))
  others : ∀ j : NodeIdx, j ≠ i → j.toNat < s.nodeCount.toNat ∨ t.nodeCount.toNat ≤ j.toNat → t.node j = s.node j
  plain : ∀ j : NodeIdx, s.nodeCount.toNat ≤ j.toNat → j.toNat < t.nodeCount.toNat → (t.node j).Plain
  ownPlain : (t.node i).Plain
  frame : ReadFrame s t

/-- What a reading with `k` open slots of its own leaves that meets the end of the stream: it counts the nodes it has
allocated and touches no other slot. -/
structure ShortRead (s t : State) (k : Nat) : Prop where
  scan : ∀ slots used, treeEndFrom s.unread (slots + k) s.nodeCount.toNat used = .truncated t.nodeCount.toNat
  count : s.nodeCount.toNat ≤ t.nodeCount.toNat
  others : ∀ j : NodeIdx, t.nodeCount.toNat ≤ j.toNat → t.node j = s.node j

/-- What a reading with `k` open slots of its own leaves that finds the arena full (60_exceptions.md R333). -/
def FullRead (s t : State) (k : Nat) : Prop :=
  ∃ n, s.Advanced t n ∧ ∀ slots used, treeEndFrom s.unread (slots + k) s.nodeCount.toNat used = .full (used + n)

/-- Everything Fill can answer. -/
def FillOutcome (s : State) (i : NodeIdx) (r : EStateM.Result Abort State Unit) : Prop :=
  (∃ t x y rest, r = .ok () t ∧ FillRead s t i x y rest) ∨
  (∃ t, r = .error (.raised .fmtTruncated) t ∧ s.Advanced t s.unread.length ∧ ReadFrame s t ∧ ShortRead s t 2 ∧
    ∀ (x y : Shape) (rest : List Bool), s.unread ≠ x.slotBits ++ (y.slotBits ++ rest)) ∨
  (∃ t, r = .error (.raised .allocNodes) t ∧ ReadFrame s t ∧ FullRead s t 2 ∧
    ∀ (x y : Shape) (rest : List Bool), s.unread = x.slotBits ++ (y.slotBits ++ rest) →
      512 < s.nodeCount.toNat + (x.size + y.size))

/-- Everything the reading of one child slot can answer. -/
def SlotOutcome (s : State) (i : NodeIdx) (att : NodeIdx → Node → Node) (r : EStateM.Result Abort State Unit) : Prop :=
  (∃ t x rest, r = .ok () t ∧ SlotRead s t i att x rest) ∨
  (∃ t, r = .error (.raised .fmtTruncated) t ∧ s.Advanced t s.unread.length ∧ ReadFrame s t ∧ ShortRead s t 1 ∧
    ∀ (x : Shape) (rest : List Bool), s.unread ≠ x.slotBits ++ rest) ∨
  (∃ t, r = .error (.raised .allocNodes) t ∧ ReadFrame s t ∧ FullRead s t 1 ∧
    ∀ (x : Shape) (rest : List Bool), s.unread = x.slotBits ++ rest → 512 < s.nodeCount.toNat + x.size)

theorem fillSide_outcome {fuel : Nat} {i : NodeIdx} {att : NodeIdx → Node → Node} {s : State}
    (hi : i.toNat < s.nodeCount.toNat) (hcap : s.nodeCount.toNat ≤ 512) (hfuel : 512 ≤ fuel + s.nodeCount.toNat)
    (ih : ∀ (c : NodeIdx) (u : State), c.toNat < u.nodeCount.toNat → u.nodeCount.toNat ≤ 512 →
      513 ≤ fuel + u.nodeCount.toNat → (∃ sym, u.node c = Node.childless sym 0) →
      FillOutcome u c (fill fuel c u)) :
    SlotOutcome s i att (fillSide (fill fuel) (fun c s => s.setNode i (att c (s.node i))) s) := by
  have e : fillSide (fill fuel) (fun c s => s.setNode i (att c (s.node i))) s =
      (getBit >>= fun present => if present then readChar >>= fun sym => alloc (Node.childless sym 0) >>= fun c =>
        Proc.change (fun s => s.setNode i (att c (s.node i))) >>= fun _ => fill fuel c else pure ()) s := rfl
  rw [e]
  rcases getBit_cases s with ⟨hu, hg⟩ | ⟨b, bs, hu, hg, hn, ha, hf⟩
  · refine .inr (.inl ⟨s, Proc.bind_error hg, by rw [hu]; exact .refl s, rfl,
      ⟨fun _ _ => by rw [hu]; rfl, Nat.le_refl _, fun _ _ => rfl⟩, fun x rest h => ?_⟩)
    rw [hu] at h
    have := congrArg List.length h
    rw [List.length_append, Shape.length_slotBits] at this
    simp only [List.length_nil] at this
    omega
  · rw [Proc.bind_ok hg]
    cases b with
    | false =>
      refine .inl ⟨s.nextBit, .absent, bs, rfl, hu, ha, by rw [hf]; rfl, by rw [hf]; exact hcap, by rw [hf]; rfl,
        .absent _, fun j _ _ => by rw [hf]; rfl, fun j h1 h2 => ?_, by show s.nextBit = _; rw [hf]⟩
      rw [hf] at h2
      have h2 : j.toNat < s.nodeCount.toNat := h2
      omega
    | true =>
      rw [if_pos rfl]
      by_cases h8 : s.nextBit.unread.length < 8
      · obtain ⟨t, ht, hat, hft⟩ := readChar_short h8
        have hnt : t.nodeCount = s.nodeCount := by rw [hft, hf]
        refine .inr (.inl ⟨t, Proc.bind_error ht, ?_, by rw [hft, hf], ⟨fun _ _ => ?_, by rw [hnt],
          fun _ _ => by rw [hft, hf]; rfl⟩, fun x rest h => ?_⟩)
        · have := ha.trans hat
          rw [hn] at this
          rw [hu, List.length_cons, Nat.add_comm]
          exact this
        · rw [hu, hnt]
          exact treeEndFrom_short (by rw [← hn]; exact h8) _ _ _
        · rw [hu] at h
          have hlen := congrArg List.length h
          rw [List.length_append, Shape.length_slotBits, List.length_cons, ← hn] at hlen
          cases x with
          | absent => simp [Shape.slotBits] at h
          | node s x y => simp only [Shape.size] at hlen; omega
      · obtain ⟨sym, u, hru, hbits, hau, hfu⟩ := readChar_ok (s := s.nextBit) (by omega)
        have hsu : s.Advanced u 9 := by have := ha.trans hau; rwa [show 1 + 8 = 9 from rfl] at this
        have hfsu : u = { s with br := u.br } := by rw [hfu, hf]
        have hcu : u.nodeCount = s.nodeCount := by rw [hfsu]
        rw [Proc.bind_ok hru]
        have hbs : bs = byteBits sym ++ u.unread := by rw [hbits, hau.rest, List.take_append_drop, hn]
        -- what the stream must be for a child to be there
        have hshape : ∀ (x : Shape) (rest : List Bool), s.unread = x.slotBits ++ rest →
            ∃ l r, x = .node sym l r ∧ u.unread = l.slotBits ++ (r.slotBits ++ rest) := by
          intro x rest h
          rw [hu] at h
          cases x with
          | absent => simp [Shape.slotBits] at h
          | node s' l r =>
            simp only [Shape.slotBits, List.cons_append, List.cons.injEq, true_and, List.append_assoc] at h
            have h1 : byteBits sym = byteBits s' := by
              rw [hbits, hn, h, List.take_append_of_le_length (by simp), List.take_of_length_le (by simp)]
            have h2 : u.unread = l.slotBits ++ (r.slotBits ++ rest) := by
              rw [hau.rest, hn, h, List.drop_append_of_le_length (by simp), List.drop_of_length_le (by simp)]
              rfl
            exact ⟨l, r, by rw [byteBits_injective h1], h2⟩
        by_cases hfull : 512 ≤ s.nodeCount.toNat
        · refine .inr (.inr ⟨u, Proc.bind_error (alloc_full _ (by rw [hcu]; exact hfull)), by rw [hfsu],
            ⟨9, hsu, fun _ _ => by rw [hu, hbs]; exact if_pos hfull⟩, fun x rest h => ?_⟩)
          obtain ⟨l, r, rfl, -⟩ := hshape x rest h
          simp only [Shape.size]; omega
        · obtain ⟨c, v, hv, hc, hcv, hnv, hfv⟩ := alloc_ok (Node.childless sym 0) (s := u) (by rw [hcu]; omega)
          rw [hcu] at hc hcv
          have hc' : c = BitVec.ofNat 9 s.nodeCount.toNat := by
            apply BitVec.eq_of_toNat_eq
            simp only [BitVec.toNat_ofNat]
            omega
          have hci : c ≠ i := by rintro rfl; omega
          set w := v.setNode i (att c (v.node i)) with hw
          have hnw : ∀ j, w.node j = if j = i then att c (s.node i) else if j = c then Node.childless sym 0 else s.node j := by
            intro j
            have hus : u.node = s.node := by rw [hfsu]; rfl
            rw [hw, State.node_setNode]
            by_cases hj : j = i
            · rw [if_pos hj, if_pos hj, hnv, if_neg (Ne.symm hci), hus]
            · rw [if_neg hj, if_neg hj, hnv, hus]
          have hwc : w.node c = Node.childless sym 0 := by rw [hnw, if_neg hci, if_pos rfl]
          have hcw : w.nodeCount.toNat = s.nodeCount.toNat + 1 := hcv
          have hfw : w = { u with nodes := w.nodes, nodeCount := w.nodeCount } := by rw [hw, hfv]; rfl
          have haw : s.Advanced w 9 := hsu.of_frame hfw
          have huw : w.unread = u.unread := by rw [haw.rest, hsu.rest]
          have hfsw : ReadFrame s w := by
            show w = _
            rw [hfw, hfsu]
          have hscan : ∀ slots used, treeEndFrom s.unread (slots + 1) s.nodeCount.toNat used =
              treeEndFrom w.unread (slots + 2) w.nodeCount.toNat (used + 9) := fun slots used => by
            rw [hu, hbs, hcw, huw]
            exact treeEndFrom_node sym _ _ _ (by omega)
          have hF := ih c w (by omega) (by omega) (by omega) ⟨sym, hwc⟩
          have hrun : (alloc (Node.childless sym 0) >>= fun c => Proc.change (fun s => s.setNode i (att c (s.node i))) >>=
              fun _ => fill fuel c) u = fill fuel c w := by
            rw [Proc.bind_ok hv]; rfl
          rw [hrun]
          rcases hF with ⟨t, l, r, rest, ht, hR⟩ | ⟨t, ht, hat, hft, hS, hno⟩ | ⟨t, ht, hft, ⟨n, han, hn9⟩, hbig⟩
          · have hsize : (Shape.node sym l r).size = 1 + l.size + r.size := rfl
            have hcount : t.nodeCount.toNat = s.nodeCount.toNat + (Shape.node sym l r).size := by
              rw [hR.count, hcw, hsize]; omega
            refine .inl ⟨t, .node sym l r, rest, ht, ?_, ?_, hcount, hR.cap, ?_, ?_, fun j hj h => ?_, fun j h1 h2 => ?_, ?_⟩
            · rw [hu, hbs, ← huw, hR.bits]
              simp [Shape.slotBits]
            · have := haw.trans hR.advanced
              have e9 : (Shape.node sym l r).slotBits.length = 9 + (l.slotBits.length + r.slotBits.length) := by
                simp only [Shape.slotBits, List.length_cons, List.length_append, length_byteBits]; omega
              rw [e9]; exact this
            · rw [hR.others i (Ne.symm hci) (.inl (by omega)), hnw, if_pos rfl, hc']
              rfl
            · have h1 := hR.tree
              rw [hwc, hcw] at h1
              rw [← hc', hsize, show 1 + l.size + r.size = (l.size + r.size) + 1 by omega, indicesFrom_succ, ← hc']
              exact h1
            · have hjc : j ≠ c := by
                rintro rfl
                rw [hsize] at hcount
                omega
              rw [hR.others j hjc (by omega), hnw, if_neg hj, if_neg hjc]
            · by_cases hjc : j = c
              · rw [hjc]; exact hR.ownPlain
              · refine hR.plain j ?_ h2
                have : j.toNat ≠ c.toNat := fun h => hjc (BitVec.eq_of_toNat_eq h)
                omega
            · have := hR.frame
              show t = _
              rw [this, hfsw]
          · have hcount := hS.count
            refine .inr (.inl ⟨t, ht, ?_, ?_, ⟨fun slots used => ?_, by omega, fun j hj => ?_⟩, fun x rest h => ?_⟩)
            · have := haw.trans hat
              rw [haw.rest, List.length_drop] at this
              have h9 := haw.enough
              rwa [show 9 + (s.unread.length - 9) = s.unread.length by omega] at this
            · show t = _
              rw [hft, hfsw]
            · rw [hscan]
              exact hS.scan slots _
            · have hjc : j ≠ c := by rintro rfl; omega
              have hji : j ≠ i := by rintro rfl; omega
              rw [hS.others j hj, hnw, if_neg hji, if_neg hjc]
            · obtain ⟨l, r, rfl, h2⟩ := hshape x rest h
              exact hno l r rest (by rw [huw]; exact h2)
          · refine .inr (.inr ⟨t, ht, ?_, ⟨9 + n, haw.trans han, fun slots used => ?_⟩, fun x rest h => ?_⟩)
            · show t = _
              rw [hft, hfsw]
            · rw [hscan, hn9, Nat.add_assoc]
            · obtain ⟨l, r, rfl, h2⟩ := hshape x rest h
              have := hbig l r rest (by rw [huw]; exact h2)
              simp only [Shape.size]; omega

/-! ### Fill -/

/-- Fill, said once (45_huffman_decoder.md R292, R293, R295). -/
theorem fill_outcome (fuel : Nat) : ∀ (i : NodeIdx) (s : State), i.toNat < s.nodeCount.toNat →
    s.nodeCount.toNat ≤ 512 → 513 ≤ fuel + s.nodeCount.toNat → (∃ sym, s.node i = Node.childless sym 0) →
    FillOutcome s i (fill fuel i s) := by
  induction fuel with
  | zero => intro i s _ h1 h2; omega
  | succ fuel ih =>
    intro i s hi hcap hfuel ⟨symi, hchild⟩
    have hlp : (s.node i).lp = false := by rw [hchild]; rfl
    have hrp : (s.node i).rp = false := by rw [hchild]; rfl
    set attL : NodeIdx → Node → Node := fun c n => { n with lp := true, left := c } with hattL
    set attR : NodeIdx → Node → Node := fun c n => { n with rp := true, right := c } with hattR
    have e : fill (fuel + 1) i s = (fillSide (fill fuel) (fun c s => s.setNode i (attL c (s.node i))) >>= fun _ =>
        fillSide (fill fuel) (fun c s => s.setNode i (attR c (s.node i)))) s := rfl
    rw [e]
    rcases fillSide_outcome (att := attL) hi hcap (by omega) ih with ⟨t, l, rest, ht, hL⟩ | ⟨t, ht, hat, hft, hS, hno⟩ | ⟨t, ht, hft, ⟨n, han, hn2⟩, hbig⟩
    · rw [Proc.bind_ok ht]
      have hcountL := hL.count
      have hrest : t.unread = rest := by rw [hL.advanced.rest, hL.bits]; simp
      have hscan : ∀ slots used, treeEndFrom s.unread (slots + 2) s.nodeCount.toNat used =
          treeEndFrom t.unread (slots + 1) t.nodeCount.toNat (used + l.slotBits.length) := fun slots used => by
        have := hL.cap
        rw [hL.bits, hrest, hcountL]
        exact treeEndFrom_slotBits l _ _ _ _ (by omega)
      rcases fillSide_outcome (att := attR) (i := i) (s := t) (by omega) hL.cap (by omega) ih with
        ⟨u, r, rest', hu, hR⟩ | ⟨u, hu, hau, hfu, hS, hno⟩ | ⟨u, hu, hfu, ⟨n, han, hn1⟩, hbig⟩
      · have hcountR := hR.count
        have hbits := hR.bits
        rw [hrest] at hbits
        refine .inl ⟨u, l, r, rest', hu, by rw [hL.bits, hbits], hL.advanced.trans hR.advanced, by omega, hR.cap, ?_,
          fun j hj h => ?_, fun j h1 h2 => ?_, ?_, ?_⟩
        · -- the tree at i
          have hbl : ∀ j ∈ indicesFrom s.nodeCount.toNat l.size, j ≠ i ∧ j.toNat < t.nodeCount.toNat := by
            intro j hj
            have := hL.cap
            rw [toNat_of_mem_indicesFrom (by omega)] at hj
            exact ⟨by rintro rfl; omega, by omega⟩
          have hl' : Subtree u.node (!l.isAbsent) (BitVec.ofNat 9 s.nodeCount.toNat) l
              (indicesFrom s.nodeCount.toNat l.size) :=
            hL.tree.congr fun j hj => hR.others j (hbl j hj).1 (.inl (hbl j hj).2)
          have hr' := hR.tree
          have hui : u.node i = if r.isAbsent then (if l.isAbsent then s.node i else
                attL (BitVec.ofNat 9 s.nodeCount.toNat) (s.node i))
              else attR (BitVec.ofNat 9 t.nodeCount.toNat) (if l.isAbsent then s.node i else
                attL (BitVec.ofNat 9 s.nodeCount.toNat) (s.node i)) := by
            rw [hR.parent, hL.parent]
          have hsym : (u.node i).sym = (s.node i).sym := by
            rw [hui]; split_ifs <;> rfl
          have hlps : (u.node i).lp = !l.isAbsent := by
            rw [hui]
            cases hla : l.isAbsent <;> cases hra : r.isAbsent <;> simp [hattL, hattR, hlp]
          have hrps : (u.node i).rp = !r.isAbsent := by
            rw [hui]
            cases hla : l.isAbsent <;> cases hra : r.isAbsent <;> simp [hattL, hattR, hrp]
          have hleft : l.isAbsent = false → (u.node i).left = BitVec.ofNat 9 s.nodeCount.toNat := by
            intro hla
            rw [hui]
            cases hra : r.isAbsent <;> simp [hattL, hattR, hla]
          have hright : r.isAbsent = false → (u.node i).right = BitVec.ofNat 9 t.nodeCount.toNat := by
            intro hra
            rw [hui]
            simp [hattR, hra]
          have hsplit : indicesFrom s.nodeCount.toNat (l.size + r.size) =
              indicesFrom s.nodeCount.toNat l.size ++ indicesFrom t.nodeCount.toNat r.size := by
            rw [hcountL]
            unfold indicesFrom
            rw [List.range_add, List.map_append, List.map_map]
            congr 1
            apply List.map_congr_left
            intro j _
            simp only [Function.comp, Nat.add_assoc]
          have := Subtree.present (nd := u.node) i l r (indicesFrom s.nodeCount.toNat l.size)
            (indicesFrom t.nodeCount.toNat r.size)
            (by
              rw [hlps]
              cases hla : l.isAbsent with
              | true =>
                obtain rfl := (Shape.isAbsent_iff l).1 hla
                exact .absent _
              | false => rw [hleft hla]; rw [hla] at hl'; exact hl')
            (by
              rw [hrps]
              cases hra : r.isAbsent with
              | true =>
                obtain rfl := (Shape.isAbsent_iff r).1 hra
                exact .absent _
              | false => rw [hright hra]; rw [hra] at hr'; exact hr')
          rw [hsym] at this
          rw [hsplit]
          exact this
        · rw [hR.others j hj (by omega), hL.others j hj (by omega)]
        · by_cases hjt : j.toNat < t.nodeCount.toNat
          · have hji : j ≠ i := by rintro rfl; omega
            rw [hR.others j hji (.inl hjt)]
            exact hL.plain j h1 hjt
          · exact hR.plain j (by omega) h2
        · rw [hR.parent, hL.parent, hchild]
          unfold Node.Plain
          cases hla : l.isAbsent <;> cases hra : r.isAbsent <;> simp [hattL, hattR, Node.childless]
        · have h1 := hL.frame
          have h2 := hR.frame
          show u = _
          rw [h2, h1]
      · have hcountS := hS.count
        refine .inr (.inl ⟨u, hu, ?_, ?_, ⟨fun slots used => ?_, by omega, fun j hj => ?_⟩, fun x y rest' h => ?_⟩)
        · have := hL.advanced.trans hau
          rw [hrest] at this
          rw [hL.bits, List.length_append]
          exact this
        · have h1 := hL.frame
          show u = _
          rw [hfu, h1]
        · rw [hscan]
          exact hS.scan slots _
        · have hji : j ≠ i := by rintro rfl; omega
          rw [hS.others j hj, hL.others j hji (.inr (by omega))]
        · rw [hL.bits] at h
          obtain ⟨-, h2⟩ := Shape.slotBits_unique h
          exact hno y rest' (by rw [hrest, h2])
      · refine .inr (.inr ⟨u, hu, ?_, ⟨_, hL.advanced.trans han, fun slots used => ?_⟩, fun x y rest' h => ?_⟩)
        · have h1 := hL.frame
          show u = _
          rw [hfu, h1]
        · rw [hscan, hn1, Nat.add_assoc]
        · rw [hL.bits] at h
          obtain ⟨rfl, h2⟩ := Shape.slotBits_unique h
          have := hbig y rest' (by rw [hrest, h2])
          omega
    · exact .inr (.inl ⟨t, Proc.bind_error ht, hat, hft, ⟨fun slots => hS.scan (slots + 1), hS.count, hS.others⟩,
        fun x y rest' => hno x (y.slotBits ++ rest')⟩)
    · refine .inr (.inr ⟨t, Proc.bind_error ht, hft, ⟨n, han, fun slots => hn2 (slots + 1)⟩, fun x y rest' h => ?_⟩)
      have := hbig x _ h
      omega

/-! ### DeserializeTree -/

/-- What a successful DeserializeTree leaves (45_huffman_decoder.md R292 to R294). -/
structure Deserialized (s t : State) (sh : Shape) (rest : List Bool) : Prop where
  bits : s.unread = sh.treeBits ++ rest
  advanced : s.Advanced t (10 * sh.size - 8)
  count : t.nodeCount.toNat = sh.size
  cap : sh.size ≤ 512
  preorder : Subtree t.node true 0 sh.withRootZero (indicesFrom 0 sh.size)
  plain : ∀ i : NodeIdx, i.toNat < sh.size → (t.node i).Plain
  others : ∀ i : NodeIdx, sh.size ≤ i.toNat → t.node i = s.node i
  frame : t = { s with
    treeValid := true, codesValid := false, root := 0, nodeCount := t.nodeCount, nodes := t.nodes, br := t.br }

/-- DeserializeTree, said once (45_huffman_decoder.md R292 to R295). -/
theorem deserializeTree_outcome (s : State) :
    (∃ t sh rest, deserializeTree s = .ok () t ∧ sh ≠ .absent ∧ Deserialized s t sh rest) ∨
    (∃ t, deserializeTree s = .error (.raised .fmtTruncated) t ∧ s.Advanced t s.unread.length ∧
      (t = { s with
        treeValid := false, codesValid := false, root := 0, nodeCount := 0, nodes := t.nodes, br := t.br }) ∧
      (∃ n, treeEnd s.unread = .truncated n ∧ ∀ i : NodeIdx, n ≤ i.toNat → t.node i = s.node i) ∧
      ∀ (sh : Shape) (rest : List Bool), sh ≠ .absent → s.unread ≠ sh.treeBits ++ rest) ∨
    (∃ t, deserializeTree s = .error (.raised .allocNodes) t ∧
      (t = { s with
        treeValid := false, codesValid := false, root := 0, nodeCount := 0, nodes := t.nodes, br := t.br }) ∧
      (∃ n, treeEnd s.unread = .full n ∧ s.Advanced t n) ∧
      ∀ (sh : Shape) (rest : List Bool), s.unread = sh.treeBits ++ rest → sh ≠ .absent → 512 < sh.size) := by
  obtain ⟨k, u, hu, hk, hcu, hnu, hfu⟩ := alloc_ok (Node.childless 0 0) (s := s.releaseArena) (by show 0 < 512; omega)
  have hk0 : k = 0 := BitVec.eq_of_toNat_eq (by rw [hk]; rfl)
  subst hk0
  have hcu : u.nodeCount.toNat = 1 := hcu
  have hn0 : u.node 0 = Node.childless 0 0 := by rw [hnu, if_pos rfl]
  have hb : s.Advanced s.releaseArena 0 := by
    obtain ⟨h1, h2, h3, -, -, -⟩ := State.Advanced.refl s
    exact ⟨h1, h2, h3, rfl, rfl, rfl⟩
  have hau : s.Advanced u 0 := hb.of_frame hfu
  have huu : u.unread = s.unread := by rw [hau.rest]; rfl
  have e : ∀ r, fill (Config.nodeCap + 1) 0 u = r →
      deserializeTree s = match r with
        | .ok _ t => .ok () (t.setTree 0)
        | .error e t => .error e t.releaseArena := by
    rintro r rfl
    have : (clearTree >>= fun _ => alloc (Node.childless 0 0) >>= fun r => fill (Config.nodeCap + 1) r >>= fun _ =>
        Proc.change (·.setTree r)) s = (fill (Config.nodeCap + 1) 0 >>= fun _ => Proc.change (·.setTree 0)) u := by
      show (alloc (Node.childless 0 0) >>= fun r => fill (Config.nodeCap + 1) r >>= fun _ =>
        Proc.change (·.setTree r)) s.releaseArena = _
      rw [Proc.bind_ok hu]
    show Proc.orRelease (clearTree >>= fun _ => alloc (Node.childless 0 0) >>= fun r => fill (Config.nodeCap + 1) r >>= fun _ =>
        Proc.change (·.setTree r)) s = _
    unfold Proc.orRelease
    rw [this, Proc.bind_apply]
    cases fill (Config.nodeCap + 1) 0 u <;> rfl
  have noShape : ∀ (P : Shape → Shape → Prop), (∀ x y : Shape, P x y) → ∀ sh : Shape, sh ≠ .absent →
      ∃ a x y, sh = .node a x y ∧ P x y := by
    intro P hP sh hsh
    cases sh with
    | absent => exact absurd rfl hsh
    | node a x y => exact ⟨a, x, y, rfl, hP x y⟩
  rcases fill_outcome (Config.nodeCap + 1) 0 u (by rw [hcu]; decide) (by omega)
      (by unfold Config.nodeCap; omega) ⟨0, hn0⟩ with
    ⟨t, l, r, rest, ht, hR⟩ | ⟨t, ht, hat, hft, hS, hno⟩ | ⟨t, ht, hft, ⟨n, han, hn2⟩, hbig⟩
  · have hsz : (Shape.node 0 l r).size = 1 + l.size + r.size := rfl
    have hcount := hR.count
    have hcap := hR.cap
    rw [hcu] at hcount
    have htree := hR.tree
    rw [hn0, hcu] at htree
    refine .inl ⟨t.setTree 0, .node 0 l r, rest, e _ ht, by simp, ?_, ?_, ?_, by omega, ?_, fun i hi => ?_, fun i hi => ?_, ?_⟩
    · rw [← huu, hR.bits]; simp [Shape.treeBits]
    · have h0 := hau.trans hR.advanced
      have hlen := Shape.length_treeBits (t := .node 0 l r) (by simp)
      simp only [Shape.treeBits, List.length_append] at hlen
      rw [Nat.zero_add, hlen] at h0
      obtain ⟨h1, h2, h3, h4, h5, h6⟩ := h0
      exact ⟨h1, h2, h3, h4, h5, h6⟩
    · show t.nodeCount.toNat = _; omega
    · rw [hsz, show 1 + l.size + r.size = (l.size + r.size) + 1 by omega, indicesFrom_succ]
      exact htree
    · show (t.node i).Plain
      by_cases hi0 : i = 0
      · rw [hi0]; exact hR.ownPlain
      · have : i.toNat ≠ 0 := fun h => hi0 (BitVec.eq_of_toNat_eq (by rw [h]; rfl))
        exact hR.plain i (by omega) (by omega)
    · show t.node i = s.node i
      have hi0 : i ≠ 0 := by
        rintro rfl
        have : (0 : NodeIdx).toNat = 0 := rfl
        omega
      rw [hR.others i hi0 (.inr (by omega)), hnu, if_neg hi0]
      rfl
    · have := hR.frame
      rw [this, hfu]
      rfl
  · have hcount := hS.count
    have hscan := hS.scan 0 0
    rw [hcu, huu] at hscan
    refine .inr (.inl ⟨t.releaseArena, e _ ht, ?_, ?_, ⟨_, hscan, fun i hi => ?_⟩, fun sh rest hsh h => ?_⟩)
    · have h0 := hau.trans hat
      rw [huu, Nat.zero_add] at h0
      obtain ⟨h1, h2, h3, h4, h5, h6⟩ := h0
      exact ⟨h1, h2, h3, h4, h5, h6⟩
    · rw [hft, hfu]; rfl
    · have hi0 : i ≠ 0 := by
        rintro rfl
        have : (0 : NodeIdx).toNat = 0 := rfl
        omega
      show t.node i = s.node i
      rw [hS.others i hi, hnu, if_neg hi0]
      rfl
    · cases sh with
      | absent => exact hsh rfl
      | node a x y =>
        simp only [Shape.treeBits, List.append_assoc] at h
        exact hno x y rest (by rw [huu]; exact h)
  · have hscan := hn2 0 0
    rw [hcu, huu] at hscan
    simp only [Nat.zero_add] at hscan
    have h0 := hau.trans han
    rw [Nat.zero_add] at h0
    refine .inr (.inr ⟨t.releaseArena, e _ ht, ?_, ⟨n, hscan, ?_⟩, fun sh rest h hsh => ?_⟩)
    · rw [hft, hfu]; rfl
    · obtain ⟨h1, h2, h3, h4, h5, h6⟩ := h0
      exact ⟨h1, h2, h3, h4, h5, h6⟩
    · cases sh with
      | absent => exact absurd rfl hsh
      | node a x y =>
        simp only [Shape.treeBits, List.append_assoc] at h
        have := hbig x y rest (by rw [huu]; exact h)
        simp only [Shape.size]; omega

end Sys2Proof.Machine
end

