-- ==== Sys2Proof/Laws/Decompress.lean ====
section
/-! SUPPORT. DEC_DECOMPRESS said once (spec/45_huffman_decoder.md R300): what the header and the tree's region leave, how
a run ends that meets no tree there, and what the payload leaves while the tree decodes symbols from it. -/

namespace Sys2Proof.Machine

/-! ### Trees without the root's symbol -/

theorem Shape.size_withRootZero (t : Shape) : t.withRootZero.size = t.size := by cases t <;> rfl

theorem Shape.isChildless_withRootZero (t : Shape) : t.withRootZero.isChildless = t.isChildless := by cases t <;> rfl

theorem Shape.codes_withRootZero {t : Shape} (h : t.isChildless = false) : t.withRootZero.codes = t.codes := by
  cases t with
  | absent => rfl
  | node s l r =>
    have hlr : (l.isAbsent && r.isAbsent) = false := h
    unfold codes
    rw [isChildless_withRootZero, h]
    simp only [withRootZero, codesAt, hlr]
    rfl

theorem Shape.walkDown_withRootZero {t : Shape} (h : t.isChildless = false) (bs : List Bool) (n : Nat) :
    t.withRootZero.walkDown bs n = t.walkDown bs n := by
  cases t with
  | absent => rfl
  | node s l r =>
    have hlr : (l.isAbsent && r.isAbsent) = false := h
    simp only [withRootZero, walkDown, hlr, Bool.false_eq_true, if_false]

theorem Shape.Decodes.withRootZero {t : Shape} (h : t.isChildless = false) {bs : List Bool} {xs : List Byte} {n : Nat}
    (hd : t.Decodes bs xs n) : t.withRootZero.Decodes bs xs n := by
  induction hd with
  | nil bs => exact .nil bs
  | cons hw _ ih => exact .cons (by rw [Shape.walkDown_withRootZero h]; exact hw) ih

/-- A serialization determines the tree but for the root's symbol, and what follows it (30_encoding.md R132). -/
theorem Shape.treeBits_unique {t t' : Shape} (h : t ≠ .absent) (h' : t' ≠ .absent) {a b : List Bool}
    (e : t.treeBits ++ a = t'.treeBits ++ b) : t.withRootZero = t'.withRootZero ∧ t.size = t'.size ∧ a = b := by
  cases t with
  | absent => exact absurd rfl h
  | node s l r =>
    cases t' with
    | absent => exact absurd rfl h'
    | node s' l' r' =>
      simp only [treeBits, List.append_assoc] at e
      obtain ⟨e1, e⟩ := slotBits_unique e
      obtain ⟨e2, e⟩ := slotBits_unique e
      exact ⟨by rw [e1, e2]; rfl, by rw [size, size, e1, e2], e⟩

/-- What DeserializeTree leaves, in the terms of the claims (45_huffman_decoder.md R294). -/
theorem Deserialized.rebuilt {s t : State} {sh : Shape} {rest : List Bool} (h : Deserialized s t sh rest)
    (hne : sh ≠ .absent) : s.Rebuilt t sh := by
  have h1 := h.count
  have h2 := h.cap
  have h3 := Shape.size_pos hne
  have hr : t.root = 0 := by rw [h.frame]
  have hi : indicesFrom 0 sh.size = (List.range sh.size).map (BitVec.ofNat 9) := by unfold indicesFrom; simp
  refine ⟨⟨by omega, by show _ ≤ 512; omega, by rw [hr]; simp; omega, indicesFrom 0 sh.size,
    by rw [hr]; exact h.preorder, indicesFrom_nodup (by omega), fun i hi => ?_⟩, hi ▸ h.preorder, h.plain, h.others⟩
  have := (toNat_of_mem_indicesFrom (by omega)).1 hi
  omega

theorem Deserialized.nodeCount_eq {s t : State} {sh : Shape} {rest : List Bool} (h : Deserialized s t sh rest) :
    t.nodeCount = BitVec.ofNat 10 sh.size := by
  apply BitVec.eq_of_toNat_eq
  rw [h.count, BitVec.toNat_ofNat]
  have := h.cap
  omega

/-- The same arena, seen from another start and another end. -/
theorem State.Rebuilt.congr {s t s' t' : State} {sh : Shape} (h : s.Rebuilt t sh) (hs : s'.node = s.node)
    (ht : t'.node = t.node) (hr : t'.root = t.root) (hc : t'.nodeCount = t.nodeCount) : s'.Rebuilt t' sh :=
  ⟨h.holds.congr hr hc fun i _ => by rw [ht], by rw [ht]; exact h.preorder, by rw [ht]; exact h.plain,
    by rw [ht, hs]; exact h.others⟩

/-! ### The reader from a byte boundary -/

theorem State.unread_of_cursor {s : State} (h : s.br.cursor = 0) :
    s.unread = (s.ibufBytes s.br.rdptr.toNat (s.srcLen.toNat - s.br.rdptr.toNat)).flatMap byteBits := by
  unfold State.unread State.curUnread
  rw [if_pos h]
  rfl

theorem State.drop_ibufBytes (s : State) (a n : Nat) : (s.ibufBytes 0 n).drop a = s.ibufBytes a (n - a) := by
  unfold State.ibufBytes
  apply List.ext_getElem
  · simp
  · intro k h1 h2
    simp

/-- Reading on from a byte boundary with the counters cleared (41_bit_reader.md R187). -/
theorem State.ReadOn.eq_readerAfter {s t : State} {base n : Nat} (h : s.ReadOn t n) (hb : s.br = s.readerAfter base 0)
    (hlt : base < 2 ^ 64) : t.br = s.readerAfter base n := by
  obtain ⟨h1, h2, h3, h4, h5⟩ := h
  have hp : s.pulls n = (n + 7) / 8 := by
    unfold State.pulls
    rw [hb]
    exact if_pos rfl
  rw [hp] at h2 h4 h5
  cases hbr : t.br with
  | mk c p w b y =>
    rw [hbr] at h1 h2 h3 h4 h5
    dsimp only at h1 h2 h3 h4 h5
    rw [h1, h2, h3, h4, h5, hb]
    unfold State.readerAfter
    simp only [Nat.zero_add, BitVec.toNat_ofNat, Nat.reduceDiv, Nat.add_zero, Nat.mod_eq_of_lt hlt]
    congr 1
    · by_cases hn : (n + 7) / 8 = 0
      · rw [if_pos hn, hn, Nat.add_zero]
      · rw [if_neg hn, if_neg (by omega)]
    · simp
    · rw [BitVec.ofNat_add]
    · simp
    · simp

theorem flatMap_byteBits_injective : ∀ {l l' : List Byte}, l.flatMap byteBits = l'.flatMap byteBits → l = l'
  | [], [], _ => rfl
  | [], b :: l', h => by simp [byteBits] at h
  | a :: l, [], h => by simp [byteBits] at h
  | a :: l, b :: l', h => by
    simp only [List.flatMap_cons] at h
    obtain ⟨h1, h2⟩ := List.append_inj h (by simp)
    rw [byteBits_injective h1, flatMap_byteBits_injective h2]

/-! ### Header and tree -/

/-- DEC_DECOMPRESS after the header (45_huffman_decoder.md R300). -/
def afterHeader (count : DWord) : Proc Unit := do
  deserializeTree
  Proc.change State.align
  Proc.change State.closeMetaRead
  checkNotEmpty
  decompressLoop count.toNat
  Proc.change State.closePayloadRead

/-- An archive shorter than its header. -/
theorem decompress_short {s : State} (hs : s.srcLen.toNat ≤ s.ibufSize) (h8 : s.srcLen.toNat < 8) :
    decompress s = .error (.raised .fmtTruncated) { s with
      orig := 0, metaSize := 0, payload := 0, br := s.readerAfter 0 (8 * s.srcLen.toNat), bw := .zero } := by
  have hu : s.startDecompress.unread.length = 8 * s.srcLen.toNat := by
    rw [State.unread_of_cursor rfl, length_flatMap_byteBits, State.length_ibufBytes]
    rfl
  obtain ⟨t, ht, ha, hf⟩ := readHeader_short (s := s.startDecompress) (by omega)
  have hbr := ha.readOn.eq_readerAfter (base := 0) rfl (by omega)
  rw [hu] at hbr
  unfold decompress
  rw [Proc.bind_ok (checkSrc_ok hs), Proc.change_bind, Proc.bind_error ht]
  congr 1
  rw [hf, hbr]
  rfl

/-- The header is read (45_huffman_decoder.md R290, R300). -/
theorem decompress_header {s : State} (hs : s.srcLen.toNat ≤ s.ibufSize) {count : DWord} {rest : List Byte}
    (hi : s.ibufBytes 0 s.srcLen.toNat = headerBytes s.params.headerOrder count ++ rest) :
    ∃ u, decompress s = afterHeader count u ∧ u.unread = rest.flatMap byteBits ∧
      u = { s with orig := count, metaSize := 0, payload := 0, br := s.readerAfter 0 64, bw := .zero } ∧
      ∀ n t, u.Advanced t n → t.br = s.readerAfter 0 (64 + n) := by
  have hu : s.startDecompress.unread =
      (headerBytes s.params.headerOrder count).flatMap byteBits ++ rest.flatMap byteBits := by
    rw [← List.flatMap_append, ← hi, State.unread_of_cursor rfl]
    rfl
  have h64 : ((headerBytes s.params.headerOrder count).flatMap byteBits).length = 64 := by
    rw [length_flatMap_byteBits, length_headerBytes]
  obtain ⟨v, t, ht, hb, ha, hf⟩ := readHeader_ok (s := s.startDecompress) (by rw [hu, List.length_append]; omega)
  have hv : v = count := by
    rw [hu, List.take_append_of_le_length (by omega), List.take_of_length_le (by omega)] at hb
    exact headerBytes_injective (flatMap_byteBits_injective hb)
  subst hv
  have hbr := ha.readOn.eq_readerAfter (base := 0) rfl (by omega)
  refine ⟨t.setOrig v, ?_, ?_, ?_, fun n w hw => ?_⟩
  · unfold decompress
    rw [Proc.bind_ok (checkSrc_ok hs), Proc.change_bind, Proc.bind_ok ht]
    rfl
  · show t.unread = _
    rw [ha.rest, hu, List.drop_append_of_le_length (by omega), List.drop_of_length_le (by omega), List.nil_append]
  · rw [hf, hbr]
    rfl
  · have hA : s.startDecompress.Advanced (t.setOrig v) 64 :=
      ⟨ha.enough, ha.rest, ha.readOn, ha.ibuf, ha.epoch, ha.srcLen⟩
    exact (hA.trans hw).readOn.eq_readerAfter (base := 0) rfl (by omega)

/-- The archive ends inside the tree (45_huffman_decoder.md R295). -/
theorem decompress_truncated {s : State} (hs : s.srcLen.toNat ≤ s.ibufSize) {count : DWord} {rest : List Byte}
    (hi : s.ibufBytes 0 s.srcLen.toNat = headerBytes s.params.headerOrder count ++ rest) {n : Nat}
    (hn : treeEnd (rest.flatMap byteBits) = .truncated n) :
    ∃ t, decompress s = .error (.raised .fmtTruncated) t ∧
      t = { s with
        treeValid := false, codesValid := false, root := 0, nodeCount := 0, nodes := t.nodes
        orig := count, metaSize := 0, payload := 0, br := s.readerAfter 0 (8 * s.srcLen.toNat), bw := .zero } ∧
      ∀ i : NodeIdx, n ≤ i.toNat → t.node i = s.node i := by
  obtain ⟨u, hu, hun, hf, hrd⟩ := decompress_header hs hi
  have hlen := congrArg List.length hi
  simp only [State.length_ibufBytes, List.length_append, length_headerBytes] at hlen
  rw [hu]
  rcases deserializeTree_outcome u with ⟨t, sh, r, ht, hne, hD⟩ | ⟨t, ht, ha, hft, ⟨m, hm, ho⟩, -⟩ | ⟨t, ht, hft, ⟨m, hm, -⟩, -⟩
  · have := treeEnd_treeBits hne hD.cap r
    rw [← hD.bits, hun, hn] at this
    cases this
  · rw [hun, hn] at hm
    cases hm
    refine ⟨t, Proc.bind_error ht, ?_, fun i hin => ?_⟩
    · have hbr := hrd _ _ ha
      rw [hun, length_flatMap_byteBits, show 64 + 8 * rest.length = 8 * s.srcLen.toNat by omega] at hbr
      rw [← hbr]
      conv_lhs => rw [hft, hf]
    · rw [ho i hin, hf]; rfl
  · rw [hun, hn] at hm
    cases hm

/-- The archive's tree has more than 512 nodes (60_exceptions.md R333). -/
theorem decompress_full {s : State} (hs : s.srcLen.toNat ≤ s.ibufSize) {count : DWord} {rest : List Byte}
    (hi : s.ibufBytes 0 s.srcLen.toNat = headerBytes s.params.headerOrder count ++ rest) {n : Nat}
    (hn : treeEnd (rest.flatMap byteBits) = .full n) :
    ∃ t, decompress s = .error (.raised .allocNodes) t ∧
      t = { s with
        treeValid := false, codesValid := false, root := 0, nodeCount := 0, nodes := t.nodes
        orig := count, metaSize := 0, payload := 0, br := s.readerAfter 0 (64 + n), bw := .zero } := by
  obtain ⟨u, hu, hun, hf, hrd⟩ := decompress_header hs hi
  rw [hu]
  rcases deserializeTree_outcome u with ⟨t, sh, r, ht, hne, hD⟩ | ⟨t, ht, ha, hft, ⟨m, hm, ho⟩, -⟩ | ⟨t, ht, hft, ⟨m, hm, ha⟩, -⟩
  · have := treeEnd_treeBits hne hD.cap r
    rw [← hD.bits, hun, hn] at this
    cases this
  · rw [hun, hn] at hm
    cases hm
  · rw [hun, hn] at hm
    cases hm
    refine ⟨t, Proc.bind_error ht, ?_⟩
    rw [← hrd _ _ ha]
    conv_lhs => rw [hft, hf]

/-- What is left to do once header and tree have been read (45_huffman_decoder.md R300). -/
def payloadPart (count : DWord) : Proc Unit := do
  checkNotEmpty
  decompressLoop count.toNat
  Proc.change State.closePayloadRead

/-- Header and tree are read, and the reader stands at the payload (45_huffman_decoder.md R300). -/
theorem decompress_tree {s : State} (hs : s.srcLen.toNat ≤ s.ibufSize) {count : DWord} {tree rest : List Byte} {sh : Shape}
    {pad : List Bool} (hi : s.ibufBytes 0 s.srcLen.toNat = headerBytes s.params.headerOrder count ++ (tree ++ rest))
    (ht : tree.flatMap byteBits = sh.treeBits ++ pad) (hpad : pad.length < 8) (hne : sh ≠ .absent) (hsz : sh.size ≤ 512) :
    ∃ u, decompress s = payloadPart count u ∧ u.unread = rest.flatMap byteBits ∧ s.Rebuilt u sh ∧
      u = { s.inPayload u sh count tree.length 0 .zero with obuf := s.obuf } ∧
      ∀ n t, u.Advanced t n → t.br = s.readerAfter (8 + tree.length) n := by
  obtain ⟨v, hv, hvn, hf, hrd⟩ := decompress_header hs hi
  rw [List.flatMap_append, ht, List.append_assoc] at hvn
  have hlen := congrArg List.length hi
  simp only [State.length_ibufBytes, List.length_append, length_headerBytes] at hlen
  have hsl := s.srcLen.isLt
  have htl := congrArg List.length ht
  rw [length_flatMap_byteBits, List.length_append, Shape.length_treeBits hne] at htl
  have hpos := Shape.size_pos hne
  rcases deserializeTree_outcome v with ⟨t, sh', r, htt, hne', hD⟩ | ⟨t, -, -, -, -, hno⟩ | ⟨t, -, -, -, hno⟩
  · obtain ⟨e1, e2, -⟩ := Shape.treeBits_unique hne hne' (hvn.symm.trans hD.bits)
    have hbr := hrd _ _ hD.advanced
    have hR := hD.rebuilt hne'
    have hnc := hD.nodeCount_eq
    rw [← e2] at hbr hnc
    have hq : (64 + (10 * sh.size - 8) + 7) / 8 = 8 + tree.length := by omega
    have hft := hD.frame
    rw [hf] at hft
    have hbr' : t.align.closeMetaRead.br = s.readerAfter (8 + tree.length) 0 := by
      show BitReader.mk t.br.cur 0 t.br.rdptr 0 0 = _
      rw [hbr]
      unfold State.readerAfter
      simp only [Nat.zero_add, Nat.reduceDiv, Nat.add_zero, hq]
      rfl
    have hmeta : t.align.closeMetaRead.metaSize = BitVec.ofNat 64 (8 + tree.length) := by
      show t.br.bytes = _
      rw [hbr]
      show BitVec.ofNat 64 ((64 + (10 * sh.size - 8) + 7) / 8) = _
      rw [hq]
    have hib : ∀ a, t.align.closeMetaRead.ibufByte a = s.ibufByte a := fun a => by
      show t.ibufByte a = _
      rw [hft]; rfl
    have hrf : ∀ b n, t.align.closeMetaRead.readerAfter b n = s.readerAfter b n := fun b n => by
      unfold State.readerAfter
      rw [hib]
    refine ⟨t.align.closeMetaRead, ?_, ?_, ?_, ?_, fun n w hw => ?_⟩
    · rw [hv]
      exact Proc.bind_ok htt
    · rw [State.unread_of_cursor rfl]
      have hsr : t.align.closeMetaRead.srcLen = s.srcLen := by
        show t.srcLen = _
        rw [hft]
      have hrp : t.align.closeMetaRead.br.rdptr.toNat = 8 + tree.length := by
        rw [hbr']
        show (BitVec.ofNat 64 (8 + tree.length)).toNat = _
        rw [BitVec.toNat_ofNat, Nat.mod_eq_of_lt (by omega)]
      have hbs : t.align.closeMetaRead.ibufBytes = s.ibufBytes := by
        funext a n
        unfold State.ibufBytes
        exact List.map_congr_left fun k _ => hib _
      rw [hrp, hsr, hbs, ← State.drop_ibufBytes, hi, ← List.append_assoc,
        List.drop_append_of_le_length (by simp [length_headerBytes]), List.drop_of_length_le (by simp [length_headerBytes]),
        List.nil_append]
    · refine (?_ : s.Rebuilt t sh).congr rfl rfl rfl rfl
      have h1 := hR.congr (s' := s) (t' := t) (by rw [hf]; rfl) rfl rfl rfl
      obtain ⟨a, b, c, d⟩ := h1
      rw [← e2] at b c d
      rw [← e1] at a b
      exact ⟨a, b, c, d⟩
    · show ({ t with br := t.align.closeMetaRead.br, metaSize := t.align.closeMetaRead.metaSize } : State) = _
      rw [hbr', hmeta]
      unfold State.inPayload
      rw [← hnc]
      conv_lhs => rw [hft]
      rfl
    · have := hw.readOn.eq_readerAfter (base := 8 + tree.length) (by rw [hbr', hrf]) (by omega)
      rw [this, hrf]
  · exact absurd hvn (hno sh _ hne)
  · have := hno sh _ hvn hne
    omega

/-! ### The payload -/

/-- A tree with a child, or a count of 0, passes the check before the payload (60_exceptions.md R336). -/
theorem checkNotEmpty_ok {s : State} {sh : Shape} (hR : s.HoldsTree sh.withRootZero)
    (h : sh.isChildless = false ∨ s.orig = 0) : checkNotEmpty s = .ok () s := by
  unfold checkNotEmpty
  rw [if_neg]
  obtain ⟨-, -, -, ns, hsub, -, -⟩ := hR
  rw [hsub.isChildless, Shape.isChildless_withRootZero]
  rcases h with h | h <;> rw [h] <;> simp

/-- From a state as `decompress_tree` gives it, the payload comes to a state in which the symbols that the tree decodes
are in OBUF and as many turns fewer are to go. -/
theorem payloadPart_decodes {s u : State} {sh : Shape} {count : DWord} {xs : List Byte} {tl n : Nat} {bs : List Bool}
    (hR : s.Rebuilt u sh) (hf : u = { s.inPayload u sh count tl 0 .zero with obuf := s.obuf })
    (hrd : ∀ n t, u.Advanced t n → t.br = s.readerAfter (8 + tl) n) (hu : u.unread = bs)
    (hd : sh.Decodes bs xs n) (hc : sh.isChildless = false ∨ xs = []) (hroom : xs.length ≤ s.obufSize)
    (h0 : sh.isChildless = false ∨ count = 0) :
    ∃ t, (∀ m, count.toNat = xs.length + m → payloadPart count u =
        (decompressLoop m >>= fun _ => Proc.change State.closePayloadRead) t) ∧
      u.Advanced t n ∧ s.Unpacked t sh xs ∧
      t = { s.inPayload t sh count tl n (writerAfter xs.length) with obuf := t.obuf } ∧
      t.HoldsTree sh.withRootZero := by
  have hub : u.bw = .zero := by rw [hf]; rfl
  have huo : u.obufSize = s.obufSize := by rw [hf]; rfl
  have hd' : sh.withRootZero.Decodes bs xs n := by
    rcases hc with hc | rfl
    · exact hd.withRootZero hc
    · cases hd; exact .nil _
  have hor : u.orig = count := by rw [hf]; rfl
  have hck : checkNotEmpty u = .ok () u := checkNotEmpty_ok hR.holds (h0.imp id fun h => hor.trans h)
  obtain ⟨t, hl, ha, hbw, hin, hout, hft⟩ := decompressLoop_decodes hd' (s := u) hR.holds (fun hx => by
    rw [Shape.isChildless_withRootZero]; exact hc.resolve_right hx) hu (by rw [hub]; rfl) (by rw [hub]; rfl)
    (by rw [hub, huo]; show 0 + _ ≤ _; omega)
  rw [hub] at hbw hin hout
  have hbw' : t.bw = writerAfter xs.length := by
    rw [hbw]; unfold writerAfter; simp [BitWriter.zero]
  have hnd : t.node = u.node := by rw [hft]; rfl
  have hob : ∀ a, u.obufByte a = s.obufByte a := fun a => by rw [hf]; rfl
  have hbr := hrd _ _ ha
  refine ⟨t, fun m hm => ?_, ha, ⟨?_, ?_, fun a hax => ?_⟩, ?_, ?_⟩
  · show (checkNotEmpty >>= fun _ => decompressLoop count.toNat >>= fun _ => Proc.change State.closePayloadRead) u = _
    rw [Proc.bind_ok hck, Proc.bind_apply, hm, hl, ← Proc.bind_apply]
  · exact hR.congr rfl hnd (by rw [hft]) (by rw [hft])
  · apply List.ext_getElem (by simp)
    intro k k1 k2
    simp only [State.obufBytes, List.getElem_map, List.getElem_range]
    exact hin k k2
  · rw [hout a (.inr (by show 0 + _ ≤ _; omega)), hob]
  · rw [← hbw']
    unfold State.inPayload
    rw [← hbr]
    conv_lhs => rw [hft]
    have e : t.nodes = u.nodes := by rw [hft]
    rw [e]
    conv_lhs => rw [hf]
    rfl
  · exact hR.holds.congr (by rw [hft]) (by rw [hft]) fun i _ => by rw [hnd]

end Sys2Proof.Machine
end

