-- ==== Sys2Proof/Laws/Frames.lean ====
section
/-! SUPPORT. What each procedure leaves alone, and the errors it can raise: for every block, any property of the state
that does not look at what the block writes is kept by its procedures (spec/40 to 45, the "core access" column of
20_memory.md R80). -/

namespace Sys2Proof.Machine

/-! ### Properties that do not look at some part of the state -/

/-- `P` does not look at the bit_writer's registers and OBUF. -/
abbrev NoWriter (P : State → Prop) : Prop := ∀ (s : State) (bw : BitWriter) (obuf : Memory), P s →
  P { s with bw := bw, obuf := obuf }

/-- `P` does not look at the bit_reader's registers. -/
abbrev NoReader (P : State → Prop) : Prop := ∀ (s : State) (br : BitReader), P s → P { s with br := br }

/-- `P` does not look at the arena, its registers and the two validity flags. -/
abbrev NoArena (P : State → Prop) : Prop :=
  ∀ (s : State) (nodes : Cells Node) (count : BitVec 10) (root : NodeIdx) (tv cv : Bool), P s →
    P { s with nodes := nodes, nodeCount := count, root := root, treeValid := tv, codesValid := cv }

/-- `P` does not look at CODE and CODES_VALID. -/
abbrev NoCodes (P : State → Prop) : Prop :=
  ∀ (s : State) (l : Vector Byte 256) (c : Vector (BitVec 255) 256) (cv : Bool), P s →
    P { s with codeLen := l, codeBits := c, codesValid := cv }

/-- `P` does not look at ORIG, META and PAYLOAD. -/
abbrev NoSizes (P : State → Prop) : Prop :=
  ∀ (s : State) (o m p : DWord), P s → P { s with orig := o, metaSize := m, payload := p }

section
variable {P : State → Prop}

theorem Proc.Keeps.ite {α : Type} {c : Prop} [Decidable c] {p q : Proc α} (hp : Proc.Keeps P p) (hq : Proc.Keeps P q) :
    Proc.Keeps P (if c then p else q) := by
  split_ifs <;> assumption

/-- CheckSrc and the check for a tree change nothing (41_bit_reader.md R183, 60_exceptions.md R339). -/
theorem checkSrc_keeps : Proc.Keeps P checkSrc := by
  intro s hs
  unfold checkSrc
  split_ifs <;> exact hs

theorem requireTree_keeps : Proc.Keeps P requireTree := by
  intro s hs
  unfold requireTree
  split_ifs <;> exact hs

theorem checkNotEmpty_keeps : Proc.Keeps P checkNotEmpty := by
  intro s hs
  unfold checkNotEmpty
  split_ifs <;> exact hs

/-! ### bit_writer and huffman_encoder -/

theorem addBit_keeps (h : NoWriter P) (b : Bool) : Proc.Keeps P (addBit b) := by
  have e : addBit b = addBits [b] := funext (addBits_singleton b)
  rw [e]
  exact addBits_keeps h _

theorem writeChar_keeps (h : NoWriter P) (v : Byte) : Proc.Keeps P (writeChar v) := addBits_keeps h _

theorem pad_keeps (h : NoWriter P) : Proc.Keeps P pad := by
  intro s hs
  rw [pad_eq]
  exact addBits_keeps h _ s hs

theorem writeHeader_keeps (h : NoWriter P) (v : DWord) : Proc.Keeps P (writeHeader v) := by
  refine .bind (.look _) fun o s hs => ?_
  rw [writeChars_eq]
  exact addBits_keeps h _ s hs

theorem serNode_keeps (h : NoWriter P) (fuel : Nat) : ∀ i, Proc.Keeps P (serNode fuel i) := by
  induction fuel with
  | zero => exact fun _ => .diverge
  | succ fuel ih =>
    have side : ∀ b i, Proc.Keeps P (serSide (serNode fuel) b i) := by
      intro b i
      unfold serSide
      exact .ite (.bind (addBit_keeps h _) fun _ => .bind (.look _) fun _ => .bind (writeChar_keeps h _) fun _ => ih _)
        (addBit_keeps h _)
    exact fun i => .bind (.look _) fun _ => .bind (side _ _) fun _ => side _ _

theorem serializeTree_keeps (h : NoWriter P) : Proc.Keeps P serializeTree :=
  .bind (.look _) fun _ => .bind (.look _) fun _ => serNode_keeps h _ _

theorem encodeSymbol_keeps (h : NoWriter P) (sym : Byte) : Proc.Keeps P (encodeSymbol sym) := by
  intro s hs
  unfold encodeSymbol
  split_ifs
  · exact hs
  · exact addBits_keeps h _ s hs

theorem encodeLoop_keeps (h : NoWriter P) (n i : Nat) : Proc.Keeps P (encodeLoop n i) := by
  induction n generalizing i with
  | zero => exact .pure ()
  | succ n ih => exact .bind (.look _) fun _ => .bind (encodeSymbol_keeps h _) fun _ => ih _

/-! ### bit_reader -/

theorem getBit_keeps (h : NoReader P) : Proc.Keeps P getBit := by
  intro s hs
  unfold getBit
  split_ifs
  · exact hs
  · show P s.pulled.stepCursor
    unfold State.stepCursor State.pulled
    split_ifs <;> exact h s _ hs

theorem readBits_keeps (h : NoReader P) (n : Nat) (v : Byte) : Proc.Keeps P (readBits n v) := by
  induction n generalizing v with
  | zero => exact .pure _
  | succ n ih => exact .bind (getBit_keeps h) fun _ => ih _

theorem readChar_keeps (h : NoReader P) : Proc.Keeps P readChar := readBits_keeps h _ _

theorem headerLoop_keeps (h : NoReader P) (o : HeaderOrder) (n j : Nat) (v : DWord) :
    Proc.Keeps P (headerLoop o n j v) := by
  induction n generalizing j v with
  | zero => exact .pure _
  | succ n ih => exact .bind (readChar_keeps h) fun _ => ih _ _

theorem readHeader_keeps (h : NoReader P) : Proc.Keeps P readHeader :=
  .bind (.look _) fun _ => headerLoop_keeps h _ _ _ _

theorem decodeLoop_keeps (h : NoReader P) (fuel : Nat) : ∀ i, Proc.Keeps P (decodeLoop fuel i) := by
  induction fuel with
  | zero => exact fun _ => .diverge
  | succ fuel ih =>
    exact fun i => .bind (.look _) fun _ => .ite (.pure _) (.bind (getBit_keeps h) fun _ => .ite (ih _) (.raise _))

theorem decodeSymbol_keeps (h : NoReader P) : Proc.Keeps P decodeSymbol :=
  .bind (.look _) fun _ => .bind (.look _) fun _ => .ite (.raise _) (.bind (.look _) fun _ => decodeLoop_keeps h _ _)

/-! ### tree_builder -/

theorem NoArena.nodes (h : NoArena P) (s : State) (nodes : Cells Node) (hs : P s) : P { s with nodes := nodes } :=
  h s nodes s.nodeCount s.root s.treeValid s.codesValid hs

theorem alloc_keeps (h : NoArena P) (n : Node) : Proc.Keeps P (alloc n) := by
  intro s hs
  unfold alloc
  split_ifs
  · exact hs
  · exact h s _ _ s.root s.treeValid s.codesValid hs

theorem mergePair_keeps (h : NoArena P) (a b : NodeIdx) : Proc.Keeps P (mergePair a b) :=
  .bind (.look _) fun _ => .bind (.look _) fun _ => .ite (.raise _) (alloc_keeps h _)

theorem mergeLoop_keeps (h : NoArena P) (n : Nat) (q : List NodeIdx) : Proc.Keeps P (mergeLoop n q) := by
  induction n generalizing q with
  | zero =>
    match q with
    | [] => exact .diverge
    | [_] => exact .pure _
    | _ :: _ :: _ => exact .diverge
  | succ n ih =>
    match q with
    | [] => exact .diverge
    | [_] => exact .pure _
    | x :: y :: q =>
      refine .bind (.look _) fun f => ?_
      dsimp only
      split
      · exact .diverge
      · exact .bind (mergePair_keeps h _ _) fun _ => ih _

theorem allocLeaves_keeps (h : NoArena P) (t : Vector DWord 256) (syms : List Byte) :
    Proc.Keeps P (allocLeaves t syms) := by
  induction syms with
  | nil => exact .pure _
  | cons a syms ih => exact .bind (alloc_keeps h _) fun _ => .bind ih fun _ => .pure _

theorem joinLeaves_keeps (h : NoArena P) (t : Vector DWord 256) (syms : List Byte) (ks : List NodeIdx) :
    Proc.Keeps P (joinLeaves t syms ks) := by
  unfold joinLeaves
  split
  · exact alloc_keeps h _
  · exact alloc_keeps h _
  · exact mergeLoop_keeps h _ _

theorem releaseArena_keeps (h : NoArena P) (s : State) (hs : P s) : P s.releaseArena :=
  h s s.nodes 0 0 false false hs

theorem setTree_keeps (h : NoArena P) (r : NodeIdx) (s : State) (hs : P s) : P (s.setTree r) :=
  h s s.nodes s.nodeCount r true s.codesValid hs

theorem buildTree_keeps (h : NoArena P) : Proc.Keeps P buildTree := by
  refine .orRelease (.bind (.change (releaseArena_keeps h)) fun _ => .bind (.look _) fun _ =>
    .bind (allocLeaves_keeps h _ _) fun _ => .bind (joinLeaves_keeps h _ _ _) fun r => .change ?_)
    (releaseArena_keeps h)
  exact setTree_keeps h r

/-! ### code_table_gen -/

theorem recordLeaf_keeps (h : NoCodes P) (sym : Byte) (p : List Bool) : Proc.Keeps P (recordLeaf sym p) := by
  intro s hs
  unfold recordLeaf
  split_ifs
  · exact hs
  · exact hs
  · exact h s _ _ s.codesValid hs

theorem codeWalk_keeps (h : NoCodes P) (fuel : Nat) : ∀ i p, Proc.Keeps P (codeWalk fuel i p) := by
  induction fuel with
  | zero => exact fun _ _ => .diverge
  | succ fuel ih =>
    have side : ∀ b i p, Proc.Keeps P (walkSide (codeWalk fuel) b i p) := by
      intro b i p
      unfold walkSide
      exact .ite (ih _ _) (.pure _)
    exact fun i p => .bind (.look _) fun _ => .ite (recordLeaf_keeps h _ _) (.bind (side _ _ _) fun _ => side _ _ _)

theorem genCodes_keeps (h : NoCodes P) : Proc.Keeps P genCodes := by
  have hv : ∀ s : State, P s → P { s with codesValid := true } := fun s hs => h s s.codeLen s.codeBits true hs
  exact .bind (.change fun s hs => h s _ _ false hs) fun _ => .bind (.look _) fun _ => .bind (.look _) fun _ =>
    .ite (.change hv) (.bind (codeWalk_keeps h _ _ _) fun _ => .change hv)

/-! ### huffman_decoder -/

theorem fillSide_keeps (hr : NoReader P) (ha : NoArena P) {fill : NodeIdx → Proc Unit}
    {attach : NodeIdx → State → State} (hf : ∀ c, Proc.Keeps P (fill c)) (hat : ∀ c s, P s → P (attach c s)) :
    Proc.Keeps P (fillSide fill attach) :=
  .bind (getBit_keeps hr) fun _ => .ite
    (.bind (readChar_keeps hr) fun _ => .bind (alloc_keeps ha _) fun c => .bind (.change (hat c)) fun _ => hf c) (.pure _)

theorem fill_keeps (hr : NoReader P) (ha : NoArena P) (fuel : Nat) : ∀ i, Proc.Keeps P (fill fuel i) := by
  induction fuel with
  | zero => exact fun _ => .diverge
  | succ fuel ih =>
    exact fun i => .bind (fillSide_keeps hr ha ih fun _ s hs => ha.nodes s _ hs) fun _ =>
      fillSide_keeps hr ha ih fun _ s hs => ha.nodes s _ hs

theorem deserializeTree_keeps (hr : NoReader P) (ha : NoArena P) : Proc.Keeps P deserializeTree := by
  refine .orRelease (.bind (.change (releaseArena_keeps ha)) fun _ => .bind (alloc_keeps ha _) fun r =>
    .bind (fill_keeps hr ha _ _) fun _ => .change ?_) (releaseArena_keeps ha)
  exact setTree_keeps ha r

theorem decompressLoop_keeps (hw : NoWriter P) (hr : NoReader P) (n : Nat) : Proc.Keeps P (decompressLoop n) := by
  induction n with
  | zero => exact .pure ()
  | succ n ih => exact .bind (decodeSymbol_keeps hr) fun _ => .bind (writeChar_keeps hw _) fun _ => ih

/-! ### The two whole sequences -/

theorem compress_keeps (hw : NoWriter P) (ha : NoArena P) (hc : NoCodes P) (hs : NoSizes P)
    (hf : ∀ (s : State) (f : Vector DWord 256), P s → P { s with freq := f }) : Proc.Keeps P compress := by
  refine .bind checkSrc_keeps fun _ => .bind (.change fun s h => hw s _ s.obuf h) fun _ =>
    .bind (.change fun s h => hs s _ _ _ h) fun _ => .bind (.change fun s h => hf s _ h) fun _ =>
    .bind (buildTree_keeps ha) fun _ => .bind (genCodes_keeps hc) fun _ => .bind (.look _) fun _ =>
    .bind (writeHeader_keeps hw _) fun _ => .bind (serializeTree_keeps hw) fun _ => .bind (pad_keeps hw) fun _ =>
    .bind (.change fun s h => hw _ _ _ (hs s s.orig s.bw.bytes s.payload h)) fun _ =>
    .bind (encodeLoop_keeps hw _ _) fun _ => .bind (pad_keeps hw) fun _ =>
    .change fun s h => hs s s.orig s.metaSize s.bw.bytes h

theorem decompress_keeps (hw : NoWriter P) (hr : NoReader P) (ha : NoArena P) (hs : NoSizes P) :
    Proc.Keeps P decompress := by
  refine .bind checkSrc_keeps fun _ =>
    .bind (.change fun s h => hr _ _ (hw _ _ s.obuf (hs s 0 0 0 h))) fun _ =>
    .bind (readHeader_keeps hr) fun v => .bind (.change fun s h => hs s v s.metaSize s.payload h) fun _ =>
    .bind (deserializeTree_keeps hr ha) fun _ => .bind (.change fun s h => hr s _ h) fun _ =>
    .bind (.change fun s h => hr _ _ (hs s s.orig s.br.bytes s.payload h)) fun _ => .bind checkNotEmpty_keeps fun _ =>
    .bind (decompressLoop_keeps hw hr _) fun _ => .change fun s h => hs s s.orig s.metaSize s.br.bytes h

end

/-! ### A completed command -/

/-- What the procedure keeps, and its completion keeps, holds of the next state. -/
theorem complete_keeps {P : State → Prop} {p : Proc Unit} {s t : State} (h : complete p s = .next t)
    (hp : Proc.Keeps P p) (hok : ∀ u, P u → P u.completeOk) (herr : ∀ u e, P u → P (u.completeErr e)) (hs : P s) :
    P t := by
  rcases complete_next h with ⟨u, hu, rfl⟩ | ⟨e, u, hu, rfl⟩
  · exact hok u (hp.of_ok hs hu)
  · exact herr u e (hp.of_error hs hu)

theorem complete_phase {p : Proc Unit} {s t : State} (h : complete p s = .next t) : t.phase = .idle := by
  rcases complete_next h with ⟨u, -, rfl⟩ | ⟨e, u, -, rfl⟩ <;> rfl

/-- The pseudocode of each command, as its meaning has it. -/
def procOf : Instr → Proc Unit
  | .bwInit => Proc.change State.initWriter
  | .bwAddBit b => addBit b
  | .bwWriteChar v => writeChar v
  | .bwPad => pad
  | .bwResetCounts => Proc.change State.resetWriterCounts
  | .brInit => Proc.change State.initReader
  | .brGetBit => checkSrc >>= fun _ => getBit >>= fun b => Proc.change (·.setResult ((BitVec.ofBool b).zeroExtend 8))
  | .brReadChar => checkSrc >>= fun _ => readChar >>= fun v => Proc.change (·.setResult v)
  | .brAlign => Proc.change State.align
  | .brResetCounts => Proc.change State.resetReaderCounts
  | .tbCount => checkSrc >>= fun _ => Proc.change State.countFreq
  | .tbBuild => buildTree
  | .tbAdopt => Proc.change State.invalidateTree >>= fun _ => Proc.look State.treeIsSound >>= fun sound =>
      if sound then Proc.change ({ · with treeValid := true }) else Proc.raise .argBadTree
  | .ctGen => requireTree >>= fun _ => genCodes
  | .encWriteHeader => Proc.change State.recordOrig >>= fun _ => Proc.look (·.srcLen) >>= fun len => writeHeader len
  | .encSerializeTree => requireTree >>= fun _ => serializeTree
  | .encEncodeSymbol v => encodeSymbol v
  | .encCompress => compress
  | .decReadHeader => checkSrc >>= fun _ => readHeader >>= fun v => Proc.change (·.setOrig v)
  | .decDeserializeTree => checkSrc >>= fun _ => deserializeTree
  | .decDecodeSymbol => checkSrc >>= fun _ => requireTree >>= fun _ => decodeSymbol >>= fun sym =>
      Proc.change (·.setResult sym)
  | .decDecompress => decompress

/-- Every command is the completion of its pseudocode (60_exceptions.md R322). -/
theorem exec_eq (i : Instr) (s : State) : exec i s = complete (procOf i) s := by cases i <;> rfl

end Sys2Proof.Machine
end

