-- ==== Sys2Proof/Laws/HostBus.lean ====
section
/-! SUPPORT. Host accesses while the core is idle (spec/20_memory.md R80 to R87): a read answers `readWord`, a write
leaves `writeWord`, and where each address of the map lies. -/

namespace Sys2Proof.Machine

theorem step_of_idle {s : State} (h : s.phase = .idle) : step s = .next s.serveHost := by
  unfold step
  rw [h]

theorem toNat_addr {a : Nat} (h : a < 2 ^ 32) : (BitVec.ofNat 32 a).toNat = a := by
  rw [BitVec.toNat_ofNat, Nat.mod_eq_of_lt h]

theorem alignedAddr_ofNat {a : Nat} (h : a < 2 ^ 32) (h4 : a % 4 = 0) : alignedAddr (BitVec.ofNat 32 a) = true := by
  unfold alignedAddr
  rw [toNat_addr h, h4]
  rfl

theorem State.busy_eq_false {s : State} (h : s.phase = .idle) : s.busy = false := by
  unfold State.busy
  rw [h]
  rfl

/-- An aligned host read while idle answers `readWord` and changes nothing (20_memory.md R84, R86). -/
theorem State.reads_of {s : State} {a : Nat} {d : Word} (hs : s.phase = .idle) (ha : a < 2 ^ 32) (h4 : a % 4 = 0)
    (hd : s.readWord (BitVec.ofNat 32 a) = d) : s.Reads a d := by
  intro q
  have hb := State.busy_eq_false hs
  refine (step_of_idle (s := { s with hostQueue := .read (BitVec.ofNat 32 a) :: q }) hs).trans ?_
  show Host.Outcome.next (State.hostRead { s with hostQueue := q } (BitVec.ofNat 32 a)) = _
  unfold State.hostRead
  rw [alignedAddr_ofNat ha h4, show State.busy { s with hostQueue := q } = false from hb,
    show State.readWord { s with hostQueue := q } (BitVec.ofNat 32 a) = d from hd]
  rfl

/-- An aligned host write while idle, other than to CMD, leaves `writeWord` (20_memory.md R86). -/
theorem State.writes_of {s t : State} {a : Nat} {d : Word} (hs : s.phase = .idle) (ha : a < 2 ^ 32) (h4 : a % 4 = 0)
    (h0 : a ≠ 0)
    (hd : ∀ q, State.writeWord { s with hostQueue := q } (BitVec.ofNat 32 a) d = { t with hostQueue := q }) :
    s.Writes a d t := by
  intro q
  have hb := State.busy_eq_false hs
  have hne : BitVec.ofNat 32 a ≠ 0 := fun h => h0 (by
    have := congrArg BitVec.toNat h
    rwa [toNat_addr ha] at this)
  refine (step_of_idle (s := { s with hostQueue := .write (BitVec.ofNat 32 a) d :: q }) hs).trans ?_
  show Host.Outcome.next (State.hostWrite { s with hostQueue := q } (BitVec.ofNat 32 a) d) = _
  unfold State.hostWrite
  rw [alignedAddr_ofNat ha h4, show State.busy { s with hostQueue := q } = false from hb, if_neg hne, hd q]
  rfl

/-! ### Where an address lies (20_memory.md R80, R85) -/

theorem region_register (m n : Nat) {a : Nat} (h : a < 0x74) : regionOf m n a = .register a := by
  unfold regionOf
  rw [if_pos h]

theorem region_freq (m n : Nat) (sym : Byte) :
    regionOf m n (0x1000 + 8 * sym.toNat) = .freq sym false ∧ regionOf m n (0x1004 + 8 * sym.toNat) = .freq sym true := by
  have := sym.isLt
  unfold regionOf
  refine ⟨?_, ?_⟩ <;> rw [if_neg (by omega), if_pos (by omega)]
  · rw [show (0x1000 + 8 * sym.toNat - 0x1000) / 8 = sym.toNat by omega,
      show (0x1000 + 8 * sym.toNat - 0x1000) % 8 = 0 by omega, BitVec.ofNat_toNat, BitVec.setWidth_eq]
    rfl
  · rw [show (0x1004 + 8 * sym.toNat - 0x1000) / 8 = sym.toNat by omega,
      show (0x1004 + 8 * sym.toNat - 0x1000) % 8 = 4 by omega, BitVec.ofNat_toNat, BitVec.setWidth_eq]
    rfl

theorem region_codeLen (m n : Nat) (sym : Byte) : regionOf m n (0x2000 + 4 * sym.toNat) = .codeLen sym := by
  have := sym.isLt
  unfold regionOf
  rw [if_neg (by omega), if_neg (by omega), if_pos (by omega),
    show (0x2000 + 4 * sym.toNat - 0x2000) / 4 = sym.toNat by omega, BitVec.ofNat_toNat, BitVec.setWidth_eq]

theorem region_codeBits (m n : Nat) (sym : Byte) {w : Nat} (h : w < 8) :
    regionOf m n (0x4000 + 32 * sym.toNat + 4 * w) = .codeBits sym w := by
  have := sym.isLt
  unfold regionOf
  rw [if_neg (by omega), if_neg (by omega), if_neg (by omega), if_pos (by omega),
    show (0x4000 + 32 * sym.toNat + 4 * w - 0x4000) / 32 = sym.toNat by omega,
    show (0x4000 + 32 * sym.toNat + 4 * w - 0x4000) % 32 / 4 = w by omega, BitVec.ofNat_toNat, BitVec.setWidth_eq]

theorem region_node (m n : Nat) (i : NodeIdx) {w : Nat} (h : w < 4) :
    regionOf m n (0x8000 + 16 * i.toNat + 4 * w) = .node i w := by
  have := i.isLt
  unfold regionOf
  rw [if_neg (by omega), if_neg (by omega), if_neg (by omega), if_neg (by omega), if_pos (by omega),
    show (0x8000 + 16 * i.toNat + 4 * w - 0x8000) / 16 = i.toNat by omega,
    show (0x8000 + 16 * i.toNat + 4 * w - 0x8000) % 16 / 4 = w by omega, BitVec.ofNat_toNat, BitVec.setWidth_eq]

theorem region_ibuf {m : Nat} (n : Nat) {a : Nat} (h : a < m) : regionOf m n (0x01000000 + a) = .ibuf a := by
  unfold regionOf
  rw [if_neg (by omega), if_neg (by omega), if_neg (by omega), if_neg (by omega), if_neg (by omega), if_pos (by omega),
    Nat.add_sub_cancel_left]

theorem region_obuf {m n : Nat} (hm : m ≤ 2 ^ 24) {a : Nat} (h : a < n) : regionOf m n (0x02000000 + a) = .obuf a := by
  unfold regionOf
  rw [if_neg (by omega), if_neg (by omega), if_neg (by omega), if_neg (by omega), if_neg (by omega), if_neg (by omega),
    if_pos (by omega), Nat.add_sub_cancel_left]

theorem region_unmapped {m n a : Nat} (hm : m ≤ 2 ^ 24) (h : UnmappedAddr m n a) (ha : a < 2 ^ 32) :
    regionOf m n a = .unmapped := by
  unfold UnmappedAddr at h
  unfold regionOf
  rw [if_neg (by omega), if_neg (by omega), if_neg (by omega), if_neg (by omega), if_neg (by omega), if_neg (by omega),
    if_neg (by omega)]

/-- The legal sizes (00_scope.md R9). -/
theorem Params.wf_iff (p : Params) : p.wf = true ↔
    (p.ibufSize.toNat % 4 = 0 ∧ 4 ≤ p.ibufSize.toNat ∧ p.ibufSize.toNat ≤ 2 ^ 24) ∧
    (p.obufSize.toNat % 4 = 0 ∧ 4 ≤ p.obufSize.toNat ∧ p.obufSize.toNat ≤ 2 ^ 24) := by
  simp only [Params.wf, sizeWf, Bool.and_eq_true, beq_iff_eq, decide_eq_true_eq, and_assoc]

/-- The four bytes of a lane word (20_memory.md R81). -/
theorem laneByte_laneWord (b0 b1 b2 b3 : Byte) :
    laneByte (laneWord b0 b1 b2 b3) 0 = b0 ∧ laneByte (laneWord b0 b1 b2 b3) 1 = b1 ∧
    laneByte (laneWord b0 b1 b2 b3) 2 = b2 ∧ laneByte (laneWord b0 b1 b2 b3) 3 = b3 := by
  unfold laneByte laneWord
  refine ⟨?_, ?_, ?_, ?_⟩ <;> ext i hi <;> simp only [BitVec.getElem_extractLsb', BitVec.getLsbD_append]
  · rw [if_pos (by omega), ← BitVec.getLsbD_eq_getElem]
    congr 1; omega
  · rw [if_neg (by omega), if_pos (by omega), ← BitVec.getLsbD_eq_getElem]
    congr 1; omega
  · rw [if_neg (by omega), if_neg (by omega), if_pos (by omega), ← BitVec.getLsbD_eq_getElem]
    congr 1; omega
  · rw [if_neg (by omega), if_neg (by omega), if_neg (by omega), ← BitVec.getLsbD_eq_getElem]
    congr 1; omega

end Sys2Proof.Machine
end

