-- ==== Sys2Proof/Laws/Layout.lean ====
section
/-! SUPPORT. The fields of the words the host sees (spec/10_state.md R34, R46, R49, R52, 20_memory.md R85): where each
stands in its word, and that the reserved bits read 0. -/

namespace Sys2Proof.Machine

/-- STATUS (10_state.md R34), over its fields. -/
theorem statusWord_flags (s : State) :
    s.statusWord.getLsbD 0 = s.busy ∧ s.statusWord.getLsbD 1 = s.done ∧ s.statusWord.getLsbD 2 = s.err ∧
    s.statusWord.getLsbD 3 = s.treeValid ∧ s.statusWord.getLsbD 4 = s.codesValid ∧
    s.statusWord.getLsbD 5 = s.cmdOvr := by
  unfold State.statusWord flagAt
  refine ⟨?_, ?_, ?_, ?_, ?_, ?_⟩ <;> simp

theorem statusWord_bytes (s : State) :
    s.statusWord.extractLsb' 6 2 = 0 ∧ s.statusWord.extractLsb' 8 8 = s.errCode ∧
    s.statusWord.extractLsb' 16 8 = s.lastOp ∧ s.statusWord.extractLsb' 24 8 = 0 := by
  unfold State.statusWord flagAt
  refine ⟨?_, ?_, ?_, ?_⟩ <;> ext i hi <;> interval_cases i <;> simp [BitVec.getLsbD_eq_getElem]

/-- A byte with a three-bit cursor above it: BW_CUR_POS and BR_CUR_POS (10_state.md R46, R49). -/
theorem cursorWord_fields (cur : Byte) (pos : BitVec 3) :
    (cur.zeroExtend 32 ||| (pos.zeroExtend 32 <<< 8)).extractLsb' 0 8 = cur ∧
    (cur.zeroExtend 32 ||| (pos.zeroExtend 32 <<< 8)).extractLsb' 8 3 = pos ∧
    (cur.zeroExtend 32 ||| (pos.zeroExtend 32 <<< 8)).extractLsb' 11 21 = 0 := by
  refine ⟨?_, ?_, ?_⟩ <;> ext i hi <;> interval_cases i <;> simp [BitVec.getLsbD_eq_getElem]

/-- TREE (10_state.md R52). -/
theorem treeWord_fields (root : NodeIdx) (count : BitVec 10) :
    (treeWord root count).extractLsb' 0 9 = root ∧ (treeWord root count).extractLsb' 16 10 = count ∧
    (treeWord root count).extractLsb' 9 7 = 0 ∧ (treeWord root count).extractLsb' 26 6 = 0 := by
  unfold treeWord
  refine ⟨?_, ?_, ?_, ?_⟩ <;> ext i hi <;> interval_cases i <;> simp [BitVec.getLsbD_eq_getElem]

/-- W0 of a NODE slot (20_memory.md R85). -/
theorem nodeWord0_fields (n : Node) :
    n.word0.extractLsb' 0 8 = n.sym ∧ n.word0.getLsbD 8 = n.lp ∧ n.word0.getLsbD 9 = n.rp ∧
    n.word0.extractLsb' 10 9 = n.left ∧ n.word0.extractLsb' 19 9 = n.right ∧ n.word0.extractLsb' 28 4 = 0 := by
  unfold Node.word0
  refine ⟨?_, ?_, ?_, ?_, ?_, ?_⟩
  · ext i hi; interval_cases i <;> simp [BitVec.getLsbD_eq_getElem]
  · simp [BitVec.getLsbD_eq_getElem]
  · simp [BitVec.getLsbD_eq_getElem]
  · ext i hi; interval_cases i <;> simp [BitVec.getLsbD_eq_getElem]
  · ext i hi; interval_cases i <;> simp [BitVec.getLsbD_eq_getElem]
  · ext i hi; interval_cases i <;> simp [BitVec.getLsbD_eq_getElem]

/-- A slot whose W0 is written reads back what was written, but for the reserved bits (20_memory.md R85). -/
theorem Node.ofWord0_word0 (n : Node) : Node.ofWord0 n.word0 n.freq = n := by
  obtain ⟨h1, h2, h3, h4, h5, -⟩ := nodeWord0_fields n
  unfold Node.ofWord0
  rw [h1, h2, h3, h4, h5]

/-- Word `w` of CODE_BITS (20_memory.md R85). -/
theorem codeBitsWord_bit (bits : BitVec 255) (w : Nat) {j : Nat} (h : j < 32) (hw : w < 8) :
    (codeBitsWord bits w).getLsbD j = bits.getLsbD (32 * w + j) := by
  unfold codeBitsWord
  rw [BitVec.getLsbD_extractLsb', decide_eq_true h, Bool.true_and, BitVec.getLsbD_setWidth,
    decide_eq_true (show 32 * w + j < 256 by omega), Bool.true_and]

end Sys2Proof.Machine
end

