-- ==== Sys2Proof/Laws/Lockstep.lean ====
section
/-! SUPPORT. Two runs side by side (spec/10_state.md R61): over states that agree on what a procedure looks at, it
answers the same and leaves states that agree again. -/

namespace Sys2Proof.Machine

/-- Which parts two states are said to agree on. -/
structure Parts where
  reader : Bool
  writer : Bool
  arena : Bool

/-- The states agree on the parts named: the reader's registers with SRC_LEN and IBUF below it; the writer's registers
with OBUF below BW_WRPTR; for either of these the parameters; NODE_COUNT with the allocated slots. -/
structure Alike (c : Parts) (s s' : State) : Prop where
  params : (c.reader || c.writer) = true → s.params = s'.params
  srcLen : c.reader = true → s.srcLen = s'.srcLen
  ibuf : c.reader = true → ∀ a < s.srcLen.toNat, s.ibufByte a = s'.ibufByte a
  reader : c.reader = true → s.br = s'.br
  writer : c.writer = true → s.bw = s'.bw ∧ s.bw.wrptr.toNat ≤ s.obufSize ∧
    ∀ a < s.bw.wrptr.toNat, s.obufByte a = s'.obufByte a
  arena : c.arena = true → s.nodeCount = s'.nodeCount ∧
    ∀ i : NodeIdx, i.toNat < s.nodeCount.toNat → s.node i = s'.node i

/-- The same answer, and states in the relation. -/
def SameResult {α : Type} (R : State → State → Prop) : EStateM.Result Abort State α → EStateM.Result Abort State α → Prop
  | .ok a t, .ok a' t' => a = a' ∧ R t t'
  | .error e t, .error e' t' => e = e' ∧ R t t'
  | .ok _ _, .error _ _ => False
  | .error _ _, .ok _ _ => False

/-- `p` run on related states gives the same answer and related states. -/
def Lockstep {α : Type} (R : State → State → Prop) (p : Proc α) : Prop := ∀ s s', R s s' → SameResult R (p s) (p s')

section
variable {α β : Type} {R : State → State → Prop}

theorem SameResult.bind {Q : State → State → Prop} {p q : Proc α} {f g : α → Proc β} {s s' : State}
    (h : SameResult Q (p s) (q s')) (hok : ∀ a t t', p s = .ok a t → q s' = .ok a t' → Q t t' →
      SameResult R (f a t) (g a t')) (herr : ∀ t t', Q t t' → R t t') : SameResult R ((p >>= f) s) ((q >>= g) s') := by
  rw [Proc.bind_apply, Proc.bind_apply]
  cases hp : p s with
  | ok a t =>
    cases hq : q s' with
    | ok a' t' =>
      rw [hp, hq] at h
      obtain ⟨rfl, hr⟩ := h
      exact hok a t t' hp hq hr
    | error e t' => rw [hp, hq] at h; exact h.elim
  | error e t =>
    cases hq : q s' with
    | ok a' t' => rw [hp, hq] at h; exact h.elim
    | error e' t' =>
      rw [hp, hq] at h
      obtain ⟨rfl, hr⟩ := h
      exact ⟨rfl, herr t t' hr⟩

theorem Lockstep.bind {p : Proc α} {f : α → Proc β} (hp : Lockstep R p) (hf : ∀ a, Lockstep R (f a)) :
    Lockstep R (p >>= f) := fun s s' h => (hp s s' h).bind (fun a t t' _ _ ht => hf a t t' ht) fun _ _ h => h

theorem Lockstep.pure (a : α) : Lockstep R (Pure.pure a : Proc α) := fun _ _ h => ⟨rfl, h⟩

theorem Lockstep.raise (e : ErrCode) : Lockstep R (Proc.raise e : Proc α) := fun _ _ h => ⟨rfl, h⟩

theorem Lockstep.diverge : Lockstep R (Proc.diverge : Proc α) := fun _ _ h => ⟨rfl, h⟩

theorem Lockstep.ite {b : Prop} [Decidable b] {p q : Proc α} (hp : Lockstep R p) (hq : Lockstep R q) :
    Lockstep R (if b then p else q) := by
  split_ifs <;> assumption

end

variable {c : Parts}

/-! ### bit_writer -/

theorem addBit_lockstep (hc : c.writer = true) (b : Bool) : Lockstep (Alike c) (addBit b) := by
  intro s s' h
  obtain ⟨hbw, hle, hob⟩ := h.writer hc
  have hos : s.obufSize = s'.obufSize := by unfold State.obufSize; rw [h.params (by rw [hc, Bool.or_true])]
  have hf : s.flushBlocked = s'.flushBlocked := by unfold State.flushBlocked; rw [hbw, hos]
  rw [addBit_apply, addBit_apply, ← hf]
  cases hfb : s.flushBlocked with
  | true => exact ⟨rfl, h⟩
  | false =>
    refine ⟨rfl, ?_⟩
    by_cases hp : s.bw.pos = 7
    · have hlt : s.bw.wrptr.toNat < s.obufSize := by
        have := mt s.flushBlocked_iff.2 (by simp [hfb])
        by_contra hn
        exact this ⟨hp, by omega⟩
      have hobs : s.obufSize < 2 ^ 32 := s.params.obufSize.isLt
      have hw1 : (s.bw.wrptr + 1).toNat = s.bw.wrptr.toNat + 1 := by
        simp only [BitVec.toNat_add, BitVec.ofNat_eq_ofNat, BitVec.toNat_ofNat]
        omega
      rw [State.placeBit_of_pos_eq hp, State.placeBit_of_pos_eq (by rw [← hbw]; exact hp), ← hbw]
      refine ⟨h.params, h.srcLen, h.ibuf, h.reader, fun _ => ⟨rfl, ?_, fun a ha => ?_⟩, h.arena⟩
      · show (s.bw.wrptr + 1).toNat ≤ s.obufSize
        omega
      · have ha : a < s.bw.wrptr.toNat + 1 := by rw [← hw1]; exact ha
        show (s.setObuf s.bw.wrptr.toNat (s.bw.curWith b)).obufByte a =
          (s'.setObuf s.bw.wrptr.toNat (s.bw.curWith b)).obufByte a
        rw [State.obufByte_setObuf, State.obufByte_setObuf]
        split_ifs with h1
        · rfl
        · exact hob a (by omega)
    · rw [State.placeBit_of_pos_ne hp, State.placeBit_of_pos_ne (by rw [← hbw]; exact hp), ← hbw]
      exact ⟨h.params, h.srcLen, h.ibuf, h.reader, fun _ => ⟨rfl, hle, hob⟩, h.arena⟩

theorem addBits_lockstep (hc : c.writer = true) (bs : List Bool) : Lockstep (Alike c) (addBits bs) := by
  induction bs with
  | nil => exact .pure ()
  | cons b bs ih => exact .bind (addBit_lockstep hc b) fun _ => ih

/-! ### bit_reader -/

theorem Alike.sourceEnded {s s' : State} (h : Alike c s s') (hc : c.reader = true) : s.sourceEnded = s'.sourceEnded := by
  unfold State.sourceEnded
  rw [h.reader hc, h.srcLen hc]

/-- Agreeing states have the same unread bits. -/
theorem Alike.unread {s s' : State} (h : Alike c s s') (hc : c.reader = true) : s.unread = s'.unread := by
  unfold State.unread State.curUnread
  rw [← h.reader hc, ← h.srcLen hc]
  congr 2
  unfold State.ibufBytes
  apply List.map_congr_left
  intro k hk
  have := List.mem_range.1 hk
  exact h.ibuf hc _ (by omega)

theorem getBit_lockstep (hc : c.reader = true) : Lockstep (Alike c) getBit := by
  intro s s' h
  have hbr := h.reader hc
  rw [getBit_apply, getBit_apply, ← h.sourceEnded hc]
  cases hse : s.sourceEnded with
  | true => exact ⟨rfl, h⟩
  | false =>
    by_cases h0 : s.br.cursor = 0
    · have hlt : s.br.rdptr.toNat < s.srcLen.toNat := by
        simp only [State.sourceEnded, h0, BEq.rfl, Bool.true_and, decide_eq_false_iff_not, BitVec.le_def] at hse
        omega
      have e : s.ibufByte s.br.rdptr.toNat = s'.ibufByte s.br.rdptr.toNat := h.ibuf hc _ hlt
      have hp : s.pulled.br = s'.pulled.br := by
        unfold State.pulled
        rw [if_pos h0, if_pos (by rw [← hbr]; exact h0), ← hbr, e]
      have f : ∀ t : State, t.pulled = { t with br := t.pulled.br } := fun t => by
        unfold State.pulled
        split_ifs <;> rfl
      refine ⟨by rw [hp], ?_⟩
      show Alike c s.pulled.stepCursor s'.pulled.stepCursor
      unfold State.stepCursor
      rw [f s, f s', ← hp]
      exact ⟨h.params, h.srcLen, h.ibuf, fun _ => rfl, h.writer, h.arena⟩
    · have h0' : ¬ s'.br.cursor = 0 := by rw [← hbr]; exact h0
      simp only [State.pulled, if_neg h0, if_neg h0', Bool.false_eq_true, if_false]
      refine ⟨by rw [hbr], ?_⟩
      unfold State.stepCursor
      rw [← hbr]
      exact ⟨h.params, h.srcLen, h.ibuf, fun _ => rfl, h.writer, h.arena⟩

theorem readBits_lockstep (hc : c.reader = true) (n : Nat) (v : Byte) : Lockstep (Alike c) (readBits n v) := by
  induction n generalizing v with
  | zero => exact .pure _
  | succ n ih => exact .bind (getBit_lockstep hc) fun _ => ih _

theorem readChar_lockstep (hc : c.reader = true) : Lockstep (Alike c) readChar := readBits_lockstep hc 8 0

theorem headerLoop_lockstep (hc : c.reader = true) (o : HeaderOrder) (n j : Nat) (v : DWord) :
    Lockstep (Alike c) (headerLoop o n j v) := by
  induction n generalizing j v with
  | zero => exact .pure _
  | succ n ih => exact .bind (readChar_lockstep hc) fun _ => ih _ _

theorem readHeader_lockstep (hc : c.reader = true) : Lockstep (Alike c) readHeader := by
  intro s s' h
  show SameResult _ (headerLoop s.params.headerOrder 8 0 0 s) (headerLoop s'.params.headerOrder 8 0 0 s')
  rw [← h.params (by rw [hc, Bool.true_or])]
  exact headerLoop_lockstep hc _ _ _ _ s s' h

/-! ### The arena -/

theorem alloc_lockstep (hc : c.arena = true) (n : Node) {s s' : State} (h : Alike c s s') :
    SameResult (fun t t' => Alike c t t') (alloc n s) (alloc n s') ∧
    ∀ k t, alloc n s = .ok k t → k.toNat < t.nodeCount.toNat ∧ s.nodeCount.toNat ≤ t.nodeCount.toNat := by
  obtain ⟨hnc, hnd⟩ := h.arena hc
  by_cases hcap : s.nodeCount.toNat < 512
  · have hcap' : s'.nodeCount.toNat < 512 := by rw [← hnc]; exact hcap
    obtain ⟨k, t, ht, hk, hct, hn, hf⟩ := alloc_ok n hcap
    obtain ⟨k', t', ht', hk', hct', hn', hf'⟩ := alloc_ok n hcap'
    have hkk : k = k' := BitVec.eq_of_toNat_eq (by rw [hk, hk', hnc])
    subst hkk
    rw [ht, ht']
    refine ⟨⟨rfl, ?_⟩, ?_⟩
    · have hr : t.nodeCount = t'.nodeCount := BitVec.eq_of_toNat_eq (by rw [hct, hct', hnc])
      refine ⟨by rw [hf, hf']; exact h.params, by rw [hf, hf']; exact h.srcLen, ?_, ?_, ?_, fun _ => ⟨hr, fun i hi => ?_⟩⟩
      · rw [hf, hf']; exact h.ibuf
      · rw [hf, hf']; exact h.reader
      · rw [hf, hf']; exact h.writer
      · rw [hn, hn']
        split_ifs with hik
        · rfl
        · refine hnd i ?_
          have : i.toNat ≠ k.toNat := fun he => hik (BitVec.eq_of_toNat_eq he)
          omega
    · rintro k2 t2 h2
      injection h2 with e1 e2
      subst e1 e2
      omega
  · rw [alloc_full n (by omega), alloc_full n (by rw [← hnc]; omega)]
    exact ⟨⟨rfl, h⟩, fun k t h => by cases h⟩

/-- A change of one allocated slot, from its own contents, and of nothing else. -/
theorem Alike.setNode {s s' : State} (h : Alike c s s') {i : NodeIdx} {f : Node → Node}
    (hi : c.arena = true → i.toNat < s.nodeCount.toNat) :
    Alike c (s.setNode i (f (s.node i))) (s'.setNode i (f (s'.node i))) := by
  refine ⟨h.params, h.srcLen, h.ibuf, h.reader, h.writer, fun hc => ?_⟩
  obtain ⟨hnc, hnd⟩ := h.arena hc
  refine ⟨hnc, fun j hj => ?_⟩
  rw [State.node_setNode, State.node_setNode, hnd i (hi hc)]
  split_ifs
  · rfl
  · exact hnd j hj

theorem Alike.releaseArena {s s' : State} {r w a b : Bool} (h : Alike ⟨r, w, a⟩ s s') :
    Alike ⟨r, w, b⟩ s.releaseArena s'.releaseArena :=
  ⟨h.params, h.srcLen, h.ibuf, h.reader, h.writer, fun _ => ⟨rfl, fun i hi => absurd hi (by
    show ¬ i.toNat < (0 : BitVec 10).toNat
    simp)⟩⟩

theorem Alike.setTree {s s' : State} (h : Alike c s s') (r : NodeIdx) : Alike c (s.setTree r) (s'.setTree r) :=
  ⟨h.params, h.srcLen, h.ibuf, h.reader, h.writer, h.arena⟩

/-! ### tree_builder -/

/-- Agreement after a step of the builder, every index of the queue being allocated. -/
theorem mergeLoop_lockstep (hc : c.arena = true) (n : Nat) (q : List NodeIdx) {s s' : State} (h : Alike c s s')
    (hq : ∀ i ∈ q, i.toNat < s.nodeCount.toNat) : SameResult (Alike c) (mergeLoop n q s) (mergeLoop n q s') := by
  induction n generalizing q s s' with
  | zero =>
    match q with
    | [] => exact ⟨rfl, h⟩
    | [_] => exact ⟨rfl, h⟩
    | _ :: _ :: _ => exact ⟨rfl, h⟩
  | succ n ih =>
    match q with
    | [] => exact ⟨rfl, h⟩
    | [_] => exact ⟨rfl, h⟩
    | x :: y :: q =>
      obtain ⟨hnc, hnd⟩ := h.arena hc
      have hleast : ∀ (f g : NodeIdx → DWord) (a : NodeIdx) (q : List NodeIdx), (∀ i ∈ a :: q, f i = g i) →
          leastOf f a q = leastOf g a q := by
        intro f g a q
        induction q generalizing a with
        | nil => intro _; rfl
        | cons b q ihq =>
          intro hfg
          have hb : comesBefore f b a = comesBefore g b a := by
            unfold comesBefore
            rw [hfg a (by simp), hfg b (by simp)]
          show leastOf f (if comesBefore f b a then b else a) q = leastOf g (if comesBefore g b a then b else a) q
          rw [hb]
          apply ihq
          intro i hi
          apply hfg
          split_ifs at hi <;> simp only [List.mem_cons] at hi ⊢ <;> tauto
      have hpop : ∀ (a : NodeIdx) (q : List NodeIdx), (∀ i ∈ a :: q, i.toNat < s.nodeCount.toNat) →
          popMin (fun i => (s.node i).freq) a q = popMin (fun i => (s'.node i).freq) a q := by
        intro a q hi
        unfold popMin
        rw [hleast _ (fun i => (s'.node i).freq) a q fun i hm => by rw [hnd i (hi i hm)]]
      have hpopm : ∀ (f : NodeIdx → DWord) (a : NodeIdx) (q : List NodeIdx),
          (popMin f a q).1 ∈ a :: q ∧ ∀ i ∈ (popMin f a q).2, i ∈ a :: q := fun f a q =>
        ⟨(leastOf_spec f a q).1, fun i hi => List.mem_of_mem_erase hi⟩
      show SameResult _
        ((match (popMin (fun i => (s.node i).freq) x (y :: q)).2 with
          | [] => Proc.diverge
          | z :: q' => mergePair (popMin (fun i => (s.node i).freq) x (y :: q)).1
              (popMin (fun i => (s.node i).freq) z q').1 >>= fun k =>
              mergeLoop n ((popMin (fun i => (s.node i).freq) z q').2 ++ [k])) s)
        ((match (popMin (fun i => (s'.node i).freq) x (y :: q)).2 with
          | [] => Proc.diverge
          | z :: q' => mergePair (popMin (fun i => (s'.node i).freq) x (y :: q)).1
              (popMin (fun i => (s'.node i).freq) z q').1 >>= fun k =>
              mergeLoop n ((popMin (fun i => (s'.node i).freq) z q').2 ++ [k])) s')
      rw [← hpop x (y :: q) hq]
      have hm1 := hpopm (fun i => (s.node i).freq) x (y :: q)
      revert hm1
      generalize popMin (fun i => (s.node i).freq) x (y :: q) = pa
      rintro ⟨ha, hrest⟩
      obtain ⟨a, rest⟩ := pa
      dsimp only at ha hrest ⊢
      cases rest with
      | nil => exact ⟨rfl, h⟩
      | cons z q' =>
        dsimp only
        have hz : ∀ i ∈ z :: q', i.toNat < s.nodeCount.toNat := fun i hi => hq i (hrest i hi)
        rw [← hpop z q' hz]
        have hm2 := hpopm (fun i => (s.node i).freq) z q'
        revert hm2
        generalize popMin (fun i => (s.node i).freq) z q' = pb
        rintro ⟨hb, hrest2⟩
        obtain ⟨b, rest2⟩ := pb
        dsimp only at hb hrest2 ⊢
        have hal : a.toNat < s.nodeCount.toNat := hq a ha
        have hbl : b.toNat < s.nodeCount.toNat := hz b hb
        have hmerge : SameResult (Alike c) (mergePair a b s) (mergePair a b s') ∧
            ∀ k t, mergePair a b s = .ok k t → k.toNat < t.nodeCount.toNat ∧ s.nodeCount.toNat ≤ t.nodeCount.toNat := by
          show SameResult _ ((if 2 ^ 64 ≤ (s.node a).freq.toNat + (s.node b).freq.toNat then Proc.raise .argFreqOverflow
              else alloc ⟨0, true, true, a, b, (s.node a).freq + (s.node b).freq⟩) s)
            ((if 2 ^ 64 ≤ (s'.node a).freq.toNat + (s'.node b).freq.toNat then Proc.raise .argFreqOverflow
              else alloc ⟨0, true, true, a, b, (s'.node a).freq + (s'.node b).freq⟩) s') ∧
            ∀ k t, ((if 2 ^ 64 ≤ (s.node a).freq.toNat + (s.node b).freq.toNat then Proc.raise .argFreqOverflow
              else alloc ⟨0, true, true, a, b, (s.node a).freq + (s.node b).freq⟩) s) = .ok k t → _
          rw [← hnd a hal, ← hnd b hbl]
          split_ifs
          · exact ⟨⟨rfl, h⟩, fun k t hk => by cases hk⟩
          · exact alloc_lockstep hc _ h
        refine hmerge.1.bind (fun k t t' hk _ ht => ih _ ht ?_) fun _ _ h => h
        obtain ⟨hk1, hk2⟩ := hmerge.2 k t hk
        intro i hi
        rcases List.mem_append.1 hi with hi | hi
        · exact (hz i (hrest2 i hi)).trans_le hk2
        · rw [List.mem_singleton.1 hi]; exact hk1

theorem allocLeaves_lockstep (hc : c.arena = true) (T : Vector DWord 256) (syms : List Byte) {s s' : State}
    (h : Alike c s s') :
    SameResult (Alike c) (allocLeaves T syms s) (allocLeaves T syms s') ∧
    ∀ ks t, allocLeaves T syms s = .ok ks t → s.nodeCount.toNat ≤ t.nodeCount.toNat ∧
      ∀ i ∈ ks, i.toNat < t.nodeCount.toNat := by
  induction syms generalizing s s' with
  | nil => exact ⟨⟨rfl, h⟩, fun ks t hk => by cases hk; exact ⟨Nat.le_refl _, by simp⟩⟩
  | cons sym syms ih =>
    have ha := alloc_lockstep hc (Node.childless sym (freqOf T sym)) h
    constructor
    · refine ha.1.bind (fun k t t' _ _ ht => ?_) fun _ _ h => h
      exact (ih ht).1.bind (fun ks u u' _ _ hu => ⟨rfl, hu⟩) fun _ _ h => h
    · intro ks t hk
      rcases Proc.bind_cases hk with ⟨k, u, hku, hrest⟩ | ⟨e, u, hku, hrest⟩
      · rcases Proc.bind_cases hrest with ⟨ks', v, hv, hpure⟩ | ⟨e, v, hv, hrest⟩
        · injection hpure with e1 e2
          subst e1 e2
          obtain ⟨h1, h2⟩ := ha.2 k u hku
          obtain ⟨w, hw⟩ : ∃ u', Alike c u u' := ⟨_, (by
            have := ha.1
            rw [hku] at this
            cases hx : alloc (Node.childless sym (freqOf T sym)) s' with
            | ok k' u' => rw [hx] at this; exact this.2
            | error e u' => rw [hx] at this; exact this.elim : Alike c u (match alloc (Node.childless sym (freqOf T sym)) s' with
              | .ok _ u' => u'
              | .error _ u' => u'))⟩
          obtain ⟨h3, h4⟩ := (ih hw).2 ks' v hv
          refine ⟨h2.trans h3, fun i hi => ?_⟩
          rcases List.mem_cons.1 hi with rfl | hi
          · exact h1.trans_le h3
          · exact h4 i hi
        · cases hrest
      · cases hrest

/-- BuildTree looks at FREQ alone (42_tree_builder.md R223): the arena before it does not matter. -/
theorem buildTree_lockstep {r w a : Bool} {s s' : State} (h : Alike ⟨r, w, a⟩ s s') (hf : s.freq = s'.freq) :
    SameResult (Alike ⟨r, w, true⟩) (buildTree s) (buildTree s') ∧
    ∀ t t', buildTree s = .ok () t → buildTree s' = .ok () t' → t.root = t'.root := by
  set c : Parts := ⟨r, w, true⟩ with hcdef
  have hc : c.arena = true := rfl
  have h0 : Alike c s.releaseArena s'.releaseArena := h.releaseArena
  have hl := allocLeaves_lockstep hc s.freq (presentSymbols s.freq) h0
  -- the part before the root is recorded
  have hj : SameResult (Alike c)
      ((allocLeaves s.freq (presentSymbols s.freq) >>= fun ks => joinLeaves s.freq (presentSymbols s.freq) ks) s.releaseArena)
      ((allocLeaves s.freq (presentSymbols s.freq) >>= fun ks => joinLeaves s.freq (presentSymbols s.freq) ks)
        s'.releaseArena) := by
    refine hl.1.bind (fun ks t t' hk _ ht => ?_) fun _ _ h => h
    obtain ⟨-, hks⟩ := hl.2 ks t hk
    match ks, hks with
    | [], _ => exact (alloc_lockstep hc _ ht).1
    | [k], _ => exact (alloc_lockstep hc _ ht).1
    | k :: k2 :: ks, hks => exact mergeLoop_lockstep hc _ _ ht hks
  have e : ∀ u : State, u.freq = s.freq → buildTree u = Proc.orRelease (fun v =>
      ((allocLeaves s.freq (presentSymbols s.freq) >>= fun ks => joinLeaves s.freq (presentSymbols s.freq) ks) >>=
        fun r => Proc.change (·.setTree r)) v.releaseArena) u := by
    intro u hu
    have e1 : (clearTree >>= fun _ => Proc.look (·.freq) >>= fun t => allocLeaves t (presentSymbols t) >>= fun ks =>
        joinLeaves t (presentSymbols t) ks >>= fun r => Proc.change (·.setTree r)) u =
        ((allocLeaves s.freq (presentSymbols s.freq) >>= fun ks => joinLeaves s.freq (presentSymbols s.freq) ks) >>=
          fun r => Proc.change (·.setTree r)) u.releaseArena := by
      show (allocLeaves u.freq (presentSymbols u.freq) >>= fun ks =>
        joinLeaves u.freq (presentSymbols u.freq) ks >>= fun r => Proc.change (·.setTree r)) u.releaseArena = _
      rw [hu, Proc.bind_apply, Proc.bind_apply, Proc.bind_apply]
      cases allocLeaves s.freq (presentSymbols s.freq) u.releaseArena with
      | ok a t => dsimp only; rw [Proc.bind_apply]
      | error e t => rfl
    unfold buildTree Proc.orRelease
    dsimp only
    rw [e1]
  rw [e s rfl, e s' hf.symm]
  revert hj
  generalize (allocLeaves s.freq (presentSymbols s.freq) >>= fun ks => joinLeaves s.freq (presentSymbols s.freq) ks) = p
  intro hj
  unfold Proc.orRelease
  dsimp only
  rw [Proc.bind_apply, Proc.bind_apply]
  cases hp : p s.releaseArena with
  | ok a t =>
    cases hq : p s'.releaseArena with
    | ok a' t' =>
      rw [hp, hq] at hj
      obtain ⟨rfl, hr⟩ := hj
      refine ⟨⟨rfl, hr.setTree a⟩, fun u u' h1 h2 => ?_⟩
      injection h1 with _ e1
      injection h2 with _ e2
      subst e1 e2
      rfl
    | error e t' => rw [hp, hq] at hj; exact hj.elim
  | error er t =>
    cases hq : p s'.releaseArena with
    | ok a' t' => rw [hp, hq] at hj; exact hj.elim
    | error e' t' =>
      rw [hp, hq] at hj
      obtain ⟨rfl, hr⟩ := hj
      exact ⟨⟨rfl, hr.releaseArena⟩, fun u u' h1 _ => by cases h1⟩

/-! ### huffman_decoder -/

/-- A procedure that never gives slots back. -/
def Grows {α : Type} (p : Proc α) : Prop := ∀ (s t : State) (a : α), p s = .ok a t → s.nodeCount.toNat ≤ t.nodeCount.toNat

theorem Grows.bind {α β : Type} {p : Proc α} {f : α → Proc β} (hp : Grows p) (hf : ∀ a, Grows (f a)) : Grows (p >>= f) := by
  intro s t b h
  rcases Proc.bind_cases h with ⟨a, u, hu, hr⟩ | ⟨e, u, -, hr⟩
  · exact (hp s u a hu).trans (hf a u t b hr)
  · cases hr

theorem getBit_grows : Grows getBit := by
  intro s t b h
  rcases getBit_cases s with ⟨-, hg⟩ | ⟨b', bs, -, hg, -, -, hf⟩
  · rw [hg] at h; cases h
  · rw [hg] at h
    injection h with _ e
    subst e
    rw [hf]

theorem readBits_grows (n : Nat) (v : Byte) : Grows (readBits n v) := by
  induction n generalizing v with
  | zero =>
    intro s t b h
    injection h with _ e
    subst e
    exact Nat.le_refl _
  | succ n ih => exact getBit_grows.bind fun _ => ih _

theorem alloc_grows (n : Node) : Grows (alloc n) := by
  intro s t k h
  by_cases hc : s.nodeCount.toNat < 512
  · obtain ⟨k', t', ht, -, hct, -, -⟩ := alloc_ok n hc
    rw [ht] at h
    injection h with _ e
    subst e
    omega
  · rw [alloc_full n (by omega)] at h
    cases h

theorem change_grows {f : State → State} (h : ∀ s, (f s).nodeCount = s.nodeCount) : Grows (Proc.change f) := by
  intro s t a hs
  injection hs with _ e
  subst e
  rw [h]

theorem fillSide_grows {fill : NodeIdx → Proc Unit} {att : NodeIdx → State → State} (hf : ∀ c, Grows (fill c))
    (hat : ∀ c s, (att c s).nodeCount = s.nodeCount) : Grows (fillSide fill att) := by
  refine getBit_grows.bind fun present => ?_
  cases present with
  | true =>
    exact (readBits_grows 8 0).bind fun sym => (alloc_grows _).bind fun k =>
      (change_grows (hat k)).bind fun _ => hf k
  | false =>
    intro s t a h
    injection h with _ e
    subst e
    exact Nat.le_refl _

theorem fill_grows (fuel : Nat) : ∀ i, Grows (fill fuel i) := by
  induction fuel with
  | zero => intro i s t a h; cases h
  | succ fuel ih => exact fun i => (fillSide_grows (att := fun k s => s.attachLeft i k) ih fun _ _ => rfl).bind fun _ =>
      fillSide_grows (att := fun k s => s.attachRight i k) ih fun _ _ => rfl

theorem fillSide_lockstep (hr : c.reader = true) (ha : c.arena = true) {fill : NodeIdx → Proc Unit} {i : NodeIdx}
    {att : NodeIdx → Node → Node} {s s' : State} (h : Alike c s s') (hi : i.toNat < s.nodeCount.toNat)
    (hf : ∀ (k : NodeIdx) (t t' : State), Alike c t t' → k.toNat < t.nodeCount.toNat →
      SameResult (Alike c) (fill k t) (fill k t')) :
    SameResult (Alike c) (fillSide fill (fun k s => s.setNode i (att k (s.node i))) s)
      (fillSide fill (fun k s => s.setNode i (att k (s.node i))) s') := by
  refine (getBit_lockstep hr s s' h).bind (fun present t t' hp _ ht => ?_) fun _ _ h => h
  have h1 := getBit_grows s t present hp
  cases present with
  | false => exact ⟨rfl, ht⟩
  | true =>
    refine (readChar_lockstep hr t t' ht).bind (fun sym u u' hu _ hau => ?_) fun _ _ h => h
    have h2 := readBits_grows 8 0 t u sym hu
    have hal := alloc_lockstep ha (Node.childless sym 0) hau
    refine hal.1.bind (fun k v v' hv _ hav => ?_) fun _ _ h => h
    obtain ⟨h3, h4⟩ := hal.2 k v hv
    exact hf k _ _ (hav.setNode (f := att k) fun _ => by omega) h3

theorem fill_lockstep (hr : c.reader = true) (ha : c.arena = true) (fuel : Nat) : ∀ (i : NodeIdx) (s s' : State),
    Alike c s s' → i.toNat < s.nodeCount.toNat → SameResult (Alike c) (fill fuel i s) (fill fuel i s') := by
  induction fuel with
  | zero => exact fun _ _ _ h _ => ⟨rfl, h⟩
  | succ fuel ih =>
    intro i s s' h hi
    refine (fillSide_lockstep hr ha (att := fun k n => { n with lp := true, left := k }) h hi
      fun k t t' ht hk => ih k t t' ht hk).bind (fun _ t t' ht _ hat => ?_) fun _ _ h => h
    have := fillSide_grows (att := fun k s => s.attachLeft i k) (fun k => fill_grows fuel k) (fun _ _ => rfl) s t () ht
    exact fillSide_lockstep hr ha (att := fun k n => { n with rp := true, right := k }) hat (by omega)
      fun k u u' hu hk => ih k u u' hu hk

/-- DeserializeTree looks at the stream alone: the arena before it does not matter. -/
theorem deserializeTree_lockstep {w a : Bool} {s s' : State} (h : Alike ⟨true, w, a⟩ s s') :
    SameResult (Alike ⟨true, w, true⟩) (deserializeTree s) (deserializeTree s') ∧
    ∀ t t', deserializeTree s = .ok () t → deserializeTree s' = .ok () t' → t.root = t'.root := by
  have h0 : Alike ⟨true, w, true⟩ s.releaseArena s'.releaseArena := h.releaseArena
  have hal := alloc_lockstep rfl (Node.childless 0 0) h0
  have hj : SameResult (Alike ⟨true, w, true⟩)
      ((alloc (Node.childless 0 0) >>= fun r => fill (Config.nodeCap + 1) r >>= fun _ => pure r) s.releaseArena)
      ((alloc (Node.childless 0 0) >>= fun r => fill (Config.nodeCap + 1) r >>= fun _ => pure r) s'.releaseArena) := by
    refine hal.1.bind (fun r t t' hr _ ht => ?_) fun _ _ h => h
    exact (fill_lockstep rfl rfl _ r t t' ht (hal.2 r t hr).1).bind (fun _ u u' _ _ hu => ⟨rfl, hu⟩) fun _ _ h => h
  have e : ∀ u : State, deserializeTree u = Proc.orRelease (fun v =>
      ((alloc (Node.childless 0 0) >>= fun r => fill (Config.nodeCap + 1) r >>= fun _ => pure r) >>=
        fun r => Proc.change (·.setTree r)) v.releaseArena) u := by
    intro u
    have e1 : (clearTree >>= fun _ => alloc (Node.childless 0 0) >>= fun r => fill (Config.nodeCap + 1) r >>= fun _ =>
        Proc.change (·.setTree r)) u =
        ((alloc (Node.childless 0 0) >>= fun r => fill (Config.nodeCap + 1) r >>= fun _ => pure r) >>=
          fun r => Proc.change (·.setTree r)) u.releaseArena := by
      show (alloc (Node.childless 0 0) >>= fun r => fill (Config.nodeCap + 1) r >>= fun _ =>
        Proc.change (·.setTree r)) u.releaseArena = _
      rw [Proc.bind_apply, Proc.bind_apply, Proc.bind_apply]
      cases alloc (Node.childless 0 0) u.releaseArena with
      | ok r t =>
        dsimp only
        rw [Proc.bind_apply, Proc.bind_apply]
        cases fill (Config.nodeCap + 1) r t <;> rfl
      | error e t => rfl
    unfold deserializeTree Proc.orRelease
    dsimp only
    rw [e1]
  rw [e s, e s']
  revert hj
  generalize (alloc (Node.childless 0 0) >>= fun r => fill (Config.nodeCap + 1) r >>= fun _ => pure r) = p
  intro hj
  unfold Proc.orRelease
  dsimp only
  rw [Proc.bind_apply, Proc.bind_apply]
  cases hp : p s.releaseArena with
  | ok a t =>
    cases hq : p s'.releaseArena with
    | ok a' t' =>
      rw [hp, hq] at hj
      obtain ⟨rfl, hr⟩ := hj
      refine ⟨⟨rfl, hr.setTree a⟩, fun u u' h1 h2 => ?_⟩
      injection h1 with _ e1
      injection h2 with _ e2
      subst e1 e2
      rfl
    | error e t' => rw [hp, hq] at hj; exact hj.elim
  | error er t =>
    cases hq : p s'.releaseArena with
    | ok a' t' => rw [hp, hq] at hj; exact hj.elim
    | error e' t' =>
      rw [hp, hq] at hj
      obtain ⟨rfl, hr⟩ := hj
      exact ⟨⟨rfl, hr.releaseArena⟩, fun u u' h1 _ => by cases h1⟩

/-- The walk of DecodeSymbol over a tree looks at its slots alone. -/
theorem decodeLoop_lockstep (hr : c.reader = true) {nd : NodeIdx → Node} {i : NodeIdx} {t : Shape} {ns : List NodeIdx}
    (h : Subtree nd true i t ns) : ∀ (fuel : Nat) (s s' : State), Alike c s s' → (∀ j ∈ ns, s.node j = nd j) →
      (∀ j ∈ ns, s'.node j = nd j) → SameResult (Alike c) (decodeLoop fuel i s) (decodeLoop fuel i s') := by
  suffices H : ∀ {b : Bool} {i : NodeIdx} {t : Shape} {ns : List NodeIdx}, Subtree nd b i t ns → b = true →
      ∀ (fuel : Nat) (s s' : State), Alike c s s' → (∀ j ∈ ns, s.node j = nd j) → (∀ j ∈ ns, s'.node j = nd j) →
      SameResult (Alike c) (decodeLoop fuel i s) (decodeLoop fuel i s') from H h rfl
  intro b i t ns h
  induction h with
  | absent i => intro hb; cases hb
  | present i l r ls rs hl hrr ihl ihr =>
    intro _ fuel s s' ha hs hs'
    cases fuel with
    | zero => exact ⟨rfl, ha⟩
    | succ fuel =>
      have hi := hs i (by simp)
      have hi' := hs' i (by simp)
      have e : ∀ u : State, decodeLoop (fuel + 1) i u = (if (u.node i).isChildless then pure (u.node i).sym else
          getBit >>= fun b => if (if b then (u.node i).rp else (u.node i).lp) then
            decodeLoop fuel (if b then (u.node i).right else (u.node i).left) else Proc.raise .fmtAbsentChild) u :=
        fun _ => rfl
      rw [e s, e s', hi, hi']
      split_ifs with hc
      · exact ⟨rfl, ha⟩
      · refine (getBit_lockstep hr s s' ha).bind (fun b t t' ht ht' hat => ?_) fun _ _ h => h
        have hk : ∀ u v : State, getBit u = .ok b v → v.node = u.node := by
          intro u v hv
          rcases getBit_cases u with ⟨-, hg⟩ | ⟨b', bs, -, hg, -, -, hf⟩
          · rw [hg] at hv; cases hv
          · rw [hg] at hv
            injection hv with _ e2
            subst e2
            rw [hf]
            rfl
        have h1 := hk s t ht
        have h2 := hk s' t' ht'
        cases b with
        | true =>
          simp only [if_true]
          split_ifs with hp
          · exact ihr hp fuel t t' hat (fun j hj => by rw [h1]; exact hs j (by simp [hj]))
              fun j hj => by rw [h2]; exact hs' j (by simp [hj])
          · exact ⟨rfl, hat⟩
        | false =>
          simp only [Bool.false_eq_true, if_false]
          split_ifs with hp
          · exact ihl hp fuel t t' hat (fun j hj => by rw [h1]; exact hs j (by simp [hj]))
              fun j hj => by rw [h2]; exact hs' j (by simp [hj])
          · exact ⟨rfl, hat⟩

theorem decodeSymbol_lockstep (hr : c.reader = true) (hc : c.arena = true) {s s' : State} {sh : Shape} (h : Alike c s s')
    (ht : s.HoldsTree sh) (hroot : s.root = s'.root) :
    SameResult (Alike c) (decodeSymbol s) (decodeSymbol s') := by
  obtain ⟨-, -, -, ns, hs, -, hb⟩ := ht
  obtain ⟨hnc, hnd⟩ := h.arena hc
  have hm : s.root ∈ ns := hs.root_mem
  have e : ∀ u : State, decodeSymbol u = (if (u.node u.root).isChildless then Proc.raise .fmtEmptyTree else
      decodeLoop u.decodeFuel u.root) u := fun u => by
    show (if (u.node u.root).isChildless then Proc.raise .fmtEmptyTree else
      Proc.look State.decodeFuel >>= fun fuel => decodeLoop fuel u.root) u = _
    split_ifs <;> rfl
  have hfuel : s.decodeFuel = s'.decodeFuel := by unfold State.decodeFuel; rw [h.srcLen hr]
  rw [e s, e s', ← hroot, ← hnd _ (hb _ hm), ← hfuel]
  split_ifs
  · exact ⟨rfl, h⟩
  · exact decodeLoop_lockstep hr hs _ s s' h (fun _ _ => rfl) fun j hj => (hnd j (hb j hj)).symm

theorem decompressLoop_lockstep (hr : c.reader = true) (hw : c.writer = true) (hc : c.arena = true) (n : Nat)
    {s s' : State} {sh : Shape} (h : Alike c s s') (ht : s.HoldsTree sh) (hroot : s.root = s'.root) :
    SameResult (Alike c) (decompressLoop n s) (decompressLoop n s') := by
  induction n generalizing s s' with
  | zero => exact ⟨rfl, h⟩
  | succ n ih =>
    refine (decodeSymbol_lockstep hr hc h ht hroot).bind (fun sym t t' hd hd' hat => ?_) fun _ _ h => h
    refine (addBits_lockstep hw (byteBits sym) t t' hat).bind (fun _ u u' hu hu' hau => ?_) fun _ _ h => h
    have kr : ∀ v w : State, decodeSymbol v = .ok sym w → w.root = v.root ∧ w.nodeCount = v.nodeCount ∧ w.node = v.node :=
      fun v w hvw => (decodeSymbol_keeps (P := fun x => x.root = v.root ∧ x.nodeCount = v.nodeCount ∧ x.node = v.node)
        fun _ _ hx => hx).of_ok ⟨rfl, rfl, rfl⟩ hvw
    have kw : ∀ v w : State, addBits (byteBits sym) v = .ok () w → w.root = v.root ∧ w.nodeCount = v.nodeCount ∧
        w.node = v.node :=
      fun v w hvw => (addBits_keeps (P := fun x => x.root = v.root ∧ x.nodeCount = v.nodeCount ∧ x.node = v.node)
        (fun _ _ _ hx => hx) _).of_ok ⟨rfl, rfl, rfl⟩ hvw
    obtain ⟨r1, n1, m1⟩ := kr s t hd
    obtain ⟨r2, n2, m2⟩ := kw t u hu
    obtain ⟨r3, -, -⟩ := kr s' t' hd'
    obtain ⟨r4, -, -⟩ := kw t' u' hu'
    exact ih hau (ht.congr (by rw [r2, r1]) (by rw [n2, n1]) fun i _ => by rw [m2, m1]) (by rw [r2, r1, r4, r3, hroot])

/-- Two code tables with the same codes and no bits beyond them are the same (10_state.md R57). -/
theorem State.CodesAre.ext {s s' : State} {cs : List (Byte × List Bool)} (h : s.CodesAre cs) (h' : s'.CodesAre cs)
    (hz : s.CodeTailZero) (hz' : s'.CodeTailZero) : s.codeLen = s'.codeLen ∧ s.codeBits = s'.codeBits := by
  have hlen : ∀ sym, s.codeLenOf sym = s'.codeLenOf sym ∧ s.codeBitsList sym = s'.codeBitsList sym := by
    intro sym
    by_cases h0 : s.codeLenOf sym = 0
    · have h0' : s'.codeLenOf sym = 0 := by
        by_contra hn
        exact ((h sym _).1 ((h' sym _).2 ⟨hn, rfl⟩)).1 h0
      exact ⟨by rw [h0, h0'], by rw [codeBitsList, codeBitsList, h0, h0']; rfl⟩
    · have h1 := (h' sym _).1 ((h sym _).2 ⟨h0, rfl⟩)
      have h2 := congrArg List.length h1.2
      rw [codeBitsList, codeBitsList, length_codeOf, length_codeOf] at h2
      exact ⟨(BitVec.eq_of_toNat_eq h2).symm, h1.2.symm⟩
  have hbits : ∀ sym, s.codeBitsOf sym = s'.codeBitsOf sym := by
    intro sym
    apply BitVec.eq_of_getLsbD_eq
    intro i _
    by_cases hi : i < (s.codeLenOf sym).toNat
    · have := congrArg (fun l => l[i]?) (hlen sym).2
      simp only [codeBitsList, codeOf, ← (hlen sym).1, List.getElem?_map, List.getElem?_range hi, Option.map_some,
        Option.some.injEq] at this
      exact this
    · rw [hz sym i (by omega), hz' sym i (by rw [← (hlen sym).1]; omega)]
  constructor
  · apply Vector.ext
    intro i hi
    have := (hlen (BitVec.ofNat 8 i)).1
    simpa only [codeLenOf, BitVec.toNat_ofNat, show i % 2 ^ 8 = i from Nat.mod_eq_of_lt hi] using this
  · apply Vector.ext
    intro i hi
    have := hbits (BitVec.ofNat 8 i)
    simpa only [codeBitsOf, BitVec.toNat_ofNat, show i % 2 ^ 8 = i from Nat.mod_eq_of_lt hi] using this

end Sys2Proof.Machine
end

