-- ==== Sys2Proof/Laws/Memory.lean ====
section
/-! SUPPORT. Every memory operation keeps the canonical form (spec/20_memory.md R80), and memory after reset has it. -/

namespace Sys2Proof.Machine

/-- The three memories after reset list nothing, in canonical form. -/
theorem resetAs_memoryInv {p : Params} (h : p.wf = true) (e : Nat) : (State.resetAs p e).MemoryInv :=
  ⟨h, ⟨.nil, by simp [State.resetAs]⟩, ⟨.nil, by simp [State.resetAs]⟩, ⟨.nil, by simp [State.resetAs]⟩⟩

/-- The canonical form depends on the parameters and the three memories alone. -/
theorem State.MemoryInv.congr {s t : State} (h : s.MemoryInv) (hp : t.params = s.params) (hi : t.ibuf = s.ibuf)
    (ho : t.obuf = s.obuf) (hn : t.nodes = s.nodes) : t.MemoryInv := by
  refine ⟨by rw [hp]; exact h.params, ?_, ?_, by rw [hn]; exact h.nodes⟩
  · rw [hi, show t.ibufSize = s.ibufSize by unfold State.ibufSize; rw [hp]]
    exact h.ibuf
  · rw [ho, show t.obufSize = s.obufSize by unfold State.obufSize; rw [hp]]
    exact h.obuf

theorem State.MemoryInv.setIbuf {s : State} (h : s.MemoryInv) {a : Nat} (ha : a < s.ibufSize) (v : Byte) :
    (s.setIbuf a v).MemoryInv :=
  ⟨h.params, Cells.wf_set h.ibuf ha v, h.obuf, h.nodes⟩

theorem State.MemoryInv.setObuf {s : State} (h : s.MemoryInv) {a : Nat} (ha : a < s.obufSize) (v : Byte) :
    (s.setObuf a v).MemoryInv :=
  ⟨h.params, h.ibuf, Cells.wf_set h.obuf ha v, h.nodes⟩

theorem State.MemoryInv.setNode {s : State} (h : s.MemoryInv) (i : NodeIdx) (n : Node) : (s.setNode i n).MemoryInv :=
  ⟨h.params, h.ibuf, h.obuf, Cells.wf_set h.nodes i.isLt n⟩

/-- The four bytes of a host word lie inside the window when the first one does: the sizes are multiples of 4. -/
theorem State.MemoryInv.writeIbufWord {s : State} (h : s.MemoryInv) {a : Nat} (ha : a < s.ibufSize) (h4 : a % 4 = 0)
    (d : Word) : (s.writeIbufWord a d).MemoryInv := by
  have hw : s.ibufSize % 4 = 0 := ((Params.wf_iff s.params).1 h.params).1.1
  have h0 := h.setIbuf (a := a) ha (laneByte d 0)
  have h1 := h0.setIbuf (a := a + 1) (show a + 1 < s.ibufSize by omega) (laneByte d 1)
  have h2 := h1.setIbuf (a := a + 2) (show a + 2 < s.ibufSize by omega) (laneByte d 2)
  exact h2.setIbuf (a := a + 3) (show a + 3 < s.ibufSize by omega) (laneByte d 3)

theorem State.MemoryInv.writeObufWord {s : State} (h : s.MemoryInv) {a : Nat} (ha : a < s.obufSize) (h4 : a % 4 = 0)
    (d : Word) : (s.writeObufWord a d).MemoryInv := by
  have hw : s.obufSize % 4 = 0 := ((Params.wf_iff s.params).1 h.params).2.1
  have h0 := h.setObuf (a := a) ha (laneByte d 0)
  have h1 := h0.setObuf (a := a + 1) (show a + 1 < s.obufSize by omega) (laneByte d 1)
  have h2 := h1.setObuf (a := a + 2) (show a + 2 < s.obufSize by omega) (laneByte d 2)
  exact h2.setObuf (a := a + 3) (show a + 3 < s.obufSize by omega) (laneByte d 3)

/-- AddBit writes inside OBUF (40_bit_writer.md R150). -/
theorem addBit_keeps_memory (b : Bool) : Proc.Keeps State.MemoryInv (addBit b) := by
  intro s hs
  rw [addBit_apply]
  cases hf : s.flushBlocked with
  | true => exact hs
  | false =>
    show (s.placeBit b).MemoryInv
    by_cases hp : s.bw.pos = 7
    · have hlt : s.bw.wrptr.toNat < s.obufSize := by
        have := mt s.flushBlocked_iff.2 (by simp [hf])
        by_contra hn
        exact this ⟨hp, by omega⟩
      rw [State.placeBit_of_pos_eq hp]
      exact (hs.setObuf hlt (s.bw.curWith b)).congr rfl rfl rfl rfl
    · rw [State.placeBit_of_pos_ne hp]
      exact hs.congr rfl rfl rfl rfl

/-- Alloc writes a slot that exists (42_tree_builder.md R212). -/
theorem alloc_keeps_memory (n : Node) : Proc.Keeps State.MemoryInv (alloc n) := by
  intro s hs
  unfold alloc
  split_ifs
  · exact hs
  · exact (hs.setNode _ n).congr rfl rfl rfl rfl

end Sys2Proof.Machine
end

