-- ==== Sys2Proof/Laws/PerInstr.lean ====
section
/-! SUPPORT. Statements per instruction (spec/30_encoding.md R121 to R126): encode and decode agree on each command. -/

namespace Sys2Proof.Laws.RoundTrip

/-- The word of the command decodes to it. -/
def Statement (i : Instr) : Prop := decode (encode i) = .ok i

theorem bwInit : Statement .bwInit := by unfold Statement; decide

theorem bwAddBit (b : Bool) : Statement (.bwAddBit b) := by
  unfold Statement
  revert b
  decide

theorem bwWriteChar (v : Byte) : Statement (.bwWriteChar v) := by
  unfold Statement
  revert v
  decide +kernel

theorem bwPad : Statement .bwPad := by unfold Statement; decide

theorem bwResetCounts : Statement .bwResetCounts := by unfold Statement; decide

theorem brInit : Statement .brInit := by unfold Statement; decide

theorem brGetBit : Statement .brGetBit := by unfold Statement; decide

theorem brReadChar : Statement .brReadChar := by unfold Statement; decide

theorem brAlign : Statement .brAlign := by unfold Statement; decide

theorem brResetCounts : Statement .brResetCounts := by unfold Statement; decide

theorem tbCount : Statement .tbCount := by unfold Statement; decide

theorem tbBuild : Statement .tbBuild := by unfold Statement; decide

theorem tbAdopt : Statement .tbAdopt := by unfold Statement; decide

theorem ctGen : Statement .ctGen := by unfold Statement; decide

theorem encWriteHeader : Statement .encWriteHeader := by unfold Statement; decide

theorem encSerializeTree : Statement .encSerializeTree := by unfold Statement; decide

theorem encEncodeSymbol (v : Byte) : Statement (.encEncodeSymbol v) := by
  unfold Statement
  revert v
  decide +kernel

theorem encCompress : Statement .encCompress := by unfold Statement; decide

theorem decReadHeader : Statement .decReadHeader := by unfold Statement; decide

theorem decDeserializeTree : Statement .decDeserializeTree := by unfold Statement; decide

theorem decDecodeSymbol : Statement .decDecodeSymbol := by unfold Statement; decide

theorem decDecompress : Statement .decDecompress := by unfold Statement; decide

end Sys2Proof.Laws.RoundTrip
end

