-- ==== Sys2Proof/Tests/Slice0.lean ====
section
/-! SUPPORT. Tests of single steps and decodings, with results written out from the spec, and for every obligation with
hypotheses a witness: a concrete state and operands that meet them. The vectors named V-… stand in
spec/95_test_vectors.md. -/

namespace Sys2Proof.Tests
open Sys2Proof.Machine
set_option Elab.async false

/-! ### Helpers -/

/-- An instance with these sizes right after reset. -/
def inst (i o : Word) (h : HeaderOrder) : State := State.resetAs ⟨i, o, h⟩ 0

/-- The bytes at addresses 0, 1, … -/
def listing (bs : List Byte) : Memory := bs.zipIdx.map fun x => (x.2, x.1)

/-- "Load X" of spec/95_test_vectors.md. -/
def load (bs : List Byte) (s : State) : State := { s with ibuf := listing bs, srcLen := BitVec.ofNat 64 bs.length }

/-- The state that the command word leaves when it is accepted and completes. -/
def command (w : Nat) (s : State) : State :=
  match step (s.withFetchWord 32 w) with
  | .next t => t
  | .fault _ => s
  | .refused _ => s

/-- The state that a command's completion leaves. -/
def done (i : Instr) (s : State) : State :=
  match exec i s with
  | .next t => t
  | .fault _ => s
  | .refused _ => s

def isNext : Host.Outcome State Fault Refusal → Bool
  | .next _ => true
  | .fault _ => false
  | .refused _ => false

theorem exec_done {i : Instr} {s : State} (h : isNext (exec i s) = true) : exec i s = .next (done i s) := by
  unfold done
  cases he : exec i s with
  | next t => rfl
  | fault f => rw [he] at h; cases h
  | refused r => rw [he] at h; cases h

/-- Sixteen bytes of IBUF and of OBUF. -/
def small : State := inst 16 16 .le

/-- The arena of the two-leaf tree with A left and B right, as TB_BUILD lays it out for FREQ[A] = FREQ[B] = 1. -/
def abNodes : Cells Node :=
  [(0, ⟨0x41, false, false, 0, 0, 1⟩), (1, ⟨0x42, false, false, 0, 0, 1⟩), (2, ⟨0, true, true, 0, 1, 2⟩)]

/-- That tree, adopted, with its codes. -/
def abState : State :=
  { (small.clearCodes.setCode 0x41 [false]).setCode 0x42 [true] with
    nodes := abNodes, root := 2, nodeCount := 3, treeValid := true, codesValid := true }

def abTree : Shape := .node 0 (.leaf 0x41) (.leaf 0x42)

theorem abState_holds : abState.HoldsTree abTree :=
  ⟨by decide, by decide, by decide, [2, 0, 1],
    Subtree.present (nd := abState.node) 2 (.leaf 0x41) (.leaf 0x42) [0] [1]
      (Subtree.present (nd := abState.node) 0 .absent .absent [] [] (.absent _) (.absent _))
      (Subtree.present (nd := abState.node) 1 .absent .absent [] [] (.absent _) (.absent _)), by decide, by decide⟩

theorem abState_codes : abState.CodesAre abTree.codes := by
  have h := (State.CodesAre.setCode (State.CodesAre.setCode (sym := 0x41) (p := [false]) (State.clearCodes_codesAre small)
    (by decide) (by decide) (by decide)) (sym := 0x42) (p := [true]) (by decide) (by decide) (by decide))
  exact h

theorem abState_tail : abState.CodeTailZero := by
  have h := ((State.clearCodes_tailZero small).setCode 0x41 (p := [false]) (by decide)).setCode 0x42 (p := [true])
    (by decide)
  exact h

theorem abState_inv : abState.Inv where
  status := ⟨by decide, by decide, by decide, by decide, by decide⟩
  writer := ⟨fun i _ => BitVec.getLsbD_zero, by decide⟩
  memory := ⟨by decide, by decide, by decide, by decide⟩
  tree := fun _ => ⟨_, abState_holds⟩
  codes := fun _ => ⟨rfl, _, abState_holds, abState_codes⟩
  codeTail := abState_tail

/-- A tree with the left child A and no right child (42_tree_builder.md R219). -/
def oneState : State :=
  { small.clearCodes.setCode 0x41 [false] with
    nodes := [(0, ⟨0x41, false, false, 0, 0, 1⟩), (1, ⟨0, true, false, 0, 0, 1⟩)]
    root := 1, nodeCount := 2, treeValid := true, codesValid := true }

def oneTree : Shape := .node 0 (.leaf 0x41) .absent

theorem oneState_holds : oneState.HoldsTree oneTree :=
  ⟨by decide, by decide, by decide, [1, 0],
    Subtree.present (nd := oneState.node) 1 (.leaf 0x41) .absent [0] []
      (Subtree.present (nd := oneState.node) 0 .absent .absent [] [] (.absent _) (.absent _)) (.absent _),
    by decide, by decide⟩

/-- The empty tree (42_tree_builder.md R220). -/
def emptyState : State :=
  { small with nodes := [(0, ⟨0, false, false, 0, 0, 0⟩)], root := 0, nodeCount := 1, treeValid := true }

theorem emptyState_holds : emptyState.HoldsTree (.leaf 0) :=
  ⟨by decide, by decide, by decide, [0],
    Subtree.present (nd := emptyState.node) 0 .absent .absent [] [] (.absent _) (.absent _), by decide, by decide⟩

/-! ### Well-formedness: an ill-formed term for each check -/

theorem test_wf_size_not_multiple_of_four : Params.wf ⟨6, 16, .le⟩ = false ∧ Params.wf ⟨16, 7, .le⟩ = false := by decide

theorem test_wf_size_too_small : Params.wf ⟨0, 16, .le⟩ = false ∧ Params.wf ⟨16, 0, .be⟩ = false := by decide

theorem test_wf_size_too_large : Params.wf ⟨0x01000004, 16, .le⟩ = false ∧ Params.wf ⟨16, 0x01000004, .be⟩ = false := by
  decide

theorem test_wf_sizes_at_their_bounds : Params.wf ⟨4, 0x01000000, .le⟩ = true := by decide

theorem test_wf_misaligned_address : alignedAddr 0x0000000E = false ∧ alignedAddr 0x00000001 = false ∧
    alignedAddr 0x0000000C = true := by decide

/-- Every command is well-formed: its operands are typed (log 16). An ill-formed word is refused by the decoder. -/
theorem test_wf_command : (Instr.bwAddBit true).wf = true ∧ (Instr.encEncodeSymbol 0xFF).wf = true := by decide

theorem test_wf_illegal_words : decode 0x00000000 = .error (.illegalOp 0x00) ∧ decode 0x00000006 = .error (.illegalOp 0x06) ∧
    decode 0x00000045 = .error (.illegalOp 0x45) ∧ decode 0x000000FF = .error (.illegalOp 0xFF) ∧
    decode 0x12345600 = .error (.illegalOp 0x00) := by decide

/-! ### Decoding: words written out from spec/30_encoding.md R121, R122, R126 (OP 7:0, BIT 8, DATA 23:16) -/

theorem test_decode_bwInit : decode 0b00000000000000000000000000000001 = .ok .bwInit := by decide

theorem test_decode_bwAddBit : decode 0b00000000000000000000000100000010 = .ok (.bwAddBit true) := by decide

theorem test_decode_bwWriteChar : decode 0b00000000010000010000000000000011 = .ok (.bwWriteChar 0x41) := by decide

theorem test_decode_bwPad : decode 0b00000000000000000000000000000100 = .ok .bwPad := by decide

theorem test_decode_bwResetCounts : decode 0b00000000000000000000000000000101 = .ok .bwResetCounts := by decide

theorem test_decode_brInit : decode 0b00000000000000000000000000010001 = .ok .brInit := by decide

theorem test_decode_brGetBit : decode 0b00000000000000000000000000010010 = .ok .brGetBit := by decide

theorem test_decode_brReadChar : decode 0b00000000000000000000000000010011 = .ok .brReadChar := by decide

theorem test_decode_brAlign : decode 0b00000000000000000000000000010100 = .ok .brAlign := by decide

theorem test_decode_brResetCounts : decode 0b00000000000000000000000000010101 = .ok .brResetCounts := by decide

theorem test_decode_tbCount : decode 0b00000000000000000000000000100001 = .ok .tbCount := by decide

theorem test_decode_tbBuild : decode 0b00000000000000000000000000100010 = .ok .tbBuild := by decide

theorem test_decode_tbAdopt : decode 0b00000000000000000000000000100011 = .ok .tbAdopt := by decide

theorem test_decode_ctGen : decode 0b00000000000000000000000000110001 = .ok .ctGen := by decide

theorem test_decode_encWriteHeader : decode 0b00000000000000000000000001000001 = .ok .encWriteHeader := by decide

theorem test_decode_encSerializeTree : decode 0b00000000000000000000000001000010 = .ok .encSerializeTree := by decide

theorem test_decode_encEncodeSymbol : decode 0b00000000011000100000000001000011 = .ok (.encEncodeSymbol 0x62) := by decide

theorem test_decode_encCompress : decode 0b00000000000000000000000001000100 = .ok .encCompress := by decide

theorem test_decode_decReadHeader : decode 0b00000000000000000000000001010001 = .ok .decReadHeader := by decide

theorem test_decode_decDeserializeTree : decode 0b00000000000000000000000001010010 = .ok .decDeserializeTree := by decide

theorem test_decode_decDecodeSymbol : decode 0b00000000000000000000000001010011 = .ok .decDecodeSymbol := by decide

theorem test_decode_decDecompress : decode 0b00000000000000000000000001010100 = .ok .decDecompress := by decide

/-- V-BW-12: bits 31:24, 23:16 and 15:9 are ignored. -/
theorem test_decode_ignored_bits : decode 0xFFFFFE02 = .ok (.bwAddBit false) ∧ decode 0x0000FF02 = .ok (.bwAddBit true) := by
  decide

theorem test_decodeTableWord : decodeTableWord 32 0x00410003 = some (.bwWriteChar 0x41) ∧ decodeTableWord 32 0x45 = none := by
  decide

/-- No word selects two rows of the opcode map (30_encoding.md R122). -/
theorem test_opcodeRows_disjoint : opcodeRows.Pairwise fun x y => x.mask &&& y.mask &&& (x.pattern ^^^ y.pattern) ≠ 0 := by
  decide

/-! ### Steps -/

/-- V-BW-1. -/
theorem test_bwAddBit : (command 0x00000102 small).bw = ⟨0x80, 1, 0, 1, 0⟩ ∧
    (command 0x00000102 small).statusWord = 0x00020002 := by decide +kernel

/-- V-BW-8: the last of the commands, OBUF full. -/
theorem test_bwAddBit_overflow :
    (command 0x00000102 { inst 16 4 .le with bw := ⟨0xFE, 7, 4, 39, 4⟩ }).bw = ⟨0xFE, 7, 4, 39, 4⟩ ∧
    (command 0x00000102 { inst 16 4 .le with bw := ⟨0xFE, 7, 4, 39, 4⟩ }).statusWord = 0x00021204 := by decide +kernel

/-- V-BW-4, its second command: 0x41 straddles two bytes. -/
theorem test_bwWriteChar : (command 0x00410003 { small with bw := ⟨0x80, 1, 0, 1, 0⟩ }).bw = ⟨0x80, 1, 1, 9, 1⟩ ∧
    (command 0x00410003 { small with bw := ⟨0x80, 1, 0, 1, 0⟩ }).obufByte 0 = 0xA0 := by decide +kernel

/-- V-BW-9, its last command: four bits land before the error. -/
theorem test_bwWriteChar_overflow :
    (command 0x000F0003 { inst 16 4 .le with bw := ⟨0xE0, 3, 4, 35, 4⟩ }).bw = ⟨0xE0, 7, 4, 39, 4⟩ ∧
    (command 0x000F0003 { inst 16 4 .le with bw := ⟨0xE0, 3, 4, 35, 4⟩ }).errCode = 0x12 := by decide +kernel

/-- V-BW-5, its last command. -/
theorem test_bwPad : (command 0x04 { small with bw := ⟨0xA0, 3, 0, 3, 0⟩ }).bw = ⟨0, 0, 1, 8, 1⟩ ∧
    (command 0x04 { small with bw := ⟨0xA0, 3, 0, 3, 0⟩ }).obufByte 0 = 0xBF := by decide +kernel

/-- V-BW-7, its reset of the counters. -/
theorem test_bwResetCounts : (command 0x05 { small with bw := ⟨0xD0, 4, 0, 4, 0⟩ }).bw = ⟨0xD0, 4, 0, 0, 0⟩ := by
  decide +kernel

/-- V-BW-11, its last command. -/
theorem test_bwInit : (command 0x01 { small with bw := ⟨0xE0, 3, 0, 3, 0⟩ }).bw = ⟨0, 0, 0, 0, 0⟩ ∧
    (command 0x01 { small with bw := ⟨0xE0, 3, 0, 3, 0⟩ }).statusWord = 0x00010002 := by decide +kernel

/-- V-BR-1, its first bit. -/
theorem test_brGetBit : (command 0x12 (load [0xA1] small)).br = ⟨0xA1, 1, 1, 1, 1⟩ ∧
    (command 0x12 (load [0xA1] small)).result = 1 := by decide +kernel

/-- V-BR-6: the source check. -/
theorem test_brGetBit_srcRange : (command 0x12 { small with srcLen := 17 }).statusWord = 0x00121104 := by decide +kernel

/-- V-BR-2, its last command. -/
theorem test_brReadChar :
    (command 0x13 { load [0xA1, 0x14] small with br := ⟨0xA1, 1, 1, 1, 1⟩ }).br = ⟨0x14, 1, 2, 9, 2⟩ ∧
    (command 0x13 { load [0xA1, 0x14] small with br := ⟨0xA1, 1, 1, 1, 1⟩ }).result = 0x42 := by decide +kernel

/-- V-BR-7, its last command: four bits are consumed, then the pull fails. -/
theorem test_brReadChar_truncated :
    (command 0x13 { load [0xA1] small with br := ⟨0xA1, 4, 1, 4, 1⟩ }).br = ⟨0xA1, 0, 1, 8, 1⟩ ∧
    (command 0x13 { load [0xA1] small with br := ⟨0xA1, 4, 1, 4, 1⟩ }).statusWord = 0x00133204 := by decide +kernel

/-- V-BR-3, its BR_ALIGN. -/
theorem test_brAlign : (command 0x14 { small with br := ⟨0xA1, 4, 1, 4, 1⟩ }).br = ⟨0xA1, 0, 1, 4, 1⟩ := by decide +kernel

/-- V-BR-8, its BR_RESET_COUNTS, and V-BR-9, its last BR_INIT. -/
theorem test_brResetCounts : (command 0x15 { small with br := ⟨0xA1, 2, 1, 2, 1⟩ }).br = ⟨0xA1, 2, 1, 0, 0⟩ := by
  decide +kernel

theorem test_brInit : (command 0x11 { small with br := ⟨0xA1, 2, 1, 2, 1⟩ }).br = ⟨0, 0, 0, 0, 0⟩ := by decide +kernel

/-- V-TB-1, over "AAB". -/
theorem test_tbCount : freqOf (command 0x21 (load [0x41, 0x41, 0x42] small)).freq 0x41 = 2 ∧
    freqOf (command 0x21 (load [0x41, 0x41, 0x42] small)).freq 0x42 = 1 := by decide +kernel

/-- V-TB-2: the three slots, with the rarer symbol left. -/
theorem test_tbBuild :
    (command 0x22 { small with freq := setFreqOf (setFreqOf small.freq 0x41 2) 0x42 1 }).nodes =
      [(0, ⟨0x41, false, false, 0, 0, 2⟩), (1, ⟨0x42, false, false, 0, 0, 1⟩), (2, ⟨0, true, true, 1, 0, 3⟩)] ∧
    (command 0x22 { small with freq := setFreqOf (setFreqOf small.freq 0x41 2) 0x42 1 }).statusWord = 0x0022000A := by
  decide +kernel

/-- V-TB-8: the sum 2^64 overflows. -/
theorem test_tbBuild_overflow :
    (command 0x22 { abState with freq := setFreqOf (setFreqOf small.freq 0 0x8000000000000000) 1 0x8000000000000000 }).statusWord =
      0x00224704 := by decide +kernel

/-- V-TB-10 and V-TB-11 (e). -/
theorem test_tbAdopt :
    (command 0x23 { small with
      nodes := [(0, ⟨0, true, false, 1, 0, 0⟩), (1, ⟨0, false, true, 0, 2, 0⟩), (2, ⟨0x5A, false, false, 0, 0, 0⟩)]
      nodeCount := 3 }).statusWord = 0x0023000A := by decide +kernel

theorem test_tbAdopt_cycle :
    (command 0x23 { small with nodes := [(0, ⟨0, true, false, 0, 0, 0⟩)], nodeCount := 1 }).statusWord = 0x00234404 := by
  decide +kernel

/-- V-CT-1: A is right, B is left. -/
theorem test_ctGen :
    (command 0x31 { small with
      nodes := [(0, ⟨0x41, false, false, 0, 0, 2⟩), (1, ⟨0x42, false, false, 0, 0, 1⟩), (2, ⟨0, true, true, 1, 0, 3⟩)]
      root := 2, nodeCount := 3, treeValid := true }).codeBitsList 0x41 = [true] ∧
    (command 0x31 { small with
      nodes := [(0, ⟨0x41, false, false, 0, 0, 2⟩), (1, ⟨0x42, false, false, 0, 0, 1⟩), (2, ⟨0, true, true, 1, 0, 3⟩)]
      root := 2, nodeCount := 3, treeValid := true }).codeBitsList 0x42 = [false] := by decide +kernel

/-- V-CT-6: a symbol at two leaves. -/
theorem test_ctGen_duplicate :
    (command 0x31 { small with
      nodes := [(0, ⟨0, true, true, 1, 2, 0⟩), (1, ⟨0x41, false, false, 0, 0, 0⟩), (2, ⟨0x41, false, false, 0, 0, 0⟩)]
      nodeCount := 3, treeValid := true }).statusWord = 0x0031450C := by decide +kernel

/-- V-ERR-15: ENC_WRITE_HEADER does not run CheckSrc; and the big-endian header of V-ENC-17. -/
theorem test_encWriteHeader : (command 0x41 { small with srcLen := 17 }).obufBytes 0 8 = [0x11, 0, 0, 0, 0, 0, 0, 0] ∧
    (command 0x41 { small with srcLen := 17 }).orig = 17 := by decide +kernel

theorem test_encWriteHeader_be :
    (command 0x41 { inst 16 16 .be with srcLen := 3 }).obufBytes 0 8 = [0, 0, 0, 0, 0, 0, 0, 3] := by decide +kernel

/-- The tree bits of V-ENC-10: 80 8 of the singleton's 1 01000001 00 0. -/
theorem test_encSerializeTree : (command 0x42 oneState).obufByte 0 = 0xA0 ∧ (command 0x42 oneState).bw = ⟨0x80, 4, 1, 12, 1⟩ := by
  decide +kernel

/-- V-ENC-8. -/
theorem test_encSerializeTree_noTree : (command 0x42 small).statusWord = 0x00424204 := by decide +kernel

theorem test_encEncodeSymbol : (command 0x00420043 abState).bw = ⟨0x80, 1, 0, 1, 0⟩ := by decide +kernel

/-- V-ENC-6: a symbol without a code. -/
theorem test_encEncodeSymbol_noCode : (command 0x005A0043 abState).statusWord = 0x0043431C := by decide +kernel

/-- V-ENC-11 and V-ENC-17. -/
theorem test_encCompress :
    (command 0x44 (load [0x41, 0x41, 0x42] small)).obufBytes 0 12 =
      [0x03, 0, 0, 0, 0, 0, 0, 0, 0xA1, 0x14, 0x13, 0xDF] ∧
    (command 0x44 (load [0x41, 0x41, 0x42] small)).bw = ⟨0, 0, 12, 8, 1⟩ ∧
    (command 0x44 (load [0x41, 0x41, 0x42] small)).statusWord = 0x0044001A := by decide +kernel

/-- V-ENC-18. -/
theorem test_encCompress_overflow :
    (command 0x44 (load [0x41, 0x41, 0x42] (inst 16 8 .le))).bw = ⟨0xA0, 7, 8, 71, 8⟩ ∧
    (command 0x44 (load [0x41, 0x41, 0x42] (inst 16 8 .le))).statusWord = 0x0044121C := by decide +kernel

/-- The archives of V-ENC-9 and V-ENC-17, by the format alone (30_encoding.md R130 to R135). -/
theorem test_archiveOf_empty : archiveOf .le [] = [0, 0, 0, 0, 0, 0, 0, 0, 0x3F] := by
  unfold archiveOf
  rw [show countsOf [] = (load [] small).countBytes 0 from (State.countBytes_eq _ 0).symm]
  decide +kernel

theorem test_archiveOf_be : archiveOf .be [0x41, 0x41, 0x42] = [0, 0, 0, 0, 0, 0, 0, 0x03, 0xA1, 0x14, 0x13, 0xDF] := by
  unfold archiveOf
  rw [show countsOf [0x41, 0x41, 0x42] = (load [0x41, 0x41, 0x42] small).countBytes 3 by
    rw [State.countBytes_eq, show (load [0x41, 0x41, 0x42] small).ibufBytes 0 3 = [0x41, 0x41, 0x42] by decide +kernel]]
  decide +kernel

/-- V-DEC-1. -/
theorem test_decReadHeader : (command 0x51 (load [0xE8, 3, 0, 0, 0, 0, 0, 0] small)).orig = 1000 ∧
    (command 0x51 (load [0xE8, 3, 0, 0, 0, 0, 0, 0] small)).br.rdptr = 8 := by decide +kernel

/-- V-DEC-2. -/
theorem test_decReadHeader_be : (command 0x51 (load [0, 0, 0, 0, 0, 0, 3, 0xE8] (inst 16 16 .be))).orig = 1000 := by
  decide +kernel

/-- V-DEC-3. -/
theorem test_decDeserializeTree :
    (command 0x52 (load [0xA0, 0x8F] small)).nodes =
      [(0, ⟨0, true, false, 1, 0, 0⟩), (1, ⟨0x41, false, false, 0, 0, 0⟩)] ∧
    (command 0x52 (load [0xA0, 0x8F] small)).statusWord = 0x0052000A := by decide +kernel

theorem test_decDeserializeTree_truncated : (command 0x52 (load [0xA0] abState)).statusWord = 0x00523204 := by
  decide +kernel

/-- V-DEC-24, its two decodes. -/
theorem test_decDecodeSymbol : (command 0x53 (load [0x40] oneState)).result = 0x41 ∧
    (command 0x53 { load [0x40] oneState with br := ⟨0x40, 1, 1, 1, 1⟩ }).errCode = 0x31 := by decide +kernel

/-- V-DEC-22, its last command. -/
theorem test_decDecodeSymbol_emptyTree : (command 0x53 emptyState).statusWord = 0x0053330C := by decide +kernel

/-- V-DEC-5. -/
theorem test_decDecompress :
    (command 0x54 (load [0x03, 0, 0, 0, 0, 0, 0, 0, 0xA1, 0x14, 0x13, 0xDF] small)).obufBytes 0 3 = [0x41, 0x41, 0x42] ∧
    (command 0x54 (load [0x03, 0, 0, 0, 0, 0, 0, 0, 0xA1, 0x14, 0x13, 0xDF] small)).br.cursor = 3 ∧
    (command 0x54 (load [0x03, 0, 0, 0, 0, 0, 0, 0, 0xA1, 0x14, 0x13, 0xDF] small)).statusWord = 0x0054000A := by
  decide +kernel

/-- V-DEC-10. -/
theorem test_decDecompress_absentChild :
    (command 0x54 (load [1, 0, 0, 0, 0, 0, 0, 0, 0xA0, 0x8F, 0x80] small)).statusWord = 0x0054310C := by decide +kernel

/-- V-ERR-7: an illegal word. -/
theorem test_illegalWord : (command 0x00000006 small).statusWord = 0x00064104 := by decide +kernel

/-- V-MEM-1: a misaligned write is a bus error and changes no register. -/
theorem test_misalignedWrite : (small.hostWrite 0x0000000E 5).busResp = some (.writeAck true) ∧
    (small.hostWrite 0x0000000E 5).srcLen = 0 := by decide +kernel

/-- A host write of a NODE word clears both validity flags (20_memory.md R86), V-CT-11. -/
theorem test_nodeWrite : (abState.hostWrite 0x8000 0x41).treeValid = false ∧
    (abState.hostWrite 0x8000 0x41).codesValid = false := by decide +kernel

/-! ### Witnesses: states and operands that meet the hypotheses of each statement, at the bounds of each clause -/

theorem exists_next {i : Instr} {s : State} (h : isNext (exec i s) = true) : ∃ t, exec i s = .next t := ⟨_, exec_done h⟩

theorem get?_zipIdx {α : Type} (bs : List α) (a n : Nat) :
    Cells.get? ((bs.zipIdx n).map fun x => (x.2, x.1)) (n + a) = bs[a]? := by
  induction bs generalizing a n with
  | nil => rfl
  | cons b bs ih =>
    rw [List.zipIdx_cons, List.map_cons, Cells.get?]
    cases a with
    | zero => simp
    | succ a =>
      rw [if_neg (by simp), List.getElem?_cons_succ, ← ih a (n + 1)]
      congr 1
      omega

theorem ibufByte_load (bs : List Byte) (s : State) {a : Nat} (h : a < bs.length) : (load bs s).ibufByte a = bs[a] := by
  have := get?_zipIdx bs a 0
  rw [Nat.zero_add, List.getElem?_eq_getElem h] at this
  rw [State.ibufByte, show (load bs s).ibuf = listing bs from rfl, listing, this]
  rfl

theorem ibufBytes_load (bs : List Byte) (s : State) : (load bs s).ibufBytes 0 bs.length = bs := by
  apply List.ext_getElem (by simp [State.ibufBytes])
  intro k h1 h2
  rw [← ibufByte_load bs s h2]
  simp [State.ibufBytes]

theorem unread_load (bs : List Byte) {s : State} (h : s.br = .zero) (hl : bs.length < 2 ^ 64) :
    (load bs s).unread = bs.flatMap byteBits := by
  have hs : (load bs s).srcLen.toNat = bs.length := by
    rw [show (load bs s).srcLen = BitVec.ofNat 64 bs.length from rfl, BitVec.toNat_ofNat, Nat.mod_eq_of_lt hl]
  rw [State.unread, State.curUnread, show (load bs s).br = .zero from h, if_pos (show BitReader.zero.cursor = 0 from rfl), List.nil_append, hs]
  exact congrArg (List.flatMap byteBits) (ibufBytes_load bs s)

theorem witness_DecodeMatchesEncode : (Instr.encEncodeSymbol 0xFF).wf = true ∧ (Instr.bwAddBit false).wf = true := by decide

theorem witness_IllegalCommand_values :
    (∀ op ∈ [0x00, 0x06, 0x10, 0x16, 0x20, 0x24, 0x30, 0x32, 0x40, 0x45, 0x50, 0x55, 0xFF], IllegalOp op) ∧
    ∀ op ∈ [0x01, 0x05, 0x11, 0x15, 0x21, 0x23, 0x31, 0x41, 0x44, 0x51, 0x54], ¬ IllegalOp op := by
  unfold IllegalOp; decide

theorem witness_IllegalCommand_accepted : small.phase = .idle ∧ IllegalOp (opField 0x12345606) :=
  ⟨rfl, by unfold IllegalOp; decide⟩

theorem witness_IllegalCommand_completes : (abState.latchWord 0x00000055).phase = .running ∧
    (abState.latchWord 0x00000055).delay = 0 ∧ IllegalOp (opField (abState.latchWord 0x00000055).cmdLatch) ∧
    (abState.latchWord 0x00000055).StatusInv :=
  ⟨rfl, rfl, by unfold IllegalOp; decide, by decide, by decide, by decide, by decide, by decide⟩

theorem witness_StepRunsDecodedCommand : (small.latchWord 0x102).phase = .running ∧ (small.latchWord 0x102).delay = 0 ∧
    decode (small.latchWord 0x102).cmdLatch = .ok (.bwAddBit true) := by decide

theorem witness_StepRunsDecodedCommand_waiting : ({ small.latchWord 0x102 with delay := 1 } : State).phase = .running ∧
    ({ small.latchWord 0x102 with delay := 1 } : State).delay = 0 + 1 := ⟨rfl, rfl⟩

theorem witness_CommandAccepted : small.phase = .idle ∧ abState.phase = .idle := ⟨rfl, rfl⟩

theorem witness_HostAccessWhileBusy : ({ small.latchWord 0x44 with delay := 1 } : State).phase = .running ∧
    ({ small.latchWord 0x44 with delay := 1 } : State).delay = 0 + 1 ∧
    (0x004 : Word).toNat % 4 = 0 ∧ (0x004 : Word) ≠ 0x000 ∧ (0xFFFFFFFC : Word).toNat % 4 = 0 ∧ (0xFFFFFFFC : Word) ≠ 0x000 ∧
    (0x000 : Word).toNat % 4 = 0 ∧ (0x000 : Word) ≠ 0x004 ∧ (0xFFFFFFFC : Word) ≠ 0x004 := by decide

/-- A command accepted over a tree, with a delay and coming actions. -/
def waiting (n : Nat) (q : List HostAction) : State := { abState.latchWord 0x42 with delay := n, hostQueue := q }

theorem waiting_statusInv (n : Nat) (q : List HostAction) : (waiting n q).StatusInv := by
  have h : (waiting 0 []).StatusInv := ⟨by decide, by decide, by decide, by decide, by decide⟩
  exact ⟨h.notBoth, h.whileBusy, h.errIffCode, h.codesNeedTree, h.latched⟩

theorem waiting_treeInv (n : Nat) (q : List HostAction) : (waiting n q).TreeInv := fun _ => ⟨_, abState_holds⟩

theorem witness_EveryCommandCompletes : (waiting 1 [.wait, .reset]).phase = .running ∧
    (waiting 1 [.wait, .reset]).delay = 1 ∧ (waiting 1 [.wait, .reset]).StatusInv ∧ (waiting 1 [.wait, .reset]).TreeInv ∧
    HostAction.reset ∉ (waiting 1 [.wait, .reset]).hostQueue.take 1 :=
  ⟨rfl, rfl, waiting_statusInv _ _, waiting_treeInv _ _, by decide⟩

theorem witness_EveryCommandCompletes_atOnce : (waiting 0 [.reset]).phase = .running ∧ (waiting 0 [.reset]).delay = 0 ∧
    (waiting 0 [.reset]).StatusInv ∧ (waiting 0 [.reset]).TreeInv ∧
    HostAction.reset ∉ (waiting 0 [.reset]).hostQueue.take 0 :=
  ⟨rfl, rfl, waiting_statusInv _ _, waiting_treeInv _ _, by decide⟩

theorem witness_EveryStepGoesOn : small.TreeInv ∧ abState.TreeInv :=
  ⟨fun h => absurd h (by decide), fun _ => ⟨_, abState_holds⟩⟩

theorem witness_AccessesWithoutEffect_misaligned : small.phase = .idle ∧
    (1 : Word).toNat % 4 ≠ 0 ∧ (2 : Word).toNat % 4 ≠ 0 ∧ (3 : Word).toNat % 4 ≠ 0 ∧ (0xFFFFFFFF : Word).toNat % 4 ≠ 0 := by
  decide

theorem witness_AccessesWithoutEffect_unmapped : small.phase = .idle ∧ small.params.wf = true ∧
    ∀ a ∈ [0x74, 0xFFC, 0x1800, 0x1FFC, 0x2400, 0x3FFC, 0x6000, 0x7FFC, 0xA000, 0xFFFFFC, 0x01000010, 0x01FFFFFC, 0x02000010,
      0xFFFFFFFC], a < 2 ^ 32 ∧ a % 4 = 0 ∧ UnmappedAddr small.ibufSize small.obufSize a := by
  unfold UnmappedAddr; decide +kernel

theorem witness_AccessesWithoutEffect_readOnly :
    (∀ a ∈ [0x004, 0x008, 0x014, 0x060, 0x068, 0x070, 0x2000, 0x23FC, 0x4000, 0x5FFC, 0x800C, 0x9FFC],
      a < 2 ^ 32 ∧ a % 4 = 0 ∧ ReadOnlyAddr a) ∧
    ∀ a ∈ [0x000, 0x00C, 0x010, 0x064, 0x1000, 0x17FC, 0x8000, 0x8004, 0x8008, 0x01000000, 0x02000000], ¬ ReadOnlyAddr a := by
  unfold ReadOnlyAddr; decide +kernel

theorem witness_RegisterMap : abState.phase = .idle := rfl

theorem witness_WindowReads : abState.phase = .idle ∧ abState.params.wf = true ∧ (∀ a ∈ [0, 12], a % 4 = 0 ∧ a < abState.ibufSize) ∧
    ∀ a ∈ [0, 12], a % 4 = 0 ∧ a < abState.obufSize := by decide

theorem witness_RegisterWrites : abState.phase = .idle := rfl

theorem witness_WindowWrites : (inst 4 0x01000000 .be).phase = .idle ∧ (inst 4 0x01000000 .be).params.wf = true ∧
    0 < (inst 4 0x01000000 .be).ibufSize ∧ 0xFFFFFC % 4 = 0 ∧ 0xFFFFFC < (inst 4 0x01000000 .be).obufSize := by decide

theorem witness_ResetState : State.resetAs ⟨4, 4, .be⟩ 7 = State.resetAs ⟨4, 4, .be⟩ 7 := rfl

theorem witness_PlatformReset : abState.phase = .idle ∧ (waiting 1 []).delay ≠ 0 ∧ (waiting 1 []).phase = .running :=
  ⟨rfl, by decide, rfl⟩

theorem witness_ResetMeetsInvariants : Params.wf ⟨4, 4, .le⟩ = true ∧ Params.wf ⟨0x01000000, 0x01000000, .be⟩ = true := by decide

/-- The invariants before a step that runs a command. -/
theorem waiting_inv (n : Nat) (q : List HostAction) : (waiting n q).Inv where
  status := waiting_statusInv n q
  writer := ⟨abState_inv.writer.tailZero, abState_inv.writer.inRange⟩
  memory := ⟨abState_inv.memory.params, abState_inv.memory.ibuf, abState_inv.memory.obuf, abState_inv.memory.nodes⟩
  tree := waiting_treeInv n q
  codes := fun _ => ⟨rfl, _, abState_holds, abState_codes⟩
  codeTail := abState_tail

theorem waiting_steps : ∃ t, step (waiting 0 []) = .next t :=
  exists_next (i := .encSerializeTree) (s := waiting 0 []) (by decide +kernel)

theorem witness_StatusInvariant : ∃ s t : State, s.StatusInv ∧ step s = .next t :=
  let ⟨t, h⟩ := waiting_steps; ⟨_, t, (waiting_inv 0 []).status, h⟩

theorem witness_WriterInvariant : ∃ s t : State, s.WriterInv ∧ step s = .next t :=
  let ⟨t, h⟩ := waiting_steps; ⟨_, t, (waiting_inv 0 []).writer, h⟩

theorem witness_MemoryInvariant : ∃ s t : State, s.MemoryInv ∧ step s = .next t :=
  let ⟨t, h⟩ := waiting_steps; ⟨_, t, (waiting_inv 0 []).memory, h⟩

theorem witness_TreeInvariant : ∃ s t : State, s.TreeInv ∧ s.treeValid = true ∧ step s = .next t :=
  let ⟨t, h⟩ := waiting_steps; ⟨_, t, (waiting_inv 0 []).tree, rfl, h⟩

theorem witness_CodesInvariant : ∃ s t : State, s.TreeInv ∧ s.CodesInv ∧ s.CodeTailZero ∧ s.codesValid = true ∧ step s = .next t :=
  let ⟨t, h⟩ := waiting_steps
  ⟨_, t, (waiting_inv 0 []).tree, (waiting_inv 0 []).codes, (waiting_inv 0 []).codeTail, rfl, h⟩

theorem witness_CodesPrefixFree : abState.CodesInv ∧ abState.codesValid = true ∧ abState.HoldsTree abTree ∧
    abState.codeLenOf 0x41 ≠ 0 ∧ abState.codeLenOf 0x42 ≠ 0 ∧ (0x41 : Byte) ≠ 0x42 :=
  ⟨abState_inv.codes, rfl, abState_holds, by decide, by decide, by decide⟩

theorem witness_CommandsWriteOnlyTheirState : (∃ t, exec .brInit small = .next t) ∧ (∃ t, exec .bwInit small = .next t) ∧
    Instr.brInit.usesWriter = false ∧ Instr.bwInit.usesReader = false ∧ Instr.bwInit.writesArena = false ∧
    Instr.tbAdopt.writesArena = false ∧ ∃ t, exec .tbAdopt small = .next t ∧ t.err = true :=
  ⟨exists_next (by decide), exists_next (by decide), rfl, rfl, rfl, rfl, _, exec_done (by decide), by decide⟩

theorem witness_ResultsWrittenOnly : small.err = false ∧ (∃ t, exec .bwPad small = .next t) ∧
    ∃ t, exec .brGetBit small = .next t ∧ t.err = true :=
  ⟨rfl, exists_next (by decide), _, exec_done (by decide), by decide⟩

theorem witness_ErrorsOfEachCommand : small.done = false ∧ small.err = false ∧ small.errCode = 0 ∧
    (∃ t, exec .bwPad small = .next t) ∧ ∃ t, exec .brGetBit small = .next t :=
  ⟨rfl, rfl, rfl, exists_next (by decide), exists_next (by decide)⟩

theorem witness_StartChecks : ({ small with srcLen := 17 } : State).ibufSize < ({ small with srcLen := 17 } : State).srcLen.toNat ∧
    small.treeValid = false ∧ ({ small with srcLen := 16 } : State).srcLen.toNat ≤ ({ small with srcLen := 16 } : State).ibufSize := by
  decide

/-- A writer at these coordinates, with nothing but zeros in the byte that it fills. -/
def writerAt (pos : BitVec 3) (wrptr : DWord) : State := { abState with bw := ⟨0, pos, wrptr, 0, 0⟩ }

theorem writerAt_tailZero (pos : BitVec 3) (wrptr : DWord) : (writerAt pos wrptr).WriterTailZero := fun _ _ => BitVec.getLsbD_zero

theorem witness_BwAddBit : (writerAt 7 16).bw.pos = 7 ∧ (writerAt 7 16).obufSize ≤ (writerAt 7 16).bw.wrptr.toNat ∧
    (writerAt 7 15).bw.pos = 7 ∧ (writerAt 7 15).bw.wrptr.toNat < (writerAt 7 15).obufSize ∧
    (writerAt 6 16).bw.pos ≠ 7 ∧ (writerAt 0 0).bw.pos ≠ 7 := by decide

theorem witness_BwWriteChar : (writerAt 7 15).WriterTailZero ∧ (writerAt 7 15).bw.wrptr.toNat < (writerAt 7 15).obufSize ∧
    (writerAt 0 16).WriterTailZero ∧ (writerAt 0 16).obufSize ≤ (writerAt 0 16).bw.wrptr.toNat :=
  ⟨writerAt_tailZero _ _, by decide, writerAt_tailZero _ _, by decide⟩

theorem witness_BwPad : (∀ p w, (writerAt p w).WriterTailZero) ∧ (writerAt 0 16).bw.pos = 0 ∧
    (writerAt 1 15).bw.pos ≠ 0 ∧ (writerAt 1 15).bw.wrptr.toNat < (writerAt 1 15).obufSize ∧
    (writerAt 7 16).bw.pos ≠ 0 ∧ (writerAt 7 16).obufSize ≤ (writerAt 7 16).bw.wrptr.toNat :=
  ⟨writerAt_tailZero, by decide, by decide, by decide, by decide, by decide⟩

theorem witness_WriterStream :
    writerBits [.bwAddBit true, .bwResetCounts, .bwPad] [] = some (List.replicate 8 true) ∧ small.err = false ∧
    (∃ t, execAll [.bwInit, .bwAddBit true, .bwResetCounts, .bwPad] small = some t) ∧
    Instr.bwResetCounts ∉ [Instr.bwPad] ∧ writerBits [.bwAddBit true] [] = some [true] ∧
    writerBits [.bwAddBit true] [] = some [true] ∧ Instr.bwResetCounts ∉ [Instr.bwAddBit true] ∧
    ∃ t, execAll [.bwInit, .bwAddBit true] small = some t :=
  ⟨by decide, rfl, Option.isSome_iff_exists.mp (by decide +kernel), by decide, by decide, by decide, by decide,
    Option.isSome_iff_exists.mp (by decide +kernel)⟩

/-- A reader at these coordinates over sixteen source bytes. -/
def readerAt (cursor : BitVec 3) (rdptr : DWord) : State := { small with srcLen := 16, br := ⟨0xA1, cursor, rdptr, 0, 0⟩ }

theorem readerAt_checked : (readerAt 0 0).srcLen.toNat ≤ (readerAt 0 0).ibufSize := by decide

theorem witness_BrGetBit : (∀ c r, (readerAt c r).srcLen.toNat ≤ (readerAt c r).ibufSize) ∧
    (readerAt 0 16).br.cursor = 0 ∧ (readerAt 0 16).srcLen.toNat ≤ (readerAt 0 16).br.rdptr.toNat ∧
    (readerAt 0 15).br.cursor = 0 ∧ (readerAt 0 15).br.rdptr.toNat < (readerAt 0 15).srcLen.toNat ∧
    (readerAt 1 16).br.cursor ≠ 0 ∧ (readerAt 7 16).br.cursor ≠ 0 :=
  ⟨fun _ _ => readerAt_checked, by decide, by decide, by decide, by decide, by decide, by decide⟩

theorem witness_BrReadChar : (∀ c r, (readerAt c r).srcLen.toNat ≤ (readerAt c r).ibufSize) ∧
    8 ≤ (readerAt 0 15).unread.length ∧ (readerAt 1 16).unread.length < 8 :=
  ⟨fun _ _ => readerAt_checked, by decide +kernel, by decide +kernel⟩

theorem witness_TbCount : (readerAt 0 0).srcLen.toNat ≤ (readerAt 0 0).ibufSize := by decide

/-- FREQ with these two entries, the rest 0. -/
def twoFreqs (m n : DWord) : State := { small with freq := setFreqOf (setFreqOf small.freq 0 m) 1 n }

/-- The greatest sum that fits, and one more. -/
theorem witness_TbBuild : huffmanTree (twoFreqs 0x7FFFFFFFFFFFFFFF 0x8000000000000000).freq = some (.node 0 (.leaf 0) (.leaf 1)) ∧
    huffmanTree (twoFreqs 0x8000000000000000 0x8000000000000000).freq = none := by
  have h : presentSymbols (twoFreqs 0x7FFFFFFFFFFFFFFF 0x8000000000000000).freq = [0, 1] := by decide +kernel
  have h' : presentSymbols (twoFreqs 0x8000000000000000 0x8000000000000000).freq = [0, 1] := by decide +kernel
  rw [huffmanTree, h, huffmanTree, h']
  decide +kernel

/-- Does the command end with a tree? -/
def endsWithTree : Host.Outcome State Fault Refusal → Bool
  | .next t => t.treeValid
  | .fault _ => false
  | .refused _ => false

theorem built (m n : DWord) (h : endsWithTree (exec .tbBuild (twoFreqs m n)) = true) :
    ∃ t, exec .tbBuild (twoFreqs m n) = .next t ∧ t.treeValid = true := by
  cases he : exec .tbBuild (twoFreqs m n) with
  | next t => rw [he] at h; exact ⟨t, rfl, h⟩
  | fault f => rw [he] at h; cases h
  | refused r => rw [he] at h; cases h

theorem witness_BuiltArena_empty : (∃ t, exec .tbBuild (twoFreqs 0 0) = .next t ∧ t.treeValid = true) ∧
    presentSymbols (twoFreqs 0 0).freq = [] :=
  ⟨built _ _ (by decide +kernel), by decide +kernel⟩

theorem witness_BuiltArena_one : (∃ t, exec .tbBuild (twoFreqs 1 0) = .next t ∧ t.treeValid = true) ∧
    presentSymbols (twoFreqs 1 0).freq = [0] :=
  ⟨built _ _ (by decide +kernel), by decide +kernel⟩

theorem witness_BuiltArena_two : (∃ t, exec .tbBuild (twoFreqs 1 1) = .next t ∧ t.treeValid = true) ∧
    presentSymbols (twoFreqs 1 1).freq = [0, 1] :=
  ⟨built _ _ (by decide +kernel), by decide +kernel⟩

theorem witness_BuildDeterministic : ∃ t t', (twoFreqs 1 0).freq = ({ twoFreqs 1 0 with nodes := abNodes } : State).freq ∧
    exec .tbBuild (twoFreqs 1 0) = .next t ∧ exec .tbBuild { twoFreqs 1 0 with nodes := abNodes } = .next t' :=
  ⟨_, _, rfl, exec_done (by decide +kernel), exec_done (by decide +kernel)⟩

theorem witness_CountedBuildSucceeds : ∃ t, (load [0x41] small).srcLen.toNat ≤ (load [0x41] small).ibufSize ∧
    exec .tbCount (load [0x41] small) = .next t := ⟨_, by decide, exec_done (by decide +kernel)⟩

theorem witness_BuiltTreeHasCodes : (∃ t, exec .tbBuild (twoFreqs 1 1) = .next t ∧ t.treeValid = true) ∧
    2 ≤ (presentSymbols (twoFreqs 1 1).freq).length :=
  ⟨witness_BuiltArena_two.1, by rw [witness_BuiltArena_two.2]; decide⟩

theorem witness_TbAdopt_accepts : abState.ArenaIsTree ∧ emptyState.ArenaIsTree := ⟨⟨_, abState_holds⟩, ⟨_, emptyState_holds⟩⟩

/-- No node; a cycle; a child outside NODE_COUNT; two links to one node. -/
theorem witness_TbAdopt_refuses : ¬ small.ArenaIsTree ∧
    ¬ ({ small with nodes := [(0, ⟨0, true, false, 0, 0, 0⟩)], nodeCount := 1 } : State).ArenaIsTree ∧
    ¬ ({ small with nodes := [(0, ⟨0, true, false, 1, 0, 0⟩)], nodeCount := 1 } : State).ArenaIsTree ∧
    ¬ ({ small with nodes := [(0, ⟨0, true, true, 1, 1, 0⟩), (1, ⟨0, false, false, 0, 0, 0⟩)], nodeCount := 2 } : State).ArenaIsTree := by
  simp only [← State.treeIsSound_iff]
  decide +kernel

/-- A left chain of `d` links down to one leaf. -/
def chain : Nat → Shape
  | 0 => .leaf 0x41
  | d + 1 => .node 0x41 (chain d) .absent

/-- Node `i` of the arena of `chain d`. -/
def chainNode (d i : Nat) : Node := ⟨0x41, decide (i < d), false, BitVec.ofNat 9 (i + 1), 0, 0⟩

/-- The arena of `chain d`. -/
def chainState (d : Nat) : State :=
  { small with
    nodes := ((List.range (d + 1)).map (chainNode d)).zipIdx.map fun x => (x.2, x.1)
    root := 0, nodeCount := BitVec.ofNat 10 (d + 1), treeValid := true }

theorem chain_ne_absent (d : Nat) : chain d ≠ .absent := by cases d <;> exact Shape.noConfusion

theorem size_chain (d : Nat) : (chain d).size = d + 1 := by
  induction d with
  | zero => rfl
  | succ d ih => rw [chain, Shape.size, ih]; simp only [Shape.size]; omega

theorem codesAt_chain (d : Nat) (p : List Bool) : (chain d).codesAt p = [(0x41, p ++ List.replicate d false)] := by
  induction d generalizing p with
  | zero => simp [chain, Shape.leaf, Shape.codesAt, Shape.isAbsent]
  | succ d ih =>
    have h : (chain d).isAbsent = false := by cases d <;> rfl
    rw [chain, Shape.codesAt, h, Bool.false_and, if_neg Bool.false_ne_true, ih]
    simp [Shape.codesAt, List.replicate_succ]

theorem codes_chain (d : Nat) : (chain (d + 1)).codes = [(0x41, List.replicate (d + 1) false)] := by
  have h : (chain d).isAbsent = false := by cases d <;> rfl
  rw [Shape.codes, if_neg (by rw [chain, Shape.isChildless, h]; decide), codesAt_chain]
  rfl

theorem node_chainState {d : Nat} {i : NodeIdx} (h : i.toNat ≤ d) :
    (chainState d).node i = ⟨0x41, decide (i.toNat < d), false, BitVec.ofNat 9 (i.toNat + 1), 0, 0⟩ := by
  have := get?_zipIdx ((List.range (d + 1)).map (chainNode d)) i.toNat 0
  rw [Nat.zero_add, List.getElem?_map, List.getElem?_range (by omega)] at this
  exact congrArg (fun o => Option.getD o (powerOnNode (chainState d).epoch i.toNat)) this

theorem chain_subtree {d : Nat} (hd : d < 512) (k : Nat) : ∀ i : NodeIdx, i.toNat + k = d →
    ∃ ns, Subtree (chainState d).node true i (chain k) ns ∧ ns.Nodup ∧ ∀ j ∈ ns, i.toNat ≤ j.toNat ∧ j.toNat ≤ d := by
  induction k with
  | zero =>
    intro i hi
    have hn := node_chainState (d := d) (i := i) (by omega)
    rw [decide_eq_false (by omega)] at hn
    have := Subtree.present (nd := (chainState d).node) i .absent .absent [] [] (by rw [hn]; exact .absent _)
      (by rw [hn]; exact .absent _)
    rw [hn] at this
    exact ⟨_, this, List.nodup_singleton _, fun j hj => by rw [List.mem_singleton.1 hj]; omega⟩
  | succ k ih =>
    intro i hi
    have hn := node_chainState (d := d) (i := i) (by omega)
    rw [decide_eq_true (by omega)] at hn
    have hi1 : (BitVec.ofNat 9 (i.toNat + 1)).toNat = i.toNat + 1 := by
      rw [BitVec.toNat_ofNat, Nat.mod_eq_of_lt (by omega)]
    obtain ⟨ns, hs, hd', hb⟩ := ih (BitVec.ofNat 9 (i.toNat + 1)) (by omega)
    have := Subtree.present (nd := (chainState d).node) i (chain k) .absent ns [] (by rw [hn]; exact hs)
      (by rw [hn]; exact .absent _)
    rw [hn, List.append_nil] at this
    refine ⟨_, this, List.nodup_cons.2 ⟨fun h => ?_, hd'⟩, fun j hj => ?_⟩
    · have := (hb i h).1
      omega
    · rcases List.mem_cons.1 hj with rfl | h
      · omega
      · have := hb j h
        omega

theorem chainState_holds {d : Nat} (hd : d < 512) : (chainState d).HoldsTree (chain d) := by
  obtain ⟨ns, hs, hn, hb⟩ := chain_subtree hd d 0 (by simp)
  have hc : (chainState d).nodeCount.toNat = d + 1 := by
    rw [show (chainState d).nodeCount = BitVec.ofNat 10 (d + 1) from rfl, BitVec.toNat_ofNat, Nat.mod_eq_of_lt (by omega)]
  refine ⟨by omega, by rw [hc]; show d + 1 ≤ 512; omega, by rw [hc]; exact Nat.succ_pos d, ns, hs, hn, fun j hj => ?_⟩
  have := (hb j hj).2
  omega

theorem witness_CtGen : abState.treeValid = true ∧ abState.HoldsTree abTree ∧ CodesOk abTree.codes ∧
    emptyState.treeValid = true ∧ emptyState.HoldsTree (.leaf 0) ∧ CodesOk (Shape.leaf 0).codes :=
  ⟨rfl, abState_holds, by unfold CodesOk; decide, rfl, emptyState_holds, by unfold CodesOk; decide⟩

theorem witness_CtGen_longest : (chainState 255).HoldsTree (chain 255) ∧ CodesOk (chain 255).codes :=
  ⟨chainState_holds (by decide), by
    rw [codes_chain]; unfold CodesOk; exact ⟨List.nodup_singleton _, fun c hc => by
      rw [List.mem_singleton.1 hc, List.length_replicate]; decide⟩⟩

theorem witness_CtGenFails_tooLong : (chainState 256).treeValid = true ∧ (chainState 256).HoldsTree (chain 256) ∧
    (chain 256).codes = [] ++ (0x41, List.replicate 256 false) :: [] ∧ CodesOk [] ∧
    Config.codeMaxLen < (List.replicate 256 false).length :=
  ⟨rfl, chainState_holds (by decide), codes_chain _, by unfold CodesOk; decide,
    by rw [List.length_replicate]; decide⟩

/-- A at both leaves. -/
def aaState : State :=
  { abState with nodes := [(0, ⟨0x41, false, false, 0, 0, 1⟩), (1, ⟨0x41, false, false, 0, 0, 1⟩), (2, ⟨0, true, true, 0, 1, 2⟩)] }

theorem witness_CtGenFails_duplicate : aaState.treeValid = true ∧ aaState.HoldsTree (.node 0 (.leaf 0x41) (.leaf 0x41)) ∧
    (Shape.node 0 (.leaf 0x41) (.leaf 0x41)).codes = [(0x41, [false])] ++ (0x41, [true]) :: [] ∧ CodesOk [(0x41, [false])] ∧
    (0x41 : Byte) ∈ [((0x41 : Byte), [false])].map Prod.fst :=
  ⟨rfl, ⟨by decide, by decide, by decide, [2, 0, 1],
    Subtree.present (nd := aaState.node) 2 (.leaf 0x41) (.leaf 0x41) [0] [1]
      (Subtree.present (nd := aaState.node) 0 .absent .absent [] [] (.absent _) (.absent _))
      (Subtree.present (nd := aaState.node) 1 .absent .absent [] [] (.absent _) (.absent _)), by decide, by decide⟩,
    by decide, by unfold CodesOk; decide, by decide⟩

theorem witness_EncWriteHeader : (∀ p w, (writerAt p w).WriterTailZero) ∧ (writerAt 0 8).HasRoom 64 ∧
    ¬ (writerAt 0 9).HasRoom 64 ∧ (writerAt 7 8).HasRoom 64 ∧ ¬ (writerAt 7 9).HasRoom 64 :=
  ⟨writerAt_tailZero, by unfold State.HasRoom; decide⟩

theorem writerAt_holds (p : BitVec 3) (w : DWord) : (writerAt p w).HoldsTree abTree :=
  abState_holds.congr rfl rfl fun _ _ => rfl

theorem witness_EncSerializeTree : (∀ p w, (writerAt p w).WriterTailZero ∧ (writerAt p w).HoldsTree abTree) ∧
    (writerAt 0 0).treeValid = true ∧ (writerAt 0 14).HasRoom (10 * abTree.size - 8) ∧
    ¬ (writerAt 0 15).HasRoom (10 * abTree.size - 8) :=
  ⟨fun p w => ⟨writerAt_tailZero p w, writerAt_holds p w⟩, rfl, by unfold State.HasRoom; decide⟩

theorem witness_EncEncodeSymbol : (∀ p w, (writerAt p w).WriterTailZero) ∧ small.codesValid = false ∧
    (writerAt 7 15).codeLenOf 0x5A = 0 ∧ (writerAt 7 15).codesValid = true ∧ (writerAt 7 15).codeLenOf 0x41 ≠ 0 ∧
    (writerAt 7 15).HasRoom ((writerAt 7 15).codeLenOf 0x41).toNat ∧
    ¬ (writerAt 7 16).HasRoom ((writerAt 7 16).codeLenOf 0x41).toNat :=
  ⟨writerAt_tailZero, by unfold State.HasRoom; decide +kernel⟩

/-- A source whose archive has 12 bytes (V-ENC-17), in an OBUF of the size. -/
def aab (obufSize : Word) : State := load [0x41, 0x41, 0x42] (inst 4 obufSize .be)

theorem aab_archive (o : Word) :
    (archiveOf (aab o).params.headerOrder ((aab o).ibufBytes 0 (aab o).srcLen.toNat)).length = 12 := by
  rw [show (aab o).srcLen.toNat = 3 from rfl, show (aab o).params.headerOrder = .be from rfl,
    show (aab o).ibufBytes 0 3 = [0x41, 0x41, 0x42] from ibufBytes_load _ _, test_archiveOf_be]
  rfl

theorem witness_EncCompress : (aab 12).srcLen.toNat ≤ (aab 12).ibufSize ∧
    (archiveOf (aab 12).params.headerOrder ((aab 12).ibufBytes 0 (aab 12).srcLen.toNat)).length ≤ (aab 12).obufSize :=
  ⟨by decide, by rw [aab_archive]; decide⟩

/-- V-ENC-18 and V-ENC-20: the archive's header and tree have 11 bytes, and OBUF 8 or 11. -/
theorem witness_EncCompressOverflow : (aab 8).srcLen.toNat ≤ (aab 8).ibufSize ∧ (aab 11).srcLen.toNat ≤ (aab 11).ibufSize ∧
    (aab 8).obufSize < (archiveOf (aab 8).params.headerOrder ((aab 8).ibufBytes 0 (aab 8).srcLen.toNat)).length ∧
    (aab 11).obufSize < (archiveOf (aab 11).params.headerOrder ((aab 11).ibufBytes 0 (aab 11).srcLen.toNat)).length ∧
    (aab 8).obufSize < 11 ∧ ¬ (aab 11).obufSize < 11 :=
  ⟨by decide, by decide, by rw [aab_archive]; decide, by rw [aab_archive]; decide, by decide, by decide⟩

theorem witness_DecReadHeader : (load (List.replicate 8 0x41) small).srcLen.toNat ≤ small.ibufSize ∧
    64 ≤ (load (List.replicate 8 0x41) small).unread.length ∧
    (load (List.replicate 7 0x41) small).srcLen.toNat ≤ small.ibufSize ∧
    (load (List.replicate 7 0x41) small).unread.length < 64 := by
  refine ⟨by decide, ?_, by decide, ?_⟩ <;> rw [unread_load _ rfl (by decide)] <;> decide

theorem witness_DecDeserializeTree_empty : (load [0x3F] small).srcLen.toNat ≤ (load [0x3F] small).ibufSize ∧
    Shape.leaf 0 ≠ .absent ∧ (Shape.leaf 0).size ≤ 512 ∧
    (load [0x3F] small).unread = (Shape.leaf 0).treeBits ++ List.replicate 6 true :=
  ⟨by decide, Shape.noConfusion, by decide, by rw [unread_load _ rfl (by decide)]; decide⟩

/-- The serialized `chain d` in IBUF. -/
def chainStream (d : Nat) : State := load (packBits (chain d).treeBits) (inst 1024 16 .le)

theorem length_chainStream (d : Nat) : (packBits (chain d).treeBits).length = (10 * (d + 1) - 8 + 7) / 8 := by
  rw [length_packBits, Shape.length_treeBits (chain_ne_absent d), size_chain]

theorem chainStream_unread {d : Nat} (h : d ≤ 512) : ∃ rest, (chainStream d).unread = (chain d).treeBits ++ rest :=
  ⟨_, (unread_load _ rfl (by rw [length_chainStream]; omega)).trans (packBits_bits _)⟩

theorem chainStream_checked {d : Nat} (h : d ≤ 512) : (chainStream d).srcLen.toNat ≤ (chainStream d).ibufSize := by
  rw [show (chainStream d).srcLen = BitVec.ofNat 64 (packBits (chain d).treeBits).length from rfl, length_chainStream,
    BitVec.toNat_ofNat, show (chainStream d).ibufSize = 1024 from rfl]
  exact Nat.le_trans (Nat.mod_le _ _) (by omega)

theorem witness_DecDeserializeTree_largest : ∃ rest, (chainStream 511).srcLen.toNat ≤ (chainStream 511).ibufSize ∧
    chain 511 ≠ .absent ∧ (chain 511).size ≤ 512 ∧ (chainStream 511).unread = (chain 511).treeBits ++ rest :=
  (chainStream_unread (by decide)).imp fun _ h =>
    ⟨chainStream_checked (by decide), chain_ne_absent _, by rw [size_chain], h⟩

theorem witness_DecDeserializeTreeFails_truncated : small.srcLen.toNat ≤ small.ibufSize ∧
    ∀ (sh : Shape) (rest : List Bool), sh ≠ .absent → sh.size ≤ 512 → small.unread ≠ sh.treeBits ++ rest := by
  refine ⟨by decide, fun sh rest h _ he => ?_⟩
  have := congrArg List.length he
  rw [show small.unread = [] by decide, List.length_append, Shape.length_treeBits h] at this
  rw [List.length_nil] at this
  have := Shape.size_pos h
  omega

theorem treeBits_unique {a b : Shape} {x y : List Bool} (ha : a ≠ .absent) (hb : b ≠ .absent)
    (h : a.treeBits ++ x = b.treeBits ++ y) : a.size = b.size := by
  cases a with
  | absent => exact absurd rfl ha
  | node s l r =>
    cases b with
    | absent => exact absurd rfl hb
    | node s' l' r' =>
      rw [Shape.treeBits, Shape.treeBits, List.append_assoc, List.append_assoc] at h
      obtain ⟨hl, h⟩ := Shape.slotBits_unique h
      rw [Shape.size, Shape.size, hl, (Shape.slotBits_unique h).1]

theorem witness_DecDeserializeTreeFails_tooLarge : (chainStream 512).srcLen.toNat ≤ (chainStream 512).ibufSize ∧
    (∀ (sh : Shape) (rest : List Bool), sh ≠ .absent → sh.size ≤ 512 → (chainStream 512).unread ≠ sh.treeBits ++ rest) ∧
    ∃ (sh : Shape) (rest : List Bool), 512 < sh.size ∧ (chainStream 512).unread = sh.treeBits ++ rest := by
  obtain ⟨rest, h⟩ := chainStream_unread (d := 512) (by decide)
  refine ⟨chainStream_checked (by decide), fun sh r hne hsz he => ?_, chain 512, rest, by rw [size_chain]; decide, h⟩
  have := treeBits_unique (chain_ne_absent _) hne (h.symm.trans he)
  rw [size_chain] at this
  omega

theorem witness_DecDecodeSymbol : emptyState.srcLen.toNat ≤ emptyState.ibufSize ∧ emptyState.treeValid = true ∧
    emptyState.HoldsTree (.leaf 0) ∧ (Shape.leaf 0).isChildless = true :=
  ⟨by decide, rfl, emptyState_holds, rfl⟩

/-- The three ends of a walk, the first two on the last bit of the stream's first byte. -/
theorem witness_DecDecodeSymbol_walks : (∀ bs br, ({ load bs oneState with br := br } : State).HoldsTree oneTree) ∧
    oneState.treeValid = true ∧ oneTree.isChildless = false ∧
    ({ load [0x40] oneState with br := ⟨0x40, 7, 1, 0, 0⟩ } : State).srcLen.toNat ≤ oneState.ibufSize ∧
    oneTree.walkDown ({ load [0x40] oneState with br := ⟨0x40, 7, 1, 0, 0⟩ } : State).unread 0 = .symbol 0x41 1 ∧
    oneTree.walkDown ({ load [0x41] oneState with br := ⟨0x41, 7, 1, 0, 0⟩ } : State).unread 0 = .absentChild 1 ∧
    oneTree.walkDown ({ load [0x41] oneState with br := ⟨0x41, 0, 1, 0, 0⟩ } : State).unread 0 = .truncated 0 :=
  ⟨fun _ _ => oneState_holds.congr rfl rfl fun _ _ => rfl, rfl, rfl, by decide, by decide +kernel, by decide +kernel,
    by decide +kernel⟩

theorem witness_DecodeInvertsEncode : (load [0xFE] abState).srcLen.toNat ≤ (load [0xFE] abState).ibufSize ∧
    (load [0xFE] abState).CodesInv ∧ (load [0xFE] abState).codesValid = true ∧ (load [0xFE] abState).codeLenOf 0x42 ≠ 0 ∧
    (load [0xFE] abState).codeBitsList 0x42 <+: (load [0xFE] abState).unread :=
  ⟨by decide, fun _ => ⟨rfl, _, abState_holds.congr rfl rfl fun _ _ => rfl, abState_codes⟩, rfl, by decide, by
    rw [unread_load _ rfl (by decide)]; decide⟩

/-- V-DEC-8's singleton archive. -/
def singleton : State := load [1, 0, 0, 0, 0, 0, 0, 0, 0xA0, 0x8F, 0x7F] (inst 12 4 .le)

theorem witness_DecDecompress : singleton.srcLen.toNat ≤ singleton.ibufSize ∧
    singleton.ibufBytes 0 singleton.srcLen.toNat =
      headerBytes singleton.params.headerOrder (BitVec.ofNat 64 [(0x41 : Byte)].length) ++ ([0xA0, 0x8F] ++ [0x7F]) ∧
    [(0xA0 : Byte), 0x8F].flatMap byteBits = oneTree.treeBits ++ List.replicate 4 true ∧ (List.replicate 4 true).length < 8 ∧
    [false] = [(0x41 : Byte)].flatMap (codeFor oneTree.codes) ∧
    [(0x7F : Byte)].flatMap byteBits = [false] ++ List.replicate 7 true ∧ oneTree ≠ .absent ∧ oneTree.size ≤ 512 ∧
    (∀ x ∈ [(0x41 : Byte)], ∃ p, (x, p) ∈ oneTree.codes) ∧ [(0x41 : Byte)].length ≤ singleton.obufSize :=
  ⟨by decide, ibufBytes_load _ _, by decide, by decide, by decide, by decide, Shape.noConfusion, by decide,
    fun x hx => ⟨[false], by rw [List.mem_singleton.1 hx]; decide⟩, by decide⟩

theorem witness_DecDecompressEmptyTree :
    (load [1, 0, 0, 0, 0, 0, 0, 0, 0x3F] (inst 12 4 .le)).srcLen.toNat ≤ (inst 12 4 .le).ibufSize ∧ (1 : DWord) ≠ 0 ∧
    (load [1, 0, 0, 0, 0, 0, 0, 0, 0x3F] (inst 12 4 .le)).ibufBytes 0 9 = headerBytes .le 1 ++ [0x3F] ∧
    [(0x3F : Byte)].flatMap byteBits = false :: false :: List.replicate 6 true :=
  ⟨by decide, by decide, ibufBytes_load _ _, by decide⟩

/-- An archive: the header and the bytes after it. -/
def archive (count : DWord) (bs : List Byte) (o : Word) : State := load (headerBytes .le count ++ bs) (inst 1024 o .le)

theorem ibufBytes_archive (count : DWord) (bs : List Byte) (o : Word) (h : bs.length < 1000) :
    (archive count bs o).srcLen.toNat ≤ (archive count bs o).ibufSize ∧
    (archive count bs o).ibufBytes 0 (archive count bs o).srcLen.toNat =
      headerBytes (archive count bs o).params.headerOrder count ++ bs := by
  have hl : (archive count bs o).srcLen.toNat = (headerBytes .le count ++ bs).length := by
    show (BitVec.ofNat 64 (headerBytes .le count ++ bs).length).toNat = _
    rw [BitVec.toNat_ofNat, Nat.mod_eq_of_lt]
    rw [List.length_append, show (headerBytes .le count).length = 8 from rfl]
    omega
  refine ⟨?_, by rw [hl]; exact ibufBytes_load _ _⟩
  rw [hl, List.length_append, show (headerBytes .le count).length = 8 from rfl]
  show 8 + bs.length ≤ 1024
  omega

theorem witness_DecDecompressNoTree_header : (load (List.replicate 7 0x41) small).srcLen.toNat ≤ small.ibufSize ∧
    (load (List.replicate 7 0x41) small).srcLen.toNat < 8 := by decide

theorem witness_DecDecompressNoTree_truncated :
    (archive 1 [0xA0] 4).srcLen.toNat ≤ (archive 1 [0xA0] 4).ibufSize ∧
    (archive 1 [0xA0] 4).ibufBytes 0 (archive 1 [0xA0] 4).srcLen.toNat =
      headerBytes (archive 1 [0xA0] 4).params.headerOrder 1 ++ [0xA0] ∧
    treeEnd ([0xA0].flatMap byteBits) = .truncated 1 :=
  ⟨(ibufBytes_archive _ _ _ (by decide)).1, (ibufBytes_archive _ _ _ (by decide)).2, by decide⟩

/-- A chain of nodes finds the arena full at the symbol byte of node 513. -/
theorem treeEndFrom_chain (d : Nat) : ∀ (rest : List Bool) (slots nodes used : Nat), nodes ≤ 512 → 512 ≤ nodes + d →
    treeEndFrom ((chain d).slotBits ++ rest) (slots + 1) nodes used = .full (used + 9 * (513 - nodes)) := by
  induction d with
  | zero =>
    intro rest slots nodes used h1 h2
    rw [show 513 - nodes = 1 by omega]
    exact if_pos h2
  | succ d ih =>
    intro rest slots nodes used h1 h2
    by_cases h : nodes = 512
    · subst h
      rfl
    · show treeEndFrom (true :: ((byteBits 0x41 ++ ((chain d).slotBits ++ Shape.absent.slotBits)) ++ rest)) (slots + 1)
        nodes used = _
      rw [List.append_assoc, List.append_assoc, treeEndFrom_node _ _ _ _ (by omega), ih _ _ _ _ (by omega) (by omega),
        show 513 - nodes = (513 - (nodes + 1)) + 1 by omega, Nat.mul_succ]
      congr 1
      omega

/-- Five hundred and twelve symbol bytes down a chain: the last is the 513th node's. -/
theorem witness_DecDecompressNoTree_full :
    (archive 1 (packBits (chain 512).treeBits) 4).srcLen.toNat ≤ (archive 1 (packBits (chain 512).treeBits) 4).ibufSize ∧
    (archive 1 (packBits (chain 512).treeBits) 4).ibufBytes 0 (archive 1 (packBits (chain 512).treeBits) 4).srcLen.toNat =
      headerBytes (archive 1 (packBits (chain 512).treeBits) 4).params.headerOrder 1 ++ packBits (chain 512).treeBits ∧
    treeEnd ((packBits (chain 512).treeBits).flatMap byteBits) = .full (9 * 512) :=
  ⟨(ibufBytes_archive _ _ _ (by rw [length_chainStream]; decide)).1,
    (ibufBytes_archive _ _ _ (by rw [length_chainStream]; decide)).2, by
      rw [packBits_bits, show (chain 512).treeBits = (chain 511).slotBits ++ Shape.absent.slotBits from rfl,
        List.append_assoc]
      exact treeEndFrom_chain 511 _ 1 1 0 (by decide) (by decide)⟩

/-- What all payload witnesses share: the tree of one symbol, in two bytes. -/
theorem witness_DecDecompressPayload_tree (count : DWord) (rest : List Byte) (o : Word) (h : rest.length < 100) :
    (archive count ([0xA0, 0x8F] ++ rest) o).srcLen.toNat ≤ (archive count ([0xA0, 0x8F] ++ rest) o).ibufSize ∧
    (archive count ([0xA0, 0x8F] ++ rest) o).ibufBytes 0 (archive count ([0xA0, 0x8F] ++ rest) o).srcLen.toNat =
      headerBytes (archive count ([0xA0, 0x8F] ++ rest) o).params.headerOrder count ++ ([0xA0, 0x8F] ++ rest) ∧
    [(0xA0 : Byte), 0x8F].flatMap byteBits = oneTree.treeBits ++ List.replicate 4 true ∧ (List.replicate 4 true).length < 8 ∧
    oneTree ≠ .absent ∧ oneTree.size ≤ 512 ∧ oneTree.isChildless = false := by
  have hl : ([0xA0, 0x8F] ++ rest).length < 1000 := by rw [List.length_append, List.length_cons, List.length_singleton]; omega
  exact ⟨(ibufBytes_archive _ _ _ hl).1, (ibufBytes_archive _ _ _ hl).2, by decide, by decide, Shape.noConfusion, by decide,
    rfl⟩

/-- The four ends: the count reached, OBUF of 4 bytes full at the fifth symbol, a 1-bit at once, and no payload. -/
theorem witness_DecDecompressPayload_ends :
    oneTree.Decodes ([(0x7F : Byte)].flatMap byteBits) [0x41] 1 ∧ [(0x41 : Byte)].length = (1 : DWord).toNat ∧
    oneTree.Decodes ([(0x07 : Byte)].flatMap byteBits) [0x41, 0x41, 0x41, 0x41] 4 ∧ 4 < (5 : DWord).toNat ∧
    oneTree.walkDown (([(0x07 : Byte)].flatMap byteBits).drop 4) 0 = .symbol 0x41 1 ∧
    (archive 5 ([0xA0, 0x8F] ++ [0x07]) 4).obufSize = 4 ∧
    oneTree.Decodes ([(0x80 : Byte)].flatMap byteBits) [] 0 ∧ 0 < (1 : DWord).toNat ∧
    oneTree.walkDown (([(0x80 : Byte)].flatMap byteBits).drop 0) 0 = .absentChild 1 ∧
    oneTree.Decodes (([] : List Byte).flatMap byteBits) [] 0 ∧
    oneTree.walkDown ((([] : List Byte).flatMap byteBits).drop 0) 0 = .truncated 0 :=
  ⟨.cons rfl (.nil _), rfl,
    (.cons rfl (.cons rfl (.cons rfl (.cons rfl (.nil _)))) : oneTree.Decodes _ _ (1 + (1 + (1 + (1 + 0))))), by decide, rfl, rfl, .nil _, by decide, rfl,
    .nil _, rfl⟩

/-- ERR, BW_WRPTR and OBUF after a command. -/
def archived : Host.Outcome State Fault Refusal → Option (Bool × DWord × Memory)
  | .next t => some (t.err, t.bw.wrptr, t.obuf)
  | .fault _ => none
  | .refused _ => none

/-- The archive of V-ENC-17, copied from OBUF to IBUF. -/
theorem witness_RoundTrip : ∃ t, exec .encCompress (aab 12) = .next t ∧ t.err = false ∧ t.bw.wrptr = 12 ∧
    let s' := load [0, 0, 0, 0, 0, 0, 0, 0x03, 0xA1, 0x14, 0x13, 0xDF] (inst 12 4 .be)
    s'.params.headerOrder = (aab 12).params.headerOrder ∧ s'.srcLen.toNat ≤ s'.ibufSize ∧
    t.bw.wrptr.toNat ≤ s'.srcLen.toNat ∧ (aab 12).srcLen.toNat ≤ s'.obufSize ∧
    ∀ a < t.bw.wrptr.toNat, s'.ibufByte a = t.obufByte a := by
  have h : archived (exec .encCompress (aab 12)) = some (false, 12,
    listing [0, 0, 0, 0, 0, 0, 0, 0x03, 0xA1, 0x14, 0x13, 0xDF]) := by decide +kernel
  cases he : exec .encCompress (aab 12) with
  | fault f => rw [he] at h; cases h
  | refused r => rw [he] at h; cases h
  | next t =>
    rw [he, archived, Option.some.injEq, Prod.mk.injEq, Prod.mk.injEq] at h
    obtain ⟨h1, h2, h3⟩ := h
    refine ⟨t, rfl, h1, h2, rfl, by decide, by rw [h2]; decide, by decide, fun a ha => ?_⟩
    rw [h2] at ha
    have hb := get?_zipIdx ([0, 0, 0, 0, 0, 0, 0, 0x03, 0xA1, 0x14, 0x13, 0xDF] : List Byte) a 0
    rw [Nat.zero_add, List.getElem?_eq_getElem ha] at hb
    rw [ibufByte_load _ _ ha, State.obufByte, h3, listing, hb]
    rfl

theorem witness_CompressDependsOnInputOnly : ∃ t t',
    let s := load [0x41] (inst 4 4 .be)
    let s' := { s with nodes := abNodes, freq := setFreqOf s.freq 3 7, orig := 5 }
    s.params = s'.params ∧ s.srcLen = s'.srcLen ∧ s.srcLen.toNat ≤ s.ibufSize ∧
    (∀ a < s.srcLen.toNat, s.ibufByte a = s'.ibufByte a) ∧ s.done = false ∧ s.err = false ∧ s.errCode = 0 ∧
    s'.done = false ∧ s'.err = false ∧ s'.errCode = 0 ∧ exec .encCompress s = .next t ∧ exec .encCompress s' = .next t' :=
  ⟨_, _, rfl, rfl, by decide, fun _ _ => rfl, rfl, rfl, rfl, rfl, rfl, rfl, exec_done (by decide +kernel),
    exec_done (by decide +kernel)⟩

theorem witness_DecompressDependsOnInputOnly : ∃ t t',
    let s := singleton
    let s' := { s with nodes := abNodes, orig := 5, obuf := [(3, 9)] }
    s.params = s'.params ∧ s.srcLen = s'.srcLen ∧ s.srcLen.toNat ≤ s.ibufSize ∧
    (∀ a < s.srcLen.toNat, s.ibufByte a = s'.ibufByte a) ∧ s.done = false ∧ s.err = false ∧ s.errCode = 0 ∧
    s'.done = false ∧ s'.err = false ∧ s'.errCode = 0 ∧ exec .decDecompress s = .next t ∧
    exec .decDecompress s' = .next t' ∧ t.done = true :=
  ⟨_, _, rfl, rfl, by decide, fun _ _ => rfl, rfl, rfl, rfl, rfl, rfl, rfl, exec_done (by decide +kernel),
    exec_done (by decide +kernel), by decide +kernel⟩

end Sys2Proof.Tests
end

section
/-! SUPPORT. What a command's pseudocode keeps, said once for all commands, and what the host's side of a step keeps:
the invariants of 10_state.md rest on these. -/

namespace Sys2Proof.Machine

/-! ### What a run leaves -/

namespace Proc
variable {α : Type}

/-- Whatever `p` answers from `s`, the state it leaves has `P`. -/
def Leaves (P : State → Prop) (p : Proc α) (s : State) : Prop :=
  (∀ a t, p s = .ok a t → P t) ∧ ∀ e t, p s = .error e t → P t

theorem Leaves.of_ok {P : State → Prop} {p : Proc α} {s t : State} {a : α} (h : p s = .ok a t) (ht : P t) :
    Leaves P p s := by
  refine ⟨fun b u hu => ?_, fun e u hu => ?_⟩
  · rw [h] at hu
    cases hu
    exact ht
  · rw [h] at hu
    cases hu

theorem Leaves.of_error {P : State → Prop} {p : Proc α} {s t : State} {e : Abort} (h : p s = .error e t) (ht : P t) :
    Leaves P p s := by
  refine ⟨fun b u hu => ?_, fun e u hu => ?_⟩
  · rw [h] at hu
    cases hu
  · rw [h] at hu
    cases hu
    exact ht

theorem Keeps.of_leaves {P : State → Prop} {p : Proc α} (h : ∀ s, P s → Leaves P p s) : Keeps P p := by
  intro s hs
  obtain ⟨hok, herr⟩ := h s hs
  cases hp : p s with
  | ok a t => exact hok a t hp
  | error e t => exact herr e t hp

theorem Keeps.leaves {P : State → Prop} {p : Proc α} (h : Keeps P p) {s : State} (hs : P s) : Leaves P p s :=
  ⟨fun _ _ hp => h.of_ok hs hp, fun _ _ hp => h.of_error hs hp⟩

theorem Leaves.mono {P Q : State → Prop} {p : Proc α} {s : State} (h : Leaves P p s) (hPQ : ∀ t, P t → Q t) :
    Leaves Q p s :=
  ⟨fun a t hp => hPQ t (h.1 a t hp), fun e t hp => hPQ t (h.2 e t hp)⟩

theorem Leaves.congr {P : State → Prop} {p q : Proc α} {s s' : State} (h : Leaves P q s') (e : p s = q s') :
    Leaves P p s :=
  ⟨fun a t hp => h.1 a t (e ▸ hp), fun x t hp => h.2 x t (e ▸ hp)⟩

theorem Leaves.and {P Q : State → Prop} {p : Proc α} {s : State} (hP : Leaves P p s) (hQ : Leaves Q p s) :
    Leaves (fun t => P t ∧ Q t) p s :=
  ⟨fun a t hp => ⟨hP.1 a t hp, hQ.1 a t hp⟩, fun e t hp => ⟨hP.2 e t hp, hQ.2 e t hp⟩⟩

end Proc

/-! ### Commands over a tree -/

/-- TB_ADOPT, said once (42_tree_builder.md R221). -/
theorem tbAdopt_of_tree {s : State} (h : s.ArenaIsTree) :
    procOf .tbAdopt s = .ok () { s with treeValid := true, codesValid := false } := by
  have hs : s.invalidateTree.treeIsSound = true := (State.treeIsSound_iff s.invalidateTree).2 h
  simp only [procOf, Proc.change_bind, Proc.look_bind, hs]
  rfl

theorem tbAdopt_of_not_tree {s : State} (h : ¬ s.ArenaIsTree) :
    procOf .tbAdopt s = .error (.raised .argBadTree) { s with treeValid := false, codesValid := false } := by
  have hs : s.invalidateTree.treeIsSound = false :=
    Bool.eq_false_iff.2 fun hs => h ((State.treeIsSound_iff s.invalidateTree).1 hs)
  simp only [procOf, Proc.change_bind, Proc.look_bind, hs]
  rfl

theorem ctGen_of_valid {s : State} (h : s.treeValid = true) : procOf .ctGen s = genCodes s :=
  Proc.bind_ok (requireTree_ok h)

theorem ctGen_of_invalid {s : State} (h : s.treeValid = false) : procOf .ctGen s = .error (.raised .argNoTree) s :=
  Proc.bind_error (requireTree_bad h)

/-! ### From one AddBit to every writing procedure -/

section
variable {P : State → Prop}

/-- What every single AddBit keeps, a run of them keeps. -/
theorem addBits_keeps_of (h : ∀ b, Proc.Keeps P (addBit b)) (bs : List Bool) : Proc.Keeps P (addBits bs) := by
  induction bs with
  | nil => exact .pure ()
  | cons b bs ih => exact .bind (h b) fun _ => ih

theorem pad_keeps_of (h : ∀ b, Proc.Keeps P (addBit b)) : Proc.Keeps P pad := by
  intro s hs
  rw [pad_eq]
  exact addBits_keeps_of h _ s hs

theorem writeHeader_keeps_of (h : ∀ b, Proc.Keeps P (addBit b)) (v : DWord) : Proc.Keeps P (writeHeader v) := by
  intro s hs
  rw [writeHeader_eq]
  exact addBits_keeps_of h _ s hs

theorem serNode_keeps_of (h : ∀ b, Proc.Keeps P (addBit b)) (fuel : Nat) : ∀ i, Proc.Keeps P (serNode fuel i) := by
  induction fuel with
  | zero => exact fun _ => .diverge
  | succ fuel ih =>
    have side : ∀ b i, Proc.Keeps P (serSide (serNode fuel) b i) := fun b i =>
      .ite (.bind (h true) fun _ => .bind (.look _) fun _ => .bind (addBits_keeps_of h _) fun _ => ih i) (h false)
    exact fun i => .bind (.look _) fun _ => .bind (side _ _) fun _ => side _ _

theorem serializeTree_keeps_of (h : ∀ b, Proc.Keeps P (addBit b)) : Proc.Keeps P serializeTree :=
  .bind (.look _) fun _ => .bind (.look _) fun _ => serNode_keeps_of h _ _

theorem encodeSymbol_keeps_of (h : ∀ b, Proc.Keeps P (addBit b)) (sym : Byte) : Proc.Keeps P (encodeSymbol sym) := by
  intro s hs
  unfold encodeSymbol
  split_ifs
  · exact hs
  · exact addBits_keeps_of h _ s hs

theorem decompressLoop_keeps_of (h : ∀ b, Proc.Keeps P (addBit b)) (hr : NoReader P) (n : Nat) :
    Proc.Keeps P (decompressLoop n) := by
  induction n with
  | zero => exact .pure ()
  | succ n ih => exact .bind (decodeSymbol_keeps hr) fun _ => .bind (addBits_keeps_of h _) fun _ => ih

end

/-! ### Invariants of the commands -/

/-- `P` outlives everything that the commands do: one entry per shared operation of the pseudocode. -/
structure CommandsKeep (P : State → Prop) : Prop where
  addBit : ∀ b, Proc.Keeps P (addBit b)
  initWriter : ∀ s, P s → P s.initWriter
  writerCounts : ∀ s, P s → P s.resetWriterCounts
  reader : NoReader P
  sizes : NoSizes P
  result : ∀ s v, P s → P (s.setResult v)
  freq : ∀ (s : State) (f : Vector DWord 256), P s → P { s with freq := f }
  build : Proc.Keeps P buildTree
  deserialize : Proc.Keeps P deserializeTree
  adopt : Proc.Keeps P (procOf .tbAdopt)
  codes : Proc.Keeps P (procOf .ctGen)
  ready : ∀ s u sh, P s → ReadyToWrite s u sh → P u

section
variable {P : State → Prop}

/-- ENC_COMPRESS refuses, or it writes its archive from the state that `ReadyToWrite` describes. -/
theorem CommandsKeep.compress (h : CommandsKeep P) : Proc.Keeps P compress := by
  refine .of_leaves fun s hs => ?_
  by_cases hlen : s.srcLen.toNat ≤ s.ibufSize
  · obtain ⟨sh, u, -, hu, he⟩ := compress_eq hlen
    have hw : Proc.Keeps P (writeArchive
        (headerBytes s.params.headerOrder s.srcLen ++ packBits sh.treeBits)
        (packBits ((s.ibufBytes 0 s.srcLen.toNat).flatMap (codeFor sh.codes)))) :=
      .bind (addBits_keeps_of h.addBit _) fun _ =>
        .bind (.change fun u hu => h.writerCounts _ (h.sizes u u.orig u.bw.bytes u.payload hu)) fun _ =>
        .bind (addBits_keeps_of h.addBit _) fun _ => .change fun u hu => h.sizes u u.orig u.metaSize u.bw.bytes hu
    exact (hw.leaves (h.ready s u sh hs hu)).congr he
  · exact .of_error (Proc.bind_error (checkSrc_bad (Nat.lt_of_not_le hlen))) hs

theorem CommandsKeep.decompress (h : CommandsKeep P) : Proc.Keeps P decompress :=
  .bind checkSrc_keeps fun _ =>
    .bind (.change fun s hs => h.sizes _ 0 0 0 (h.reader _ .zero (h.initWriter s hs))) fun _ =>
    .bind (readHeader_keeps h.reader) fun v => .bind (.change fun s hs => h.sizes s v s.metaSize s.payload hs) fun _ =>
    .bind h.deserialize fun _ => .bind (.change fun s hs => h.reader s _ hs) fun _ =>
    .bind (.change fun s hs => h.reader _ _ (h.sizes s s.orig s.br.bytes s.payload hs)) fun _ =>
    .bind checkNotEmpty_keeps fun _ => .bind (decompressLoop_keeps_of h.addBit h.reader _) fun _ =>
    .change fun s hs => h.sizes s s.orig s.metaSize s.br.bytes hs

/-- Every command's pseudocode keeps such a property. -/
theorem CommandsKeep.procOf (h : CommandsKeep P) : ∀ i, Proc.Keeps P (procOf i)
  | .bwInit => .change h.initWriter
  | .bwAddBit b => h.addBit b
  | .bwWriteChar _ => addBits_keeps_of h.addBit _
  | .bwPad => pad_keeps_of h.addBit
  | .bwResetCounts => .change h.writerCounts
  | .brInit => .change fun s => h.reader s _
  | .brGetBit => .bind checkSrc_keeps fun _ => .bind (getBit_keeps h.reader) fun _ => .change fun s => h.result s _
  | .brReadChar => .bind checkSrc_keeps fun _ => .bind (readChar_keeps h.reader) fun _ => .change fun s => h.result s _
  | .brAlign => .change fun s => h.reader s _
  | .brResetCounts => .change fun s => h.reader s _
  | .tbCount => .bind checkSrc_keeps fun _ => .change fun s => h.freq s _
  | .tbBuild => h.build
  | .tbAdopt => h.adopt
  | .ctGen => h.codes
  | .encWriteHeader => .bind (.change fun s => h.sizes s _ s.metaSize s.payload) fun _ => .bind (.look _) fun _ =>
      writeHeader_keeps_of h.addBit _
  | .encSerializeTree => .bind requireTree_keeps fun _ => serializeTree_keeps_of h.addBit
  | .encEncodeSymbol _ => encodeSymbol_keeps_of h.addBit _
  | .encCompress => h.compress
  | .decReadHeader => .bind checkSrc_keeps fun _ => .bind (readHeader_keeps h.reader) fun _ =>
      .change fun s => h.sizes s _ s.metaSize s.payload
  | .decDeserializeTree => .bind checkSrc_keeps fun _ => h.deserialize
  | .decDecodeSymbol => .bind checkSrc_keeps fun _ => .bind requireTree_keeps fun _ =>
      .bind (decodeSymbol_keeps h.reader) fun _ => .change fun s => h.result s _
  | .decDecompress => h.decompress

/-! ### Invariants of the host's actions -/

theorem State.writeIbufWord_frame (s : State) (a : Nat) (d : Word) :
    s.writeIbufWord a d = { s with ibuf := (s.writeIbufWord a d).ibuf } := rfl

theorem State.writeObufWord_frame (s : State) (a : Nat) (d : Word) :
    s.writeObufWord a d = { s with obuf := (s.writeObufWord a d).obuf } := rfl

/-- A host write replaces SRC_LEN, FREQ, IBUF or OBUF, or changes the arena and clears both validity flags
(20_memory.md R84 to R86). -/
theorem State.writeWord_keeps (hsrc : ∀ (s : State) (v : DWord), P s → P { s with srcLen := v })
    (hfreq : ∀ (s : State) (f : Vector DWord 256), P s → P { s with freq := f })
    (hmem : ∀ (s : State) (i o : Memory), P s → P { s with ibuf := i, obuf := o })
    (harena : ∀ (s : State) (nodes : Cells Node) (count : BitVec 10) (root : NodeIdx), P s →
      P { s with nodes := nodes, nodeCount := count, root := root, treeValid := false, codesValid := false })
    (s : State) (a d : Word) (hs : P s) : P (s.writeWord a d) := by
  unfold State.writeWord
  split
  case h_1 off =>
    unfold State.writeRegister
    split
    · exact hsrc s _ hs
    · exact hsrc s _ hs
    · exact harena s s.nodes _ _ hs
    · exact hs
  case h_2 => exact hfreq s _ hs
  case h_3 =>
    split_ifs
    · exact harena s _ s.nodeCount s.root hs
    · exact hs
  case h_4 => rw [State.writeIbufWord_frame]; exact hmem s _ s.obuf hs
  case h_5 => rw [State.writeObufWord_frame]; exact hmem s s.ibuf _ hs
  all_goals exact hs

/-- `P` outlives everything that the host and the platform do. -/
structure HostKeeps (P : State → Prop) : Prop where
  /-- `P` does not look at the fields that are the model's own, nor at the response. -/
  model : ∀ (s : State) (q : List HostAction) (d n : Nat) (r : Option BusResponse), P s →
    P { s with hostQueue := q, delay := d, draws := n, busResp := r }
  accept : ∀ s w, s.phase = .idle → P s → P (s.accept w)
  refuse : ∀ s, P s → P s.refuseCommand
  write : ∀ s a d, P s → P (State.writeWord s a d)
  reset : ∀ s, P s → P s.platformReset

theorem HostKeeps.respond (h : HostKeeps P) {s : State} (r : BusResponse) (hs : P s) : P (s.respond r) :=
  h.model s s.hostQueue s.delay s.draws (some r) hs

theorem HostKeeps.hostWrite (h : HostKeeps P) {s : State} (a d : Word) (hs : P s) : P (s.hostWrite a d) := by
  unfold State.hostWrite
  split_ifs with _ _ hb
  · exact h.respond _ hs
  · exact h.respond _ (h.refuse s hs)
  · refine h.respond _ (h.accept s d ?_ hs)
    cases hp : s.phase with
    | idle => rfl
    | running => simp [State.busy, hp] at hb
  · exact h.respond _ hs
  · exact h.respond _ (h.write s a d hs)

theorem HostKeeps.hostRead (h : HostKeeps P) {s : State} (a : Word) (hs : P s) : P (s.hostRead a) := by
  unfold State.hostRead
  split_ifs
  · exact h.respond _ hs
  · exact h.model s s.hostQueue s.delay (s.draws + 1) _ hs
  · exact h.respond _ hs

theorem HostKeeps.act (h : HostKeeps P) {s : State} (x : HostAction) (hs : P s) : P (s.act x) := by
  cases x with
  | wait => exact hs
  | read a => exact h.hostRead a hs
  | write a d => exact h.hostWrite a d hs
  | reset => exact h.reset s hs

theorem HostKeeps.serveHost (h : HostKeeps P) {s : State} (hs : P s) : P s.serveHost := by
  unfold State.serveHost
  split
  · exact hs
  · exact h.act _ (h.model s _ s.delay s.draws s.busResp hs)

/-- A property that the host's actions keep and that every completion keeps outlives every step. -/
theorem HostKeeps.step (h : HostKeeps P) {s t : State} (hs : P s) (ht : step s = .next t)
    (hrun : ∀ p : Proc Unit, s.phase = .running → ((∃ i, p = Machine.procOf i) ∨ p = Proc.raise .argIllegalCmd) →
      complete p s = .next t → P t) : P t := by
  rcases step_cases ht with ⟨i, hp, -, -, he⟩ | ⟨hp, -, -, he⟩ | ⟨-, -, he⟩ | ⟨-, he⟩
  · exact hrun _ hp (.inl ⟨i, rfl⟩) (by rwa [← exec_eq])
  · exact hrun _ hp (.inr rfl) (by rw [he]; rfl)
  · injection he with he
    rw [he]
    exact h.serveHost (h.model s s.hostQueue _ s.draws s.busResp hs)
  · injection he with he
    rw [he]
    exact h.serveHost hs

/-- The two together, for a property that does not look at how a command ended. -/
theorem CommandsKeep.step (h : CommandsKeep P) (hh : HostKeeps P)
    (hrep : ∀ (s : State) (d e : Bool) (c : Byte), P s → P { s with done := d, err := e, errCode := c, phase := .idle })
    {s t : State} (hs : P s) (ht : Machine.step s = .next t) : P t := by
  refine hh.step hs ht fun p _ hp he => complete_keeps he ?_ (fun u => hrep u true u.err u.errCode)
    (fun u e => hrep u u.done true e.code) hs
  rcases hp with ⟨i, rfl⟩ | rfl
  · exact h.procOf i
  · exact .raise _

end

end Sys2Proof.Machine
end

section
/-! SUPPORT. The invariants of every step (spec/10_state.md R35 to R40, R46, R47, R57). -/

namespace Sys2Proof.Machine

/-! ### STATUS -/

/-- What a running command's pseudocode keeps of STATUS: the report stays clear until the completion (10_state.md R35),
and CODES_VALID implies TREE_VALID (R38). -/
structure State.ReportClear (s : State) : Prop where
  done : s.done = false
  err : s.err = false
  errCode : s.errCode = 0
  codesNeedTree : s.codesValid = true → s.treeValid = true

theorem reportClear_commandsKeep : CommandsKeep State.ReportClear where
  addBit := addBit_keeps fun _ _ _ h => ⟨h.done, h.err, h.errCode, h.codesNeedTree⟩
  initWriter := fun _ h => ⟨h.done, h.err, h.errCode, h.codesNeedTree⟩
  writerCounts := fun _ h => ⟨h.done, h.err, h.errCode, h.codesNeedTree⟩
  reader := fun _ _ h => ⟨h.done, h.err, h.errCode, h.codesNeedTree⟩
  sizes := fun _ _ _ _ h => ⟨h.done, h.err, h.errCode, h.codesNeedTree⟩
  result := fun _ _ h => ⟨h.done, h.err, h.errCode, h.codesNeedTree⟩
  freq := fun _ _ h => ⟨h.done, h.err, h.errCode, h.codesNeedTree⟩
  build := by
    refine .of_leaves fun s hs => ?_
    have hb := buildTree_eq s
    split at hb
    · obtain ⟨t, ht, -, -, -, hf⟩ := hb
      exact .of_ok ht (by rw [hf]; exact ⟨hs.done, hs.err, hs.errCode, fun _ => rfl⟩)
    · obtain ⟨t, ht, hf⟩ := hb
      exact .of_error ht (by rw [hf]; exact ⟨hs.done, hs.err, hs.errCode, nofun⟩)
  deserialize := by
    refine .of_leaves fun s hs => ?_
    rcases deserializeTree_outcome s with ⟨t, sh, rest, ht, -, hd⟩ | ⟨t, ht, -, hf, -⟩ | ⟨t, ht, hf, -⟩
    · exact .of_ok ht (by rw [hd.frame]; exact ⟨hs.done, hs.err, hs.errCode, fun _ => rfl⟩)
    · exact .of_error ht (by rw [hf]; exact ⟨hs.done, hs.err, hs.errCode, nofun⟩)
    · exact .of_error ht (by rw [hf]; exact ⟨hs.done, hs.err, hs.errCode, nofun⟩)
  adopt := by
    refine .of_leaves fun s hs => ?_
    by_cases h : s.ArenaIsTree
    · exact .of_ok (tbAdopt_of_tree h) ⟨hs.done, hs.err, hs.errCode, nofun⟩
    · exact .of_error (tbAdopt_of_not_tree h) ⟨hs.done, hs.err, hs.errCode, nofun⟩
  codes := by
    refine .of_leaves fun s hs => ?_
    cases hv : s.treeValid with
    | false => exact .of_error (ctGen_of_invalid hv) hs
    | true =>
      have hk : Proc.Keeps (fun u : State => u.ReportClear ∧ u.treeValid = true) genCodes :=
        genCodes_keeps fun u _ _ _ h => ⟨⟨h.1.done, h.1.err, h.1.errCode, fun _ => h.2⟩, h.2⟩
      exact ((hk.leaves ⟨hs, hv⟩).mono fun _ => And.left).congr (ctGen_of_valid hv)
  ready := fun s u sh hs hu => by rw [hu.frame]; exact ⟨hs.done, hs.err, hs.errCode, fun _ => rfl⟩

theorem ErrCode.code_ne_zero (e : ErrCode) : e.code ≠ 0 := by cases e <;> decide

theorem statusInv_hostKeeps : HostKeeps State.StatusInv where
  model := fun _ _ _ _ _ h => ⟨h.notBoth, h.whileBusy, h.errIffCode, h.codesNeedTree, h.latched⟩
  accept := fun _ _ _ h =>
    ⟨nofun, fun _ => ⟨rfl, rfl, rfl⟩, ⟨nofun, fun hc => absurd rfl hc⟩, h.codesNeedTree, fun _ => rfl⟩
  refuse := fun _ h => ⟨h.notBoth, h.whileBusy, h.errIffCode, h.codesNeedTree, h.latched⟩
  write := State.writeWord_keeps
    (fun _ _ h => ⟨h.notBoth, h.whileBusy, h.errIffCode, h.codesNeedTree, h.latched⟩)
    (fun _ _ h => ⟨h.notBoth, h.whileBusy, h.errIffCode, h.codesNeedTree, h.latched⟩)
    (fun _ _ _ h => ⟨h.notBoth, h.whileBusy, h.errIffCode, h.codesNeedTree, h.latched⟩)
    (fun _ _ _ _ h => ⟨h.notBoth, h.whileBusy, h.errIffCode, nofun, h.latched⟩)
  reset := fun _ _ => ⟨nofun, nofun, ⟨nofun, fun hc => absurd rfl hc⟩, nofun, nofun⟩

/-- A completion reports exactly one of DONE and an error (60_exceptions.md R322, R323). -/
theorem State.ReportClear.completed {p : Proc Unit} {s t : State} (hp : Proc.Keeps State.ReportClear p)
    (hs : s.ReportClear) (h : complete p s = .next t) : t.StatusInv := by
  rcases complete_next h with ⟨u, hu, rfl⟩ | ⟨e, u, hu, rfl⟩
  · obtain ⟨-, he, hc, hv⟩ := hp.of_ok hs hu
    exact ⟨fun ⟨_, h⟩ => by simp [he] at h, nofun, by simp [he, hc], hv, nofun⟩
  · obtain ⟨hd, -, -, hv⟩ := hp.of_error hs hu
    exact ⟨fun ⟨h, _⟩ => by simp [hd] at h, nofun, ⟨fun _ => e.code_ne_zero, fun _ => rfl⟩, hv, nofun⟩

/-- Settles O17: while BUSY the report is clear, the pseudocode leaves it so, and the completion writes one half. -/
theorem statusInvariant : Obligations.StatusInvariant := by
  intro s t hs ht
  refine statusInv_hostKeeps.step hs ht fun p hrun hp he => ?_
  obtain ⟨hd, hr, hc⟩ := hs.whileBusy hrun
  refine State.ReportClear.completed ?_ ⟨hd, hr, hc, hs.codesNeedTree⟩ he
  rcases hp with ⟨i, rfl⟩ | rfl
  · exact reportClear_commandsKeep.procOf i
  · exact .raise _

/-! ### The writer -/

theorem State.WriterInv.of_zero {s : State} (h : s.bw = .zero) : s.WriterInv := by
  refine ⟨?_, ?_⟩
  · unfold State.WriterTailZero
    rw [h]
    exact fun i _ => by simp [BitWriter.zero]
  · rw [h]
    exact Nat.zero_le _

/-- AddBit flushes below OBUF_SIZE and clears BW_CUR then (40_bit_writer.md R150). -/
theorem addBit_keeps_writerInv (b : Bool) : Proc.Keeps State.WriterInv (addBit b) := by
  intro s hs
  rw [addBit_apply]
  split_ifs with hb
  · exact hs
  · refine ⟨State.placeBit_tailZero hs.tailZero b, ?_⟩
    have hlt := s.params.obufSize.isLt
    have hle := hs.inRange
    rw [State.flushBlocked_iff] at hb
    by_cases hp : s.bw.pos = 7
    · rw [State.placeBit_of_pos_eq hp]
      have : s.bw.wrptr.toNat < s.obufSize := Nat.lt_of_not_le fun h => hb ⟨hp, h⟩
      show (s.bw.wrptr + 1).toNat ≤ s.obufSize
      unfold State.obufSize at *
      bv_omega
    · rw [State.placeBit_of_pos_ne hp]
      exact hle

theorem writerInv_commandsKeep : CommandsKeep State.WriterInv where
  addBit := addBit_keeps_writerInv
  initWriter := fun _ _ => .of_zero rfl
  writerCounts := fun _ h => ⟨h.tailZero, h.inRange⟩
  reader := fun _ _ h => ⟨h.tailZero, h.inRange⟩
  sizes := fun _ _ _ _ h => ⟨h.tailZero, h.inRange⟩
  result := fun _ _ h => ⟨h.tailZero, h.inRange⟩
  freq := fun _ _ h => ⟨h.tailZero, h.inRange⟩
  build := buildTree_keeps fun _ _ _ _ _ _ h => ⟨h.tailZero, h.inRange⟩
  deserialize := deserializeTree_keeps (fun _ _ h => ⟨h.tailZero, h.inRange⟩)
    fun _ _ _ _ _ _ h => ⟨h.tailZero, h.inRange⟩
  adopt := .bind (.change fun _ h => ⟨h.tailZero, h.inRange⟩) fun _ => .bind (.look _) fun _ =>
    .ite (.change fun _ h => ⟨h.tailZero, h.inRange⟩) (.raise _)
  codes := .bind requireTree_keeps fun _ => genCodes_keeps fun _ _ _ _ h => ⟨h.tailZero, h.inRange⟩
  ready := fun _ _ _ _ hu => .of_zero (congrArg State.bw hu.frame)

theorem writerInv_hostKeeps : HostKeeps State.WriterInv where
  model := fun _ _ _ _ _ h => ⟨h.tailZero, h.inRange⟩
  accept := fun _ _ _ h => ⟨h.tailZero, h.inRange⟩
  refuse := fun _ h => ⟨h.tailZero, h.inRange⟩
  write := State.writeWord_keeps (fun _ _ h => ⟨h.tailZero, h.inRange⟩) (fun _ _ h => ⟨h.tailZero, h.inRange⟩)
    (fun _ _ _ h => ⟨h.tailZero, h.inRange⟩) (fun _ _ _ _ h => ⟨h.tailZero, h.inRange⟩)
  reset := fun _ _ => .of_zero rfl

/-- Settles O18: AddBit alone moves BW_CUR, BW_POS and BW_WRPTR, but for the commands that clear them. -/
theorem writerInvariant : Obligations.WriterInvariant := fun _ _ hs ht =>
  writerInv_commandsKeep.step writerInv_hostKeeps (fun _ _ _ _ h => ⟨h.tailZero, h.inRange⟩) hs ht

/-! ### The tree -/

theorem State.TreeInv.of_invalid {s : State} (h : s.treeValid = false) : s.TreeInv := fun hv => by simp [h] at hv

theorem State.TreeInv.of_holdsTree {s : State} {sh : Shape} (h : s.HoldsTree sh) : s.TreeInv := fun _ => ⟨sh, h⟩

theorem buildTree_keeps_treeInv : Proc.Keeps State.TreeInv buildTree := by
  refine .of_leaves fun s _ => ?_
  have hb := buildTree_eq s
  split at hb
  · obtain ⟨t, ht, hh, -⟩ := hb
    exact .of_ok ht (.of_holdsTree hh)
  · obtain ⟨t, ht, hf⟩ := hb
    exact .of_error ht (.of_invalid (congrArg State.treeValid hf))

theorem deserializeTree_keeps_treeInv : Proc.Keeps State.TreeInv deserializeTree := by
  refine .of_leaves fun s _ => ?_
  rcases deserializeTree_outcome s with ⟨t, sh, rest, ht, hne, hd⟩ | ⟨t, ht, -, hf, -⟩ | ⟨t, ht, hf, -⟩
  · exact .of_ok ht (.of_holdsTree (hd.rebuilt hne).holds)
  · exact .of_error ht (.of_invalid (congrArg State.treeValid hf))
  · exact .of_error ht (.of_invalid (congrArg State.treeValid hf))

/-- TB_ADOPT sets TREE_VALID only over a tree (42_tree_builder.md R221). -/
theorem tbAdopt_keeps_treeInv : Proc.Keeps State.TreeInv (procOf .tbAdopt) := by
  refine .of_leaves fun s _ => ?_
  by_cases h : s.ArenaIsTree
  · exact .of_ok (tbAdopt_of_tree h) fun _ => h
  · exact .of_error (tbAdopt_of_not_tree h) (.of_invalid rfl)

theorem treeInv_commandsKeep : CommandsKeep State.TreeInv where
  addBit := addBit_keeps fun _ _ _ h => h
  initWriter := fun _ h => h
  writerCounts := fun _ h => h
  reader := fun _ _ h => h
  sizes := fun _ _ _ _ h => h
  result := fun _ _ h => h
  freq := fun _ _ h => h
  build := buildTree_keeps_treeInv
  deserialize := deserializeTree_keeps_treeInv
  adopt := tbAdopt_keeps_treeInv
  codes := .bind requireTree_keeps fun _ => genCodes_keeps fun _ _ _ _ h => h
  ready := fun _ _ _ _ hu => .of_holdsTree hu.tree

theorem treeInv_hostKeeps : HostKeeps State.TreeInv where
  model := fun _ _ _ _ _ h => h
  accept := fun _ _ _ h => h
  refuse := fun _ h => h
  write := State.writeWord_keeps (fun _ _ h => h) (fun _ _ h => h) (fun _ _ _ h => h) fun _ _ _ _ _ => .of_invalid rfl
  reset := fun _ _ => .of_invalid rfl

/-- Settles O20: TREE_VALID is set only by BuildTree, DeserializeTree and TB_ADOPT, each over a tree, and whatever else
changes the arena clears it. -/
theorem treeInvariant : Obligations.TreeInvariant := fun _ _ hs ht =>
  treeInv_commandsKeep.step treeInv_hostKeeps (fun _ _ _ _ h => h) hs ht

/-! ### The codes -/

/-- The invariants that speak of CODE, with the one about the tree, on which they rest. -/
structure State.CodeTableInv (s : State) : Prop where
  tree : s.TreeInv
  codes : s.CodesInv
  tail : s.CodeTailZero

theorem State.CodesInv.of_invalid {s : State} (h : s.codesValid = false) : s.CodesInv := fun hv => by simp [h] at hv

theorem State.CodeTailZero.congr {s t : State} (h : s.CodeTailZero) (hl : t.codeLen = s.codeLen)
    (hb : t.codeBits = s.codeBits) : t.CodeTailZero := by
  unfold State.CodeTailZero State.codeLenOf State.codeBitsOf
  rw [hl, hb]
  exact h

/-- A code list can be recorded whole, or up to a first leaf that is too deep or repeats a symbol
(43_code_table_gen.md R240). -/
theorem codesOk_or_first_bad (cs : List (Byte × List Bool)) :
    CodesOk cs ∨ ∃ pre sym p post, cs = pre ++ (sym, p) :: post ∧ CodesOk pre ∧
      (255 < p.length ∨ sym ∈ pre.map Prod.fst) := by
  induction cs using List.reverseRecOn with
  | nil => exact .inl ⟨List.nodup_nil, nofun⟩
  | append_singleton cs c ih =>
    rcases ih with hok | ⟨pre, sym, p, post, rfl, hok, hbad⟩
    · by_cases hbad : 255 < c.2.length ∨ c.1 ∈ cs.map Prod.fst
      · exact .inr ⟨cs, c.1, c.2, [], rfl, hok, hbad⟩
      · rw [not_or] at hbad
        refine .inl ⟨?_, fun d hd => ?_⟩
        · rw [List.map_append, List.map_singleton, List.nodup_append_comm]
          exact List.nodup_cons.2 ⟨hbad.2, hok.1⟩
        · rcases List.mem_append.1 hd with hd | hd
          · exact hok.2 d hd
          · rw [List.mem_singleton.1 hd]
            exact Nat.le_of_not_lt hbad.1
    · exact .inr ⟨pre, sym, p, post ++ [c], by simp, hok, hbad⟩

/-- GenCodes over a tree sets CODES_VALID over its codes, or raises and leaves it 0 (43_code_table_gen.md R240). -/
theorem genCodes_codeTableInv {s : State} {sh : Shape} (hv : s.treeValid = true) (h : s.HoldsTree sh) :
    Proc.Leaves State.CodeTableInv genCodes s := by
  rcases codesOk_or_first_bad sh.codes with hok | ⟨pre, sym, p, post, hc, hok, hbad⟩
  · obtain ⟨u, hu, hca, hz, hf⟩ := genCodes_ok h hok
    have ht : u.HoldsTree sh := by rw [hf]; exact h
    exact .of_ok hu ⟨.of_holdsTree ht, fun _ => ⟨(congrArg State.treeValid hf).trans hv, sh, ht, hca⟩, hz⟩
  · obtain ⟨u, hu, -, hz, hf⟩ := genCodes_bad h hc hok hbad
    have ht : u.HoldsTree sh := by rw [hf]; exact h
    exact .of_error hu ⟨.of_holdsTree ht, .of_invalid (congrArg State.codesValid hf), hz⟩

/-- A procedure that keeps the tree's invariant and CODE, and leaves CODES_VALID at 0, keeps all three. -/
theorem codeTableInv_keeps {p : Proc Unit} (htree : Proc.Keeps State.TreeInv p)
    (hcode : ∀ l c, Proc.Keeps (fun u : State => u.codeLen = l ∧ u.codeBits = c) p)
    (hinv : ∀ s, Proc.Leaves (·.codesValid = false) p s) : Proc.Keeps State.CodeTableInv p :=
  .of_leaves fun s hs =>
    (((htree.leaves hs.tree).and ((hcode _ _).leaves ⟨rfl, rfl⟩)).and (hinv s)).mono fun _ ⟨⟨ht, hl, hb⟩, hv⟩ =>
      ⟨ht, .of_invalid hv, hs.tail.congr hl hb⟩

theorem buildTree_codesValid (s : State) : Proc.Leaves (·.codesValid = false) buildTree s := by
  have hb := buildTree_eq s
  split at hb
  · obtain ⟨t, ht, -, -, -, hf⟩ := hb
    exact .of_ok ht (congrArg State.codesValid hf)
  · obtain ⟨t, ht, hf⟩ := hb
    exact .of_error ht (congrArg State.codesValid hf)

theorem deserializeTree_codesValid (s : State) : Proc.Leaves (·.codesValid = false) deserializeTree s := by
  rcases deserializeTree_outcome s with ⟨t, sh, rest, ht, -, hd⟩ | ⟨t, ht, -, hf, -⟩ | ⟨t, ht, hf, -⟩
  · exact .of_ok ht (congrArg State.codesValid hd.frame)
  · exact .of_error ht (congrArg State.codesValid hf)
  · exact .of_error ht (congrArg State.codesValid hf)

theorem tbAdopt_codesValid (s : State) : Proc.Leaves (·.codesValid = false) (procOf .tbAdopt) s := by
  by_cases h : s.ArenaIsTree
  · exact .of_ok (tbAdopt_of_tree h) rfl
  · exact .of_error (tbAdopt_of_not_tree h) rfl

theorem ctGen_keeps_codeTableInv : Proc.Keeps State.CodeTableInv (procOf .ctGen) := by
  refine .of_leaves fun s hs => ?_
  cases hv : s.treeValid with
  | false => exact .of_error (ctGen_of_invalid hv) hs
  | true =>
    obtain ⟨sh, h⟩ := hs.tree hv
    exact (genCodes_codeTableInv hv h).congr (ctGen_of_valid hv)

theorem codeTableInv_commandsKeep : CommandsKeep State.CodeTableInv where
  addBit := addBit_keeps fun _ _ _ h => ⟨h.tree, h.codes, h.tail⟩
  initWriter := fun _ h => ⟨h.tree, h.codes, h.tail⟩
  writerCounts := fun _ h => ⟨h.tree, h.codes, h.tail⟩
  reader := fun _ _ h => ⟨h.tree, h.codes, h.tail⟩
  sizes := fun _ _ _ _ h => ⟨h.tree, h.codes, h.tail⟩
  result := fun _ _ h => ⟨h.tree, h.codes, h.tail⟩
  freq := fun _ _ h => ⟨h.tree, h.codes, h.tail⟩
  build := codeTableInv_keeps buildTree_keeps_treeInv (fun _ _ => buildTree_keeps fun _ _ _ _ _ _ h => h)
    buildTree_codesValid
  deserialize := codeTableInv_keeps deserializeTree_keeps_treeInv
    (fun _ _ => deserializeTree_keeps (fun _ _ h => h) fun _ _ _ _ _ _ h => h) deserializeTree_codesValid
  adopt := codeTableInv_keeps tbAdopt_keeps_treeInv
    (fun _ _ => .bind (.change fun _ h => h) fun _ => .bind (.look _) fun _ => .ite (.change fun _ h => h) (.raise _))
    tbAdopt_codesValid
  codes := ctGen_keeps_codeTableInv
  ready := fun _ _ sh _ hu => ⟨.of_holdsTree hu.tree,
    fun _ => ⟨congrArg State.treeValid hu.frame, sh, hu.tree, hu.codes⟩, hu.codeTail⟩

theorem State.clearedCodeTail {s : State} (hl : s.codeLen = Vector.replicate 256 0)
    (hb : s.codeBits = Vector.replicate 256 0) : s.CodeTailZero :=
  s.clearCodes_tailZero.congr hl hb

theorem codeTableInv_hostKeeps : HostKeeps State.CodeTableInv where
  model := fun _ _ _ _ _ h => ⟨h.tree, h.codes, h.tail⟩
  accept := fun _ _ _ h => ⟨h.tree, h.codes, h.tail⟩
  refuse := fun _ h => ⟨h.tree, h.codes, h.tail⟩
  write := State.writeWord_keeps (fun _ _ h => ⟨h.tree, h.codes, h.tail⟩) (fun _ _ h => ⟨h.tree, h.codes, h.tail⟩)
    (fun _ _ _ h => ⟨h.tree, h.codes, h.tail⟩) fun _ _ _ _ h => ⟨.of_invalid rfl, .of_invalid rfl, h.tail⟩
  reset := fun _ _ => ⟨.of_invalid rfl, .of_invalid rfl, State.clearedCodeTail rfl rfl⟩

/-- Settles O21: CODES_VALID is set by GenCodes alone, after it recorded the codes of the tree, and falls with every
change of the arena. -/
theorem codesInvariant : Obligations.CodesInvariant := fun _ _ htree hcodes htail ht =>
  have h := codeTableInv_commandsKeep.step codeTableInv_hostKeeps (fun _ _ _ _ h => ⟨h.tree, h.codes, h.tail⟩)
    ⟨htree, hcodes, htail⟩ ht
  ⟨h.codes, h.tail⟩

end Sys2Proof.Machine
end

section
/-! SUPPORT. What no command changes, and which commands write each block's state (spec/10_state.md R36, R41 to R45, R52
to R59). -/

namespace Sys2Proof.Machine

/-- `P` does not look at the two validity flags. -/
abbrev NoFlags (P : State → Prop) : Prop :=
  ∀ (s : State) (tv cv : Bool), P s → P { s with treeValid := tv, codesValid := cv }

/-- `P` does not look at anything that the command `i` writes, block by block. -/
structure Overlooks (P : State → Prop) (i : Instr) : Prop where
  writer : i.usesWriter = true → NoWriter P
  reader : i.usesReader = true → NoReader P
  arena : i.writesArena = true → NoArena P
  flags : i = .tbAdopt → NoFlags P
  codes : i = .ctGen ∨ i = .encCompress → NoCodes P
  freq : i = .tbCount ∨ i = .encCompress → ∀ (s : State) (f : Vector DWord 256), P s → P { s with freq := f }
  result : i = .brGetBit ∨ i = .brReadChar ∨ i = .decDecodeSymbol → ∀ s v, P s → P (s.setResult v)
  orig : i = .encWriteHeader ∨ i = .decReadHeader → ∀ (s : State) (v : DWord), P s → P { s with orig := v }
  sizes : i = .encCompress ∨ i = .decDecompress → NoSizes P

section
variable {P : State → Prop}

/-- The pseudocode of a command keeps what does not look at what the command writes. -/
theorem Overlooks.keeps : ∀ {i : Instr}, Overlooks P i → Proc.Keeps P (procOf i)
  | .bwInit, h => .change fun s hs => h.writer rfl s .zero s.obuf hs
  | .bwAddBit b, h => addBit_keeps (h.writer rfl) b
  | .bwWriteChar v, h => writeChar_keeps (h.writer rfl) v
  | .bwPad, h => pad_keeps (h.writer rfl)
  | .bwResetCounts, h => .change fun s hs => h.writer rfl s _ s.obuf hs
  | .brInit, h => .change fun s => h.reader rfl s _
  | .brGetBit, h => .bind checkSrc_keeps fun _ => .bind (getBit_keeps (h.reader rfl)) fun _ =>
      .change fun s => h.result (.inl rfl) s _
  | .brReadChar, h => .bind checkSrc_keeps fun _ => .bind (readChar_keeps (h.reader rfl)) fun _ =>
      .change fun s => h.result (.inr (.inl rfl)) s _
  | .brAlign, h => .change fun s => h.reader rfl s _
  | .brResetCounts, h => .change fun s => h.reader rfl s _
  | .tbCount, h => .bind checkSrc_keeps fun _ => .change fun s => h.freq (.inl rfl) s _
  | .tbBuild, h => buildTree_keeps (h.arena rfl)
  | .tbAdopt, h => .bind (.change fun s => h.flags rfl s false false) fun _ => .bind (.look _) fun _ =>
      .ite (.change fun s => h.flags rfl s true s.codesValid) (.raise _)
  | .ctGen, h => .bind requireTree_keeps fun _ => genCodes_keeps (h.codes (.inl rfl))
  | .encWriteHeader, h => .bind (.change fun s => h.orig (.inl rfl) s _) fun _ => .bind (.look _) fun _ =>
      writeHeader_keeps (h.writer rfl) _
  | .encSerializeTree, h => .bind requireTree_keeps fun _ => serializeTree_keeps (h.writer rfl)
  | .encEncodeSymbol _, h => encodeSymbol_keeps (h.writer rfl) _
  | .encCompress, h => compress_keeps (h.writer rfl) (h.arena rfl) (h.codes (.inr rfl)) (h.sizes (.inl rfl))
      (h.freq (.inr rfl))
  | .decReadHeader, h => .bind checkSrc_keeps fun _ => .bind (readHeader_keeps (h.reader rfl)) fun _ =>
      .change fun s => h.orig (.inr rfl) s _
  | .decDeserializeTree, h => .bind checkSrc_keeps fun _ => deserializeTree_keeps (h.reader rfl) (h.arena rfl)
  | .decDecodeSymbol, h => .bind checkSrc_keeps fun _ => .bind requireTree_keeps fun _ =>
      .bind (decodeSymbol_keeps (h.reader rfl)) fun _ => .change fun s => h.result (.inr (.inr rfl)) s _
  | .decDecompress, h => decompress_keeps (h.writer rfl) (h.reader rfl) (h.arena rfl) (h.sizes (.inr rfl))

/-- A property that looks at none of the blocks is overlooked by every command. -/
theorem Overlooks.of_all (i : Instr) (hw : NoWriter P) (hr : NoReader P) (ha : NoArena P) (hf : NoFlags P)
    (hc : NoCodes P) (hq : ∀ (s : State) (f : Vector DWord 256), P s → P { s with freq := f })
    (hv : ∀ s v, P s → P (s.setResult v)) (hs : NoSizes P) : Overlooks P i :=
  ⟨fun _ => hw, fun _ => hr, fun _ => ha, fun _ => hf, fun _ => hc, fun _ => hq, fun _ => hv,
    fun _ s v => hs s v s.metaSize s.payload, fun _ => hs⟩

end

/-- A part of the state that the pseudocode and the report leave alone is unchanged by a completed command. -/
theorem exec_unchanged {α : Type} (f : State → α) {i : Instr} {s t : State} (h : exec i s = .next t)
    (hp : Proc.Keeps (fun u => f u = f s) (procOf i)) (hok : ∀ u : State, f u.completeOk = f u)
    (herr : ∀ (u : State) (e : ErrCode), f (u.completeErr e) = f u) : f t = f s := by
  rw [exec_eq] at h
  exact complete_keeps h hp (fun u hu => (hok u).trans hu) (fun u e hu => (herr u e).trans hu) rfl

/-- What belongs to the host and to the acceptance of a command. -/
def State.hostPart (s : State) : Params × DWord × Memory × Word × Byte × Bool × Option BusResponse :=
  (s.params, s.srcLen, s.ibuf, s.cmdLatch, s.lastOp, s.cmdOvr, s.busResp)

/-- What is the model's own. -/
def State.modelPart (s : State) : List HostAction × Nat × Nat × Nat × Nat :=
  (s.hostQueue, s.delay, s.accepted, s.draws, s.epoch)

/-- No command writes either part (10_state.md R42, R53, R54, R60). -/
theorem exec_fixedParts {i : Instr} {s t : State} (h : exec i s = .next t) :
    (t.hostPart, t.modelPart) = (s.hostPart, s.modelPart) :=
  exec_unchanged (fun u => (u.hostPart, u.modelPart)) h (Overlooks.of_all i (fun _ _ _ h => h) (fun _ _ h => h)
    (fun _ _ _ _ _ _ h => h) (fun _ _ _ h => h) (fun _ _ _ _ h => h) (fun _ _ h => h) (fun _ _ h => h)
    fun _ _ _ _ h => h).keeps (fun _ => rfl) fun _ _ => rfl

theorem exec_writer {i : Instr} {s t : State} (h : exec i s = .next t) (hi : i.usesWriter = false) :
    (t.bw, t.obuf) = (s.bw, s.obuf) :=
  exec_unchanged (fun u => (u.bw, u.obuf)) h (Overlooks.keeps
    { writer := fun hw => by simp [hi] at hw
      reader := fun _ _ _ h => h
      arena := fun _ _ _ _ _ _ _ h => h
      flags := fun _ _ _ _ h => h
      codes := fun _ _ _ _ _ h => h
      freq := fun _ _ _ h => h
      result := fun _ _ _ h => h
      orig := fun _ _ _ h => h
      sizes := fun _ _ _ _ _ h => h }) (fun _ => rfl) fun _ _ => rfl

theorem exec_reader {i : Instr} {s t : State} (h : exec i s = .next t) (hi : i.usesReader = false) :
    t.br = s.br :=
  exec_unchanged State.br h (Overlooks.keeps
    { writer := fun _ _ _ _ h => h
      reader := fun hr => by simp [hi] at hr
      arena := fun _ _ _ _ _ _ _ h => h
      flags := fun _ _ _ _ h => h
      codes := fun _ _ _ _ _ h => h
      freq := fun _ _ _ h => h
      result := fun _ _ _ h => h
      orig := fun _ _ _ h => h
      sizes := fun _ _ _ _ _ h => h }) (fun _ => rfl) fun _ _ => rfl

theorem exec_arena {i : Instr} {s t : State} (h : exec i s = .next t) (hi : i.writesArena = false) :
    (t.nodes, t.root, t.nodeCount) = (s.nodes, s.root, s.nodeCount) :=
  exec_unchanged (fun u => (u.nodes, u.root, u.nodeCount)) h (Overlooks.keeps
    { writer := fun _ _ _ _ h => h
      reader := fun _ _ _ h => h
      arena := fun ha => by simp [hi] at ha
      flags := fun _ _ _ _ h => h
      codes := fun _ _ _ _ _ h => h
      freq := fun _ _ _ h => h
      result := fun _ _ _ h => h
      orig := fun _ _ _ h => h
      sizes := fun _ _ _ _ _ h => h }) (fun _ => rfl) fun _ _ => rfl

theorem exec_treeValid {i : Instr} {s t : State} (h : exec i s = .next t) (hi : i.writesArena = false)
    (hadopt : i ≠ .tbAdopt) :
    t.treeValid = s.treeValid :=
  exec_unchanged State.treeValid h (Overlooks.keeps
    { writer := fun _ _ _ _ h => h
      reader := fun _ _ _ h => h
      arena := fun ha => by simp [hi] at ha
      flags := fun ha => absurd ha hadopt
      codes := fun _ _ _ _ _ h => h
      freq := fun _ _ _ h => h
      result := fun _ _ _ h => h
      orig := fun _ _ _ h => h
      sizes := fun _ _ _ _ _ h => h }) (fun _ => rfl) fun _ _ => rfl

theorem exec_codesValid {i : Instr} {s t : State} (h : exec i s = .next t) (hi : i.writesArena = false)
    (hadopt : i ≠ .tbAdopt) (hgen : i ≠ .ctGen) :
    t.codesValid = s.codesValid :=
  exec_unchanged State.codesValid h (Overlooks.keeps
    { writer := fun _ _ _ _ h => h
      reader := fun _ _ _ h => h
      arena := fun ha => by simp [hi] at ha
      flags := fun ha => absurd ha hadopt
      codes := fun hc => by rcases hc with rfl | rfl <;> contradiction
      freq := fun _ _ _ h => h
      result := fun _ _ _ h => h
      orig := fun _ _ _ h => h
      sizes := fun _ _ _ _ _ h => h }) (fun _ => rfl) fun _ _ => rfl

theorem exec_freq {i : Instr} {s t : State} (h : exec i s = .next t) (hcount : i ≠ .tbCount)
    (hcomp : i ≠ .encCompress) :
    t.freq = s.freq :=
  exec_unchanged State.freq h (Overlooks.keeps
    { writer := fun _ _ _ _ h => h
      reader := fun _ _ _ h => h
      arena := fun _ _ _ _ _ _ _ h => h
      flags := fun _ _ _ _ h => h
      codes := fun _ _ _ _ _ h => h
      freq := fun hf => absurd hf (not_or.2 ⟨hcount, hcomp⟩)
      result := fun _ _ _ h => h
      orig := fun _ _ _ h => h
      sizes := fun _ _ _ _ _ h => h }) (fun _ => rfl) fun _ _ => rfl

theorem exec_code {i : Instr} {s t : State} (h : exec i s = .next t) (hgen : i ≠ .ctGen)
    (hcomp : i ≠ .encCompress) :
    (t.codeLen, t.codeBits) = (s.codeLen, s.codeBits) :=
  exec_unchanged (fun u => (u.codeLen, u.codeBits)) h (Overlooks.keeps
    { writer := fun _ _ _ _ h => h
      reader := fun _ _ _ h => h
      arena := fun _ _ _ _ _ _ _ h => h
      flags := fun _ _ _ _ h => h
      codes := fun hc => absurd hc (not_or.2 ⟨hgen, hcomp⟩)
      freq := fun _ _ _ h => h
      result := fun _ _ _ h => h
      orig := fun _ _ _ h => h
      sizes := fun _ _ _ _ _ h => h }) (fun _ => rfl) fun _ _ => rfl

/-- Settles O23: each conjunct is a part of the state that the command's pseudocode does not write. -/
theorem commandsWriteOnlyTheirState : Obligations.CommandsWriteOnlyTheirState := by
  intro i s t h
  have hphase : t.phase = .idle := complete_phase (exec_eq i s ▸ h)
  have hfixed := exec_fixedParts h
  simp only [State.hostPart, State.modelPart, Prod.mk.injEq] at hfixed
  obtain ⟨⟨hparams, hsrc, hibuf, hlatch, hop, hovr, hresp⟩, hqueue, hdelay, hacc, hdraws, hepoch⟩ := hfixed
  exact ⟨hphase, hparams, hsrc, hibuf, hlatch, hop, hovr, hresp, hqueue, hdelay, hacc, hdraws, hepoch,
    fun hi => Prod.mk.inj (exec_writer h hi), exec_reader h,
    fun hi => (Prod.mk.inj (exec_arena h hi)).imp_right Prod.mk.inj, exec_treeValid h, exec_codesValid h, exec_freq h,
    fun hgen hcomp => Prod.mk.inj (exec_code h hgen hcomp)⟩

/-! ### RESULT and the reported sizes -/

theorem keeps_result {i : Instr} (hi : i ≠ .brGetBit ∧ i ≠ .brReadChar ∧ i ≠ .decDecodeSymbol) (v : Byte) :
    Proc.Keeps (fun u => u.result = v) (procOf i) :=
  Overlooks.keeps
    { writer := fun _ _ _ _ h => h
      reader := fun _ _ _ h => h
      arena := fun _ _ _ _ _ _ _ h => h
      flags := fun _ _ _ _ h => h
      codes := fun _ _ _ _ _ h => h
      freq := fun _ _ _ h => h
      result := fun hr => by tauto
      orig := fun _ _ _ h => h
      sizes := fun _ _ _ _ _ h => h }

theorem exec_orig {i : Instr} {s t : State} (h : exec i s = .next t) (hi : i ≠ .encWriteHeader ∧ i ≠ .encCompress)
    (hi' : i ≠ .decReadHeader ∧ i ≠ .decDecompress) :
    t.orig = s.orig :=
  exec_unchanged State.orig h (Overlooks.keeps
    { writer := fun _ _ _ _ h => h
      reader := fun _ _ _ h => h
      arena := fun _ _ _ _ _ _ _ h => h
      flags := fun _ _ _ _ h => h
      codes := fun _ _ _ _ _ h => h
      freq := fun _ _ _ h => h
      result := fun _ _ _ h => h
      orig := fun ho => by tauto
      sizes := fun hs => by tauto }) (fun _ => rfl) fun _ _ => rfl

theorem exec_sizes {i : Instr} {s t : State} (h : exec i s = .next t) (hcomp : i ≠ .encCompress)
    (hdec : i ≠ .decDecompress) :
    (t.payload, t.metaSize) = (s.payload, s.metaSize) :=
  exec_unchanged (fun u => (u.payload, u.metaSize)) h (Overlooks.keeps
    { writer := fun _ _ _ _ h => h
      reader := fun _ _ _ h => h
      arena := fun _ _ _ _ _ _ _ h => h
      flags := fun _ _ _ _ h => h
      codes := fun _ _ _ _ _ h => h
      freq := fun _ _ _ h => h
      result := fun _ _ _ h => h
      orig := fun _ _ _ h => h
      sizes := fun hs => absurd hs (not_or.2 ⟨hcomp, hdec⟩) }) (fun _ => rfl) fun _ _ => rfl

/-- A last statement that only changes the state never raises. -/
theorem error_of_bind_change {α : Type} {p : Proc α} {f : α → State → State} {s t : State} {e : Abort}
    (h : (p >>= fun a => Proc.change (f a)) s = .error e t) : p s = .error e t := by
  rcases Proc.bind_cases h with ⟨a, u, -, hu⟩ | ⟨e', u, hp, hu⟩
  · cases hu
  · cases hu
    exact hp

/-- The commands that write RESULT do so last, so an error leaves it (60_exceptions.md R327). -/
theorem procOf_result_of_error {i : Instr} {s t : State} {e : Abort} (h : procOf i s = .error e t) :
    t.result = s.result := by
  have hr : NoReader fun u : State => u.result = s.result := fun _ _ h => h
  by_cases hi : i ≠ .brGetBit ∧ i ≠ .brReadChar ∧ i ≠ .decDecodeSymbol
  · exact (keeps_result hi s.result).of_error rfl h
  · have hi' : i = .brGetBit ∨ i = .brReadChar ∨ i = .decDecodeSymbol := by tauto
    rcases hi' with rfl | rfl | rfl
    · have hk : Proc.Keeps (fun u : State => u.result = s.result) (checkSrc >>= fun _ => getBit) :=
        .bind checkSrc_keeps fun _ => getBit_keeps hr
      exact hk.of_error rfl (error_of_bind_change (by rw [bind_assoc]; exact h))
    · have hk : Proc.Keeps (fun u : State => u.result = s.result) (checkSrc >>= fun _ => readChar) :=
        .bind checkSrc_keeps fun _ => readChar_keeps hr
      exact hk.of_error rfl (error_of_bind_change (by rw [bind_assoc]; exact h))
    · have hk : Proc.Keeps (fun u : State => u.result = s.result)
          (checkSrc >>= fun _ => requireTree >>= fun _ => decodeSymbol) :=
        .bind checkSrc_keeps fun _ => .bind requireTree_keeps fun _ => decodeSymbol_keeps hr
      exact hk.of_error rfl (error_of_bind_change (by simp only [bind_assoc]; exact h))

/-- A command that ends with ERR, where ERR was clear, has raised. -/
theorem exec_raised {i : Instr} {s t : State} (h : exec i s = .next t) (hs : s.err = false) (ht : t.err = true) :
    ∃ e u, procOf i s = .error (.raised e) u ∧ t = u.completeErr e := by
  have hk : Proc.Keeps (fun u : State => u.err = s.err) (procOf i) :=
    (Overlooks.of_all i (fun _ _ _ h => h) (fun _ _ h => h) (fun _ _ _ _ _ _ h => h) (fun _ _ _ h => h)
      (fun _ _ _ _ h => h) (fun _ _ h => h) (fun _ _ h => h) fun _ _ _ _ h => h).keeps
  rw [exec_eq] at h
  rcases complete_next h with ⟨u, hu, rfl⟩ | ⟨e, u, hu, rfl⟩
  · rw [State.completeOk_err, hk.of_ok rfl hu, hs] at ht
    cases ht
  · exact ⟨e, u, hu, rfl⟩

/-- Settles O24: RESULT is written by the last statement of three commands, the sizes by those of the spec's list. -/
theorem resultsWrittenOnly : Obligations.ResultsWrittenOnly := by
  intro i s t h
  refine ⟨fun hs hr => ?_, fun h1 h2 h3 h4 => exec_orig h ⟨h1, h2⟩ ⟨h3, h4⟩,
    fun h1 h2 => Prod.mk.inj (exec_sizes h h1 h2)⟩
  rcases hr with hi | ht
  · exact exec_unchanged State.result h (keeps_result hi _) (fun _ => rfl) fun _ _ => rfl
  · obtain ⟨e, u, hu, rfl⟩ := exec_raised h hs ht
    exact (State.completeErr_result u e).trans (procOf_result_of_error hu)

end Sys2Proof.Machine
end

section
/-! SUPPORT. The registers the host sees, the state after reset, and the commands that check or read the tree
(spec/10_state.md R32 to R57, 42_tree_builder.md R221, 43_code_table_gen.md R240, 70_reset_and_hazards.md R360). -/

namespace Sys2Proof.Machine

/-! ### Registers -/

/-- A register reads as `regWord` at its offset (10_state.md R32). -/
theorem State.reads_register {s : State} (hs : s.phase = .idle) {a : Nat} (ha : a < 0x74) (h4 : a % 4 = 0) {d : Word}
    (hd : s.regWord a = d) : s.Reads a d := by
  refine State.reads_of hs (by omega) h4 ?_
  unfold State.readWord State.region
  rw [toNat_addr (by omega), region_register _ _ ha]
  exact hd

/-- A write of a register other than CMD leaves `writeRegister` (20_memory.md R86). -/
theorem State.writes_register {s t : State} (hs : s.phase = .idle) {a : Nat} (ha : a < 0x74) (h4 : a % 4 = 0)
    (h0 : a ≠ 0) {d : Word}
    (hd : ∀ q, State.writeRegister { s with hostQueue := q } a d = { t with hostQueue := q }) : s.Writes a d t := by
  refine State.writes_of hs (by omega) h4 h0 fun q => ?_
  unfold State.writeWord State.region
  rw [toNat_addr (by omega), region_register _ _ ha]
  exact hd q

/-- Settles O10: each offset's word, and for the packed ones the place of each field. -/
theorem registerMap : Obligations.RegisterMap := by
  intro s hs
  have hr {a : Nat} {d : Word} (ha : a < 0x74) (h4 : a % 4 = 0) (hd : s.regWord a = d) : s.Reads a d :=
    State.reads_register hs ha h4 hd
  have hconfig : s.regWord 0x068 = match s.params.headerOrder with | .le => 0 | .be => 1 := by
    show (if s.params.headerOrder = .be then (1 : Word) else 0) = _
    cases s.params.headerOrder <;> rfl
  obtain ⟨hbusy, hdone, herr, htree, hcodes, hovr⟩ := statusWord_flags s
  obtain ⟨hgap, hcode, hop, htop⟩ := statusWord_bytes s
  obtain ⟨hroot, hcount, hlow, hhigh⟩ := treeWord_fields s.root s.nodeCount
  refine ⟨⟨s.statusWord, hr (by decide) rfl rfl, hbusy, hdone, herr, htree, hcodes, hovr, hgap, hcode, hop, htop⟩,
    ?_, ?_, ?_, ?_, ?_, ?_, ?_, ?_, ?_, ?_, ?_, ⟨_, hr (by decide) rfl rfl, cursorWord_fields s.bw.cur s.bw.pos⟩,
    ?_, ?_, ?_, ?_, ⟨_, hr (by decide) rfl rfl, cursorWord_fields s.br.cur s.br.cursor⟩, ?_, ?_, ?_, ?_, ?_, ?_,
    ⟨_, hr (by decide) rfl rfl, hroot, hcount, hlow, hhigh⟩, hr (by decide) rfl hconfig, ?_, ?_⟩
  all_goals exact hr (by decide) rfl rfl

/-- Settles O12: the three registers' own arms of the host's write. -/
theorem registerWrites : Obligations.RegisterWrites := fun _ _ hs =>
  ⟨State.writes_register hs (by decide) rfl (by decide) fun _ => rfl,
    State.writes_register hs (by decide) rfl (by decide) fun _ => rfl,
    State.writes_register hs (by decide) rfl (by decide) fun _ => rfl⟩

/-! ### Reset -/

theorem resetAs_statusInv (p : Params) (e : Nat) : (State.resetAs p e).StatusInv :=
  ⟨nofun, nofun, ⟨nofun, fun h => absurd rfl h⟩, nofun, nofun⟩

theorem resetAs_inv {p : Params} (h : p.wf = true) (e : Nat) : (State.resetAs p e).Inv where
  status := resetAs_statusInv p e
  writer := .of_zero rfl
  memory := resetAs_memoryInv h e
  tree := .of_invalid rfl
  codes := .of_invalid rfl
  codeTail := State.clearedCodeTail rfl rfl

/-- Settles O16: both flags are 0, writer and code table are cleared, and the memories list nothing. -/
theorem resetMeetsInvariants : Obligations.ResetMeetsInvariants :=
  ⟨fun _ e h => resetAs_inv h e, resetAs_inv (by decide) 0⟩

/-! ### The tree and its codes -/

/-- Settles O22: CODE holds the codes of the tree in the arena, of which none begins another. -/
theorem codesPrefixFree : Obligations.CodesPrefixFree := by
  intro s sh hinv hv hh
  obtain ⟨-, sh', hh', hcodes⟩ := hinv hv
  obtain rfl := hh.unique hh'
  have hmem {a : Byte} (ha : s.codeLenOf a ≠ 0) : (a, s.codeBitsList a) ∈ sh.codes := (hcodes a _).2 ⟨ha, rfl⟩
  refine ⟨fun sym => ⟨fun h => ⟨_, hmem h⟩, fun ⟨p, hp⟩ => ((hcodes sym p).1 hp).1⟩, fun a b ha hb hne hp => ?_⟩
  exact hne (Shape.codes_prefix (hmem ha) (hmem hb) hp).1

/-- Settles O41: TB_ADOPT's check is 10_state.md R39. -/
theorem tbAdopt : Obligations.TbAdopt := by
  intro s
  refine ⟨fun h => ?_, fun h => ?_⟩ <;> rw [exec_eq]
  · exact complete_of_ok (tbAdopt_of_tree h)
  · exact complete_of_raised (tbAdopt_of_not_tree h)

/-- Settles O42: GenCodes over a tree records exactly the tree's codes. -/
theorem ctGen : Obligations.CtGen := by
  intro s sh hv hh hok
  obtain ⟨u, hu, hcodes, htail, hf⟩ := genCodes_ok hh hok
  refine ⟨u.completeOk, ?_, ?_, hcodes, htail⟩
  · rw [exec_eq]
    exact complete_of_ok ((ctGen_of_valid hv).trans hu)
  · exact congrArg State.completeOk hf

end Sys2Proof.Machine
end

section
/-! SUPPORT. ENC_COMPRESS (spec/44_huffman_encoder.md R270, R271): the archive of its input, or the part of it that
fits. -/

namespace Sys2Proof.Machine

/-! ### The archive's bytes -/

/-- Bytes read one by one are the list they come from. -/
theorem State.obufBytes_eq {t : State} {l : List Byte} (h : ∀ j (hj : j < l.length), t.obufByte j = l[j]) :
    t.obufBytes 0 l.length = l :=
  List.ext_getElem (t.length_obufBytes 0 _) fun j h1 h2 => by
    rw [← h j h2]
    simp [State.obufBytes]

/-- Every symbol of the input has a code in the tree of its counts (42_tree_builder.md R214). -/
theorem mem_codes_of_mem {xs : List Byte} {sh : Shape} (hlen : xs.length < 2 ^ 64)
    (hsh : huffmanTree (countsOf xs) = some sh) {x : Byte} (hx : x ∈ xs) : x ∈ sh.codes.map Prod.fst := by
  rw [(huffmanTree_codes hsh).1.mem_iff, mem_presentSymbols, freqOf_countsOf]
  have hpos := List.count_pos_iff.2 hx
  have hle := List.count_le_length (a := x) (l := xs)
  intro h0
  have h0' := congrArg BitVec.toNat h0
  rw [BitVec.toNat_ofNat, Nat.mod_eq_of_lt (by omega)] at h0'
  exact hpos.ne' h0'

/-- The bytes up to the end of the tree. -/
abbrev frontBytes (s : State) (sh : Shape) : List Byte :=
  headerBytes s.params.headerOrder s.srcLen ++ packBits sh.treeBits

/-- The bytes of the codes. -/
abbrev payloadBytes (s : State) (sh : Shape) : List Byte :=
  packBits ((s.ibufBytes 0 s.srcLen.toNat).flatMap (codeFor sh.codes))

theorem length_frontBytes (s : State) {sh : Shape} (h : sh ≠ .absent) :
    (frontBytes s sh).length = 8 + (10 * sh.size - 8 + 7) / 8 := by
  rw [List.length_append, length_headerBytes, length_packBits, Shape.length_treeBits h]

/-- The archive of the input is the two regions (30_encoding.md R130). -/
theorem archiveOf_eq {s : State} {sh : Shape} (h : huffmanTree (countsOf (s.ibufBytes 0 s.srcLen.toNat)) = some sh) :
    archiveOf s.params.headerOrder (s.ibufBytes 0 s.srcLen.toNat) = frontBytes s sh ++ payloadBytes s sh := by
  unfold archiveOf archiveBytes
  rw [h, Option.getD_some, State.length_ibufBytes, BitVec.ofNat_toNat, BitVec.setWidth_eq, List.append_assoc]

/-- What ENC_COMPRESS leaves of the tree and its codes, however its writing ends. -/
theorem ReadyToWrite.tree_and_codes {s u t : State} {sh : Shape} (hu : ReadyToWrite s u sh)
    (ht : t = { u with
      bw := t.bw, obuf := t.obuf, metaSize := t.metaSize, payload := t.payload
      done := t.done, err := t.err, errCode := t.errCode, phase := t.phase }) :
    t.HoldsTree sh ∧ t.nodeCount.toNat = sh.size ∧ t.root.toNat = t.nodeCount.toNat - 1 ∧
    (∀ i : NodeIdx, t.nodeCount.toNat ≤ i.toNat → t.node i = s.node i) ∧ t.CodesAre sh.codes ∧ t.CodeTailZero := by
  rw [ht]
  exact ⟨hu.tree, hu.count, hu.root, hu.others, hu.codes, hu.codeTail⟩

/-- The payload's length is that of the codes as CODE holds them (30_encoding.md R134). -/
theorem ReadyToWrite.length_payload {s u : State} {sh : Shape} (hu : ReadyToWrite s u sh)
    (hsh : huffmanTree (countsOf (s.ibufBytes 0 s.srcLen.toNat)) = some sh) :
    (payloadBytes s sh).length =
      (((s.ibufBytes 0 s.srcLen.toNat).map fun x => (u.codeLenOf x).toNat).sum + 7) / 8 := by
  have hlen : (s.ibufBytes 0 s.srcLen.toNat).length < 2 ^ 64 := by rw [State.length_ibufBytes]; exact s.srcLen.isLt
  have hmap : (s.ibufBytes 0 s.srcLen.toNat).map (fun x => (codeFor sh.codes x).length) =
      (s.ibufBytes 0 s.srcLen.toNat).map fun x => (u.codeLenOf x).toNat :=
    List.map_congr_left fun x hx => by
      rw [← hu.codes.codeFor (mem_codes_of_mem hlen hsh hx), State.codeBitsList, length_codeOf]
  rw [length_packBits, List.length_flatMap, hmap]

/-- Settles O47: from the state that is ready to write, both regions of the archive fit. -/
theorem encCompress : Obligations.EncCompress := by
  rintro s xs archive hs rfl rfl hfit
  obtain ⟨sh, u, hsh, hu, he⟩ := compress_eq hs
  rw [archiveOf_eq hsh] at hfit ⊢
  have hsize : u.obufSize = s.obufSize := by rw [hu.frame]; rfl
  rw [← hsize, List.length_append] at hfit
  obtain ⟨t, ht, hbw, hin, hout, hf⟩ := writeArchive_ok (congrArg State.bw hu.frame) hfit
  have hlt : u.obufSize < 2 ^ 32 := u.params.obufSize.isLt
  have hmeta : t.metaSize = BitVec.ofNat 64 (frontBytes s sh).length := congrArg State.metaSize hf
  have hpay : t.payload = BitVec.ofNat 64 (payloadBytes s sh).length := congrArg State.payload hf
  have hmeta' : t.metaSize.toNat = (frontBytes s sh).length := by
    rw [hmeta, BitVec.toNat_ofNat, Nat.mod_eq_of_lt (by omega)]
  have hpay' : t.payload.toNat = (payloadBytes s sh).length := by
    rw [hpay, BitVec.toNat_ofNat, Nat.mod_eq_of_lt (by omega)]
  obtain ⟨hh, hc, hr, ho, hca, hz⟩ := hu.tree_and_codes (t := t.completeOk) (by rw [hf]; rfl)
  refine ⟨t.completeOk, sh, ?_, hsh, ?_, hh, hc, hr, ho, hca, hz, State.obufBytes_eq hin, fun a ha => ?_, ?_, ?_, ?_,
    ?_⟩
  · rw [exec_eq]
    exact complete_of_ok (he.trans ht)
  · rw [hf, hu.frame]
    rfl
  · rw [List.length_append] at ha
    exact (hout a ha).trans (by rw [hu.frame]; rfl)
  · rw [← length_frontBytes s hu.tree.ne_absent]
    exact hmeta'
  · have hcl : t.completeOk.codeLenOf = u.codeLenOf := by rw [hf]; rfl
    rw [hcl, ← hu.length_payload hsh]
    exact hpay'
  · show t.bw = ⟨0, 0, t.metaSize + t.payload, 8 * t.payload, t.payload⟩
    rw [hbw, hmeta, hpay, BitVec.ofNat_add, BitVec.ofNat_mul]
    rfl
  · rw [List.length_append]
    exact congrArg₂ _ hmeta'.symm hpay'.symm

/-- Settles O48: the writing stops when OBUF is full, in the first region or in the second. -/
theorem encCompressOverflow : Obligations.EncCompressOverflow := by
  rintro s xs archive hs rfl rfl hfull
  obtain ⟨sh, u, hsh, hu, he⟩ := compress_eq hs
  rw [archiveOf_eq hsh] at hfull ⊢
  have hsize : u.obufSize = s.obufSize := by rw [hu.frame]; rfl
  rw [← hsize] at hfull
  obtain ⟨t, ht, hin, hout, hf⟩ := writeArchive_overflow (congrArg State.bw hu.frame) (congrArg State.metaSize hu.frame)
    hfull rfl
  rw [length_frontBytes s hu.tree.ne_absent, ← List.getD_eq_getElem _ 0 hfull, hsize] at hf
  rw [hsize] at hfull hin hout
  obtain ⟨hh, hc, hr, ho, hca, hz⟩ := hu.tree_and_codes (t := t.completeErr .resOutOverflow) (by rw [hf]; rfl)
  refine ⟨t.completeErr .resOutOverflow, sh, _, _, ?_, hsh, rfl, rfl, ?_, hh, hc, hr, ho, hca, hz, ?_, fun a ha => ?_⟩
  · rw [exec_eq]
    exact complete_of_raised (he.trans ht)
  · rw [hf, hu.frame]
    rfl
  · have hl : ((frontBytes s sh ++ payloadBytes s sh).take s.obufSize).length = s.obufSize :=
      List.length_take_of_le hfull.le
    have hb := State.obufBytes_eq (t := t.completeErr .resOutOverflow)
      (l := (frontBytes s sh ++ payloadBytes s sh).take s.obufSize) fun j hj => by
        rw [List.getElem_take]
        exact hin j _ (hl ▸ hj)
    rwa [hl] at hb
  · exact (hout a ha).trans (by rw [hu.frame]; rfl)

end Sys2Proof.Machine
end

section
/-! SUPPORT. DEC_DESERIALIZE_TREE and DEC_DECOMPRESS over any stream (spec/45_huffman_decoder.md R292 to R300,
60_exceptions.md R327 to R336). -/

namespace Sys2Proof.Machine

/-- Settles O51: the third part of DeserializeTree's outcome, behind CheckSrc. -/
theorem decDeserializeTreeFails : Obligations.DecDeserializeTreeFails := by
  intro s hs hno
  have hrun {e : ErrCode} {t : State} (h : deserializeTree s = .error (.raised e) t) :
      exec .decDeserializeTree s = .next (t.completeErr e) := by
    rw [exec_eq]
    exact complete_of_raised ((Proc.bind_ok (checkSrc_ok hs)).trans h)
  have hbig {sh : Shape} (h : 512 < sh.size) : sh ≠ .absent := by
    rintro rfl
    exact absurd h (by decide)
  rcases deserializeTree_outcome s with ⟨t, sh, rest, -, hne, hd⟩ | ⟨t, ht, hadv, hf, htrunc, hnone⟩ |
    ⟨t, ht, hf, ⟨n, hfull, hadv⟩, -⟩
  · exact absurd hd.bits (hno sh rest hne hd.cap)
  · refine ⟨_, 0x32, s.unread.length, hrun ht, ?_, hadv.readOn, .inr ⟨rfl, rfl, htrunc⟩, fun ⟨sh, rest, hsz, h⟩ => ?_⟩
    · rw [hf]
      rfl
    · exact absurd h (hnone sh rest (hbig hsz))
  · refine ⟨_, 0x21, n, hrun ht, ?_, hadv.readOn, .inl ⟨rfl, hfull⟩, fun _ => rfl⟩
    rw [hf]
    rfl

/-! ### DEC_DECOMPRESS without a payload -/

theorem exec_decDecompress_raised {s t : State} {e : ErrCode} (h : decompress s = .error (.raised e) t) :
    exec .decDecompress s = .next (t.completeErr e) := by
  rw [exec_eq]
  exact complete_of_raised h

/-- Settles O59: the archive ends in the header, or in the tree, or has too many nodes. -/
theorem decDecompressNoTree : Obligations.DecDecompressNoTree := by
  intro s hs
  refine ⟨fun h8 => exec_decDecompress_raised (decompress_short hs h8), fun count rest hi =>
    ⟨fun n hn => ?_, fun used hn => ?_⟩⟩
  · obtain ⟨t, ht, hf, ho⟩ := decompress_truncated hs hi hn
    exact ⟨_, exec_decDecompress_raised ht, congrArg (State.completeErr · .fmtTruncated) hf, ho⟩
  · obtain ⟨t, ht, hf⟩ := decompress_full hs hi hn
    exact ⟨_, exec_decDecompress_raised ht, congrArg (State.completeErr · .allocNodes) hf⟩

theorem Subtree.sym_eq {nd : NodeIdx → Node} {i : NodeIdx} {sym : Byte} {l r : Shape} {ns : List NodeIdx}
    (h : Subtree nd true i (.node sym l r) ns) : (nd i).sym = sym := by
  cases h
  rfl

/-- The slot of a rebuilt empty tree. -/
theorem State.Rebuilt.node_of_leaf {s t : State} {sym : Byte} (h : s.Rebuilt t (.leaf sym)) :
    t.node 0 = Node.childless 0 0 := by
  have hsym : (t.node 0).sym = 0 := Subtree.sym_eq h.preorder
  have hchild : (t.node 0).isChildless = true := Subtree.isChildless h.preorder
  obtain ⟨hfreq, hleft, hright⟩ := h.plain 0 Nat.one_pos
  unfold Node.isChildless at hchild
  rw [Bool.and_eq_true, Bool.not_eq_true', Bool.not_eq_true'] at hchild
  obtain ⟨hlp, hrp⟩ := hchild
  have hfields : t.node 0 = ⟨(t.node 0).sym, (t.node 0).lp, (t.node 0).rp, (t.node 0).left, (t.node 0).right,
    (t.node 0).freq⟩ := rfl
  rw [hfields, hsym, hlp, hrp, hleft hlp, hright hrp, hfreq]
  rfl

/-- A positive count under a childless root stops before the payload (60_exceptions.md R336). -/
theorem payloadPart_empty {s : State} {count : DWord} (h0 : s.orig ≠ 0) (hc : (s.node s.root).isChildless = true) :
    payloadPart count s = .error (.raised .fmtEmptyTree) s := by
  refine Proc.bind_error ?_
  unfold checkNotEmpty
  rw [hc, bne_iff_ne.2 h0]
  rfl

/-- Settles O55: the two 0-bits are the whole tree, of which the first byte after the header holds the bits. -/
theorem decDecompressEmptyTree : Obligations.DecDecompressEmptyTree := by
  intro s count rest pad hs hcount hi hbits
  cases rest with
  | nil => simp at hbits
  | cons b rest =>
    rw [List.flatMap_cons] at hbits
    have hb : [b].flatMap byteBits = (Shape.leaf 0).treeBits ++ (byteBits b).drop 2 := by
      have htake := congrArg (List.take 2) hbits
      rw [List.take_append_of_le_length (by simp)] at htake
      exact (List.flatMap_singleton _ b).trans ((List.take_append_drop 2 _).symm.trans (congrArg (· ++ _) htake))
    obtain ⟨u, hu, -, hR, hf, -⟩ := decompress_tree (tree := [b]) (sh := .leaf 0) hs hi hb (by simp) nofun
      (by decide)
    have hnode := hR.node_of_leaf
    have horig : u.orig ≠ 0 := by rwa [hf]
    have hroot : u.root = 0 := by rw [hf]; rfl
    have hempty := payloadPart_empty (count := count) horig (by rw [hroot, hnode]; rfl)
    refine ⟨_, exec_decDecompress_raised (hu.trans hempty), ?_, hR.holds, hnode, hR.others⟩
    rw [hf]
    rfl

/-! ### The payload -/

/-- The same arena and the same bytes of OBUF. -/
theorem State.Unpacked.congr {s t t' : State} {sh : Shape} {xs : List Byte} (h : s.Unpacked t sh xs)
    (hn : t'.node = t.node) (hr : t'.root = t.root) (hc : t'.nodeCount = t.nodeCount)
    (ho : ∀ a, t'.obufByte a = t.obufByte a) : s.Unpacked t' sh xs := by
  refine ⟨h.tree.congr rfl hn hr hc, Eq.trans ?_ h.output, fun a ha => (ho a).trans (h.rest a ha)⟩
  exact List.map_congr_left fun k _ => ho (0 + k)

/-- What an archive with a tree of at most 512 nodes has in front of its payload (30_encoding.md R130 to R135). -/
structure ArchiveHead (s : State) (sh : Shape) (count : DWord) (tree rest : List Byte) (pad : List Bool) : Prop where
  source : s.srcLen.toNat ≤ s.ibufSize
  bytes : s.ibufBytes 0 s.srcLen.toNat = headerBytes s.params.headerOrder count ++ (tree ++ rest)
  tree : tree.flatMap byteBits = sh.treeBits ++ pad
  pad : pad.length < 8
  ne : sh ≠ .absent
  size : sh.size ≤ 512

section
variable {s : State} {sh : Shape} {count : DWord} {xs tree rest : List Byte} {pad : List Bool} {n : Nat}

/-- The run up to the last symbol that the tree decodes: `t` is the state then, and the reader's place from there on is
known (45_huffman_decoder.md R300). -/
theorem ArchiveHead.decodes (h : ArchiveHead s sh count tree rest pad)
    (hc : sh.isChildless = false ∨ xs = [] ∧ count = 0) (hd : sh.Decodes (rest.flatMap byteBits) xs n)
    (hroom : xs.length ≤ s.obufSize) :
    ∃ t, (∀ m, count.toNat = xs.length + m →
        decompress s = (decompressLoop m >>= fun _ => Proc.change State.closePayloadRead) t) ∧
      s.Unpacked t sh xs ∧ t.HoldsTree sh.withRootZero ∧ t.unread = (rest.flatMap byteBits).drop n ∧
      (∀ k w, t.Advanced w k → w.br = s.readerAfter (8 + tree.length) (n + k)) ∧
      t = { s.inPayload t sh count tree.length n (writerAfter xs.length) with obuf := t.obuf } := by
  obtain ⟨u, hu, hunread, hR, hf, hrd⟩ := decompress_tree h.source h.bytes h.tree h.pad h.ne h.size
  obtain ⟨t, ht, hadv, hU, hft, hhold⟩ := payloadPart_decodes hR hf hrd hunread hd (hc.imp_right And.left) hroom
    (hc.imp_right And.right)
  refine ⟨t, fun m hm => hu.trans (ht m hm), hU, hhold, ?_, fun k w hw => hrd _ _ (hadv.trans hw), hft⟩
  rw [hadv.rest, hunread]

/-- All the symbols counted are decoded (45_huffman_decoder.md R300). -/
theorem ArchiveHead.complete (h : ArchiveHead s sh count tree rest pad)
    (hc : sh.isChildless = false ∨ xs = [] ∧ count = 0) (hd : sh.Decodes (rest.flatMap byteBits) xs n)
    (hroom : xs.length ≤ s.obufSize) (hcount : xs.length = count.toNat) :
    ∃ t, exec .decDecompress s = .next t ∧ s.Unpacked t sh xs ∧
      t = { s.inPayload t sh count tree.length n (writerAfter xs.length) with
        payload := BitVec.ofNat 64 ((n + 7) / 8), done := true, phase := .idle } := by
  obtain ⟨t, ht, hU, -, -, -, hft⟩ := h.decodes hc hd hroom
  refine ⟨t.closePayloadRead.completeOk, ?_, hU.congr rfl rfl rfl fun _ => rfl, ?_⟩
  · rw [exec_eq]
    exact complete_of_ok ((ht 0 hcount.symm).trans rfl)
  · rw [hft]
    rfl

/-- The next symbol cannot be decoded or written, and the run stops there (60_exceptions.md R327). -/
theorem ArchiveHead.stops (h : ArchiveHead s sh count tree rest pad) (hc : sh.isChildless = false)
    (hd : sh.Decodes (rest.flatMap byteBits) xs n) (hroom : xs.length ≤ s.obufSize) (hcount : xs.length < count.toNat) :
    ∃ t, (∀ e v, (decodeSymbol >>= writeChar) t = .error (.raised e) v →
        exec .decDecompress s = .next (v.completeErr e)) ∧
      s.Unpacked t sh xs ∧ t.HoldsTree sh.withRootZero ∧ t.unread = (rest.flatMap byteBits).drop n ∧
      (∀ k w, t.Advanced w k → w.br = s.readerAfter (8 + tree.length) (n + k)) ∧
      t = { s.inPayload t sh count tree.length n (writerAfter xs.length) with obuf := t.obuf } := by
  obtain ⟨t, ht, hU, hhold, hunread, hrd, hft⟩ := h.decodes (.inl hc) hd hroom
  refine ⟨t, fun e v hv => exec_decDecompress_raised ?_, hU, hhold, hunread, hrd, hft⟩
  have hloop : decompressLoop (count.toNat - xs.length - 1 + 1) t = .error (.raised e) v := by
    show (decodeSymbol >>= fun sym => writeChar sym >>= fun _ => decompressLoop _) t = _
    rw [← bind_assoc]
    exact Proc.bind_error hv
  exact (ht _ (by omega)).trans (Proc.bind_error hloop)

/-- The ends of the payload but for the count (60_exceptions.md R332, R334, R335). -/
theorem ArchiveHead.fails (h : ArchiveHead s sh count tree rest pad) (hc : sh.isChildless = false)
    (hd : sh.Decodes (rest.flatMap byteBits) xs n) (hroom : xs.length ≤ s.obufSize) (hcount : xs.length < count.toNat) :
    (∀ sym k, sh.walkDown ((rest.flatMap byteBits).drop n) 0 = .symbol sym k → xs.length = s.obufSize →
      ∃ t, exec .decDecompress s = .next t ∧ s.Unpacked t sh xs ∧
        t = { s.inPayload t sh count tree.length (n + k) (writerBlocked xs.length sym) with
          err := true, errCode := 0x12, phase := .idle }) ∧
    (∀ k, sh.walkDown ((rest.flatMap byteBits).drop n) 0 = .absentChild k →
      ∃ t, exec .decDecompress s = .next t ∧ s.Unpacked t sh xs ∧
        t = { s.inPayload t sh count tree.length (n + k) (writerAfter xs.length) with
          err := true, errCode := 0x31, phase := .idle }) ∧
    ∀ k, sh.walkDown ((rest.flatMap byteBits).drop n) 0 = .truncated k →
      ∃ t, exec .decDecompress s = .next t ∧ s.Unpacked t sh xs ∧
        t = { s.inPayload t sh count tree.length (n + k) (writerAfter xs.length) with
          err := true, errCode := 0x32, phase := .idle } := by
  obtain ⟨t, ht, hU, hhold, hunread, hrd, hft⟩ := h.stops hc hd hroom hcount
  have hraises {e : ErrCode} {w : State} {k : Nat} (hdec : decodeSymbol t = .error (.raised e) w)
      (hfw : w = { t with br := w.br }) (hadv : t.Advanced w k) :
      ∃ t, exec .decDecompress s = .next t ∧ s.Unpacked t sh xs ∧
        t = { s.inPayload t sh count tree.length (n + k) (writerAfter xs.length) with
          err := true, errCode := e.code, phase := .idle } := by
    refine ⟨_, ht e w (Proc.bind_error hdec), ?_, ?_⟩
    · rw [hfw]
      exact hU.congr rfl rfl rfl fun _ => rfl
    · rw [hfw, hrd k w hadv, hft]
      rfl
  obtain ⟨w, hfw, hw⟩ := decodeSymbol_eq hhold ((Shape.isChildless_withRootZero sh).trans hc)
  rw [Shape.walkDown_withRootZero hc, hunread] at hw
  refine ⟨fun sym k hk hfull => ?_, fun k hk => ?_, fun k hk => ?_⟩ <;> rw [hk] at hw
  · obtain ⟨hdec, hadv⟩ := hw
    have hlt := s.params.obufSize.isLt
    have hbw : w.bw = writerAfter xs.length := by rw [hfw, hft]; rfl
    have hsize : w.obufSize = s.obufSize := by rw [hfw, hft]; rfl
    have hptr : (BitVec.ofNat 64 xs.length).toNat = xs.length :=
      Nat.mod_eq_of_lt (by unfold State.obufSize at hfull; omega)
    obtain ⟨v, hv, hvb, hvo, hfv⟩ := writeChar_full sym (s := w) (by rw [hbw]; rfl) (by rw [hbw]; rfl)
      (by rw [hsize, ← hfull, hbw]; exact hptr)
    have hblocked : v.bw = writerBlocked xs.length sym := by
      rw [hvb, hbw, writerBlocked, BitVec.ofNat_add]
      rfl
    have hout : ∀ a, v.obufByte a = t.obufByte a := fun a => by rw [hvo, hfw]; rfl
    refine ⟨_, ht _ v ((Proc.bind_ok hdec).trans hv), ?_, ?_⟩
    · exact hU.congr (by rw [hfv, hfw]; rfl) (by rw [hfv, hfw]; rfl) (by rw [hfv, hfw]; rfl) hout
    · rw [hfv, hblocked, hfw, hrd k w hadv, hft]
      rfl
  · obtain ⟨hdec, hadv⟩ := hw
    exact hraises hdec hfw hadv
  · obtain ⟨hdec, hadv, -⟩ := hw
    exact hraises hdec hfw hadv

end

/-- A code list without entries leaves no symbol to decode. -/
theorem Shape.codes_of_childless {sh : Shape} (h : sh.isChildless = true) : sh.codes = [] := if_pos h

/-- Settles O54: the codes of the symbols decode to them. -/
theorem decDecompress : Obligations.DecDecompress := by
  intro s sh xs tree rest codes pad junk hs hi ht hpad hcodes hrest hne hsz hx hroom
  have hlt := s.params.obufSize.isLt
  have hcount : xs.length = (BitVec.ofNat 64 xs.length).toNat :=
    (Nat.mod_eq_of_lt (by unfold State.obufSize at hroom; omega)).symm
  have hc : sh.isChildless = false ∨ xs = [] ∧ BitVec.ofNat 64 xs.length = 0 := by
    cases hsh : sh.isChildless with
    | false => exact .inl rfl
    | true =>
      cases xs with
      | nil => exact .inr ⟨rfl, rfl⟩
      | cons x xs =>
        obtain ⟨p, hp⟩ := hx x List.mem_cons_self
        rw [Shape.codes_of_childless hsh] at hp
        cases hp
  have hd : sh.Decodes (rest.flatMap byteBits) xs codes.length := by
    rw [hrest, hcodes]
    exact .of_codes hx junk
  obtain ⟨t, hrun, hU, hf⟩ := ArchiveHead.complete ⟨hs, hi, ht, hpad, hne, hsz⟩ hc hd hroom hcount
  exact ⟨t, hrun, hf, hU⟩

/-- Settles O60: the count is reached, or the next symbol ends the run in one of three ways. -/
theorem decDecompressPayload : Obligations.DecDecompressPayload := by
  intro s sh count xs tree rest pad n hs hi ht hpad hne hsz hc hd hroom
  have head : ArchiveHead s sh count tree rest pad := ⟨hs, hi, ht, hpad, hne, hsz⟩
  exact ⟨head.complete (.inl hc) hd hroom, head.fails hc hd hroom⟩

end Sys2Proof.Machine
end

section
/-! SUPPORT. Two runs of ENC_COMPRESS over the same input, or of DEC_DECOMPRESS over the same archive (spec/10_state.md
R61): they end alike, whatever else the states before held. -/

namespace Sys2Proof.Machine

/-! ### Ends of two runs -/

/-- The same answer, with one relation between the states after success and another after an error. -/
def SameEnd {α : Type} (R E : State → State → Prop) :
    EStateM.Result Abort State α → EStateM.Result Abort State α → Prop
  | .ok a t, .ok a' t' => a = a' ∧ R t t'
  | .error e t, .error e' t' => e = e' ∧ E t t'
  | .ok _ _, .error _ _ => False
  | .error _ _, .ok _ _ => False

section
variable {α β : Type} {R E Q : State → State → Prop} {s s' : State}

theorem SameEnd.bind {p q : Proc α} {f g : α → Proc β} (h : SameEnd Q E (p s) (q s'))
    (hf : ∀ a t t', Q t t' → SameEnd R E (f a t) (g a t')) : SameEnd R E ((p >>= f) s) ((q >>= g) s') := by
  rw [Proc.bind_apply, Proc.bind_apply]
  cases hp : p s <;> cases hq : q s' <;> rw [hp, hq] at h
  case ok.ok a t a' t' =>
    obtain ⟨rfl, hr⟩ := h
    exact hf a t t' hr
  case error.error => exact h
  all_goals exact h.elim

/-- Two runs in step also agree on whatever the procedure does not write. -/
theorem SameResult.kept {γ : Type} {p : Proc α} (h : SameResult R (p s) (p s')) (f : State → γ)
    (hk : ∀ x, Proc.Keeps (fun u => f u = x) p) (e : f s = f s') :
    SameResult (fun t t' => R t t' ∧ f t = f t') (p s) (p s') := by
  have hs := hk (f s) s rfl
  have hs' := hk (f s') s' rfl
  cases hp : p s <;> cases hq : p s' <;> rw [hp] at h hs <;> rw [hq] at h hs'
  case ok.ok => exact ⟨h.1, h.2, (hs.trans e).trans hs'.symm⟩
  case error.error => exact ⟨h.1, h.2, (hs.trans e).trans hs'.symm⟩
  all_goals exact h.elim

theorem SameResult.sameEnd {p q : Proc α} (h : SameResult Q (p s) (q s'))
    (hok : ∀ a t t', p s = .ok a t → q s' = .ok a t' → Q t t' → R t t')
    (herr : ∀ t t', Q t t' → E t t') : SameEnd R E (p s) (q s') := by
  cases hp : p s <;> cases hq : q s' <;> rw [hp, hq] at h
  case ok.ok a t a' t' =>
    obtain ⟨rfl, hr⟩ := h
    exact ⟨rfl, hok a t t' hp hq hr⟩
  case error.error => exact ⟨h.1, herr _ _ h.2⟩
  all_goals exact h.elim

/-- How two completed commands relate whose pseudocode ends alike. -/
theorem SameEnd.completed {p q : Proc Unit} {t t' : State} (h : SameEnd R E (p s) (q s')) (ht : complete p s = .next t)
    (ht' : complete q s' = .next t') :
    (∃ u u', p s = .ok () u ∧ R u u' ∧ t = u.completeOk ∧ t' = u'.completeOk) ∨
    ∃ e u u', p s = .error (.raised e) u ∧ E u u' ∧ t = u.completeErr e ∧ t' = u'.completeErr e := by
  rcases complete_next ht with ⟨u, hu, rfl⟩ | ⟨e, u, hu, rfl⟩ <;>
    rcases complete_next ht' with ⟨u', hu', rfl⟩ | ⟨e', u', hu', rfl⟩ <;> rw [hu, hu'] at h
  case inl.inl => exact .inl ⟨u, u', hu, h.2, rfl, rfl⟩
  case inr.inr =>
    obtain ⟨he, hr⟩ := h
    cases he
    exact .inr ⟨e, u, u', hu, hr, rfl, rfl⟩
  all_goals exact h.elim

end

/-! ### ENC_COMPRESS -/

/-- Two writings of the same bytes into memories of one size end alike (10_state.md R61). -/
theorem writeArchive_alike {front payload : List Byte} {u u' : State} (hb : u.bw = .zero) (hb' : u'.bw = .zero)
    (hm : u.metaSize = 0) (hm' : u'.metaSize = 0) (hp : u.payload = u'.payload) (hsize : u.obufSize = u'.obufSize) :
    ∃ t t' : State,
      (writeArchive front payload u = .ok () t ∧ writeArchive front payload u' = .ok () t' ∨
        writeArchive front payload u = .error (.raised .resOutOverflow) t ∧
        writeArchive front payload u' = .error (.raised .resOutOverflow) t') ∧
      t.bw = t'.bw ∧ t.metaSize = t'.metaSize ∧ t.payload = t'.payload ∧
      (∀ a < t.bw.wrptr.toNat, t.obufByte a = t'.obufByte a) ∧
      t = { u with bw := t.bw, obuf := t.obuf, metaSize := t.metaSize, payload := t.payload } ∧
      t' = { u' with bw := t'.bw, obuf := t'.obuf, metaSize := t'.metaSize, payload := t'.payload } := by
  have hlt : u.obufSize < 2 ^ 32 := u.params.obufSize.isLt
  by_cases hr : front.length + payload.length ≤ u.obufSize
  · obtain ⟨t, ht, hbw, hin, -, hf⟩ := writeArchive_ok hb hr
    obtain ⟨t', ht', hbw', hin', -, hf'⟩ := writeArchive_ok hb' (hsize ▸ hr)
    refine ⟨t, t', .inl ⟨ht, ht'⟩, hbw.trans hbw'.symm, ?_, ?_, fun a ha => ?_, ?_, ?_⟩
    · rw [hf, hf']
    · rw [hf, hf']
    · rw [hbw, BitVec.toNat_ofNat, Nat.mod_eq_of_lt (by omega), ← List.length_append] at ha
      rw [hin a ha, hin' a ha]
    · rw [hf]
    · rw [hf']
  · rw [Nat.not_le, ← List.length_append] at hr
    obtain ⟨t, ht, hin, -, hf⟩ := writeArchive_overflow hb hm hr rfl
    obtain ⟨t', ht', hin', -, hf'⟩ := writeArchive_overflow hb' hm' (hsize ▸ hr) rfl
    rw [← List.getD_eq_getElem _ 0] at hf hf'
    refine ⟨t, t', .inr ⟨ht, ht'⟩, ?_, ?_, ?_, fun a ha => ?_, ?_, ?_⟩
    · rw [hf, hf', hsize]
    · rw [hf, hf', hsize]
    · rw [hf, hf']
      exact hp
    · have hw : t.bw.wrptr = BitVec.ofNat 64 u.obufSize := by rw [hf]
      rw [hw, BitVec.toNat_ofNat, Nat.mod_eq_of_lt (by omega)] at ha
      rw [hin a (by omega) ha, hin' a (by omega) (hsize ▸ ha)]
    · rw [hf]
    · rw [hf']

/-- Two runs over the same input make the same tree and the same code table (10_state.md R61, 42_tree_builder.md
R223). -/
theorem ReadyToWrite.alike {s s' u u' : State} {sh : Shape} (hu : ReadyToWrite s u sh) (hu' : ReadyToWrite s' u' sh)
    (hin : s.ibufBytes 0 s.srcLen.toNat = s'.ibufBytes 0 s'.srcLen.toNat) :
    u.root = u'.root ∧ u.nodeCount = u'.nodeCount ∧ u.codeLen = u'.codeLen ∧ u.codeBits = u'.codeBits ∧
    ∀ i : NodeIdx, i.toNat < u.nodeCount.toNat → u.node i = u'.node i := by
  obtain ⟨hlen, hbits⟩ := hu.codes.ext hu'.codes hu.codeTail hu'.codeTail
  obtain ⟨s1, s2, hfreq, -, hb, hnode, hroot, hcount⟩ := hu.built
  obtain ⟨s1', s2', hfreq', -, hb', hnode', hroot', hcount'⟩ := hu'.built
  have hnone : Alike ⟨false, false, false⟩ s1 s1' := ⟨nofun, nofun, nofun, nofun, nofun, nofun⟩
  obtain ⟨hsame, hroots⟩ := buildTree_lockstep hnone (by rw [hfreq, hfreq', hin])
  rw [hb, hb'] at hsame
  obtain ⟨hcounts, hnodes⟩ := hsame.2.arena rfl
  rw [hroot, hroot', hcount, hcount', hnode, hnode']
  exact ⟨hroots s2 s2' hb hb', hcounts, hlen, hbits, hnodes⟩

/-- The states agree on all that belongs to the outcome of ENC_COMPRESS. -/
structure CompressAlike (t t' : State) : Prop where
  done : t.done = t'.done
  err : t.err = t'.err
  errCode : t.errCode = t'.errCode
  treeValid : t.treeValid = t'.treeValid
  codesValid : t.codesValid = t'.codesValid
  bw : t.bw = t'.bw
  orig : t.orig = t'.orig
  payload : t.payload = t'.payload
  metaSize : t.metaSize = t'.metaSize
  freq : t.freq = t'.freq
  root : t.root = t'.root
  nodeCount : t.nodeCount = t'.nodeCount
  codeLen : t.codeLen = t'.codeLen
  codeBits : t.codeBits = t'.codeBits
  node : ∀ i : NodeIdx, i.toNat < t.nodeCount.toNat → t.node i = t'.node i
  obuf : ∀ a < t.bw.wrptr.toNat, t.obufByte a = t'.obufByte a

/-- ENC_COMPRESS over the same input (10_state.md R61): the input's bytes decide the tree, the codes and what is
written. -/
theorem compress_sameEnd {s s' : State} (hparams : s.params = s'.params) (hsrc : s.srcLen = s'.srcLen)
    (hs : s.srcLen.toNat ≤ s.ibufSize) (hbytes : ∀ a < s.srcLen.toNat, s.ibufByte a = s'.ibufByte a)
    (hdone : s.done = s'.done) (herr : s.err = s'.err) (hcode : s.errCode = s'.errCode) :
    SameEnd CompressAlike CompressAlike (compress s) (compress s') := by
  have hin : s.ibufBytes 0 s.srcLen.toNat = s'.ibufBytes 0 s'.srcLen.toNat := by
    rw [← hsrc]
    exact List.map_congr_left fun k hk => by rw [Nat.zero_add]; exact hbytes k (List.mem_range.1 hk)
  have hs' : s'.srcLen.toNat ≤ s'.ibufSize := by
    unfold State.ibufSize at *
    rwa [← hsrc, ← hparams]
  obtain ⟨sh, u, hsh, hu, hrun⟩ := compress_eq hs
  obtain ⟨sh', u', hsh', hu', hrun'⟩ := compress_eq hs'
  rw [← hin, hsh, Option.some.injEq] at hsh'
  subst hsh'
  rw [← hin, ← hparams, ← hsrc] at hrun'
  have hsize : u.obufSize = u'.obufSize := by rw [hu.frame, hu'.frame]; exact congrArg (·.obufSize.toNat) hparams
  obtain ⟨v, v', hwrite, hbw, hmeta, hpay, hout, hf, hf'⟩ := writeArchive_alike (congrArg State.bw hu.frame)
    (congrArg State.bw hu'.frame) (congrArg State.metaSize hu.frame) (congrArg State.metaSize hu'.frame)
    ((congrArg State.payload hu.frame).trans (congrArg State.payload hu'.frame).symm) hsize
  obtain ⟨hroot, hcount, hlen, hbits, hnodes⟩ := hu.alike hu' hin
  have halike : CompressAlike v v' := {
    done := by rw [hf, hf', hu.frame, hu'.frame]; exact hdone
    err := by rw [hf, hf', hu.frame, hu'.frame]; exact herr
    errCode := by rw [hf, hf', hu.frame, hu'.frame]; exact hcode
    treeValid := by rw [hf, hf', hu.frame, hu'.frame]
    codesValid := by rw [hf, hf', hu.frame, hu'.frame]
    orig := by rw [hf, hf', hu.frame, hu'.frame]; exact hsrc
    freq := by rw [hf, hf', hu.frame, hu'.frame]; exact congrArg countsOf hin
    root := by rw [hf, hf']; exact hroot
    nodeCount := by rw [hf, hf']; exact hcount
    codeLen := by rw [hf, hf']; exact hlen
    codeBits := by rw [hf, hf']; exact hbits
    node := by rw [hf, hf']; exact hnodes
    bw := hbw
    payload := hpay
    metaSize := hmeta
    obuf := hout }
  rw [hrun, hrun']
  rcases hwrite with ⟨hw, hw'⟩ | ⟨hw, hw'⟩ <;> rw [hw, hw'] <;> exact ⟨rfl, halike⟩

/-- Settles O57: two runs end alike, and the completion adds the same report to both. -/
theorem compressDependsOnInputOnly : Obligations.CompressDependsOnInputOnly := by
  intro s s' t t' hparams hsrc hs hbytes hd he hc hd' he' hc' ht ht'
  rw [exec_eq] at ht ht'
  have hend := compress_sameEnd hparams hsrc hs hbytes (hd.trans hd'.symm) (he.trans he'.symm) (hc.trans hc'.symm)
  rcases hend.completed ht ht' with ⟨u, u', -, h, rfl, rfl⟩ | ⟨e, u, u', -, h, rfl, rfl⟩
  · exact ⟨rfl, h.err, h.errCode, h.treeValid, h.codesValid, h.bw, h.orig, h.payload, h.metaSize, h.freq, h.root,
      h.nodeCount, h.codeLen, h.codeBits, h.node, h.obuf⟩
  · exact ⟨h.done, rfl, rfl, h.treeValid, h.codesValid, h.bw, h.orig, h.payload, h.metaSize, h.freq, h.root,
      h.nodeCount, h.codeLen, h.codeBits, h.node, h.obuf⟩

/-! ### DEC_DECOMPRESS -/

/-- The reported sizes and the report. -/
def State.reported (s : State) : DWord × DWord × DWord × Bool × Bool × Byte :=
  (s.orig, s.payload, s.metaSize, s.done, s.err, s.errCode)

theorem State.reported_eq_iff {s s' : State} : s.reported = s'.reported ↔ s.orig = s'.orig ∧ s.payload = s'.payload ∧
    s.metaSize = s'.metaSize ∧ s.done = s'.done ∧ s.err = s'.err ∧ s.errCode = s'.errCode := by
  simp only [State.reported, Prod.mk.injEq]

/-- The states agree on all that DEC_DECOMPRESS has to do with but the arena. -/
def RunAlike (s s' : State) : Prop := Alike ⟨true, true, false⟩ s s' ∧ s.reported = s'.reported

/-- They agree on the arena besides, which holds a tree. -/
def TreeAlike (s s' : State) : Prop :=
  Alike ⟨true, true, true⟩ s s' ∧ s.reported = s'.reported ∧ s.root = s'.root ∧ ∃ sh, s.HoldsTree sh

theorem Alike.withoutArena {s s' : State} {r w a : Bool} (h : Alike ⟨r, w, a⟩ s s') : Alike ⟨r, w, false⟩ s s' :=
  ⟨h.params, h.srcLen, h.ibuf, h.reader, h.writer, nofun⟩

theorem TreeAlike.run {s s' : State} (h : TreeAlike s s') : RunAlike s s' := ⟨h.1.withoutArena, h.2.1⟩

/-- The registers cleared at the start make any two states over one archive agree (45_huffman_decoder.md R300). -/
theorem startDecompress_alike {s s' : State} (hparams : s.params = s'.params) (hsrc : s.srcLen = s'.srcLen)
    (hbytes : ∀ a < s.srcLen.toNat, s.ibufByte a = s'.ibufByte a)
    (hreport : s.done = s'.done ∧ s.err = s'.err ∧ s.errCode = s'.errCode) :
    RunAlike s.startDecompress s'.startDecompress :=
  ⟨⟨fun _ => hparams, fun _ => hsrc, fun _ => hbytes, fun _ => rfl,
    fun _ => ⟨rfl, Nat.zero_le _, fun _ ha => absurd ha (Nat.not_lt_zero _)⟩, nofun⟩,
    State.reported_eq_iff.2 ⟨rfl, rfl, rfl, hreport⟩⟩

theorem readHeader_sameEnd {s s' : State} (h : RunAlike s s') :
    SameEnd RunAlike RunAlike (readHeader s) (readHeader s') :=
  ((readHeader_lockstep rfl s s' h.1).kept State.reported (fun _ => readHeader_keeps fun _ _ h => h) h.2).sameEnd
    (fun _ _ _ _ _ h => h) fun _ _ h => h

theorem deserializeTree_holdsTree {s t : State} (h : deserializeTree s = .ok () t) : ∃ sh, t.HoldsTree sh := by
  rcases deserializeTree_outcome s with ⟨u, sh, rest, hu, hne, hd⟩ | ⟨u, hu, -⟩ | ⟨u, hu, -⟩
  · cases h.symm.trans hu
    exact ⟨_, (hd.rebuilt hne).holds⟩
  · cases h.symm.trans hu
  · cases h.symm.trans hu

theorem deserializeTree_sameEnd {s s' : State} (h : RunAlike s s') :
    SameEnd TreeAlike RunAlike (deserializeTree s) (deserializeTree s') := by
  obtain ⟨hsame, hroot⟩ := deserializeTree_lockstep h.1
  have hkept (x) : Proc.Keeps (fun u : State => u.reported = x) deserializeTree :=
    deserializeTree_keeps (fun _ _ h => h) fun _ _ _ _ _ _ h => h
  refine (hsame.kept State.reported hkept h.2).sameEnd (fun _ t t' ht ht' ⟨hal, hrep⟩ => ?_) fun _ _ ⟨hal, hrep⟩ => ?_
  · exact ⟨hal, hrep, hroot t t' ht ht', deserializeTree_holdsTree ht⟩
  · exact ⟨hal.withoutArena, hrep⟩

theorem checkNotEmpty_sameEnd {s s' : State} (h : TreeAlike s s') :
    SameEnd TreeAlike RunAlike (checkNotEmpty s) (checkNotEmpty s') := by
  obtain ⟨halike, hrep, hroot, sh, -, -, hbelow, -⟩ := id h
  obtain ⟨horig, -⟩ := State.reported_eq_iff.1 hrep
  obtain ⟨-, hnodes⟩ := halike.arena rfl
  have hnode : s.node s.root = s'.node s'.root := hroot ▸ hnodes s.root hbelow
  unfold checkNotEmpty
  rw [← horig, ← hnode]
  split_ifs
  · exact ⟨rfl, h.run⟩
  · exact ⟨rfl, h⟩

/-- The payload's symbols, and the tree that stays (45_huffman_decoder.md R300). -/
theorem decompressLoop_sameEnd (n : Nat) {s s' : State} (h : TreeAlike s s') :
    SameEnd TreeAlike RunAlike (decompressLoop n s) (decompressLoop n s') := by
  obtain ⟨halike, hrep, hroot, sh, hh⟩ := h
  have hkept (x) : Proc.Keeps (fun u : State => (u.reported, u.root) = x) (decompressLoop n) :=
    decompressLoop_keeps (fun _ _ _ h => h) (fun _ _ h => h) n
  have htree : Proc.Keeps (fun u : State => u.HoldsTree sh) (decompressLoop n) :=
    decompressLoop_keeps (fun _ _ _ h => h) (fun _ _ h => h) n
  refine ((decompressLoop_lockstep rfl rfl rfl n halike hh hroot).kept (fun u => (u.reported, u.root)) hkept
    (Prod.ext hrep hroot)).sameEnd (fun _ t t' ht _ hr => ?_) fun t t' hr => ?_
  all_goals obtain ⟨hal, he⟩ := hr
  all_goals obtain ⟨hrep', hroot'⟩ := Prod.mk.inj he
  · exact ⟨hal, hrep', hroot', sh, htree.of_ok hh ht⟩
  · exact ⟨hal.withoutArena, hrep'⟩

/-- META and the counters at the boundary between the regions (45_huffman_decoder.md R300). -/
theorem TreeAlike.closeMeta {s s' : State} (h : TreeAlike s s') :
    TreeAlike s.align.closeMetaRead s'.align.closeMetaRead := by
  obtain ⟨⟨hparams, hsrc, hibuf, hreader, hwriter, harena⟩, hrep, hroot, hh⟩ := h
  have hbr := hreader rfl
  refine ⟨⟨hparams, hsrc, hibuf, fun _ => ?_, hwriter, harena⟩, ?_, hroot, hh⟩
  · show ({ s.br with cursor := 0, bits := 0, bytes := 0 } : BitReader) = { s'.br with
      cursor := 0, bits := 0, bytes := 0 }
    rw [hbr]
  · obtain ⟨horig, hpay, -, hreport⟩ := State.reported_eq_iff.1 hrep
    exact State.reported_eq_iff.2 ⟨horig, hpay, (congrArg BitReader.bytes hbr : s.br.bytes = s'.br.bytes),
      hreport⟩

theorem TreeAlike.closePayload {s s' : State} (h : TreeAlike s s') :
    TreeAlike s.closePayloadRead s'.closePayloadRead := by
  obtain ⟨⟨hparams, hsrc, hibuf, hreader, hwriter, harena⟩, hrep, hroot, hh⟩ := h
  obtain ⟨horig, -, hreport⟩ := State.reported_eq_iff.1 hrep
  exact ⟨⟨hparams, hsrc, hibuf, hreader, hwriter, harena⟩,
    State.reported_eq_iff.2 ⟨horig, congrArg BitReader.bytes (hreader rfl), hreport⟩, hroot, hh⟩

theorem RunAlike.setOrig {s s' : State} (h : RunAlike s s') (v : DWord) : RunAlike (s.setOrig v) (s'.setOrig v) := by
  obtain ⟨⟨hparams, hsrc, hibuf, hreader, hwriter, harena⟩, hrep⟩ := h
  exact ⟨⟨hparams, hsrc, hibuf, hreader, hwriter, harena⟩,
    State.reported_eq_iff.2 ⟨rfl, (State.reported_eq_iff.1 hrep).2⟩⟩

/-- DEC_DECOMPRESS behind its start: header, tree, payload. -/
theorem decompress_sameEnd {s s' : State} (hs : s.srcLen.toNat ≤ s.ibufSize) (hs' : s'.srcLen.toNat ≤ s'.ibufSize)
    (h : RunAlike s.startDecompress s'.startDecompress) :
    SameEnd TreeAlike RunAlike (decompress s) (decompress s') := by
  unfold decompress
  rw [Proc.bind_ok (checkSrc_ok hs), Proc.bind_ok (checkSrc_ok hs')]
  refine (readHeader_sameEnd h).bind fun v t t' ht => ?_
  refine (deserializeTree_sameEnd (ht.setOrig v)).bind fun _ u u' hu => ?_
  refine (checkNotEmpty_sameEnd hu.closeMeta).bind fun _ w w' hw => ?_
  refine (decompressLoop_sameEnd v.toNat hw).bind fun _ x x' hx => ?_
  exact ⟨rfl, hx.closePayload⟩

/-- Settles O58: from the cleared start on, the two runs are in step. -/
theorem decompressDependsOnInputOnly : Obligations.DecompressDependsOnInputOnly := by
  intro s s' t t' hparams hsrc hs hbytes hd he hc hd' he' hc' ht ht'
  have hs' : s'.srcLen.toNat ≤ s'.ibufSize := by
    unfold State.ibufSize at *
    rwa [← hsrc, ← hparams]
  have hstart := startDecompress_alike hparams hsrc hbytes ⟨hd.trans hd'.symm, he.trans he'.symm, hc.trans hc'.symm⟩
  have hend := decompress_sameEnd hs hs' hstart
  have hdone : ∀ e v, decompress s = .error e v → v.done = false := fun e v hv =>
    (decompress_keeps (P := fun u => u.done = false) (fun _ _ _ h => h) (fun _ _ h => h) (fun _ _ _ _ _ _ h => h)
      fun _ _ _ _ h => h).of_error hd hv
  rw [exec_eq] at ht ht'
  rcases hend.completed ht ht' with ⟨u, u', -, h, rfl, rfl⟩ | ⟨e, u, u', hu, ⟨halike, hrep⟩, rfl, rfl⟩
  · obtain ⟨halike, hrep, hroot, -⟩ := h
    obtain ⟨horig, hpay, hmeta, -, herr, hcode⟩ := State.reported_eq_iff.1 hrep
    obtain ⟨hbw, -, hout⟩ := halike.writer rfl
    obtain ⟨hcount, hnodes⟩ := halike.arena rfl
    exact ⟨rfl, herr, hcode, hbw, halike.reader rfl, horig, hpay, hmeta, hout, fun _ => ⟨hroot, hcount, hnodes⟩⟩
  · obtain ⟨horig, hpay, hmeta, hdone', -⟩ := State.reported_eq_iff.1 hrep
    obtain ⟨hbw, -, hout⟩ := halike.writer rfl
    refine ⟨hdone', rfl, rfl, hbw, halike.reader rfl, horig, hpay, hmeta, hout, fun h => ?_⟩
    rw [State.completeErr_done, hdone _ u hu] at h
    cases h

end Sys2Proof.Machine
end

section
/-! SUPPORT. The canonical form of the three memories over every step (spec/20_memory.md R80, 10_state.md R56): every
write of a command goes through AddBit, Alloc or an attached link, and every write of the host through a region of the
address map. -/

namespace Sys2Proof.Machine

/-! ### From one Alloc to every procedure that makes a tree -/

section
variable {P : State → Prop}

theorem mergeLoop_keeps_of (h : ∀ n, Proc.Keeps P (alloc n)) (n : Nat) (q : List NodeIdx) :
    Proc.Keeps P (mergeLoop n q) := by
  induction n generalizing q with
  | zero =>
    match q with
    | [] => exact .diverge
    | [_] => exact .pure _
    | _ :: _ :: _ => exact .diverge
  | succ n ih =>
    match q with
    | [] => exact .diverge
    | [_] => exact .pure _
    | x :: y :: q =>
      refine .bind (.look _) fun f => ?_
      dsimp only
      split
      · exact .diverge
      · exact .bind (.bind (.look _) fun _ => .bind (.look _) fun _ => .ite (.raise _) (h _)) fun _ => ih _

theorem allocLeaves_keeps_of (h : ∀ n, Proc.Keeps P (alloc n)) (t : Vector DWord 256) (syms : List Byte) :
    Proc.Keeps P (allocLeaves t syms) := by
  induction syms with
  | nil => exact .pure _
  | cons _ _ ih => exact .bind (h _) fun _ => .bind ih fun _ => .pure _

theorem joinLeaves_keeps_of (h : ∀ n, Proc.Keeps P (alloc n)) (t : Vector DWord 256) (syms : List Byte) :
    ∀ ks, Proc.Keeps P (joinLeaves t syms ks)
  | [] => h _
  | [_] => h _
  | _ :: _ :: _ => mergeLoop_keeps_of h _ _

/-- BuildTree is one release, Allocs, and the entry of ROOT (42_tree_builder.md R213). -/
theorem buildTree_keeps_of (h : ∀ n, Proc.Keeps P (alloc n)) (hrel : ∀ s, P s → P s.releaseArena)
    (hset : ∀ r s, P s → P (s.setTree r)) : Proc.Keeps P buildTree :=
  .orRelease (.bind (.change hrel) fun _ => .bind (.look _) fun _ => .bind (allocLeaves_keeps_of h _ _) fun _ =>
    .bind (joinLeaves_keeps_of h _ _ _) fun r => .change (hset r)) hrel

theorem fill_keeps_of (hr : NoReader P) (h : ∀ n, Proc.Keeps P (alloc n)) (hn : ∀ s i n, P s → P (s.setNode i n))
    (fuel : Nat) : ∀ i, Proc.Keeps P (fill fuel i) := by
  induction fuel with
  | zero => exact fun _ => .diverge
  | succ fuel ih =>
    have side (attach : NodeIdx → State → State) (hat : ∀ c s, P s → P (attach c s)) :
        Proc.Keeps P (fillSide (fill fuel) attach) :=
      .bind (getBit_keeps hr) fun _ => .ite
        (.bind (readChar_keeps hr) fun _ => .bind (h _) fun c => .bind (.change (hat c)) fun _ => ih c) (.pure _)
    exact fun i => .bind (side _ fun c s => hn s i _) fun _ => side _ fun c s => hn s i _

/-- DeserializeTree is one release, Allocs, attached links, and the entry of ROOT (45_huffman_decoder.md R292). -/
theorem deserializeTree_keeps_of (hr : NoReader P) (h : ∀ n, Proc.Keeps P (alloc n))
    (hn : ∀ s i n, P s → P (s.setNode i n)) (hrel : ∀ s, P s → P s.releaseArena)
    (hset : ∀ r s, P s → P (s.setTree r)) : Proc.Keeps P deserializeTree :=
  .orRelease (.bind (.change hrel) fun _ => .bind (h _) fun r => .bind (fill_keeps_of hr h hn _ _) fun _ =>
    .change (hset r)) hrel

end

/-! ### The commands -/

theorem encodeLoop_keeps_of {P : State → Prop} (h : ∀ b, Proc.Keeps P (addBit b)) (n i : Nat) :
    Proc.Keeps P (encodeLoop n i) := by
  induction n generalizing i with
  | zero => exact .pure ()
  | succ n ih => exact .bind (.look _) fun _ => .bind (encodeSymbol_keeps_of h _) fun _ => ih _

theorem State.MemoryInv.releaseArena (s : State) (h : s.MemoryInv) : s.releaseArena.MemoryInv := h.congr rfl rfl rfl rfl

theorem State.MemoryInv.setTree (r : NodeIdx) (s : State) (h : s.MemoryInv) : (s.setTree r).MemoryInv :=
  h.congr rfl rfl rfl rfl

/-- The canonical form is not about the reader's registers, CODE and the reported sizes. -/
theorem State.memoryInv_noReader : NoReader State.MemoryInv := fun _ _ h => h.congr rfl rfl rfl rfl

theorem State.memoryInv_noCodes : NoCodes State.MemoryInv := fun _ _ _ _ h => h.congr rfl rfl rfl rfl

theorem State.memoryInv_noSizes : NoSizes State.MemoryInv := fun _ _ _ _ h => h.congr rfl rfl rfl rfl

theorem buildTree_keeps_memory : Proc.Keeps State.MemoryInv buildTree :=
  buildTree_keeps_of alloc_keeps_memory State.MemoryInv.releaseArena State.MemoryInv.setTree

theorem deserializeTree_keeps_memory : Proc.Keeps State.MemoryInv deserializeTree :=
  deserializeTree_keeps_of State.memoryInv_noReader alloc_keeps_memory (fun _ i n h => h.setNode i n)
    State.MemoryInv.releaseArena State.MemoryInv.setTree

theorem compress_keeps_memory : Proc.Keeps State.MemoryInv compress :=
  .bind checkSrc_keeps fun _ => .bind (.change fun _ h => h.congr rfl rfl rfl rfl) fun _ =>
    .bind (.change fun s => State.memoryInv_noSizes s _ _ _) fun _ =>
    .bind (.change fun _ h => h.congr rfl rfl rfl rfl) fun _ => .bind buildTree_keeps_memory fun _ =>
    .bind (genCodes_keeps State.memoryInv_noCodes) fun _ => .bind (.look _) fun _ =>
    .bind (writeHeader_keeps_of addBit_keeps_memory _) fun _ =>
    .bind (serializeTree_keeps_of addBit_keeps_memory) fun _ => .bind (pad_keeps_of addBit_keeps_memory) fun _ =>
    .bind (.change fun _ h => h.congr rfl rfl rfl rfl) fun _ =>
    .bind (encodeLoop_keeps_of addBit_keeps_memory _ _) fun _ => .bind (pad_keeps_of addBit_keeps_memory) fun _ =>
    .change fun s => State.memoryInv_noSizes s _ _ _

theorem decompress_keeps_memory : Proc.Keeps State.MemoryInv decompress :=
  .bind checkSrc_keeps fun _ => .bind (.change fun _ h => h.congr rfl rfl rfl rfl) fun _ =>
    .bind (readHeader_keeps State.memoryInv_noReader) fun _ =>
    .bind (.change fun s => State.memoryInv_noSizes s _ _ _) fun _ => .bind deserializeTree_keeps_memory fun _ =>
    .bind (.change fun s => State.memoryInv_noReader s _) fun _ =>
    .bind (.change fun _ h => h.congr rfl rfl rfl rfl) fun _ => .bind checkNotEmpty_keeps fun _ =>
    .bind (decompressLoop_keeps_of addBit_keeps_memory State.memoryInv_noReader _) fun _ =>
    .change fun s => State.memoryInv_noSizes s _ _ _

/-- A command that writes neither OBUF nor the arena writes nothing that the canonical form looks at. -/
theorem memoryInv_overlooks {i : Instr} (hw : i.usesWriter = false) (ha : i.writesArena = false) :
    Overlooks State.MemoryInv i where
  writer := fun h => by simp [hw] at h
  reader := fun _ => State.memoryInv_noReader
  arena := fun h => by simp [ha] at h
  flags := fun _ _ _ _ h => h.congr rfl rfl rfl rfl
  codes := fun _ => State.memoryInv_noCodes
  freq := fun _ _ _ h => h.congr rfl rfl rfl rfl
  result := fun _ _ _ h => h.congr rfl rfl rfl rfl
  orig := fun _ s v => State.memoryInv_noSizes s v s.metaSize s.payload
  sizes := fun _ => State.memoryInv_noSizes

/-- Every command's pseudocode keeps the canonical form. -/
theorem procOf_keeps_memory : ∀ i, Proc.Keeps State.MemoryInv (procOf i)
  | .bwInit | .bwResetCounts => .change fun _ h => h.congr rfl rfl rfl rfl
  | .bwAddBit _ => addBit_keeps_memory _
  | .bwWriteChar _ => addBits_keeps_of addBit_keeps_memory _
  | .bwPad => pad_keeps_of addBit_keeps_memory
  | .brInit | .brGetBit | .brReadChar | .brAlign | .brResetCounts => (memoryInv_overlooks rfl rfl).keeps
  | .tbBuild => buildTree_keeps_memory
  | .tbCount | .tbAdopt | .ctGen => (memoryInv_overlooks rfl rfl).keeps
  | .encWriteHeader => .bind (.change fun s => State.memoryInv_noSizes s _ s.metaSize s.payload) fun _ =>
      .bind (.look _) fun _ => writeHeader_keeps_of addBit_keeps_memory _
  | .encSerializeTree => .bind requireTree_keeps fun _ => serializeTree_keeps_of addBit_keeps_memory
  | .encEncodeSymbol _ => encodeSymbol_keeps_of addBit_keeps_memory _
  | .encCompress => compress_keeps_memory
  | .decDeserializeTree => .bind checkSrc_keeps fun _ => deserializeTree_keeps_memory
  | .decReadHeader | .decDecodeSymbol => (memoryInv_overlooks rfl rfl).keeps
  | .decDecompress => decompress_keeps_memory

/-- A command's completion, that of an illegal word included, keeps it as well. -/
theorem complete_keeps_memory {p : Proc Unit} (hp : Proc.Keeps State.MemoryInv p) {s t : State} (hs : s.MemoryInv)
    (h : complete p s = .next t) : t.MemoryInv :=
  complete_keeps h hp (fun _ h => h.congr rfl rfl rfl rfl) (fun _ _ h => h.congr rfl rfl rfl rfl) hs

/-! ### The host -/

/-- Only addresses of the IBUF window are in the region IBUF, and likewise for OBUF (20_memory.md R80). -/
theorem regionOf_eq_ibuf {m n a off : Nat} (h : regionOf m n a = .ibuf off) : off < m ∧ a = 0x01000000 + off := by
  unfold regionOf at h
  split_ifs at h
  have := Region.ibuf.inj h
  omega

theorem regionOf_eq_obuf {m n a off : Nat} (h : regionOf m n a = .obuf off) : off < n ∧ a = 0x02000000 + off := by
  unfold regionOf at h
  split_ifs at h
  have := Region.obuf.inj h
  omega

/-- An aligned host write stays inside the window it begins in (20_memory.md R80, R83). -/
theorem State.MemoryInv.writeWord {s : State} (hs : s.MemoryInv) {a : Word} (ha : alignedAddr a = true) (d : Word) :
    (s.writeWord a d).MemoryInv := by
  have h4 : a.toNat % 4 = 0 := beq_iff_eq.1 ha
  unfold State.writeWord
  split
  case h_1 off =>
    unfold State.writeRegister
    split <;> exact hs.congr rfl rfl rfl rfl
  case h_2 => exact hs.congr rfl rfl rfl rfl
  case h_3 i w _ =>
    split_ifs
    · exact (hs.setNode i _).congr rfl rfl rfl rfl
    · exact hs
  case h_4 off hr =>
    obtain ⟨hlt, heq⟩ := regionOf_eq_ibuf hr
    exact hs.writeIbufWord hlt (by omega) d
  case h_5 off hr =>
    obtain ⟨hlt, heq⟩ := regionOf_eq_obuf hr
    exact hs.writeObufWord hlt (by omega) d
  all_goals exact hs

theorem State.MemoryInv.respond {s : State} (hs : s.MemoryInv) (r : BusResponse) : (s.respond r).MemoryInv :=
  hs.congr rfl rfl rfl rfl

theorem State.MemoryInv.hostWrite {s : State} (hs : s.MemoryInv) (a d : Word) : (s.hostWrite a d).MemoryInv := by
  unfold State.hostWrite
  split_ifs with ha
  · exact hs.respond _
  · exact .respond (s := s.refuseCommand) (hs.congr rfl rfl rfl rfl) _
  · exact .respond (s := s.accept d) (hs.congr rfl rfl rfl rfl) _
  · exact hs.respond _
  · exact (hs.writeWord (by simpa using ha) d).respond _

theorem State.MemoryInv.hostRead {s : State} (hs : s.MemoryInv) (a : Word) : (s.hostRead a).MemoryInv := by
  unfold State.hostRead
  split_ifs <;> exact hs.congr rfl rfl rfl rfl

theorem State.MemoryInv.act {s : State} (hs : s.MemoryInv) : ∀ x, (s.act x).MemoryInv
  | .wait => hs
  | .read a => hs.hostRead a
  | .write a d => hs.hostWrite a d
  | .reset => (resetAs_memoryInv hs.params (s.epoch + 1)).congr rfl rfl rfl rfl

theorem State.MemoryInv.serveHost {s : State} (hs : s.MemoryInv) : s.serveHost.MemoryInv := by
  unfold State.serveHost
  split
  case h_1 => exact hs
  case h_2 x q _ => exact .act (s := { s with hostQueue := q }) (hs.congr rfl rfl rfl rfl) x

/-- Settles O19: AddBit checks BW_WRPTR before its write, slot indices have nine bits, and an aligned word of the host
ends inside the window in which it begins. -/
theorem memoryInvariant : Obligations.MemoryInvariant := by
  intro s t hs ht
  rcases step_cases ht with ⟨i, -, -, -, he⟩ | ⟨-, -, -, he⟩ | ⟨-, -, he⟩ | ⟨-, he⟩
  · exact complete_keeps_memory (procOf_keeps_memory i) hs (by rwa [← exec_eq])
  · cases he
    exact hs.congr rfl rfl rfl rfl
  · cases he
    exact .serveHost (s := { s with delay := s.delay - 1 }) (hs.congr rfl rfl rfl rfl)
  · cases he
    exact hs.serveHost

end Sys2Proof.Machine
end

section
/-! SUPPORT. The windows as the host of an idle core sees them (spec/20_memory.md R80 to R86): what each word reads as,
what a write of it stores, and the accesses that change nothing. -/

namespace Sys2Proof.Machine

/-! ### What a read and a write do, region by region -/

theorem State.region_ofNat {s : State} {a : Nat} {r : Region} (ha : a < 2 ^ 32)
    (h : regionOf s.ibufSize s.obufSize a = r) : s.region (BitVec.ofNat 32 a) = r := by
  unfold State.region
  rw [toNat_addr ha, h]

section
variable {s : State} {a : Word}

theorem State.readWord_freq {sym : Byte} {high : Bool} (h : s.region a = .freq sym high) :
    s.readWord a = if high then hiWord (freqOf s.freq sym) else loWord (freqOf s.freq sym) := by
  unfold State.readWord
  rw [h]

theorem State.readWord_codeLen {sym : Byte} (h : s.region a = .codeLen sym) :
    s.readWord a = (s.codeLenOf sym).zeroExtend 32 := by
  unfold State.readWord
  rw [h]

theorem State.readWord_codeBits {sym : Byte} {w : Nat} (h : s.region a = .codeBits sym w) :
    s.readWord a = codeBitsWord (s.codeBitsOf sym) w := by
  unfold State.readWord
  rw [h]

theorem State.readWord_node {i : NodeIdx} {w : Nat} (h : s.region a = .node i w) :
    s.readWord a = (s.node i).windowWord w := by
  unfold State.readWord
  rw [h]

theorem State.readWord_ibuf {off : Nat} (h : s.region a = .ibuf off) : s.readWord a =
    laneWord (s.ibufByte off) (s.ibufByte (off + 1)) (s.ibufByte (off + 2)) (s.ibufByte (off + 3)) := by
  unfold State.readWord
  rw [h]

theorem State.readWord_obuf {off : Nat} (h : s.region a = .obuf off) : s.readWord a =
    laneWord (s.obufByte off) (s.obufByte (off + 1)) (s.obufByte (off + 2)) (s.obufByte (off + 3)) := by
  unfold State.readWord
  rw [h]

theorem State.readWord_unmapped (h : s.region a = .unmapped) : s.readWord a = 0 := by
  unfold State.readWord
  rw [h]

theorem State.writeWord_freq {sym : Byte} {high : Bool} (h : s.region a = .freq sym high) (d : Word) :
    s.writeWord a d = s.writeFreq sym high d := by
  unfold State.writeWord
  rw [h]

theorem State.writeWord_node {i : NodeIdx} {w : Nat} (h : s.region a = .node i w) (hw : w < 3) (d : Word) :
    s.writeWord a d = (s.setNode i ((s.node i).writeWindow w d)).invalidateTree := by
  unfold State.writeWord
  rw [h]
  exact if_pos hw

theorem State.writeWord_ibuf {off : Nat} (h : s.region a = .ibuf off) (d : Word) :
    s.writeWord a d = s.writeIbufWord off d := by
  unfold State.writeWord
  rw [h]

theorem State.writeWord_obuf {off : Nat} (h : s.region a = .obuf off) (d : Word) :
    s.writeWord a d = s.writeObufWord off d := by
  unfold State.writeWord
  rw [h]

end

/-- The regions in which a host write is ignored (20_memory.md R84, R85). -/
def Region.IgnoresWrites : Region → Prop
  | .register off => off ≠ 0x00C ∧ off ≠ 0x010 ∧ off ≠ 0x064
  | .codeLen _ | .codeBits _ _ | .unmapped => True
  | .node _ w => w = 3
  | .freq _ _ | .ibuf _ | .obuf _ => False

theorem State.writeRegister_ignored {off : Nat} (h : (Region.register off).IgnoresWrites) (s : State) (d : Word) :
    s.writeRegister off d = s := by
  obtain ⟨hlo, hhi, htree⟩ := h
  unfold State.writeRegister
  split
  · exact absurd rfl hlo
  · exact absurd rfl hhi
  · exact absurd rfl htree
  · rfl

theorem State.writeWord_ignored {s : State} {a : Word} {r : Region} (hr : s.region a = r) (h : r.IgnoresWrites)
    (d : Word) : s.writeWord a d = s := by
  unfold State.writeWord
  rw [hr]
  cases r with
  | register off => exact State.writeRegister_ignored h s d
  | node i w => exact if_neg (show ¬ w < 3 by rw [show w = 3 from h]; decide)
  | codeLen | codeBits | unmapped => rfl
  | freq | ibuf | obuf => exact h.elim

/-- Where a host write is ignored, it answers OKAY and leaves the state. -/
theorem State.writes_ignored {s : State} (hs : s.phase = .idle) {a : Nat} (ha : a < 2 ^ 32) (h4 : a % 4 = 0)
    (h0 : a ≠ 0) (h : (regionOf s.ibufSize s.obufSize a).IgnoresWrites) (d : Word) : s.Writes a d s :=
  State.writes_of hs ha h4 h0 fun q => State.writeWord_ignored (s := { s with hostQueue := q })
    (State.region_ofNat ha rfl) h d

/-- A write to a read-only address is one of those (10_state.md R32, 20_memory.md R80, R85; log 9). -/
theorem ReadOnlyAddr.ignoresWrites {a : Nat} (h : ReadOnlyAddr a) (h4 : a % 4 = 0) (m n : Nat) :
    (regionOf m n a).IgnoresWrites := by
  unfold ReadOnlyAddr at h
  unfold regionOf
  split_ifs
  · exact ⟨by omega, by omega, by omega⟩
  · show False
    omega
  · trivial
  · trivial
  · show (a - 0x8000) % 16 / 4 = 3
    omega
  · show False
    omega
  · show False
    omega
  · trivial

/-! ### Accesses without effect -/

theorem alignedAddr_eq_false {a : Word} (h : a.toNat % 4 ≠ 0) : alignedAddr a = false := beq_false_of_ne h

/-- The alignment check comes before everything else of an access (20_memory.md R83; log 8). -/
theorem State.hostRead_misaligned {a : Word} (h : a.toNat % 4 ≠ 0) (s : State) :
    s.hostRead a = s.respond (.readData true 0) := by
  unfold State.hostRead
  rw [alignedAddr_eq_false h]
  rfl

theorem State.hostWrite_misaligned {a : Word} (h : a.toNat % 4 ≠ 0) (s : State) (d : Word) :
    s.hostWrite a d = s.respond (.writeAck true) := by
  unfold State.hostWrite
  rw [alignedAddr_eq_false h]
  rfl

/-- Settles O9: the alignment check comes first, and the address map has no writable word at the other addresses. -/
theorem accessesWithoutEffect : Obligations.AccessesWithoutEffect := by
  refine ⟨fun s a d q hs ha => ⟨?_, ?_⟩, fun s a d hs hp ha h4 => ⟨fun hu => ?_, fun hro => ?_, ?_⟩⟩
  · exact (step_of_idle (s := { s with hostQueue := .read a :: q }) hs).trans
      (congrArg _ (State.hostRead_misaligned ha { s with hostQueue := q }))
  · exact (step_of_idle (s := { s with hostQueue := .write a d :: q }) hs).trans
      (congrArg _ (State.hostWrite_misaligned ha { s with hostQueue := q } d))
  · obtain ⟨⟨-, -, hm⟩, -⟩ := (Params.wf_iff s.params).1 hp
    have hr := region_unmapped (m := s.ibufSize) hm hu ha
    refine ⟨State.reads_of hs ha h4 (State.readWord_unmapped (State.region_ofNat ha hr)),
      State.writes_ignored hs ha h4 ?_ (by rw [hr]; trivial) d⟩
    unfold UnmappedAddr at hu
    omega
  · refine State.writes_ignored hs ha h4 ?_ (hro.ignoresWrites h4 _ _) d
    unfold ReadOnlyAddr at hro
    omega
  · exact State.reads_register hs (by decide) rfl rfl

/-! ### Reads of the windows -/

/-- The address of word `w` of a NODE slot (20_memory.md R85). -/
theorem State.region_nodeWord (s : State) (i : NodeIdx) {a w : Nat} (hw : w < 4)
    (ha : a = 0x8000 + 16 * i.toNat + 4 * w) : s.region (BitVec.ofNat 32 a) = .node i w :=
  State.region_ofNat (by have := i.isLt; omega) (by rw [ha]; exact region_node _ _ i hw)

theorem State.reads_node {s : State} (hs : s.phase = .idle) (i : NodeIdx) {a w : Nat} (hw : w < 4)
    (ha : a = 0x8000 + 16 * i.toNat + 4 * w) : s.Reads a ((s.node i).windowWord w) :=
  State.reads_of hs (by have := i.isLt; omega) (by omega) (State.readWord_node (s.region_nodeWord i hw ha))

/-- Lane `k` of the word at offset `a` is the byte at offset `a + k` (20_memory.md R81). -/
theorem laneWord_bytes (f : Nat → Byte) (a : Nat) : ∀ k < 4,
    (laneWord (f a) (f (a + 1)) (f (a + 2)) (f (a + 3))).extractLsb' (8 * k) 8 = f (a + k) := by
  intro k hk
  obtain ⟨h0, h1, h2, h3⟩ := laneByte_laneWord (f a) (f (a + 1)) (f (a + 2)) (f (a + 3))
  interval_cases k
  · exact h0
  · exact h1
  · exact h2
  · exact h3

/-- Settles O11: each window's arm of the host's read, at the addresses of its words. -/
theorem windowReads : Obligations.WindowReads := by
  intro s hs hp
  obtain ⟨⟨-, -, hm⟩, -, -, hn⟩ := (Params.wf_iff s.params).1 hp
  refine ⟨fun sym => ?_, fun i => ?_, fun a h4 ha => ⟨_, ?_, laneWord_bytes s.ibufByte a⟩,
    fun a h4 ha => ⟨_, ?_, laneWord_bytes s.obufByte a⟩⟩
  · have hlt := sym.isLt
    obtain ⟨hlo, hhi⟩ := region_freq s.ibufSize s.obufSize sym
    refine ⟨?_, ?_, ?_, fun w hw => ⟨_, ?_, fun j hj => codeBitsWord_bit _ w hj hw⟩⟩
    · exact State.reads_of hs (by omega) (by omega) (State.readWord_freq (State.region_ofNat (by omega) hlo))
    · exact State.reads_of hs (by omega) (by omega) (State.readWord_freq (State.region_ofNat (by omega) hhi))
    · exact State.reads_of hs (by omega) (by omega)
        (State.readWord_codeLen (State.region_ofNat (by omega) (region_codeLen _ _ sym)))
    · exact State.reads_of hs (by omega) (by omega)
        (State.readWord_codeBits (State.region_ofNat (by omega) (region_codeBits _ _ sym hw)))
  · exact ⟨⟨_, State.reads_node hs i (w := 0) (by decide) rfl, nodeWord0_fields _⟩,
      State.reads_node hs i (w := 1) (by decide) (by omega), State.reads_node hs i (w := 2) (by decide) (by omega),
      State.reads_node hs i (w := 3) (by decide) (by omega)⟩
  · have hlt : a < 2 ^ 24 := lt_of_lt_of_le ha hm
    exact State.reads_of hs (by omega) (by omega)
      (State.readWord_ibuf (State.region_ofNat (by omega) (region_ibuf _ ha)))
  · have hlt : a < 2 ^ 24 := lt_of_lt_of_le ha hn
    exact State.reads_of hs (by omega) (by omega)
      (State.readWord_obuf (State.region_ofNat (by omega) (region_obuf hm ha)))

/-! ### Writes of the windows -/

/-- A write of half of a FREQ entry (20_memory.md R85). -/
theorem State.writes_freq {s : State} (hs : s.phase = .idle) (sym : Byte) (high : Bool) {a : Nat} (ha : a < 2 ^ 32)
    (h4 : a % 4 = 0) (h0 : a ≠ 0) (hr : regionOf s.ibufSize s.obufSize a = .freq sym high) (d : Word) :
    ∃ f, s.Writes a d { s with freq := f } ∧ ∀ b, freqOf f b =
      if b = sym then if high then setHi (freqOf s.freq sym) d else setLo (freqOf s.freq sym) d
      else freqOf s.freq b :=
  ⟨(s.writeFreq sym high d).freq,
    State.writes_of hs ha h4 h0 fun q =>
      State.writeWord_freq (s := { s with hostQueue := q }) (State.region_ofNat ha hr) d,
    fun b => freqOf_setFreqOf _ _ b _⟩

/-- A write of W0, W1 or W2 of a NODE slot (20_memory.md R85, R86). -/
theorem State.writes_node {s : State} (hs : s.phase = .idle) (i : NodeIdx) {a w : Nat} (hw : w < 3)
    (ha : a = 0x8000 + 16 * i.toNat + 4 * w) (d : Word) :
    ∃ t, s.Writes a d t ∧ t = { s with nodes := t.nodes, treeValid := false, codesValid := false } ∧
      t.node i = (s.node i).writeWindow w d ∧ ∀ j ≠ i, t.node j = s.node j := by
  have hlt := i.isLt
  refine ⟨(s.setNode i ((s.node i).writeWindow w d)).invalidateTree, ?_, rfl, ?_, fun j hj => ?_⟩
  · exact State.writes_of hs (by omega) (by omega) (by omega) fun q =>
      State.writeWord_node (s := { s with hostQueue := q }) (State.region_nodeWord _ i (by omega) ha) hw d
  · exact (s.node_setNode i i _).trans (if_pos rfl)
  · exact (s.node_setNode i j _).trans (if_neg hj)

/-- Four lanes of a word stored from offset `a` on (20_memory.md R81). -/
theorem Cells.get?_setLanes (m : Memory) (a : Nat) (d : Word) (b : Nat) :
    get? (set (set (set (set m a (laneByte d 0)) (a + 1) (laneByte d 1)) (a + 2) (laneByte d 2)) (a + 3)
      (laneByte d 3)) b = if a ≤ b ∧ b < a + 4 then some (laneByte d (b - a)) else get? m b := by
  simp only [get?_set]
  by_cases h : a ≤ b ∧ b < a + 4
  · obtain ⟨k, rfl⟩ := Nat.exists_eq_add_of_le h.1
    have hk : k < 4 := by omega
    rw [if_pos h, Nat.add_sub_cancel_left]
    interval_cases k <;> simp
  · rw [if_neg h, if_neg (by omega), if_neg (by omega), if_neg (by omega), if_neg (by omega)]

theorem State.ibufByte_writeIbufWord (s : State) (a : Nat) (d : Word) (b : Nat) :
    (s.writeIbufWord a d).ibufByte b = if a ≤ b ∧ b < a + 4 then laneByte d (b - a) else s.ibufByte b := by
  simp only [State.ibufByte, State.writeIbufWord, State.setIbuf_ibuf, State.setIbuf_epoch, Cells.get?_setLanes]
  split_ifs <;> rfl

theorem State.obufByte_writeObufWord (s : State) (a : Nat) (d : Word) (b : Nat) :
    (s.writeObufWord a d).obufByte b = if a ≤ b ∧ b < a + 4 then laneByte d (b - a) else s.obufByte b := by
  simp only [State.obufByte, State.writeObufWord, State.setObuf_obuf, State.setObuf_epoch, Cells.get?_setLanes]
  split_ifs <;> rfl

/-- What such a store says of the bytes inside and outside its word. -/
theorem lanes_stored {f g : Nat → Byte} {a : Nat} {d : Word}
    (h : ∀ b, g b = if a ≤ b ∧ b < a + 4 then laneByte d (b - a) else f b) :
    (∀ k < 4, g (a + k) = d.extractLsb' (8 * k) 8) ∧ ∀ b, b < a ∨ a + 4 ≤ b → g b = f b := by
  refine ⟨fun k hk => ?_, fun b hb => ?_⟩
  · rw [h, if_pos (by omega), Nat.add_sub_cancel_left]
    rfl
  · rw [h, if_neg (by omega)]

/-- Settles O13: each window's arm of the host's write, and what is read back from what it leaves. -/
theorem windowWrites : Obligations.WindowWrites := by
  intro s d hs hp
  obtain ⟨⟨-, -, hm⟩, -, -, hn⟩ := (Params.wf_iff s.params).1 hp
  refine ⟨fun sym => ?_, fun i => ⟨?_, ?_, ?_⟩, fun a h4 ha => ?_, fun a h4 ha => ?_⟩
  · have hlt := sym.isLt
    obtain ⟨hlo, hhi⟩ := region_freq s.ibufSize s.obufSize sym
    exact ⟨State.writes_freq hs sym false (by omega) (by omega) (by omega) hlo d,
      State.writes_freq hs sym true (by omega) (by omega) (by omega) hhi d⟩
  · obtain ⟨t, hw, hf, hi, hj⟩ := State.writes_node hs i (w := 0) (by decide) rfl d
    exact ⟨t, hw, hf, by rw [hi]; rfl, by rw [hi]; rfl, by rw [hi]; rfl, by rw [hi]; rfl, by rw [hi]; rfl,
      by rw [hi]; rfl, hj⟩
  · exact State.writes_node hs i (w := 1) (by decide) (by omega) d
  · exact State.writes_node hs i (w := 2) (by decide) (by omega) d
  · have hlt : a < 2 ^ 24 := lt_of_lt_of_le ha hm
    exact ⟨s.writeIbufWord a d, State.writes_of hs (by omega) (by omega) (by omega) fun q =>
        State.writeWord_ibuf (s := { s with hostQueue := q }) (State.region_ofNat (by omega) (region_ibuf _ ha)) d,
      s.writeIbufWord_frame a d, lanes_stored (s.ibufByte_writeIbufWord a d)⟩
  · have hlt : a < 2 ^ 24 := lt_of_lt_of_le ha hn
    exact ⟨s.writeObufWord a d, State.writes_of hs (by omega) (by omega) (by omega) fun q =>
        State.writeWord_obuf (s := { s with hostQueue := q }) (State.region_ofNat (by omega) (region_obuf hm ha)) d,
      s.writeObufWord_frame a d, lanes_stored (s.obufByte_writeObufWord a d)⟩

end Sys2Proof.Machine
end

section
/-! SUPPORT. The command word (spec/30_encoding.md R121 to R126) by its fields: what the assembled word holds, which
words select a command, and the words that select none, from their acceptance to their completion. -/

namespace Sys2Proof
open Sys2Proof.Machine

/-! ### The fields of a word -/

theorem getLsbD_commandWord (op : Byte) (b : Bool) (v : Byte) (k : Nat) :
    (commandWord op b v).getLsbD k =
      (op.getLsbD k || decide (k = 8) && b || decide (16 ≤ k) && v.getLsbD (k - 16)) := by
  simp only [commandWord, BitVec.getLsbD_or, BitVec.getLsbD_shiftLeft, BitVec.getLsbD_setWidth, BitVec.getLsbD_ofBool]
  grind

@[simp] theorem opField_commandWord (op : Byte) (b : Bool) (v : Byte) : opField (commandWord op b v) = op := by
  refine BitVec.eq_of_getLsbD_eq fun k hk => ?_
  rw [opField, BitVec.getLsbD_extractLsb', getLsbD_commandWord]
  simp [hk, show k ≠ 8 by omega, show ¬ 16 ≤ k by omega]

@[simp] theorem bitField_commandWord (op : Byte) (b : Bool) (v : Byte) : bitField (commandWord op b v) = b := by
  rw [bitField, getLsbD_commandWord, BitVec.getLsbD_of_ge op 8 le_rfl]
  simp

@[simp] theorem dataField_commandWord (op : Byte) (b : Bool) (v : Byte) : dataField (commandWord op b v) = v := by
  refine BitVec.eq_of_getLsbD_eq fun k hk => ?_
  rw [dataField, BitVec.getLsbD_extractLsb', getLsbD_commandWord, BitVec.getLsbD_of_ge op (16 + k) (by omega)]
  simp [hk, show 16 + k ≠ 8 by omega]

theorem commandWord_inj {op op' : Byte} {b b' : Bool} {v v' : Byte} :
    commandWord op b v = commandWord op' b' v' ↔ op = op' ∧ b = b' ∧ v = v' := by
  constructor
  · intro h
    exact ⟨by simpa using congrArg opField h, by simpa using congrArg bitField h,
      by simpa using congrArg dataField h⟩
  · rintro ⟨rfl, rfl, rfl⟩
    rfl

/-- A word without its ignored bits 15:9 and 31:24 is assembled from its fields (30_encoding.md R124, R126). -/
theorem and_fieldBits (w : Word) : w &&& 0x00FF01FF = commandWord (opField w) (bitField w) (dataField w) := by
  have hmask : ∀ k < 32, (0x00FF01FF : Word).getLsbD k = (decide (k ≤ 8) || decide (16 ≤ k ∧ k < 24)) := by decide
  refine BitVec.eq_of_getLsbD_eq fun k hk => ?_
  rw [BitVec.getLsbD_and, hmask k hk, getLsbD_commandWord, opField, bitField, dataField, BitVec.getLsbD_extractLsb',
    BitVec.getLsbD_extractLsb']
  grind

/-! ### Which words select a command -/

/-- The operand field that `i` uses holds the operand of `i` in `w`. -/
def Instr.OperandIn (w : Word) : Instr → Prop
  | .bwAddBit b => bitField w = b
  | .bwWriteChar v | .encEncodeSymbol v => dataField w = v
  | _ => True

theorem Instr.opField_usedBits (i : Instr) : opField i.usedBits = BitVec.allOnes 8 := by
  cases i <;> simp only [Instr.usedBits] <;> rfl

theorem Instr.usedBits_and_fieldBits (i : Instr) : i.usedBits &&& 0x00FF01FF = i.usedBits := by
  cases i <;> simp only [Instr.usedBits] <;> rfl

/-- BIT and DATA under the mask of a command are its operands when the field that it uses is. -/
theorem Instr.operandIn_iff (i : Instr) (w : Word) : i.OperandIn w ↔
    (bitField w && bitField i.usedBits) = i.bitOperand ∧ dataField w &&& dataField i.usedBits = i.dataOperand := by
  have hnone : dataField 0x000001FF#32 = 0#8 := by decide
  have hall : dataField 0x00FF00FF#32 = BitVec.allOnes 8 := by decide
  have hbit : bitField 0x000001FF#32 = true ∧ bitField 0x00FF00FF#32 = false := by decide
  cases i with
  | bwAddBit | bwWriteChar | encEncodeSymbol =>
    simp only [Instr.OperandIn, Instr.usedBits, Instr.bitOperand, Instr.dataOperand, hnone, hall, hbit, Bool.and_true,
      Bool.and_false, BitVec.and_zero, BitVec.and_allOnes, BitVec.ofNat_eq_ofNat, and_true, true_and]
  | _ => exact ⟨fun _ => ⟨Bool.and_false _, BitVec.and_zero⟩, fun _ => trivial⟩

theorem and_usedBits_eq_encode_iff (w : Word) (i : Instr) :
    w &&& i.usedBits = encode i ↔ opField w = i.op ∧ i.OperandIn w := by
  have hop : opField (w &&& i.usedBits) = opField w :=
    BitVec.extractLsb'_and.trans ((congrArg _ i.opField_usedBits).trans BitVec.and_allOnes)
  have hbit : bitField (w &&& i.usedBits) = (bitField w && bitField i.usedBits) := BitVec.getLsbD_and
  have hdata : dataField (w &&& i.usedBits) = dataField w &&& dataField i.usedBits := BitVec.extractLsb'_and
  have hfields := and_fieldBits (w &&& i.usedBits)
  rw [BitVec.and_assoc, i.usedBits_and_fieldBits, hop, hbit, hdata] at hfields
  rw [hfields, encode, commandWord_inj, i.operandIn_iff]

/-- Everything that decoding can answer: a command with the OP and the operand of the word, or that the OP is illegal
(30_encoding.md R122, R123). -/
theorem decode_cases (w : Word) : (∃ i, decode w = .ok i ∧ opField w = i.op ∧ i.OperandIn w) ∨
    (decode w = .error (.illegalOp (opField w)) ∧ IllegalOp (opField w)) := by
  unfold decode
  split
  -- the commands with an operand: BW_ADD_BIT, BW_WRITE_CHAR, ENC_ENCODE_SYMBOL
  case h_2 hop | h_3 hop | h_17 hop => exact .inl ⟨_, rfl, BitVec.eq_of_toNat_eq hop, rfl⟩
  -- no row of the opcode map
  case h_23 =>
    refine .inr ⟨rfl, ?_⟩
    simp only [imp_false] at *
    unfold IllegalOp
    omega
  all_goals exact .inl ⟨_, rfl, BitVec.eq_of_toNat_eq ‹_›, trivial⟩

theorem decode_of_fields {w : Word} {i : Instr} (hop : opField w = i.op) (h : i.OperandIn w) : decode w = .ok i := by
  unfold decode
  rw [hop]
  cases i with
  | bwAddBit b => rw [show bitField w = b from h]; rfl
  | bwWriteChar v | encEncodeSymbol v => rw [show dataField w = v from h]; rfl
  | _ => rfl

theorem decode_eq_ok_iff (w : Word) (i : Instr) : decode w = .ok i ↔ opField w = i.op ∧ i.OperandIn w := by
  refine ⟨fun h => ?_, fun ⟨hop, h⟩ => decode_of_fields hop h⟩
  rcases decode_cases w with ⟨j, hj, hfits⟩ | ⟨he, -⟩
  · rw [hj] at h
    cases h
    exact hfits
  · rw [he] at h
    cases h

theorem decode_encode (i : Instr) : decode (encode i) = .ok i := by
  cases i with
  | bwAddBit b => exact Laws.RoundTrip.bwAddBit b
  | bwWriteChar v => exact Laws.RoundTrip.bwWriteChar v
  | encEncodeSymbol v => exact Laws.RoundTrip.encEncodeSymbol v
  | _ => rfl

/-- Settles O1: a word decodes to a command, and is its word under its mask, exactly when the fields that the command
uses are those of the word. -/
theorem decodeMatchesEncode : Obligations.DecodeMatchesEncode :=
  ⟨fun i _ => decode_encode i, fun w i => (decode_eq_ok_iff w i).trans (and_usedBits_eq_encode_iff w i).symm⟩

/-- Settles O2: each word's OP, and its BIT or DATA where the command has one. -/
theorem sampleWordsDecode : Obligations.SampleWordsDecode := by
  unfold Obligations.SampleWordsDecode
  decide

/-! ### The words that select none -/

theorem Instr.op_legal (i : Instr) : ¬ IllegalOp i.op := by
  cases i <;> simp only [Instr.op, IllegalOp] <;> decide

theorem decode_of_illegalOp {w : Word} (h : IllegalOp (opField w)) : decode w = .error (.illegalOp (opField w)) := by
  rcases decode_cases w with ⟨i, -, hi, -⟩ | ⟨he, -⟩
  · exact absurd (hi ▸ h) i.op_legal
  · exact he

theorem illegalOp_iff_decode_ne_ok (w : Word) : IllegalOp (opField w) ↔ ∀ i, decode w ≠ .ok i := by
  constructor
  · intro h i hi
    rw [decode_of_illegalOp h] at hi
    cases hi
  · intro h
    rcases decode_cases w with ⟨i, hi, -⟩ | ⟨-, hop⟩
    · exact absurd hi (h i)
    · exact hop

/-- A write of CMD while the core is idle answers OKAY and accepts the word (60_exceptions.md R320). -/
theorem Machine.State.writes_cmd {s : State} (hs : s.phase = .idle) (w : Word) : s.Writes 0x000 w (s.accept w) := by
  intro q
  refine (step_of_idle (s := { s with hostQueue := .write (BitVec.ofNat 32 0x000) w :: q }) hs).trans ?_
  show Host.Outcome.next (State.hostWrite { s with hostQueue := q } 0 w) = _
  unfold State.hostWrite
  rw [show State.busy { s with hostQueue := q } = false from State.busy_eq_false hs]
  rfl

/-- Taking ARG_ILLEGAL_CMD is the whole completion of an illegal word (60_exceptions.md R338). -/
theorem Machine.step_of_illegalOp {s : State} (hp : s.phase = .running) (hd : s.delay = 0)
    (h : IllegalOp (opField s.cmdLatch)) : step s = .next (s.completeErr .argIllegalCmd) := by
  unfold step State.latched
  rw [hp, hd, decode_of_illegalOp h]
  rfl

/-- Settles O3: decoding answers no command, acceptance does not look at the OP, and the completion only reports. -/
theorem illegalCommand : Obligations.IllegalCommand := by
  refine ⟨illegalOp_iff_decode_ne_ok, fun s w hs _ => ⟨s.accept w, State.writes_cmd hs w, rfl⟩, fun s hp hd hop => ?_⟩
  exact ⟨s.completeErr .argIllegalCmd, step_of_illegalOp hp hd hop, rfl, fun hinv => hinv.latched hp⟩

end Sys2Proof
end

section
/-! SUPPORT. The commands of the bit_writer (spec/40_bit_writer.md R150 to R158): each that adds bits completes a run of
AddBit calls, and a sequence of them keeps the stream of all their bits. -/

namespace Sys2Proof.Machine

/-! ### Whether a run fits -/

theorem State.hasRoom_of_lt {s : State} {n : Nat} (hn : s.bw.pos.toNat + n < 16)
    (h : s.bw.wrptr.toNat < s.obufSize) : s.HasRoom n := by
  unfold State.HasRoom State.flushes
  omega

theorem State.not_hasRoom_of_full {s : State} {n : Nat} (hn : 8 ≤ s.bw.pos.toNat + n)
    (h : s.obufSize ≤ s.bw.wrptr.toNat) : ¬ s.HasRoom n := by
  unfold State.HasRoom State.flushes
  omega

theorem hasRoom_of_addBits_ok {bs : List Bool} {s t : State} (hz : s.WriterTailZero) (h : addBits bs s = .ok () t) :
    s.HasRoom bs.length := by
  by_contra hr
  obtain ⟨u, as, hu, -⟩ := addBits_overflow bs hz hr
  rw [hu] at h
  cases h

theorem State.WroteBits.toNat_pos {s t : State} {bs : List Bool} (h : s.WroteBits t bs) :
    t.bw.pos.toNat = (s.bw.pos.toNat + bs.length) % 8 := by
  rw [h.1, BitVec.toNat_add, BitVec.toNat_ofNat, Nat.add_mod_mod]

/-! ### A completed run of AddBit calls -/

theorem complete_addBits_of_hasRoom {bs : List Bool} {s : State} (hz : s.WriterTailZero) (hr : s.HasRoom bs.length) :
    ∃ t, complete (addBits bs) s = .next t ∧ s.WroteBits t bs ∧
      t = { s with bw := t.bw, obuf := t.obuf, done := true, phase := .idle } := by
  obtain ⟨t, ht, hw, -, hf⟩ := addBits_ok bs hz hr
  exact ⟨t.completeOk, complete_of_ok ht, hw, congrArg State.completeOk hf⟩

/-- Where OBUF is full, a run of at most eight bits that needs a flush adds the bits before that flush
(40_bit_writer.md R151). -/
theorem complete_addBits_of_full {bs : List Bool} {s : State} (hz : s.WriterTailZero)
    (hfull : s.obufSize ≤ s.bw.wrptr.toNat) (hflush : 8 ≤ s.bw.pos.toNat + bs.length) (hlen : bs.length ≤ 8) :
    ∃ t, complete (addBits bs) s = .next t ∧ s.WroteBits t (bs.take (7 - s.bw.pos.toNat)) ∧
      t = { s with bw := t.bw, obuf := t.obuf, err := true, errCode := 0x12, phase := .idle } := by
  obtain ⟨t, as, ht, hpre, hlt, hw, -, hblk, hf⟩ := addBits_overflow bs hz (State.not_hasRoom_of_full hflush hfull)
  have hlast : t.bw.pos.toNat = 7 := congrArg BitVec.toNat (t.flushBlocked_iff.1 hblk).1
  have has : as.length = 7 - s.bw.pos.toNat := by
    have := hw.toNat_pos
    omega
  rw [← has, ← List.prefix_iff_eq_take.1 hpre]
  exact ⟨t.completeErr .resOutOverflow, complete_of_raised ht, hw,
    congrArg (State.completeErr · .resOutOverflow) hf⟩

theorem State.padCount_of_pos_ne {s : State} (h : s.bw.pos ≠ 0) : s.padCount = 8 - s.bw.pos.toNat := if_neg h

theorem exec_bwPad (s : State) : exec .bwPad s = complete (addBits (List.replicate s.padCount true)) s :=
  complete_congr (pad_eq s)

/-! ### The commands -/

/-- Settles O29: eight bits need exactly one flush, so the byte at BW_WRPTR decides. -/
theorem bwWriteChar : Obligations.BwWriteChar := by
  intro v s hz
  have hpos := s.bw.pos.isLt
  exact ⟨fun h => complete_addBits_of_hasRoom hz (State.hasRoom_of_lt (by rw [length_byteBits]; omega) h),
    fun h => complete_addBits_of_full hz h (by simp) (by simp)⟩

/-- Settles O30: a begun byte needs one flush for its 8 - BW_POS ones, an empty one adds none. -/
theorem bwPad : Obligations.BwPad := by
  intro s hz
  have hpos := s.bw.pos.isLt
  refine ⟨fun h0 => ?_, fun h0 hroom => ?_, fun h0 hfull => ?_⟩
  · rw [exec_bwPad, State.padCount, if_pos h0]
    rfl
  all_goals
    have hlen : (List.replicate (8 - s.bw.pos.toNat) true).length = 8 - s.bw.pos.toNat := List.length_replicate
    rw [exec_bwPad, State.padCount_of_pos_ne h0]
  · have hfits : s.HasRoom (List.replicate (8 - s.bw.pos.toNat) true).length := State.hasRoom_of_lt (by omega) hroom
    obtain ⟨t, ht, hw, hf⟩ := complete_addBits_of_hasRoom hz hfits
    refine ⟨t, ht, hw, BitVec.eq_of_toNat_eq ?_, hf⟩
    rw [hw.toNat_pos, hlen, Nat.add_sub_of_le hpos.le]
    rfl
  · have htake : (List.replicate (8 - s.bw.pos.toNat) true).take (7 - s.bw.pos.toNat) =
        List.replicate (7 - s.bw.pos.toNat) true := by
      rw [List.take_replicate, Nat.min_eq_left (by omega)]
    rw [← htake]
    exact complete_addBits_of_full hz hfull (by omega) (by omega)

/-- Settles O27: each is one record update and DONE. -/
theorem bwInitAndResetCounts : Obligations.BwInitAndResetCounts := fun _ => ⟨rfl, rfl⟩

/-- The bit at position 7 - BW_POS, as the spec's masks write it (40_bit_writer.md R150). -/
theorem BitWriter.curWith_eq (w : BitWriter) (b : Bool) :
    w.curWith b = w.cur ||| (if b then (0x80 : Byte) >>> w.pos.toNat else 0x00) := by
  have hmask : ∀ (p : BitVec 3) (b : Bool), (BitVec.ofBool b).zeroExtend 8 <<< (7 - p.toNat) =
      if b then (0x80 : Byte) >>> p.toNat else 0x00 := by decide
  exact congrArg (w.cur ||| ·) (hmask w.pos b)

theorem exec_bwAddBit_of_blocked {s : State} (h : s.flushBlocked = true) (b : Bool) :
    exec (.bwAddBit b) s = .next (s.completeErr .resOutOverflow) :=
  complete_of_raised (by rw [addBit_apply, if_pos h])

theorem exec_bwAddBit_of_not_blocked {s : State} (h : ¬ s.flushBlocked = true) (b : Bool) :
    exec (.bwAddBit b) s = .next (s.placeBit b).completeOk :=
  complete_of_ok (by rw [addBit_apply, if_neg h])

/-- Settles O28: the flush that finds OBUF full, the flush with room, and the bit placed without a flush. -/
theorem bwAddBit : Obligations.BwAddBit := by
  intro b s
  refine ⟨fun h7 hfull => ?_, fun h7 hroom => ?_, fun h7 => ?_⟩
  · rw [exec_bwAddBit_of_blocked (s.flushBlocked_iff.2 ⟨h7, hfull⟩)]
    rfl
  · have hopen : ¬ s.flushBlocked = true := fun h => absurd (s.flushBlocked_iff.1 h).2 (Nat.not_le.2 hroom)
    refine ⟨_, exec_bwAddBit_of_not_blocked hopen b, ?_, fun a => ?_⟩
    · rw [State.placeBit_of_pos_eq h7]
      rfl
    · have hlast : s.bw.curWith b = s.bw.cur ||| (if b then 0x01 else 0x00) := by
        rw [BitWriter.curWith_eq, h7]
        rfl
      rw [State.placeBit_of_pos_eq h7, ← hlast]
      exact State.obufByte_setObuf ..
  · have hopen : ¬ s.flushBlocked = true := fun h => h7 (s.flushBlocked_iff.1 h).1
    rw [exec_bwAddBit_of_not_blocked hopen, State.placeBit_of_pos_ne h7, BitWriter.curWith_eq]
    rfl

/-! ### Sequences of commands -/

theorem execAll_cons_eq_some {i : Instr} {is : List Instr} {s t : State} :
    execAll (i :: is) s = some t ↔ ∃ u, exec i s = .next u ∧ u.err = false ∧ execAll is u = some t := by
  rw [execAll]
  cases exec i s with
  | next u => cases hu : u.err <;> simp [hu]
  | fault f => simp
  | refused r => simp

theorem execAll_append_eq_some {is js : List Instr} {s t : State} :
    execAll (is ++ js) s = some t ↔ ∃ u, execAll is s = some u ∧ execAll js u = some t := by
  induction is generalizing s with
  | nil => simp [execAll]
  | cons i is ih =>
    simp only [List.cons_append, execAll_cons_eq_some, ih]
    constructor
    · rintro ⟨v, hv, he, u, hu, ht⟩
      exact ⟨u, ⟨v, hv, he, hu⟩, ht⟩
    · rintro ⟨u, ⟨v, hv, he, hu⟩, ht⟩
      exact ⟨v, hv, he, u, hu, ht⟩

theorem writerBits_append (is js : List Instr) (bs : List Bool) :
    writerBits (is ++ js) bs = (writerBits is bs).bind (writerBits js) := by
  induction is generalizing bs with
  | nil => rfl
  | cons i is ih =>
    simp only [List.cons_append, writerBits, Option.bind_assoc, ih]

/-- A command that does not end with ERR = 1 ran to its end. -/
theorem ok_of_complete_next {p : Proc Unit} {s t : State} (h : complete p s = .next t) (he : t.err = false) :
    ∃ u, p s = .ok () u ∧ t = u.completeOk := by
  rcases complete_next h with hok | ⟨e, u, -, rfl⟩
  · exact hok
  · cases he

theorem State.padCount_eq_sub {s : State} {n : Nat} (h : s.bw.pos.toNat = n % 8) :
    s.padCount = 8 * ((n + 7) / 8) - n := by
  unfold State.padCount
  split_ifs with h0
  · have : s.bw.pos.toNat = 0 := congrArg BitVec.toNat h0
    omega
  · have : s.bw.pos.toNat ≠ 0 := fun h => h0 (BitVec.eq_of_toNat_eq h)
    omega

/-- The writer commands: BW_RESET_COUNTS, and those that are one run of AddBit calls where BW_POS counts the bits
written before (40_bit_writer.md R154 to R157). -/
theorem writerStep_cases {i : Instr} {bs bs' : List Bool} (h : writerStep bs i = some bs') :
    (i = .bwResetCounts ∧ bs' = bs) ∨
    (i ≠ .bwResetCounts ∧ ∃ as, bs' = bs ++ as ∧
      ∀ s : State, s.bw.pos.toNat = bs.length % 8 → exec i s = complete (addBits as) s) := by
  cases i with
  | bwResetCounts => cases h; exact .inl ⟨rfl, rfl⟩
  | bwAddBit b =>
    cases h
    refine .inr ⟨nofun, [b], rfl, fun s _ => complete_congr ?_⟩
    rw [addBits_cons, Proc.bind_apply]
    cases addBit b s <;> rfl
  | bwWriteChar v => cases h; exact .inr ⟨nofun, byteBits v, rfl, fun _ _ => rfl⟩
  | bwPad =>
    cases h
    refine .inr ⟨nofun, _, rfl, fun s hs => ?_⟩
    rw [exec_bwPad, State.padCount_eq_sub hs]
  | _ => cases h

/-! ### The stream of a sequence -/

/-- `s` with an empty writer whose two counters will have wrapped to 0 when `n` bits have been added: what follows a
BW_RESET_COUNTS after `n` bits reads as a run from here. -/
def State.emptyWriter (s : State) (n : Nat) : State :=
  { s with bw := { cur := 0, pos := 0, wrptr := 0, bits := -BitVec.ofNat 64 n, bytes := -BitVec.ofNat 64 (n / 8) } }

@[simp] theorem State.flushes_emptyWriter (s : State) (n m : Nat) : (s.emptyWriter n).flushes m = m / 8 :=
  congrArg (· / 8) (Nat.zero_add m)

@[simp] theorem State.heldBits_emptyWriter (s : State) (n : Nat) : (s.emptyWriter n).heldBits = [] := rfl

theorem toNat_neg_ofNat_add_ofNat {m n : Nat} (h : n ≤ m) (hm : m < 2 ^ 64) :
    (-BitVec.ofNat 64 n + BitVec.ofNat 64 m).toNat = m - n := by
  simp only [BitVec.toNat_add, BitVec.toNat_neg, BitVec.toNat_ofNat]
  omega

/-- From the state `z` with an empty writer on, the bits `bs` were written, and the counters were last cleared after
the first `n` of them. -/
structure WriterRun (z t : State) (bs : List Bool) (n : Nat) : Prop where
  wrote : (z.emptyWriter n).WroteBits t bs
  tailZero : t.WriterTailZero
  fits : bs.length / 8 ≤ t.obufSize
  counted : n ≤ bs.length

namespace WriterRun
variable {z t u : State} {bs as : List Bool} {n : Nat}

theorem initWriter (s : State) : WriterRun s s.initWriter [] 0 :=
  ⟨.nil fun _ _ => BitVec.getLsbD_zero, fun _ _ => BitVec.getLsbD_zero, Nat.zero_le _, le_rfl⟩

theorem length_lt (h : WriterRun z t bs n) : bs.length < 2 ^ 36 := by
  have hsize : t.obufSize < 2 ^ 32 := t.params.obufSize.isLt
  have := h.fits
  omega

theorem toNat_pos (h : WriterRun z t bs n) : t.bw.pos.toNat = bs.length % 8 :=
  h.wrote.toNat_pos.trans (congrArg (· % 8) (Nat.zero_add _))

theorem toNat_wrptr (h : WriterRun z t bs n) : t.bw.wrptr.toNat = bs.length / 8 := by
  obtain ⟨-, -, hw, -⟩ := h.wrote
  have := h.length_lt
  rw [State.flushes_emptyWriter] at hw
  rw [hw.trans (BitVec.zero_add _), BitVec.toNat_ofNat]
  omega

theorem toNat_bits (h : WriterRun z t bs n) : t.bw.bits.toNat = bs.length - n := by
  obtain ⟨-, -, -, hb, -⟩ := h.wrote
  have := h.length_lt
  rw [hb]
  exact toNat_neg_ofNat_add_ofNat h.counted (by omega)

theorem toNat_bytes (h : WriterRun z t bs n) : t.bw.bytes.toNat = bs.length / 8 - n / 8 := by
  obtain ⟨-, -, -, -, hb, -⟩ := h.wrote
  have := h.length_lt
  rw [hb, State.flushes_emptyWriter]
  exact toNat_neg_ofNat_add_ofNat (Nat.div_le_div_right h.counted) (by omega)

theorem obufByte (h : WriterRun z t bs n) {j : Nat} (hj : j < bs.length / 8) :
    t.obufByte j = byteOfBits ((bs.drop (8 * j)).take 8) := by
  obtain ⟨-, -, -, -, -, ho⟩ := h.wrote
  rw [ho, State.flushes_emptyWriter]
  exact if_pos ⟨Nat.zero_le j, by rwa [show (z.emptyWriter n).bw.wrptr.toNat = 0 from rfl, Nat.zero_add]⟩

/-- A run of AddBit calls that succeeds writes on. -/
theorem append (h : WriterRun z t bs n) (ha : addBits as t = .ok () u) : WriterRun z u (bs ++ as) n := by
  have hroom := hasRoom_of_addBits_ok h.tailZero ha
  obtain ⟨v, hv, hw, hz, hf⟩ := addBits_ok as h.tailZero hroom
  obtain rfl : v = u := by
    rw [hv] at ha
    cases ha
    rfl
  have hfl := State.flushes_add h.wrote as.length
  simp only [State.flushes_emptyWriter] at hfl
  have hlt := h.length_lt
  refine ⟨h.wrote.trans hw ?_, hz, ?_, ?_⟩
  · rw [State.flushes_emptyWriter]
    show 0 + bs.length / 8 < 2 ^ 64
    omega
  · have hsize : v.obufSize = t.obufSize := (congrArg State.obufSize hf).trans rfl
    have hptr := h.toNat_wrptr
    have hfits := h.fits
    rw [hsize, List.length_append, hfl]
    unfold State.HasRoom at hroom
    omega
  · have := h.counted
    rw [List.length_append]
    omega

/-- BW_RESET_COUNTS counts from all the bits written so far. -/
theorem resetWriterCounts (h : WriterRun z t bs n) : WriterRun z t.resetWriterCounts bs bs.length := by
  obtain ⟨hpos, hcur, hptr, -, -, hobuf⟩ := h.wrote
  refine ⟨⟨hpos, hcur, hptr, (BitVec.add_left_neg _).symm, ?_, hobuf⟩, h.tailZero, h.fits, le_rfl⟩
  rw [State.flushes_emptyWriter]
  exact (BitVec.add_left_neg _).symm

theorem completeOk (h : WriterRun z t bs n) : WriterRun z t.completeOk bs n :=
  ⟨h.wrote, h.tailZero, h.fits, h.counted⟩

theorem exec_bwResetCounts (h : WriterRun z t bs n) (hu : exec .bwResetCounts t = .next u) :
    WriterRun z u bs bs.length := by
  cases hu
  exact h.resetWriterCounts.completeOk

theorem step {i : Instr} {bs' : List Bool} (h : WriterRun z t bs n) (hi : writerStep bs i = some bs')
    (hu : exec i t = .next u) (he : u.err = false) :
    ∃ n', WriterRun z u bs' n' ∧ (i ≠ .bwResetCounts → n' = n) := by
  rcases writerStep_cases hi with ⟨rfl, rfl⟩ | ⟨-, as, rfl, hrun⟩
  · exact ⟨_, h.exec_bwResetCounts hu, fun hne => absurd rfl hne⟩
  · rw [hrun t h.toNat_pos] at hu
    obtain ⟨v, hv, rfl⟩ := ok_of_complete_next hu he
    exact ⟨n, (h.append hv).completeOk, fun _ => rfl⟩

theorem run {is : List Instr} {bs' : List Bool} (h : WriterRun z t bs n) (hi : writerBits is bs = some bs')
    (hu : execAll is t = some u) : ∃ n', WriterRun z u bs' n' ∧ (.bwResetCounts ∉ is → n' = n) := by
  induction is generalizing t bs n with
  | nil =>
    cases hi
    cases hu
    exact ⟨n, h, fun _ => rfl⟩
  | cons i is ih =>
    obtain ⟨bs₁, hb₁, hbs'⟩ := Option.bind_eq_some_iff.1 hi
    obtain ⟨v, hv, he, hu'⟩ := execAll_cons_eq_some.1 hu
    obtain ⟨m, hm, hmn⟩ := h.step hb₁ hv he
    obtain ⟨n', hn', hnm⟩ := ih hm hbs' hu'
    refine ⟨n', hn', fun hmem => ?_⟩
    rw [List.mem_cons, not_or] at hmem
    rw [hnm hmem.2, hmn (Ne.symm hmem.1)]

end WriterRun

/-- Settles O31: every command keeps that the writer holds the stream, with the counters running from the last
BW_RESET_COUNTS. -/
theorem writerStream : Obligations.WriterStream := by
  intro is bs s t hbs ht _
  obtain ⟨u, hu, -, hrest⟩ := execAll_cons_eq_some.1 ht
  have hstart : WriterRun s u [] 0 := by
    cases hu
    exact (WriterRun.initWriter s).completeOk
  obtain ⟨n, hrun, hn⟩ := hstart.run hbs hrest
  refine ⟨hrun.toNat_wrptr, hrun.toNat_pos, fun j hj => hrun.obufByte hj, fun hmem => ?_,
    fun is₁ is₂ bs₁ his hmem hbs₁ => ?_⟩
  · obtain rfl := hn hmem
    exact ⟨hrun.toNat_bits, hrun.toNat_bytes.trans (Nat.sub_zero _)⟩
  · subst his
    obtain ⟨v, hv, hrest'⟩ := execAll_append_eq_some.1 hrest
    obtain ⟨w, hw, -, ht'⟩ := execAll_cons_eq_some.1 hrest'
    have hbs₂ : writerBits is₂ bs₁ = some bs := by
      rw [writerBits_append, hbs₁] at hbs
      exact hbs
    obtain ⟨m, hm, -⟩ := hstart.run hbs₁ hv
    obtain ⟨n', hrun', hn'⟩ := (hm.exec_bwResetCounts hw).run hbs₂ ht'
    obtain rfl := hn' hmem
    exact ⟨hrun'.toNat_bits, hrun'.toNat_bytes⟩

end Sys2Proof.Machine
end

section
/-! SUPPORT. The commands of the bit_reader (spec/41_bit_reader.md R180 to R189): each that reads completes a run of
GetBit calls behind CheckSrc. -/

namespace Sys2Proof.Machine

/-- Settles O32: each is one record update and DONE. -/
theorem brInitResetAlign : Obligations.BrInitResetAlign := fun _ => ⟨rfl, rfl, rfl⟩

/-! ### BR_READ_CHAR -/

/-- Settles O34: eight GetBit calls return the next eight unread bits, or consume all that are left. -/
theorem brReadChar : Obligations.BrReadChar := by
  intro s hs
  refine ⟨fun hlong => ?_, fun hshort => ?_⟩
  · obtain ⟨v, t, ht, hbits, hadv, hf⟩ := readChar_ok hlong
    have hrun : exec .brReadChar s = .next (t.setResult v).completeOk :=
      complete_of_ok ((Proc.bind_ok (checkSrc_ok hs)).trans (Proc.bind_ok ht))
    exact ⟨_, hrun, hadv.readOn, hbits, congrArg (fun u => (u.setResult v).completeOk) hf⟩
  · obtain ⟨t, ht, hadv, hf⟩ := readChar_short hshort
    have hrun : exec .brReadChar s = .next (t.completeErr .fmtTruncated) :=
      complete_of_raised ((Proc.bind_ok (checkSrc_ok hs)).trans (Proc.bind_error ht))
    exact ⟨_, hrun, hadv.readOn, congrArg (State.completeErr · .fmtTruncated) hf⟩

/-! ### BR_GET_BIT -/

theorem State.sourceEnded_iff_cursor_rdptr (s : State) :
    s.sourceEnded = true ↔ s.br.cursor = 0 ∧ s.srcLen.toNat ≤ s.br.rdptr.toNat := by
  rw [sourceEnded, Bool.and_eq_true, beq_iff_eq, decide_eq_true_iff, BitVec.le_def]

theorem State.pulled_of_cursor_eq {s : State} (h : s.br.cursor = 0) :
    s.pulled = { s with br := { s.br with
      cur := s.ibufByte s.br.rdptr.toNat, rdptr := s.br.rdptr + 1, bytes := s.br.bytes + 1 } } := if_pos h

theorem State.pulled_of_cursor_ne {s : State} (h : s.br.cursor ≠ 0) : s.pulled = s := if_neg h

theorem zeroExtend_ofBool (b : Bool) : (BitVec.ofBool b).zeroExtend 8 = if b then 1 else 0 := by cases b <;> rfl

theorem exec_brGetBit_of_ended {s : State} (hs : s.srcLen.toNat ≤ s.ibufSize) (h : s.sourceEnded = true) :
    exec .brGetBit s = .next (s.completeErr .fmtTruncated) :=
  complete_of_raised ((Proc.bind_ok (checkSrc_ok hs)).trans (Proc.bind_error (by rw [getBit_apply, if_pos h])))

theorem exec_brGetBit_of_not_ended {s : State} (hs : s.srcLen.toNat ≤ s.ibufSize) (h : ¬ s.sourceEnded = true) :
    exec .brGetBit s =
      .next (s.nextBit.setResult (if s.pulled.br.currentBit then 1 else 0)).completeOk := by
  rw [← zeroExtend_ofBool]
  exact complete_of_ok ((Proc.bind_ok (checkSrc_ok hs)).trans (Proc.bind_ok (by rw [getBit_apply, if_neg h]; rfl)))

/-- Settles O33: the pull that finds no byte, the pull of a byte, and the bit returned without a pull. -/
theorem brGetBit : Obligations.BrGetBit := by
  intro s hs
  refine ⟨fun h0 hend => ?_, fun h0 hleft => ?_, fun h0 => ?_⟩
  · exact exec_brGetBit_of_ended hs (s.sourceEnded_iff_cursor_rdptr.2 ⟨h0, hend⟩)
  · have hopen : ¬ s.sourceEnded = true := fun h =>
      absurd (s.sourceEnded_iff_cursor_rdptr.1 h).2 (Nat.not_le.2 hleft)
    rw [exec_brGetBit_of_not_ended hs hopen, State.nextBit, State.pulled_of_cursor_eq h0, State.stepCursor,
      BitReader.currentBit, h0]
    rfl
  · have hopen : ¬ s.sourceEnded = true := fun h => h0 (s.sourceEnded_iff_cursor_rdptr.1 h).1
    rw [exec_brGetBit_of_not_ended hs hopen, State.nextBit, State.pulled_of_cursor_ne h0]
    rfl

end Sys2Proof.Machine
end

section
/-! SUPPORT. The commands TB_COUNT and TB_BUILD (spec/42_tree_builder.md R210 to R225), and CT_GEN over the tree that
TB_BUILD leaves (spec/43_code_table_gen.md R242). -/

namespace Sys2Proof.Machine

/-! ### TB_COUNT -/

/-- Fewer than 2^64 bytes are counted without wrapping (42_tree_builder.md R211). -/
theorem toNat_freqOf_countsOf {xs : List Byte} (h : xs.length < 2 ^ 64) (sym : Byte) :
    (freqOf (countsOf xs) sym).toNat = xs.count sym := by
  rw [freqOf_countsOf, BitVec.toNat_ofNat, Nat.mod_eq_of_lt (List.count_le_length.trans_lt h)]

theorem State.length_source_lt (s : State) : (s.ibufBytes 0 s.srcLen.toNat).length < 2 ^ 64 := by
  rw [State.length_ibufBytes]
  exact s.srcLen.isLt

theorem exec_tbCount {s : State} (h : s.srcLen.toNat ≤ s.ibufSize) :
    exec .tbCount s = .next { s with
      freq := countsOf (s.ibufBytes 0 s.srcLen.toNat), done := true, phase := .idle } := by
  have hrun : exec .tbCount s = .next s.countFreq.completeOk := complete_of_ok (Proc.bind_ok (checkSrc_ok h))
  rw [hrun, State.countFreq, State.countBytes_eq]
  rfl

/-- Settles O35: CountFreq leaves the counts of the source, none of which reaches 2^64. -/
theorem tbCount : Obligations.TbCount := fun s h =>
  ⟨_, exec_tbCount h, rfl, toNat_freqOf_countsOf s.length_source_lt⟩

/-! ### TB_BUILD -/

/-- What a successful BuildTree leaves: the tree in the arena, its slots, and everything else as it was
(42_tree_builder.md R213 to R220). -/
structure TreeBuilt (s u : State) (sh : Shape) : Prop where
  holds : u.HoldsTree sh
  size : sh.size = u.nodeCount.toNat
  slots : Built s u (presentSymbols s.freq)
  frame : u = { s with
    treeValid := true, codesValid := false, root := u.root, nodeCount := u.nodeCount, nodes := u.nodes }

theorem TreeBuilt.treeValid {s u : State} {sh : Shape} (h : TreeBuilt s u sh) : u.treeValid = true := by rw [h.frame]

theorem TreeBuilt.err {s u : State} {sh : Shape} (h : TreeBuilt s u sh) : u.err = s.err := by rw [h.frame]

theorem buildTree_of_some {s : State} {sh : Shape} (h : huffmanTree s.freq = some sh) :
    ∃ u, buildTree s = .ok () u ∧ TreeBuilt s u sh := by
  have hb := buildTree_eq s
  rw [h] at hb
  obtain ⟨u, hu, hholds, hsize, hslots, hframe⟩ := hb
  exact ⟨u, hu, hholds, hsize, hslots, hframe⟩

theorem exec_tbBuild_of_none {s : State} (h : huffmanTree s.freq = none) :
    ∃ t, exec .tbBuild s = .next t ∧ t = { s with
      treeValid := false, codesValid := false, root := 0, nodeCount := 0, nodes := t.nodes
      err := true, errCode := 0x47, phase := .idle } := by
  have hb := buildTree_eq s
  rw [h] at hb
  obtain ⟨u, hu, hframe⟩ := hb
  exact ⟨u.completeErr .argFreqOverflow, complete_of_raised hu, congrArg (State.completeErr · .argFreqOverflow) hframe⟩

/-- Settles O36: BuildTree over the arena is greedy merging over weighted trees. -/
theorem tbBuild : Obligations.TbBuild := by
  intro s
  refine ⟨fun sh h => ?_, exec_tbBuild_of_none⟩
  obtain ⟨u, hu, hbuilt⟩ := buildTree_of_some h
  exact ⟨u.completeOk, complete_of_ok hu, congrArg State.completeOk hbuilt.frame, hbuilt.holds, hbuilt.size.symm,
    hbuilt.slots.root, hbuilt.slots.outside⟩

/-- A TB_BUILD that ends with TREE_VALID = 1 is a success: greedy merging has given a tree. -/
theorem treeBuilt_of_exec {s t : State} (h : exec .tbBuild s = .next t) (hv : t.treeValid = true) :
    ∃ sh u, huffmanTree s.freq = some sh ∧ t = u.completeOk ∧ TreeBuilt s u sh := by
  cases hT : huffmanTree s.freq with
  | none =>
    obtain ⟨t', ht', hframe⟩ := exec_tbBuild_of_none hT
    obtain rfl := Host.Outcome.next.inj (h.symm.trans ht')
    rw [hframe] at hv
    cases hv
  | some sh =>
    obtain ⟨u, hu, hbuilt⟩ := buildTree_of_some hT
    exact ⟨sh, u, rfl, Host.Outcome.next.inj (h.symm.trans (complete_of_ok hu)), hbuilt⟩

/-- Settles O37: a success leaves the slots that `Built` describes. -/
theorem builtArena : Obligations.BuiltArena := by
  rintro s t syms ht hv rfl
  obtain ⟨sh, u, -, rfl, hbuilt⟩ := treeBuilt_of_exec ht hv
  refine ⟨hbuilt.slots.leaves, fun h0 => ?_, fun sym h1 => ?_, hbuilt.slots.many⟩
  · obtain ⟨hcount, hroot⟩ := hbuilt.slots.none (List.length_eq_zero_iff.1 h0)
    exact ⟨BitVec.eq_of_toNat_eq hcount, hroot⟩
  · obtain ⟨hcount, hwrapper⟩ := hbuilt.slots.one sym h1
    exact ⟨BitVec.eq_of_toNat_eq hcount, hwrapper⟩

/-! ### FREQ alone decides the tree -/

/-- Two states of which nothing is said. -/
theorem Alike.none (s s' : State) : Alike ⟨false, false, false⟩ s s' := ⟨nofun, nofun, nofun, nofun, nofun, nofun⟩

/-- Two successful runs of BuildTree over the same FREQ leave the same root and the same allocated slots
(42_tree_builder.md R223). -/
theorem buildTree_same_arena {s s' u u' : State} (hf : s.freq = s'.freq) (hu : buildTree s = .ok () u)
    (hu' : buildTree s' = .ok () u') :
    u.root = u'.root ∧ u.nodeCount = u'.nodeCount ∧
      ∀ i : NodeIdx, i.toNat < u.nodeCount.toNat → u.node i = u'.node i := by
  obtain ⟨hsame, hroot⟩ := buildTree_lockstep (Alike.none s s') hf
  rw [hu, hu'] at hsame
  exact ⟨hroot u u' hu hu', hsame.2.arena rfl⟩

/-- Settles O38: both runs release the arena, or both build the same one. -/
theorem buildDeterministic : Obligations.BuildDeterministic := by
  intro s s' t t' hf ht ht'
  cases hT : huffmanTree s.freq with
  | none =>
    obtain ⟨v, hv, hframe⟩ := exec_tbBuild_of_none hT
    obtain ⟨v', hv', hframe'⟩ := exec_tbBuild_of_none (hf ▸ hT)
    obtain rfl := Host.Outcome.next.inj (ht.symm.trans hv)
    obtain rfl := Host.Outcome.next.inj (ht'.symm.trans hv')
    have hcount : t.nodeCount = 0 := by rw [hframe]
    refine ⟨by rw [hframe, hframe'], by rw [hframe, hframe'], by rw [hframe, hframe'], fun i hi => ?_⟩
    rw [hcount] at hi
    exact absurd hi (Nat.not_lt_zero _)
  | some sh =>
    obtain ⟨u, hu, hbuilt⟩ := buildTree_of_some hT
    obtain ⟨u', hu', hbuilt'⟩ := buildTree_of_some (hf ▸ hT)
    obtain rfl := Host.Outcome.next.inj (ht.symm.trans (complete_of_ok hu))
    obtain rfl := Host.Outcome.next.inj (ht'.symm.trans (complete_of_ok hu'))
    obtain ⟨hroot, hcount, hslots⟩ := buildTree_same_arena hf hu hu'
    exact ⟨hbuilt.treeValid.trans hbuilt'.treeValid.symm, hroot, hcount, hslots⟩

/-! ### Counted frequencies -/

/-- Settles O39: the counts of a source add up to SRC_LEN, so no merged frequency reaches 2^64. -/
theorem countedBuildSucceeds : Obligations.CountedBuildSucceeds := by
  intro s t hs ht
  have hfreq : t.freq = countsOf (s.ibufBytes 0 s.srcLen.toNat) := by
    rw [Host.Outcome.next.inj (ht.symm.trans (exec_tbCount hs))]
  obtain ⟨sh, hsh⟩ := huffmanTree_countsOf s.length_source_lt
  rw [← hfreq] at hsh
  obtain ⟨u, hu, hbuilt⟩ := buildTree_of_some hsh
  exact ⟨u.completeOk, complete_of_ok hu, rfl, hbuilt.treeValid, hbuilt.err⟩

/-! ### The codes of a built tree -/

theorem State.CodesAre.codeLen_ne_zero_iff {u : State} {cs : List (Byte × List Bool)} (h : u.CodesAre cs) (sym : Byte) :
    u.codeLenOf sym ≠ 0 ↔ sym ∈ cs.map Prod.fst :=
  ⟨not_imp_comm.1 h.codeLen_eq_zero, h.codeLen_ne_zero⟩

/-- CODE_LEN of a listed symbol is the length of its code (10_state.md R57). -/
theorem State.CodesAre.toNat_codeLen {u : State} {cs : List (Byte × List Bool)} (h : u.CodesAre cs)
    {c : Byte × List Bool} (hc : c ∈ cs) : (u.codeLenOf c.1).toNat = c.2.length := by
  obtain ⟨-, hbits⟩ := (h c.1 c.2).1 hc
  rw [← hbits, State.codeBitsList, length_codeOf]

/-- The code lengths of a full tree with at least one merge fill the code space, whatever the order in which its symbols
are listed (43_code_table_gen.md R242 (c)). -/
theorem State.CodesAre.kraft {u : State} {sh : Shape} {syms : List Byte} (h : u.CodesAre sh.codes)
    (hperm : (sh.codes.map Prod.fst).Perm syms) (hok : CodesOk sh.codes) (hfull : sh.Full)
    (hroot : sh.isChildless = false) : (syms.map fun sym => 2 ^ (255 - (u.codeLenOf sym).toNat)).sum = 2 ^ 255 := by
  have hfits : ∀ c ∈ sh.codesAt [], c.2.length ≤ 255 := by
    rw [← Shape.codes_eq hroot]
    exact hok.2
  calc (syms.map fun sym => 2 ^ (255 - (u.codeLenOf sym).toNat)).sum
      = ((sh.codes.map Prod.fst).map fun sym => 2 ^ (255 - (u.codeLenOf sym).toNat)).sum :=
        (hperm.map _).sum_eq.symm
    _ = (sh.codes.map fun c => 2 ^ (255 - c.2.length)).sum := by
        rw [List.map_map]
        exact congrArg List.sum (List.map_congr_left fun c hc => by rw [Function.comp_apply, h.toNat_codeLen hc])
    _ = 2 ^ 255 := by
        rw [Shape.codes_eq hroot]
        exact hfull.kraft [] 255 hfits

/-- Settles O40: the leaves of the tree are the present symbols, their codes fit CODE, and with two symbols or more every
internal node has two children. -/
theorem builtTreeHasCodes : Obligations.BuiltTreeHasCodes := by
  intro s t ht hv
  obtain ⟨sh, u, hsh, rfl, hbuilt⟩ := treeBuilt_of_exec ht hv
  obtain ⟨hperm, hok, hmany, -⟩ := huffmanTree_codes hsh
  obtain ⟨w, hw, hframe, hcodes, -⟩ := ctGen u.completeOk sh hv hbuilt.holds hok
  refine ⟨w, hw, by rw [hframe], by rw [hframe], by rw [hframe], fun sym => ?_, fun h2 => ?_⟩
  · rw [hcodes.codeLen_ne_zero_iff, hperm.mem_iff, mem_presentSymbols]
  · obtain ⟨hfull, hroot⟩ := hmany h2
    exact hcodes.kraft hperm hok hfull hroot

end Sys2Proof.Machine
end

section
/-! SUPPORT. The commands of the huffman_encoder (spec/44_huffman_encoder.md R260 to R268): each completes one run of
AddBit calls over bits that the state determines. -/

namespace Sys2Proof.Machine

/-- Without room, a completed run of AddBit calls has added the bits before the flush that finds OBUF full
(40_bit_writer.md R150, 60_exceptions.md R327, R332). -/
theorem complete_addBits_of_not_hasRoom {bs : List Bool} {s : State} (hz : s.WriterTailZero)
    (hr : ¬ s.HasRoom bs.length) :
    ∃ t as, complete (addBits bs) s = .next t ∧ as <+: bs ∧ s.WroteBits t as ∧ t.bw.pos = 7 ∧
      s.obufSize ≤ t.bw.wrptr.toNat ∧
      t = { s with bw := t.bw, obuf := t.obuf, err := true, errCode := 0x12, phase := .idle } := by
  obtain ⟨t, as, ht, hpre, -, hw, -, hblk, hf⟩ := addBits_overflow bs hz hr
  obtain ⟨hpos, hfull⟩ := t.flushBlocked_iff.1 hblk
  have hsize : t.obufSize = s.obufSize := by
    rw [hf]
    rfl
  exact ⟨t.completeErr .resOutOverflow, as, complete_of_raised ht, hpre, hw, hpos, hsize ▸ hfull,
    congrArg (State.completeErr · .resOutOverflow) hf⟩

/-! ### The commands as runs of AddBit -/

theorem exec_encWriteHeader (s : State) : exec .encWriteHeader s =
    complete (addBits ((headerBytes s.params.headerOrder s.srcLen).flatMap byteBits)) s.recordOrig :=
  complete_congr (writeHeader_eq s.srcLen s.recordOrig)

theorem exec_encSerializeTree {s : State} {sh : Shape} (hv : s.treeValid = true) (h : s.HoldsTree sh) :
    exec .encSerializeTree s = complete (addBits sh.treeBits) s :=
  complete_congr ((Proc.bind_ok (requireTree_ok hv)).trans (serializeTree_eq h))

theorem exec_encEncodeSymbol {s : State} {sym : Byte} (hv : s.codesValid = true) (hl : s.codeLenOf sym ≠ 0) :
    exec (.encEncodeSymbol sym) s = complete (addBits (s.codeBitsList sym)) s :=
  complete_congr (encodeSymbol_eq hv hl)

theorem exec_encEncodeSymbol_noCode {s : State} {sym : Byte} (h : s.codesValid = false ∨ s.codeLenOf sym = 0) :
    exec (.encEncodeSymbol sym) s = .next (s.completeErr .argNoCode) :=
  complete_of_raised (encodeSymbol_noCode h)

/-! ### The statements -/

/-- Settles O44: with ORIG recorded, the command is a run over the 64 bits of the header bytes. -/
theorem encWriteHeader : Obligations.EncWriteHeader := by
  intro s bytes hz hbytes
  have hheader : bytes = headerBytes s.params.headerOrder s.srcLen := by
    rw [hbytes, headerBytes_eq]
    cases s.params.headerOrder <;> rfl
  have hlen : (bytes.flatMap byteBits).length = 64 := by
    rw [hheader, length_flatMap_byteBits, length_headerBytes]
  have hz' : s.recordOrig.WriterTailZero := hz
  rw [exec_encWriteHeader, ← hheader]
  exact ⟨fun hroom => complete_addBits_of_hasRoom hz' (hlen ▸ hroom),
    fun hfull => complete_addBits_of_not_hasRoom hz' (hlen ▸ hfull)⟩

/-- Settles O45: behind the check for a tree, the command is a run over the tree's 10N - 8 bits. -/
theorem encSerializeTree : Obligations.EncSerializeTree := by
  intro s sh hz hv h
  have hlen := Shape.length_treeBits h.ne_absent
  rw [exec_encSerializeTree hv h, ← hlen]
  exact ⟨rfl, complete_addBits_of_hasRoom hz, complete_addBits_of_not_hasRoom hz⟩

/-- Settles O46: the command refuses a symbol without a code, and is a run over the code's CODE_LEN bits otherwise. -/
theorem encEncodeSymbol : Obligations.EncEncodeSymbol := by
  intro sym s hz
  have hlen : (s.codeBitsList sym).length = (s.codeLenOf sym).toNat := length_codeOf _ _
  refine ⟨exec_encEncodeSymbol_noCode, fun hv hl hroom => ?_, fun hv hl hfull => ?_⟩ <;>
    rw [exec_encEncodeSymbol hv hl]
  · exact complete_addBits_of_hasRoom hz (hlen ▸ hroom)
  · exact complete_addBits_of_not_hasRoom hz (hlen ▸ hfull)

end Sys2Proof.Machine
end

section
/-! SUPPORT. The commands of the huffman_decoder (spec/45_huffman_decoder.md R290 to R299): each completes its procedure
behind the checks. -/

namespace Sys2Proof.Machine

/-! ### DEC_READ_HEADER -/

/-- Settles O49: ReadHeader reads back the eight header bytes, or consumes all the bits that are left. -/
theorem decReadHeader : Obligations.DecReadHeader := by
  intro s hs
  refine ⟨fun hlong => ?_, fun hshort => ?_⟩
  · obtain ⟨v, t, ht, hbits, hadv, hf⟩ := readHeader_ok hlong
    have hrun : exec .decReadHeader s = .next (t.setOrig v).completeOk :=
      complete_of_ok ((Proc.bind_ok (checkSrc_ok hs)).trans (Proc.bind_ok ht))
    exact ⟨_, hrun, hadv.readOn, hbits, congrArg (fun u => (u.setOrig v).completeOk) hf⟩
  · obtain ⟨t, ht, hadv, hf⟩ := readHeader_short hshort
    have hrun : exec .decReadHeader s = .next (t.completeErr .fmtTruncated) :=
      complete_of_raised ((Proc.bind_ok (checkSrc_ok hs)).trans (Proc.bind_error ht))
    exact ⟨_, hrun, hadv.readOn, congrArg (State.completeErr · .fmtTruncated) hf⟩

/-! ### DEC_DESERIALIZE_TREE -/

/-- The rebuilt arena does not depend on the root's symbol, which serialization leaves out (45_huffman_decoder.md
R292). -/
theorem State.Rebuilt.of_withRootZero_eq {s t : State} {sh sh' : Shape} (h : s.Rebuilt t sh')
    (hroot : sh.withRootZero = sh'.withRootZero) (hsize : sh.size = sh'.size) : s.Rebuilt t sh := by
  obtain ⟨hholds, hpre, hplain, hothers⟩ := h
  rw [← hroot] at hholds hpre
  rw [← hsize] at hpre hplain hothers
  exact ⟨hholds, hpre, hplain, hothers⟩

/-- DeserializeTree on a stream that begins with a tree of at most 512 nodes: of the three outcomes the two failures
cannot be, and the tree read back is that one but for the root's symbol (45_huffman_decoder.md R293, R294). -/
theorem deserializeTree_ok {s : State} {sh : Shape} {rest : List Bool} (hne : sh ≠ .absent) (hsize : sh.size ≤ 512)
    (hbits : s.unread = sh.treeBits ++ rest) :
    ∃ t, deserializeTree s = .ok () t ∧ s.Advanced t (10 * sh.size - 8) ∧ s.Rebuilt t sh ∧
      t = { s with
        treeValid := true, codesValid := false, root := 0, nodeCount := BitVec.ofNat 10 sh.size, nodes := t.nodes
        br := t.br } := by
  rcases deserializeTree_outcome s with ⟨t, sh', rest', ht, hne', hd⟩ | ⟨-, -, -, -, -, hnone⟩ | ⟨-, -, -, -, hbig⟩
  · obtain ⟨hroot, hsz, -⟩ := Shape.treeBits_unique hne hne' (hbits.symm.trans hd.bits)
    refine ⟨t, ht, hsz ▸ hd.advanced, (hd.rebuilt hne').of_withRootZero_eq hroot hsz, ?_⟩
    rw [hsz, ← hd.nodeCount_eq]
    exact hd.frame
  · exact absurd hbits (hnone sh rest hne)
  · exact absurd (hbig sh rest hbits hne) (Nat.not_lt.2 hsize)

/-- Settles O50: a successful DeserializeTree behind CheckSrc. -/
theorem decDeserializeTree : Obligations.DecDeserializeTree := by
  intro s sh rest hs hne hsize hbits
  obtain ⟨t, ht, hadv, hbuilt, hf⟩ := deserializeTree_ok hne hsize hbits
  have hrun : exec .decDeserializeTree s = .next t.completeOk :=
    complete_of_ok ((Proc.bind_ok (checkSrc_ok hs)).trans ht)
  exact ⟨_, hrun, hadv.readOn, congrArg State.completeOk hf, hbuilt.congr rfl rfl rfl rfl⟩

/-! ### DEC_DECODE_SYMBOL -/

section
variable {s u : State}

/-- The command behind its two checks, when DecodeSymbol returns a symbol (45_huffman_decoder.md R298). -/
theorem exec_decDecodeSymbol_of_ok {sym : Byte} (hs : s.srcLen.toNat ≤ s.ibufSize) (hv : s.treeValid = true)
    (h : decodeSymbol s = .ok sym u) : exec .decDecodeSymbol s = .next (u.setResult sym).completeOk :=
  complete_of_ok ((Proc.bind_ok (checkSrc_ok hs)).trans ((Proc.bind_ok (requireTree_ok hv)).trans (Proc.bind_ok h)))

/-- The same, when DecodeSymbol raises an error. -/
theorem exec_decDecodeSymbol_of_raised {e : ErrCode} (hs : s.srcLen.toNat ≤ s.ibufSize) (hv : s.treeValid = true)
    (h : decodeSymbol s = .error (.raised e) u) : exec .decDecodeSymbol s = .next (u.completeErr e) :=
  complete_of_raised
    ((Proc.bind_ok (checkSrc_ok hs)).trans ((Proc.bind_ok (requireTree_ok hv)).trans (Proc.bind_error h)))

end

/-- Settles O52: a childless root is refused, and otherwise the command ends as the walk down the tree does. -/
theorem decDecodeSymbol : Obligations.DecDecodeSymbol := by
  intro s sh hs hv h
  refine ⟨fun hc => exec_decDecodeSymbol_of_raised hs hv (decodeSymbol_empty h hc), fun hc => ?_⟩
  obtain ⟨u, hf, hw⟩ := decodeSymbol_eq h hc
  cases hwalk : sh.walkDown s.unread 0 with
  | symbol sym used =>
    rw [hwalk] at hw
    obtain ⟨hdec, hadv⟩ := hw
    exact ⟨_, exec_decDecodeSymbol_of_ok hs hv hdec, hadv.readOn,
      congrArg (fun u => (u.setResult sym).completeOk) hf⟩
  | absentChild used =>
    rw [hwalk] at hw
    obtain ⟨hdec, hadv⟩ := hw
    exact ⟨_, exec_decDecodeSymbol_of_raised hs hv hdec, hadv.readOn,
      congrArg (State.completeErr · .fmtAbsentChild) hf⟩
  | truncated used =>
    rw [hwalk] at hw
    obtain ⟨hdec, hadv, -⟩ := hw
    exact ⟨_, exec_decDecodeSymbol_of_raised hs hv hdec, hadv.readOn,
      congrArg (State.completeErr · .fmtTruncated) hf⟩

/-- Settles O53: a symbol's entry in a valid code table is its path in the tree, which DecodeSymbol walks. -/
theorem decodeInvertsEncode : Obligations.DecodeInvertsEncode := by
  intro s sym hs hinv hcv hlen ⟨rest, hrest⟩
  obtain ⟨hv, sh, hholds, hcodes⟩ := hinv hcv
  have hmem : (sym, s.codeBitsList sym) ∈ sh.codes := (hcodes sym _).2 ⟨hlen, rfl⟩
  obtain ⟨u, hdec, hadv, hf⟩ := decodeSymbol_code hholds hmem hrest.symm
  rw [State.codeBitsList, length_codeOf] at hadv
  exact ⟨_, exec_decDecodeSymbol_of_ok hs hv hdec, hadv.readOn, congrArg (fun u => (u.setResult sym).completeOk) hf⟩

end Sys2Proof.Machine
end

section
/-! SUPPORT. Compressing and then decompressing (spec/45_huffman_decoder.md R301, R302): what a successful ENC_COMPRESS
leaves in OBUF is an archive that DEC_DECOMPRESS reads back. -/

namespace Sys2Proof.Machine

/-! ### What a successful ENC_COMPRESS leaves -/

/-- `t` has the archive of `s`'s input, with the tree `sh`, in OBUF, and reports its sizes (44_huffman_encoder.md
R270). -/
structure Archived (s t : State) (sh : Shape) : Prop where
  tree : huffmanTree (countsOf (s.ibufBytes 0 s.srcLen.toNat)) = some sh
  ne : sh ≠ .absent
  size : sh.size ≤ 512
  output : t.obufBytes 0 (frontBytes s sh ++ payloadBytes s sh).length = frontBytes s sh ++ payloadBytes s sh
  wrptr : t.bw.wrptr.toNat = (frontBytes s sh ++ payloadBytes s sh).length
  orig : t.orig = s.srcLen
  metaSize : t.metaSize = BitVec.ofNat 64 (frontBytes s sh).length
  payload : t.payload = BitVec.ofNat 64 (payloadBytes s sh).length

/-- ENC_COMPRESS of a source that does not lie in IBUF fails (41_bit_reader.md R183). -/
theorem exec_encCompress_of_srcLen {s : State} (h : s.ibufSize < s.srcLen.toNat) :
    exec .encCompress s = .next (s.completeErr .resSrcRange) :=
  complete_of_raised (Proc.bind_error (checkSrc_bad h))

/-- ENC_COMPRESS without an error is the case of an archive that fits (44_huffman_encoder.md R270, R271). -/
theorem archived_of_exec {s t : State} (ht : exec .encCompress s = .next t) (herr : t.err = false) :
    ∃ sh, Archived s t sh := by
  have hs : s.srcLen.toNat ≤ s.ibufSize := by
    by_contra hbad
    obtain rfl := Host.Outcome.next.inj (ht.symm.trans (exec_encCompress_of_srcLen (Nat.not_le.1 hbad)))
    exact absurd herr nofun
  have hfit : (archiveOf s.params.headerOrder (s.ibufBytes 0 s.srcLen.toNat)).length ≤ s.obufSize := by
    by_contra hfull
    obtain ⟨t', _, _, _, ht', -, -, -, hf, -⟩ := encCompressOverflow s _ _ hs rfl rfl (Nat.not_le.1 hfull)
    obtain rfl := Host.Outcome.next.inj (ht.symm.trans ht')
    rw [hf] at herr
    exact absurd herr nofun
  obtain ⟨t', sh, ht', hsh, hf, hholds, hcount, -, -, -, -, hout, -, hmeta, -, hbw, hlen⟩ :=
    encCompress s _ _ hs rfl rfl hfit
  obtain rfl := Host.Outcome.next.inj (ht.symm.trans ht')
  rw [archiveOf_eq hsh] at hout hlen hfit
  have hne := hholds.ne_absent
  obtain ⟨-, hcap, -⟩ := hholds
  rw [← length_frontBytes s hne] at hmeta
  have hpay : t.payload.toNat = (payloadBytes s sh).length := by
    rw [List.length_append] at hlen
    omega
  have hlt : s.obufSize < 2 ^ 32 := s.params.obufSize.isLt
  refine ⟨sh, hsh, hne, hcount ▸ hcap, hout, ?_, by rw [hf], ?_, ?_⟩
  · rw [hbw, BitVec.toNat_add, ← hlen, Nat.mod_eq_of_lt (by omega)]
  · rw [← hmeta, BitVec.ofNat_toNat, BitVec.setWidth_eq]
  · rw [← hpay, BitVec.ofNat_toNat, BitVec.setWidth_eq]

/-! ### The copy -/

/-- IBUF[0 .. m + n - 1] in two parts. -/
theorem State.ibufBytes_add (s : State) (m n : Nat) : s.ibufBytes 0 (m + n) = s.ibufBytes 0 m ++ s.ibufBytes m n := by
  simp [State.ibufBytes, List.range_add]

/-- An IBUF to which the first bytes of OBUF were copied begins with them. -/
theorem State.ibufBytes_of_copied {t s' : State} {l : List Byte} {n : Nat} (hout : t.obufBytes 0 l.length = l)
    (hcopy : ∀ a < l.length, s'.ibufByte a = t.obufByte a) (hn : l.length ≤ n) :
    ∃ trailing, s'.ibufBytes 0 n = l ++ trailing := by
  obtain ⟨k, rfl⟩ := Nat.exists_eq_add_of_le hn
  refine ⟨s'.ibufBytes l.length k, ?_⟩
  have hfirst : s'.ibufBytes 0 l.length = l := Eq.trans (List.map_congr_left fun a ha => by
    rw [Nat.zero_add]
    exact hcopy a (List.mem_range.1 ha)) hout
  rw [State.ibufBytes_add, hfirst]

/-! ### Reading it back -/

/-- Every symbol of the input has a code in the archive's tree. -/
theorem Archived.code_exists {s t : State} {sh : Shape} (h : Archived s t sh) :
    ∀ x ∈ s.ibufBytes 0 s.srcLen.toNat, ∃ p, (x, p) ∈ sh.codes := fun x hx => by
  obtain ⟨⟨_, p⟩, hp, rfl⟩ := List.mem_map.1 (mem_codes_of_mem s.length_source_lt h.tree hx)
  exact ⟨p, hp⟩

/-- Settles O56: the archive with what follows it in IBUF is one that DEC_DECOMPRESS succeeds on. -/
theorem roundTrip : Obligations.RoundTrip := by
  intro s t s' ht herr horder hs' hlong hroom hcopy
  obtain ⟨sh, hA⟩ := archived_of_exec ht herr
  obtain ⟨xs, hxs⟩ : ∃ xs, s.ibufBytes 0 s.srcLen.toNat = xs := ⟨_, rfl⟩
  have hcount : BitVec.ofNat 64 xs.length = s.srcLen := by
    rw [← hxs, State.length_ibufBytes, BitVec.ofNat_toNat, BitVec.setWidth_eq]
  have hlen : xs.length = s.srcLen.toNat := by rw [← hxs, State.length_ibufBytes]
  rw [hA.wrptr] at hlong hcopy
  obtain ⟨trailing, hbytes⟩ := State.ibufBytes_of_copied hA.output hcopy hlong
  have hsource : s'.ibufBytes 0 s'.srcLen.toNat = headerBytes s'.params.headerOrder (BitVec.ofNat 64 xs.length) ++
      (packBits sh.treeBits ++ (payloadBytes s sh ++ trailing)) := by
    rw [hbytes, hcount, horder]
    simp only [frontBytes, List.append_assoc]
  have hcodes := hA.code_exists
  rw [hxs] at hcodes
  obtain ⟨u, hu, hf, hU⟩ := decDecompress s' sh xs _ _ _ _ _ hs' hsource (packBits_bits _)
    (by rw [List.length_replicate]; omega) rfl
    (by rw [List.flatMap_append, packBits_bits, hxs, List.append_assoc]) hA.ne hA.size hcodes (hlen ▸ hroom)
  refine ⟨u, hu, by rw [hf], by rw [hf], ?_, ?_, ?_, ?_, ?_⟩
  · rw [hxs, ← hlen]
    exact hU.output
  · have hbw : u.bw = writerAfter xs.length := by rw [hf]
    rw [hbw, ← hcount]
    rfl
  · rw [hA.orig, ← hcount, hf]
  · rw [hA.payload, payloadBytes, hxs, length_packBits, hf]
  · rw [hA.metaSize, frontBytes, List.length_append, length_headerBytes, hf]

end Sys2Proof.Machine
end

section
/-! SUPPORT. How the pseudocode of each command can stop early (spec/60_exceptions.md R324, R330, R346): the errors that
each procedure raises, that none but CT_GEN's walk runs on for ever (log 11), and what the start checks and CT_GEN's own
errors leave. -/

namespace Sys2Proof.Machine

/-! ### Ways to stop early -/

namespace Proc
variable {α β : Type} {A : Abort → Prop}

/-- If `p` stops early from `s`, then in a way that `A` allows. -/
def StopsBy (A : Abort → Prop) (p : Proc α) (s : State) : Prop := ∀ x t, p s = .error x t → A x

theorem StopsBy.of_ok {p : Proc α} {s t : State} {a : α} (h : p s = .ok a t) : StopsBy A p s := by
  intro x u hu
  rw [h] at hu
  cases hu

theorem StopsBy.of_error {p : Proc α} {s t : State} {x : Abort} (h : p s = .error x t) (hx : A x) :
    StopsBy A p s := by
  intro y u hu
  rw [h] at hu
  cases hu
  exact hx

theorem StopsBy.congr {p q : Proc α} {s t : State} (h : StopsBy A q t) (e : p s = q t) : StopsBy A p s :=
  fun x u hu => h x u (e ▸ hu)

theorem StopsBy.bind {p : Proc α} {f : α → Proc β} {s : State} (hp : StopsBy A p s)
    (hf : ∀ a t, p s = .ok a t → StopsBy A (f a) t) : StopsBy A (p >>= f) s := by
  intro x u hu
  rcases bind_cases hu with ⟨a, t, ha, hr⟩ | ⟨y, t, hy, hr⟩
  · exact hf a t ha x u hr
  · cases hr
    exact hp _ _ hy

theorem StopsBy.ite {c : Prop} [Decidable c] {p q : Proc α} {s : State} (hp : StopsBy A p s) (hq : StopsBy A q s) :
    StopsBy A (if c then p else q) s := by
  split_ifs <;> assumption

theorem StopsBy.pure (a : α) (s : State) : StopsBy A (Pure.pure a : Proc α) s := .of_ok rfl

theorem StopsBy.look (f : State → α) (s : State) : StopsBy A (Proc.look f) s := .of_ok rfl

theorem StopsBy.change (f : State → State) (s : State) : StopsBy A (Proc.change f) s := .of_ok rfl

theorem StopsBy.raise {e : ErrCode} (h : A (.raised e)) (s : State) : StopsBy A (Proc.raise e : Proc α) s :=
  .of_error rfl h

end Proc

section
variable {A : Abort → Prop}

/-! ### The checks -/

theorem checkSrc_stopsBy (h : A (.raised .resSrcRange)) (s : State) : Proc.StopsBy A checkSrc s := by
  by_cases hs : s.srcLen.toNat ≤ s.ibufSize
  · exact .of_ok (checkSrc_ok hs)
  · exact .of_error (checkSrc_bad (Nat.lt_of_not_le hs)) h

theorem requireTree_stopsBy (h : A (.raised .argNoTree)) (s : State) : Proc.StopsBy A requireTree s := by
  cases hv : s.treeValid with
  | true => exact .of_ok (requireTree_ok hv)
  | false => exact .of_error (requireTree_bad hv) h

theorem checkNotEmpty_stopsBy (h : A (.raised .fmtEmptyTree)) (s : State) : Proc.StopsBy A checkNotEmpty s := by
  intro x t ht
  unfold checkNotEmpty at ht
  split_ifs at ht
  cases ht
  exact h

/-! ### bit_writer and huffman_encoder -/

/-- A run of AddBit calls, and so everything that is one, stops by RES_OUT_OVERFLOW alone (60_exceptions.md R332). -/
theorem addBits_stopsBy (h : A (.raised .resOutOverflow)) (bs : List Bool) (s : State) :
    Proc.StopsBy A (addBits bs) s := by
  intro x t ht
  have hf := addBits_frame bs s
  rw [ht] at hf
  exact hf.1 ▸ h

theorem addBit_stopsBy (h : A (.raised .resOutOverflow)) (b : Bool) (s : State) : Proc.StopsBy A (addBit b) s :=
  (addBits_stopsBy h [b] s).congr (addBits_singleton b s)

theorem encodeSymbol_stopsBy (hc : A (.raised .argNoCode)) (ho : A (.raised .resOutOverflow)) (sym : Byte) (s : State) :
    Proc.StopsBy A (encodeSymbol sym) s := by
  intro x t ht
  unfold encodeSymbol at ht
  split_ifs at ht
  · cases ht
    exact hc
  · exact addBits_stopsBy ho _ s x t ht

theorem addBit_room {b : Bool} {s t : State} (h : addBit b s = .ok () t) : t.room + 1 = s.room :=
  addBits_room (bs := [b]) ((addBits_singleton b s).symm.trans h)

/-- AddBit never makes room. -/
theorem addBit_keeps_room (n : Nat) (b : Bool) : Proc.Keeps (fun u : State => u.room ≤ n) (addBit b) := by
  refine .of_leaves fun s hs => ?_
  cases hr : addBit b s with
  | ok _ t =>
    have := addBit_room hr
    exact .of_ok hr (by omega)
  | error x t =>
    refine .of_error hr ?_
    rw [addBit_apply] at hr
    split_ifs at hr
    cases hr
    exact hs

theorem serSide_keeps_room (n fuel : Nat) (present : Bool) (i : NodeIdx) :
    Proc.Keeps (fun u : State => u.room ≤ n) (serSide (serNode fuel) present i) :=
  .ite (.bind (addBit_keeps_room n true) fun _ => .bind (.look _) fun _ =>
    .bind (addBits_keeps_of (addBit_keeps_room n) _) fun _ => serNode_keeps_of (addBit_keeps_room n) fuel i)
    (addBit_keeps_room n false)

/-- SerNode over any arena ends: every nested call has used up room in OBUF before (log 11). -/
theorem serNode_stopsBy (h : A (.raised .resOutOverflow)) (fuel : Nat) :
    ∀ (i : NodeIdx) (s : State), s.room < fuel → Proc.StopsBy A (serNode fuel i) s := by
  induction fuel with
  | zero => exact fun _ _ hs => absurd hs (Nat.not_lt_zero _)
  | succ fuel ih =>
    have side : ∀ (present : Bool) (i : NodeIdx) (s : State), s.room < fuel + 1 →
        Proc.StopsBy A (serSide (serNode fuel) present i) s := by
      intro present i s hs
      refine .ite (.bind (addBit_stopsBy h _ _) fun _ t ht => .bind (.look _ _) fun c u hu =>
        .bind (addBits_stopsBy h _ _) fun _ v hv => ih i v ?_) (addBit_stopsBy h _ _)
      cases hu
      have := addBit_room ht
      have := addBits_room hv
      omega
    intro i s hs
    refine .bind (.look _ _) fun n t ht => .bind (side _ _ t ?_) fun _ u hu => side _ _ u ?_ <;> cases ht
    · exact hs
    · have := (serSide_keeps_room s.room fuel _ _).of_ok (le_refl s.room) hu
      omega

theorem State.room_lt_serFuel (s : State) : s.room < s.serFuel := by
  unfold State.room State.serFuel
  omega

theorem serializeTree_stopsBy (h : A (.raised .resOutOverflow)) (s : State) : Proc.StopsBy A serializeTree s :=
  .bind (.look _ _) fun fuel t ht => .bind (.look _ _) fun root u hu => by
    cases ht
    cases hu
    exact serNode_stopsBy h _ _ s s.room_lt_serFuel

/-! ### bit_reader and huffman_decoder -/

theorem getBit_stopsBy (h : A (.raised .fmtTruncated)) (s : State) : Proc.StopsBy A getBit s := by
  rcases getBit_cases s with ⟨-, hg⟩ | ⟨b, bs, -, hg, -⟩
  · exact .of_error hg h
  · exact .of_ok hg

theorem readChar_stopsBy (h : A (.raised .fmtTruncated)) (s : State) : Proc.StopsBy A readChar s := by
  rcases Nat.lt_or_ge s.unread.length 8 with hs | hs
  · obtain ⟨t, ht, -⟩ := readChar_short hs
    exact .of_error ht h
  · obtain ⟨v, t, ht, -⟩ := readChar_ok hs
    exact .of_ok ht

theorem headerLoop_stopsBy (h : A (.raised .fmtTruncated)) (order : HeaderOrder) (n j : Nat) (v : DWord) (s : State) :
    Proc.StopsBy A (headerLoop order n j v) s := by
  induction n generalizing j v s with
  | zero => exact .pure _ _
  | succ n ih => exact .bind (readChar_stopsBy h s) fun _ t _ => ih _ _ t

theorem readHeader_stopsBy (h : A (.raised .fmtTruncated)) (s : State) : Proc.StopsBy A readHeader s :=
  headerLoop_stopsBy h _ _ _ _ s

/-- DecodeSymbol's loop over any arena ends: every turn reads a bit (log 11). -/
theorem decodeLoop_stopsBy (ht : A (.raised .fmtTruncated)) (hc : A (.raised .fmtAbsentChild)) (fuel : Nat) :
    ∀ (i : NodeIdx) (s : State), s.unread.length < fuel → Proc.StopsBy A (decodeLoop fuel i) s := by
  induction fuel with
  | zero => exact fun _ _ hs => absurd hs (Nat.not_lt_zero _)
  | succ fuel ih =>
    refine fun i s hs => .bind (.look _ _) fun nd t hl => .ite (.pure _ _)
      (.bind (getBit_stopsBy ht _) fun b u hb => .ite (ih _ u ?_) (.raise hc _))
    cases hl
    rcases getBit_cases s with ⟨-, hg⟩ | ⟨b', bs, hu, hg, hn, -⟩
    · rw [hg] at hb
      cases hb
    · rw [hg] at hb
      cases hb
      rw [hu, List.length_cons] at hs
      rw [hn]
      omega

theorem decodeSymbol_stopsBy (he : A (.raised .fmtEmptyTree)) (ht : A (.raised .fmtTruncated))
    (hc : A (.raised .fmtAbsentChild)) (s : State) : Proc.StopsBy A decodeSymbol s := by
  refine .bind (.look _ _) fun root t hr => .bind (.look _ _) fun nd u hn => .ite (.raise he _)
    (.bind (.look _ _) fun fuel v hf => decodeLoop_stopsBy ht hc fuel _ v ?_)
  cases hr
  cases hn
  cases hf
  exact s.unread_lt_decodeFuel

theorem decompressLoop_stopsBy (he : A (.raised .fmtEmptyTree)) (ht : A (.raised .fmtTruncated))
    (hc : A (.raised .fmtAbsentChild)) (ho : A (.raised .resOutOverflow)) (n : Nat) (s : State) :
    Proc.StopsBy A (decompressLoop n) s := by
  induction n generalizing s with
  | zero => exact .pure _ _
  | succ n ih =>
    exact .bind (decodeSymbol_stopsBy he ht hc s) fun _ t _ => .bind (addBits_stopsBy ho _ t) fun _ u _ => ih u

theorem deserializeTree_stopsBy (ht : A (.raised .fmtTruncated)) (ha : A (.raised .allocNodes)) (s : State) :
    Proc.StopsBy A deserializeTree s := by
  rcases deserializeTree_outcome s with ⟨t, sh, rest, h, -⟩ | ⟨t, h, -⟩ | ⟨t, h, -⟩
  · exact .of_ok h
  · exact .of_error h ht
  · exact .of_error h ha

/-! ### tree_builder and code_table_gen -/

theorem buildTree_stopsBy (h : A (.raised .argFreqOverflow)) (s : State) : Proc.StopsBy A buildTree s := by
  have hb := buildTree_eq s
  split at hb
  · obtain ⟨t, ht, -⟩ := hb
    exact .of_ok ht
  · obtain ⟨t, ht, -⟩ := hb
    exact .of_error ht h

theorem tbAdopt_stopsBy (h : A (.raised .argBadTree)) (s : State) : Proc.StopsBy A (procOf .tbAdopt) s := by
  by_cases hs : s.ArenaIsTree
  · exact .of_ok (tbAdopt_of_tree hs)
  · exact .of_error (tbAdopt_of_not_tree hs) h

theorem recordLeaf_stopsBy (hl : A (.raised .argCodeTooLong)) (hd : A (.raised .argDupSymbol)) (sym : Byte)
    (p : List Bool) (s : State) : Proc.StopsBy A (recordLeaf sym p) s := by
  intro x t ht
  unfold recordLeaf at ht
  split_ifs at ht <;> cases ht
  · exact hl
  · exact hd

/-- Walk over any arena: it may run on for ever (log 11). -/
theorem codeWalk_stopsBy (hl : A (.raised .argCodeTooLong)) (hd : A (.raised .argDupSymbol)) (hr : A .diverged)
    (fuel : Nat) : ∀ (i : NodeIdx) (p : List Bool) (s : State), Proc.StopsBy A (codeWalk fuel i p) s := by
  induction fuel with
  | zero => exact fun _ _ _ => .of_error rfl hr
  | succ fuel ih =>
    have side : ∀ present i p s, Proc.StopsBy A (walkSide (codeWalk fuel) present i p) s :=
      fun _ i p s => .ite (ih i p s) (.pure _ _)
    exact fun i p s => .bind (.look _ _) fun _ _ _ => .ite (recordLeaf_stopsBy hl hd _ _ _)
      (.bind (side _ _ _ _) fun _ _ _ => side _ _ _ _)

theorem genCodes_stopsBy (hl : A (.raised .argCodeTooLong)) (hd : A (.raised .argDupSymbol)) (hr : A .diverged)
    (s : State) : Proc.StopsBy A genCodes s :=
  .bind (.change _ _) fun _ _ _ => .bind (.look _ _) fun _ _ _ => .bind (.look _ _) fun _ _ _ =>
    .ite (.change _ _) (.bind (codeWalk_stopsBy hl hd hr _ _ _ _) fun _ _ _ => .change _ _)

/-- GenCodes over a tree ends (10_state.md R39; log 11). -/
theorem genCodes_ends {s : State} {sh : Shape} (h : s.HoldsTree sh) : Proc.StopsBy (· ≠ .diverged) genCodes s := by
  rcases codesOk_or_first_bad sh.codes with hok | ⟨pre, sym, p, post, hc, hok, hbad⟩
  · obtain ⟨u, hu, -⟩ := genCodes_ok h hok
    exact .of_ok hu
  · obtain ⟨u, hu, -⟩ := genCodes_bad h hc hok hbad
    exact .of_error hu nofun

/-! ### The two whole sequences -/

theorem compress_stopsBy (hs : A (.raised .resSrcRange)) (ho : A (.raised .resOutOverflow)) (s : State) :
    Proc.StopsBy A compress s := by
  by_cases hlen : s.srcLen.toNat ≤ s.ibufSize
  · obtain ⟨sh, u, -, -, he⟩ := compress_eq hlen
    have hw : Proc.StopsBy A (writeArchive
        (headerBytes s.params.headerOrder s.srcLen ++ packBits sh.treeBits)
        (packBits ((s.ibufBytes 0 s.srcLen.toNat).flatMap (codeFor sh.codes)))) u :=
      .bind (addBits_stopsBy ho _ _) fun _ _ _ => .bind (.change _ _) fun _ _ _ =>
        .bind (addBits_stopsBy ho _ _) fun _ _ _ => .change _ _
    exact hw.congr he
  · exact .of_error (Proc.bind_error (checkSrc_bad (Nat.lt_of_not_le hlen))) hs

theorem decompress_stopsBy (hs : A (.raised .resSrcRange)) (ht : A (.raised .fmtTruncated))
    (ha : A (.raised .allocNodes)) (he : A (.raised .fmtEmptyTree)) (hc : A (.raised .fmtAbsentChild))
    (ho : A (.raised .resOutOverflow)) (s : State) : Proc.StopsBy A decompress s :=
  .bind (checkSrc_stopsBy hs _) fun _ _ _ => .bind (.change _ _) fun _ _ _ =>
    .bind (readHeader_stopsBy ht _) fun _ _ _ => .bind (.change _ _) fun _ _ _ =>
    .bind (deserializeTree_stopsBy ht ha _) fun _ _ _ => .bind (.change _ _) fun _ _ _ =>
    .bind (.change _ _) fun _ _ _ => .bind (checkNotEmpty_stopsBy he _) fun _ _ _ =>
    .bind (decompressLoop_stopsBy he ht hc ho _ _) fun _ _ _ => .change _ _

end

/-! ### The commands -/

/-- How a command may stop early: by an error that the table gives it (60_exceptions.md R330), and CT_GEN also by a walk
that never ends (log 11). -/
abbrev MayStopBy (i : Instr) : Abort → Prop
  | .raised e => e.code ∈ i.errorCodes
  | .diverged => i = .ctGen

/-- The errors of each command, said once (60_exceptions.md R330): each `by decide` looks a code up in its table. -/
theorem procOf_stopsBy (s : State) : ∀ i, Proc.StopsBy (MayStopBy i) (procOf i) s
  | .bwInit | .bwResetCounts | .brInit | .brAlign | .brResetCounts => .change _ _
  | .bwAddBit _ => addBit_stopsBy (by simp [MayStopBy, Instr.errorCodes, ErrCode.code]) _ _
  | .bwWriteChar _ => addBits_stopsBy (by simp [MayStopBy, Instr.errorCodes, ErrCode.code]) _ _
  | .bwPad => (addBits_stopsBy (by decide) _ _).congr (pad_eq s)
  | .brGetBit => .bind (checkSrc_stopsBy (by decide) _) fun _ _ _ => .bind (getBit_stopsBy (by decide) _) fun _ _ _ =>
      .change _ _
  | .brReadChar => .bind (checkSrc_stopsBy (by decide) _) fun _ _ _ =>
      .bind (readChar_stopsBy (by decide) _) fun _ _ _ => .change _ _
  | .tbCount => .bind (checkSrc_stopsBy (by decide) _) fun _ _ _ => .change _ _
  | .tbBuild => buildTree_stopsBy (by decide) _
  | .tbAdopt => tbAdopt_stopsBy (by decide) _
  | .ctGen => .bind (requireTree_stopsBy (by decide) _) fun _ _ _ => genCodes_stopsBy (by decide) (by decide) (by rfl) _
  | .encWriteHeader => .bind (.change _ _) fun _ _ _ => .bind (.look _ _) fun _ _ _ =>
      (addBits_stopsBy (by decide) _ _).congr (writeHeader_eq _ _)
  | .encSerializeTree => .bind (requireTree_stopsBy (by decide) _) fun _ _ _ => serializeTree_stopsBy (by decide) _
  | .encEncodeSymbol _ => encodeSymbol_stopsBy (by simp [MayStopBy, Instr.errorCodes, ErrCode.code])
      (by simp [MayStopBy, Instr.errorCodes, ErrCode.code]) _ _
  | .encCompress => compress_stopsBy (by decide) (by decide) _
  | .decReadHeader => .bind (checkSrc_stopsBy (by decide) _) fun _ _ _ =>
      .bind (readHeader_stopsBy (by decide) _) fun _ _ _ => .change _ _
  | .decDeserializeTree => .bind (checkSrc_stopsBy (by decide) _) fun _ _ _ =>
      deserializeTree_stopsBy (by decide) (by decide) _
  | .decDecodeSymbol => .bind (checkSrc_stopsBy (by decide) _) fun _ _ _ =>
      .bind (requireTree_stopsBy (by decide) _) fun _ _ _ =>
      .bind (decodeSymbol_stopsBy (by decide) (by decide) (by decide) _) fun _ _ _ => .change _ _
  | .decDecompress => decompress_stopsBy (by decide) (by decide) (by decide) (by decide) (by decide) (by decide) _

theorem ctGen_ends {s : State} (h : s.TreeInv) : Proc.StopsBy (· ≠ .diverged) (procOf .ctGen) s := by
  cases hv : s.treeValid with
  | false => exact .of_error (ctGen_of_invalid hv) nofun
  | true =>
    obtain ⟨sh, hsh⟩ := h hv
    exact (genCodes_ends hsh).congr (ctGen_of_valid hv)

/-- While TREE_VALID stands over a tree, the pseudocode of every command ends (60_exceptions.md R324). -/
theorem procOf_ends {s : State} (h : s.TreeInv) (i : Instr) : Proc.StopsBy (· ≠ .diverged) (procOf i) s := by
  rintro x t ht rfl
  obtain rfl : i = .ctGen := procOf_stopsBy s i _ t ht
  exact ctGen_ends h _ t ht rfl

theorem exec_next_of_treeInv {s : State} (h : s.TreeInv) (i : Instr) : ∃ t, exec i s = .next t := by
  rw [exec_eq]
  rcases complete_cases (rfl : complete (procOf i) s = _) with ⟨t, -, ht⟩ | ⟨e, t, -, ht⟩ | ⟨t, ht, -⟩
  · exact ⟨_, ht⟩
  · exact ⟨_, ht⟩
  · exact absurd rfl (procOf_ends h i _ t ht)

/-- Settles O8: the only fault is CT_GEN's, and over a tree its walk ends. -/
theorem everyStepGoesOn : Obligations.EveryStepGoesOn := by
  intro s h
  rcases step_cases (rfl : step s = _) with ⟨i, -, -, -, he⟩ | ⟨-, -, -, he⟩ | ⟨-, -, he⟩ | ⟨-, he⟩
  · obtain ⟨t, ht⟩ := exec_next_of_treeInv h i
    exact ⟨t, he.symm.trans ht⟩
  · exact ⟨_, he⟩
  · exact ⟨_, he⟩
  · exact ⟨_, he⟩

/-- No command's pseudocode writes DONE, ERR or ERR_CODE: only its completion does (60_exceptions.md R322, R323). -/
theorem procOf_keeps_report (i : Instr) (d e : Bool) (c : Byte) :
    Proc.Keeps (fun u => u.done = d ∧ u.err = e ∧ u.errCode = c) (procOf i) :=
  (Overlooks.of_all i (fun _ _ _ h => h) (fun _ _ h => h) (fun _ _ _ _ _ _ h => h) (fun _ _ _ h => h)
    (fun _ _ _ _ h => h) (fun _ _ h => h) (fun _ _ h => h) fun _ _ _ _ h => h).keeps

/-- Settles O25: the completion writes DONE alone, or ERR and the code of what the pseudocode raised. -/
theorem errorsOfEachCommand : Obligations.ErrorsOfEachCommand := by
  intro i s t h hd he hc
  rw [exec_eq] at h
  have hk := procOf_keeps_report i false false 0
  rcases complete_next h with ⟨u, hu, rfl⟩ | ⟨e, u, hu, rfl⟩
  · obtain ⟨-, herr, hcode⟩ := hk.of_ok ⟨hd, he, hc⟩ hu
    exact .inl ⟨rfl, herr, hcode⟩
  · obtain ⟨hdone, -, -⟩ := hk.of_error ⟨hd, he, hc⟩ hu
    exact .inr ⟨hdone, rfl, procOf_stopsBy s i _ u hu⟩

/-! ### The start checks -/

theorem exec_of_raised {i : Instr} {s t : State} {e : ErrCode} (h : procOf i s = .error (.raised e) t) :
    exec i s = .next (t.completeErr e) :=
  (exec_eq i s).trans (complete_of_raised h)

/-- The commands that begin with CheckSrc (60_exceptions.md R331). -/
def checkedCommands : List Instr :=
  [.tbCount, .brGetBit, .brReadChar, .encCompress, .decReadHeader, .decDeserializeTree, .decDecodeSymbol,
    .decDecompress]

theorem procOf_of_srcRange {i : Instr} (hi : i ∈ checkedCommands) {s : State} (h : s.ibufSize < s.srcLen.toNat) :
    procOf i s = .error (.raised .resSrcRange) s := by
  have hc := checkSrc_bad h
  simp only [checkedCommands, List.mem_cons, List.not_mem_nil, or_false] at hi
  rcases hi with rfl | rfl | rfl | rfl | rfl | rfl | rfl | rfl <;> exact Proc.bind_error hc

/-- Settles O26: a check that fails at the start raises before anything has changed. -/
theorem startChecks : Obligations.StartChecks := by
  refine ⟨fun i s h hi => exec_of_raised (procOf_of_srcRange hi h), fun s hv => ⟨?_, ?_, fun hlen => ?_⟩⟩
  · exact exec_of_raised (ctGen_of_invalid hv)
  · exact exec_of_raised (i := .encSerializeTree) (Proc.bind_error (requireTree_bad hv))
  · exact exec_of_raised (i := .decDecodeSymbol)
      ((Proc.bind_ok (checkSrc_ok hlen)).trans (Proc.bind_error (requireTree_bad hv)))

/-! ### CT_GEN's errors -/

/-- Settles O43: Walk records the leaves before the first that is too deep or repeats a symbol, and raises there. -/
theorem ctGenFails : Obligations.CtGenFails := by
  intro s sh pre post sym p hv hh hc hok hbad
  obtain ⟨u, hu, hcodes, -, hf⟩ := genCodes_bad hh hc hok hbad
  have hcode : (if 255 < p.length then ErrCode.argCodeTooLong else .argDupSymbol).code =
      if Config.codeMaxLen < p.length then 0x46 else 0x45 := apply_ite ErrCode.code _ _ _
  refine ⟨_, exec_of_raised ((ctGen_of_valid hv).trans hu), ?_, hcodes⟩
  rw [← hcode]
  exact congrArg (State.completeErr · _) hf

end Sys2Proof.Machine
end

section
/-! SUPPORT. The life cycle of a command (spec/60_exceptions.md R320 to R325, 20_memory.md R87): acceptance, the wait,
in which the host's accesses have no effect but on CMD_OVR, and the completion. -/

namespace Sys2Proof.Machine

/-! ### Steps of a running command -/

theorem step_of_decoded {s : State} {i : Instr} (hp : s.phase = .running) (hd : s.delay = 0)
    (h : decode s.cmdLatch = .ok i) : step s = exec i s := by
  unfold step State.latched
  rw [hp, hd, h]

theorem step_of_waiting {s : State} {d : Nat} (hp : s.phase = .running) (hd : s.delay = d + 1) :
    step s = .next { s with delay := d }.serveHost := by
  unfold step State.waitStep
  rw [hp, hd]
  rfl

/-- Settles O4: the branches of a step, by PHASE and delay. -/
theorem stepRunsDecodedCommand : Obligations.StepRunsDecodedCommand :=
  ⟨fun _ _ => step_of_decoded, fun _ _ => step_of_waiting, fun _ => step_of_idle⟩

/-- Settles O5: the idle core's arm of a host write of CMD is the acceptance. -/
theorem commandAccepted : Obligations.CommandAccepted := fun _ w hs => State.writes_cmd hs w

/-! ### The host's accesses during the wait -/

theorem alignedAddr_eq_true {a : Word} (h : a.toNat % 4 = 0) : alignedAddr a = true := beq_iff_eq.2 h

theorem State.busy_eq_true {s : State} (h : s.phase = .running) : s.busy = true := beq_iff_eq.2 h

section
variable {s : State} {a : Word}

theorem State.hostWrite_cmd_running (hs : s.phase = .running) (w : Word) :
    s.hostWrite 0 w = s.refuseCommand.respond (.writeAck false) := by
  unfold State.hostWrite
  rw [State.busy_eq_true hs]
  rfl

theorem State.hostWrite_running (hs : s.phase = .running) (h4 : a.toNat % 4 = 0) (h0 : a ≠ 0) (w : Word) :
    s.hostWrite a w = s.respond (.writeAck false) := by
  unfold State.hostWrite
  rw [alignedAddr_eq_true h4, State.busy_eq_true hs, if_neg h0]
  rfl

/-- STATUS is readable at any time (20_memory.md R87). -/
theorem State.hostRead_status (s : State) : s.hostRead 4 = s.respond (.readData false s.statusWord) := by
  unfold State.hostRead
  rw [show s.readWord 4 = s.statusWord from rfl, bne_self_eq_false, Bool.and_false]
  rfl

theorem State.hostRead_running (hs : s.phase = .running) (h4 : a.toNat % 4 = 0) (h : a ≠ 4) :
    s.hostRead a = { s with draws := s.draws + 1 }.respond (.readData false (Config.busyRead s.draws)) := by
  unfold State.hostRead
  rw [alignedAddr_eq_true h4, State.busy_eq_true hs, bne_iff_ne.2 h]
  rfl

end

/-- Settles O6: one step of the wait takes one off the delay and serves the access, each by its own arm. -/
theorem hostAccessWhileBusy : Obligations.HostAccessWhileBusy := by
  intro s d q hp hd
  have hwait (x : HostAction) : step { s with hostQueue := x :: q } =
      .next (State.act { s with hostQueue := q, delay := d } x) :=
    step_of_waiting (s := { s with hostQueue := x :: q }) hp hd
  have hrun : State.phase { s with hostQueue := q, delay := d } = .running := hp
  refine ⟨fun w => ?_, fun a w h4 h0 => ?_, ?_, fun a h4 h => ?_⟩
  · exact (hwait _).trans (congrArg _ (State.hostWrite_cmd_running hrun w))
  · exact (hwait _).trans (congrArg _ (State.hostWrite_running hrun h4 h0 w))
  · exact (hwait _).trans (congrArg _ (State.hostRead_status _))
  · exact (hwait _).trans (congrArg _ (State.hostRead_running hrun h4 h))

@[simp] theorem State.act_read (s : State) (a : Word) : s.act (.read a) = s.hostRead a := rfl

@[simp] theorem State.act_write (s : State) (a w : Word) : s.act (.write a w) = s.hostWrite a w := rfl

/-- Whatever the host does while a command runs, if the platform does not reset the core, the command runs on
(60_exceptions.md R321). -/
theorem State.act_running {s : State} (hs : s.phase = .running) {x : HostAction} (hx : x ≠ .reset) :
    s.act x = { s with cmdOvr := (s.act x).cmdOvr, draws := (s.act x).draws, busResp := (s.act x).busResp } := by
  cases x with
  | wait => rfl
  | read a =>
    rw [State.act_read]
    unfold State.hostRead
    split_ifs <;> rfl
  | write a w =>
    rw [State.act_write]
    by_cases h4 : a.toNat % 4 = 0
    · by_cases h0 : a = 0
      · rw [h0, State.hostWrite_cmd_running hs]
        rfl
      · rw [State.hostWrite_running hs h4 h0]
        rfl
    · rw [State.hostWrite_misaligned h4]
      rfl
  | reset => exact absurd rfl hx

theorem State.serveHost_running {s : State} (hs : s.phase = .running) (hq : s.hostQueue.head? ≠ some .reset) :
    s.serveHost.phase = .running ∧ s.serveHost.delay = s.delay ∧ s.serveHost.hostQueue = s.hostQueue.tail := by
  unfold State.serveHost
  split
  case h_1 h => exact ⟨hs, rfl, by rw [h]; rfl⟩
  case h_2 x q h =>
    rw [h] at hq ⊢
    rw [State.act_running (s := { s with hostQueue := q }) hs (fun hx => hq (congrArg some hx))]
    exact ⟨hs, rfl, rfl⟩

/-! ### The completion -/

/-- A command whose latency has elapsed completes, with exactly one of DONE and ERR (60_exceptions.md R322, R323). -/
theorem step_completes {s : State} (hp : s.phase = .running) (hd : s.delay = 0) (hst : s.StatusInv)
    (htree : s.TreeInv) : ∃ t, step s = .next t ∧ t.phase = .idle ∧ t.done = !t.err := by
  obtain ⟨hdone, herr, hcode⟩ := hst.whileBusy hp
  rcases step_cases (rfl : step s = _) with ⟨i, -, -, -, he⟩ | ⟨-, -, -, he⟩ | ⟨-, hne, -⟩ | ⟨hi, -⟩
  · obtain ⟨t, ht⟩ := exec_next_of_treeInv htree i
    refine ⟨t, he.symm.trans ht, complete_phase (exec_eq i s ▸ ht), ?_⟩
    rcases errorsOfEachCommand i s t ht hdone herr hcode with ⟨h1, h2, -⟩ | ⟨h1, h2, -⟩ <;> rw [h1, h2] <;> rfl
  · exact ⟨_, he, rfl, hdone⟩
  · exact absurd hd hne
  · rw [hp] at hi
    cases hi

theorem core_run_succ {n : Nat} {s t : State} (h : step s = .next t) : core.run (n + 1) s = core.run n t := by
  have hs : core.step s = .next t := h
  simp only [Host.Core.run, hs]

/-- Settles O7, by induction on the delay: each step of the wait keeps the invariants and leaves the command running. -/
theorem everyCommandCompletes : Obligations.EveryCommandCompletes := by
  intro n
  induction n with
  | zero =>
    intro s hp hd hst htree _
    obtain ⟨t, ht, hend⟩ := step_completes hp hd hst htree
    exact ⟨t, core_run_succ ht, hend⟩
  | succ n ih =>
    intro s hp hd hst htree hq
    have hstep := step_of_waiting hp hd
    have hhead : s.hostQueue.head? ≠ some .reset := fun h => hq (by
      obtain ⟨q, hs⟩ := List.head?_eq_some_iff.1 h
      rw [hs]
      exact List.mem_cons_self)
    obtain ⟨hp', hd', hq'⟩ := State.serveHost_running (s := { s with delay := n }) hp hhead
    obtain ⟨t, ht, hend⟩ := ih _ hp' hd' (statusInvariant s _ hst hstep) (treeInvariant s _ htree hstep) (by
      rw [hq']
      refine fun hm => hq ?_
      change _ ∈ s.hostQueue.tail.take n at hm
      cases hs : s.hostQueue with
      | nil => rw [hs] at hm; simp at hm
      | cons x q => rw [hs] at hm; exact List.mem_cons_of_mem x hm)
    exact ⟨t, (core_run_succ hstep).trans ht, hend⟩

end Sys2Proof.Machine
end

section
/-! SUPPORT. The platform's reset (spec/70_reset_and_hazards.md R360, R361): what the three tables hold after it, and
the step that serves it. -/

namespace Sys2Proof.Machine

/-! ### The state after reset -/

@[simp] theorem freqOf_resetAs (p : Params) (e : Nat) (sym : Byte) : freqOf (State.resetAs p e).freq sym = 0 :=
  freqOf_replicate sym

/-- Reset leaves the code table as `clearCodes` does, so its laws speak of both. -/
theorem clearCodes_resetAs (p : Params) (e : Nat) : (State.resetAs p e).clearCodes = State.resetAs p e := rfl

@[simp] theorem codeLenOf_resetAs (p : Params) (e : Nat) (sym : Byte) : (State.resetAs p e).codeLenOf sym = 0 := by
  rw [← clearCodes_resetAs, State.codeLenOf_clearCodes]

@[simp] theorem codeBitsOf_resetAs (p : Params) (e : Nat) (sym : Byte) : (State.resetAs p e).codeBitsOf sym = 0 := by
  rw [← clearCodes_resetAs, State.codeBitsOf_clearCodes]

/-- Settles O14: the registers stand in `resetAs` as in R360, the three tables by their laws. -/
theorem resetState : Obligations.ResetState := by
  rintro p e s rfl
  have htables (sym : Byte) : freqOf (State.resetAs p e).freq sym = 0 ∧ (State.resetAs p e).codeLenOf sym = 0 ∧
      (State.resetAs p e).codeBitsOf sym = 0 :=
    ⟨freqOf_resetAs p e sym, codeLenOf_resetAs p e sym, codeBitsOf_resetAs p e sym⟩
  exact ⟨State.busy_eq_false rfl, rfl, rfl, rfl, rfl, rfl, rfl, rfl, rfl, rfl, rfl, rfl, rfl, rfl, rfl, rfl, rfl, rfl, rfl,
    rfl, rfl, rfl, rfl, rfl, rfl, rfl, rfl, htables⟩

/-! ### The step that serves a reset -/

theorem State.serveHost_reset {s : State} {q : List HostAction} (hq : s.hostQueue = .reset :: q) :
    s.serveHost = { s with hostQueue := q }.platformReset := by
  unfold State.serveHost
  rw [hq]
  rfl

/-- A reset that comes next is served, unless the running command completes in this step. The command's
PHASE and delay are lost with it. -/
theorem step_of_reset {s : State} {q : List HostAction} (h : s.phase = .idle ∨ s.delay ≠ 0)
    (hq : s.hostQueue = .reset :: q) : step s = .next { s with hostQueue := q }.platformReset := by
  cases hp : s.phase with
  | idle =>
    rw [step_of_idle hp, State.serveHost_reset hq]
    rfl
  | running =>
    have hne : s.delay ≠ 0 := h.resolve_left (by rw [hp]; exact Phase.noConfusion)
    obtain ⟨d, hd⟩ := Nat.exists_eq_succ_of_ne_zero hne
    rw [step_of_waiting hp hd, State.serveHost_reset (s := { s with delay := d }) hq]
    rfl

/-- Settles O15: the step serves the reset, and the platform's reset is `resetAs` but for the model's own fields. -/
theorem platformReset : Obligations.PlatformReset := fun s q h =>
  step_of_reset (s := { s with hostQueue := .reset :: q }) h rfl

end Sys2Proof.Machine
end
